-- ==== Sys2Proof/Word.lean ====
section
/-! DEFINITION. The word types of the device and its plainest arithmetic (spec/00_scope.md R1, R4). -/

namespace Sys2Proof

/-- A byte of memory. -/
abbrev Byte := BitVec 8

/-- A register name's value (R50). -/
abbrev Word := BitVec 32

/-- An aligned pair of names, an address, a program counter (R50, R206). -/
abbrev DWord := BitVec 64

end Sys2Proof
end

