-- ==== Sys2Proof/Config.lean ====
section
/-! DEFINITION. What an implementation fixes and the spec leaves open: free values, which nothing
in the model evaluates, and named constants (assumption log 4, 5, 6, 8). -/

namespace Sys2Proof.Config

/-- A byte the spec leaves open: a layout that is the device's own (R112, R354), a byte read from a
scale-out peer (R366). Applied to `State.fresh`. Assumption log 8. -/
opaque freeByte : Nat → Byte

/-- A word the spec leaves open (assumption log 8): `b1` after a chain instruction whose result is
not one 32-bit value or predicate (R83). Applied to `State.fresh`. -/
opaque freeWord : Nat → Word

/-- LOC as a steward core reads it and its trap records give it: R165 lays it out for the cores of a C-die only
(assumption log 8). Applied to the model's number of the core. -/
opaque stewardLocWord : Nat → Word

/-- The public key that a KEYSLOT of the device names, a point of P-521, or none (R15, R108): the spec gives no key
(assumption log 93). -/
opaque fwKey : (keySlot : Nat) → Option (Nat × Nat)

/-- The heater code that main ring `ring` needs for a wavelength other than its own at the temperature of bring-up: R380
gives none (assumption log 23). -/
opaque foreignNeed : (ring wavelength : Nat) → Nat

/-- Frames of HBM a die has (R204, R212). -/
def framesPerDie : Nat := 786432

/-- Frames of the control window, the highest of the die's HBM (R367). -/
def cwFrames : Nat := 32

/-- First frame number of die `d` (R367 FTFIRST). The spec gives no value: assumption log 5. -/
def ftFirst (d : Nat) : Nat := d * framesPerDie

/-- Bytes of one frame and one page (R206). -/
def frameBytes : Nat := 131072

/-- The firmware's fields of region 0 (R384): assumption log 6. -/
def rgn0Handler : DWord := 0
/-- See `rgn0Handler`. -/
def rgn0OvfBase : DWord := 0
/-- See `rgn0Handler`. -/
def rgn0OvfSize : Nat := 0
/-- See `rgn0Handler`. -/
def rgn0Quota : DWord := 0

end Sys2Proof.Config
end

