-- ==== Sys2Proof/Machine/Flags.lean ====
section
/-! DEFINITION. The floating-point flags (R55), and rounding an exact rational to a binary format
(R52 to R54, R132): every flag computation of a rounded result is here. Values are exact rationals
`num / den` of naturals with a sign. -/

namespace Sys2Proof.Machine

/-- FPX bits: 4 NV, 3 DZ, 2 OF, 1 UF, 0 NX (R55). -/
abbrev Fpx := BitVec 5

/-- Invalid operation. -/
def flNV : Fpx := 16
/-- Division by zero. -/
def flDZ : Fpx := 8
/-- Overflow. -/
def flOF : Fpx := 4
/-- Underflow. -/
def flUF : Fpx := 2
/-- Inexact. -/
def flNX : Fpx := 1

/-- A flag under a condition. -/
def flag (c : Bool) (f : Fpx) : Fpx := if c then f else 0

/-- Rounding modes (R53). -/
inductive RMode where
  | rne | rtz | rdn | rup
  deriving DecidableEq, Repr

/-- The mode of an F field (R53). -/
def RMode.ofCode (c : BitVec 2) : RMode :=
  match c.toNat with
  | 0 => .rne
  | 1 => .rtz
  | 2 => .rdn
  | _ => .rup

/-- A binary format (R52): exponent and fraction bits. -/
structure Fmt where
  ebits : Nat
  fbits : Nat
  deriving DecidableEq, Repr

/-- binary64 (R52). -/
def fmt64b : Fmt := ⟨11, 52⟩
/-- binary32 (R52). -/
def fmt32b : Fmt := ⟨8, 23⟩
/-- binary16 (R52). -/
def fmt16b : Fmt := ⟨5, 10⟩
/-- bfloat16 (R52). -/
def fmtBf16 : Fmt := ⟨8, 7⟩

/-- Exponent bias. -/
def Fmt.bias (f : Fmt) : Nat := 2 ^ (f.ebits - 1) - 1
/-- Smallest exponent of a normal number. -/
def Fmt.emin (f : Fmt) : Int := 1 - (f.bias : Int)
/-- Bits of ∞ without the sign. -/
def Fmt.infBits (f : Fmt) : Nat := (2 ^ f.ebits - 1) * 2 ^ f.fbits
/-- The sign bit. -/
def Fmt.signBit (f : Fmt) : Nat := 2 ^ (f.ebits + f.fbits)
/-- Canonical quiet NaN (R52). -/
def Fmt.qnan (f : Fmt) : Nat := f.infBits + 2 ^ (f.fbits - 1)
/-- A magnitude with a sign. -/
def Fmt.signed (f : Fmt) (neg : Bool) (mag : Nat) : Nat := if neg then f.signBit + mag else mag

/-- A number read from a format: NaN (signalling or not), ±∞, or (−1)^neg × m × 2^e. -/
inductive FVal where
  | nan (signalling : Bool)
  | inf (neg : Bool)
  | num (neg : Bool) (m : Nat) (e : Int)
  deriving DecidableEq, Repr

/-- Read the bits of a format. -/
def Fmt.read (f : Fmt) (bits : Nat) : FVal :=
  let neg := bits / f.signBit % 2 == 1
  let ex := bits / 2 ^ f.fbits % 2 ^ f.ebits
  let fr := bits % 2 ^ f.fbits
  if ex == 2 ^ f.ebits - 1 then
    if fr == 0 then .inf neg else .nan (fr / 2 ^ (f.fbits - 1) == 0)
  else if ex == 0 then .num neg fr (f.emin - f.fbits)
  else .num neg (2 ^ f.fbits + fr) ((ex : Int) - f.bias - f.fbits)

/-- A result's bits and flags. -/
abbrev Res := Nat × Fpx

/-- Whether rounding moves the quotient `q` with remainder `r` of `d` away from zero (R53). -/
def roundsUp (m : RMode) (neg : Bool) (q r d : Nat) : Bool :=
  match m with
  | .rne => 2 * r > d || (2 * r == d && q % 2 == 1)
  | .rtz => false
  | .rdn => neg && r != 0
  | .rup => !neg && r != 0

/-- `n / d` rounded to an integer magnitude, and whether it is inexact. -/
def roundDiv (m : RMode) (neg : Bool) (n d : Nat) : Nat × Bool :=
  let q := n / d
  let r := n % d
  (if roundsUp m neg q r d then q + 1 else q, r != 0)

/-- `n / d × 2^k` as a quotient of naturals. -/
def scale2 (n d : Nat) (k : Int) : Nat × Nat :=
  if 0 ≤ k then (n * 2 ^ k.toNat, d) else (n, d * 2 ^ (-k).toNat)

/-- floor(log2 (n / d)) for positive `n` and `d`. -/
def log2Rat (n d : Nat) : Int :=
  let l : Int := (n.log2 : Int) - d.log2
  let (a, b) := scale2 n d (-l)
  if a < b then l - 1 else l

/-- round_to (R132): the exact `(−1)^neg × n / d`, `n` and `d` positive, in format `f`. Tininess is
detected after rounding; overflow gives ∞ or the largest finite value by the mode. -/
def roundTo (f : Fmt) (m : RMode) (neg : Bool) (n d : Nat) : Res :=
  let e := log2Rat n d
  let (un, ud) := scale2 n d (f.fbits - e)
  let (uq, _) := roundDiv m neg un ud
  let ue := if uq == 2 ^ (f.fbits + 1) then e + 1 else e
  if ue > f.bias then
    let toInf := match m with
      | .rne => true
      | .rtz => false
      | .rdn => neg
      | .rup => !neg
    (f.signed neg (if toInf then f.infBits else f.infBits - 1), flOF ||| flNX)
  else if e ≥ f.emin then
    let mag := (e - f.emin + 1).toNat * 2 ^ f.fbits + (uq - 2 ^ f.fbits)
    (f.signed neg mag, flag (un % ud != 0) flNX)
  else
    let (sn, sd) := scale2 n d (f.fbits - f.emin)
    let (q, nx) := roundDiv m neg sn sd
    (f.signed neg q, flag nx flNX ||| flag (nx && ue < f.emin) flUF)

/-- The dyadic `(−1)^neg × m × 2^e` in format `f`; zero keeps its sign. -/
def roundDyadic (f : Fmt) (md : RMode) (neg : Bool) (m : Nat) (e : Int) : Res :=
  if m == 0 then (f.signed neg 0, 0)
  else let (n, d) := scale2 m 1 e; roundTo f md neg n d

/-- Integer of a sign and a magnitude. -/
def sInt (neg : Bool) (m : Nat) : Int := if neg then -(m : Int) else m

/-- Sum of two dyadics, exact, rounded; a zero sum of operands with opposite signs is −0 under RDN
and +0 otherwise (R54). -/
def addDyadic (f : Fmt) (md : RMode) (na : Bool) (ma : Nat) (ea : Int) (nb : Bool) (mb : Nat)
    (eb : Int) : Res :=
  let e := min ea eb
  let s := sInt na (ma * 2 ^ (ea - e).toNat) + sInt nb (mb * 2 ^ (eb - e).toNat)
  if s == 0 then
    (f.signed (if na == nb then na else md == .rdn) 0, 0)
  else roundDyadic f md (s < 0) s.natAbs e

/-- A signalling NaN. -/
def FVal.isSnan : FVal → Bool
  | .nan s => s
  | _ => false

/-- Any NaN. -/
def FVal.isNan : FVal → Bool
  | .nan _ => true
  | _ => false

/-- ±∞. -/
def FVal.isInf : FVal → Bool
  | .inf _ => true
  | _ => false

/-- ±0. -/
def FVal.isZero : FVal → Bool
  | .num _ m _ => m == 0
  | _ => false

/-- Sign of a number or ∞. -/
def FVal.neg : FVal → Bool
  | .nan _ => false
  | .inf n => n
  | .num n _ _ => n

/-- The value with its sign changed. -/
def FVal.negate : FVal → FVal
  | .nan s => .nan s
  | .inf n => .inf (!n)
  | .num n m e => .num (!n) m e

/-- a + b (R133). -/
def fAddV (f : Fmt) (md : RMode) (a b : FVal) : Res :=
  match a, b with
  | .nan s, y => (f.qnan, flag (s || y.isSnan) flNV)
  | _, .nan s => (f.qnan, flag s flNV)
  | .inf x, .inf y => if x == y then (f.signed x f.infBits, 0) else (f.qnan, flNV)
  | .inf x, _ => (f.signed x f.infBits, 0)
  | _, .inf y => (f.signed y f.infBits, 0)
  | .num na ma ea, .num nb mb eb => addDyadic f md na ma ea nb mb eb

/-- 0 × ∞ (R133). -/
def zeroTimesInf (a b : FVal) : Bool := (a.isZero && b.isInf) || (a.isInf && b.isZero)

/-- a × b (R133). -/
def fMulV (f : Fmt) (md : RMode) (a b : FVal) : Res :=
  if a.isNan || b.isNan then (f.qnan, flag (a.isSnan || b.isSnan) flNV)
  else if zeroTimesInf a b then (f.qnan, flNV)
  else match a, b with
    | .num na ma ea, .num nb mb eb => roundDyadic f md (na != nb) (ma * mb) (ea + eb)
    | a, b => (f.signed (a.neg != b.neg) f.infBits, 0)

/-- a × b + d with one rounding (R133). 0 × ∞ raises NV whatever d holds, a NaN included. -/
def fFmaV (f : Fmt) (md : RMode) (a b d : FVal) : Res :=
  if a.isNan || b.isNan || d.isNan then
    (f.qnan, flag (a.isSnan || b.isSnan || d.isSnan || zeroTimesInf a b) flNV)
  else if zeroTimesInf a b then (f.qnan, flNV)
  else match a, b, d with
    | .num na ma ea, .num nb mb eb, .num nd mdd ed =>
      addDyadic f md (na != nb) (ma * mb) (ea + eb) nd mdd ed
    | .num _ _ _, .num _ _ _, d => (f.signed d.neg f.infBits, 0)
    | a, b, d =>
      let p := a.neg != b.neg
      if d.isInf && d.neg != p then (f.qnan, flNV) else (f.signed p f.infBits, 0)

/-- a < b for numbers and ∞; −0 equals +0. -/
def FVal.lt (a b : FVal) : Bool :=
  match a, b with
  | .nan _, _ | _, .nan _ => false
  | .inf x, .inf y => x && !y
  | .inf x, _ => x
  | _, .inf y => !y
  | .num na ma ea, .num nb mb eb =>
    let e := min ea eb
    decide (sInt na (ma * 2 ^ (ea - e).toNat) < sInt nb (mb * 2 ^ (eb - e).toNat))

/-- a = b for numbers and ∞; −0 equals +0. -/
def FVal.eqv (a b : FVal) : Bool := !a.isNan && !b.isNan && !a.lt b && !b.lt a

/-- minimumNumber or maximumNumber (R54, R134): −0 is below +0, one NaN gives the other operand. -/
def fMinMax (f : Fmt) (wantMax : Bool) (a b : Nat) : Res :=
  let va := f.read a
  let vb := f.read b
  let fl := flag (va.isSnan || vb.isSnan) flNV
  if va.isNan && vb.isNan then (f.qnan, fl)
  else if va.isNan then (b, fl)
  else if vb.isNan then (a, fl)
  else
    let aLess := va.lt vb || (!vb.lt va && va.neg && !vb.neg)
    (if aLess == wantMax then b else a, fl)

/-- The condition of `fcmp` (R88, R135). -/
def fCond (c : BitVec 4) (a b : FVal) : Bool × Fpx :=
  let nan := a.isNan || b.isNan
  let snan := flag (a.isSnan || b.isSnan) flNV
  let any := flag nan flNV
  match c.toNat with
  | 0 => (a.eqv b, snan)
  | 1 => (!a.eqv b, snan)
  | 2 => (a.lt b, any)
  | 3 => (a.lt b || a.eqv b, any)
  | 4 => (b.lt a, any)
  | 5 => (b.lt a || a.eqv b, any)
  | 6 => (nan, snan)
  | _ => (!nan, snan)

/-- Integer square root by bits from `k` down, `r` the root so far. -/
def isqrtGo (n : Nat) : Nat → Nat → Nat
  | 0, r => r
  | k + 1, r => isqrtGo n k (if (r + 2 ^ k) * (r + 2 ^ k) ≤ n then r + 2 ^ k else r)

/-- floor(√n). -/
def isqrt (n : Nat) : Nat := isqrtGo n (n.log2 / 2 + 1) 0

/-- √(n / d) as a rational that rounds to any format of R52 as the exact root does: exact when the
root has 128 bits or fewer, else odd in its last bit. -/
def sqrtRat (n d : Nat) : Nat × Nat :=
  let k := 128 + d.log2 + 64
  let v := n * 2 ^ (2 * k)
  let s := isqrt (v / d)
  if s * s * d == v then (s, 2 ^ k) else (2 * s + 1, 2 ^ (k + 1))

/-- Fixed-point bits of the transcendental functions. -/
def fixP : Nat := 320

/-- Σ 1 / (k 2^k), k = 1 to `n`, in units of 2^−fixP. -/
def ln2Go : Nat → Nat
  | 0 => 0
  | n + 1 => ln2Go n + 2 ^ fixP / ((n + 1) * 2 ^ (n + 1))

/-- ln 2 in units of 2^−fixP. -/
def ln2Fix : Nat := ln2Go 330

/-- Σ y^k / k! from term `t` of index `k` on. -/
def expGo (y : Nat) : Nat → Nat → Nat → Nat
  | 0, _, _ => 0
  | fuel + 1, k, t => t + expGo y fuel (k + 1) (t * y / 2 ^ fixP / (k + 1))

/-- 2^f for a fraction `f` in units of 2^−fixP, in the same units. -/
def exp2Fix (f : Nat) : Nat := expGo (f * ln2Fix / 2 ^ fixP) 90 0 (2 ^ fixP)

/-- Σ z^(2k+1) / (2k+1). -/
def atanhGo (z2 : Nat) : Nat → Nat → Nat → Nat
  | 0, _, _ => 0
  | fuel + 1, k, t => t / (2 * k + 1) + atanhGo z2 fuel (k + 1) (t * z2 / 2 ^ fixP)

/-- log2 (m / d) for 1 ≤ m / d < 2, in units of 2^−fixP. -/
def log2Fix (m d : Nat) : Nat :=
  let z := (m - d) * 2 ^ fixP / (m + d)
  2 * atanhGo (z * z / 2 ^ fixP) 110 0 z * 2 ^ fixP / ln2Fix

/-- The unary functions of R136. -/
inductive FUn where
  | rcp | rsq | sqrt | exp2 | log2
  deriving DecidableEq, Repr

/-- 2^a of a finite non-zero `a` (R136). Beyond ±2^12 the result over- or underflows in any mode. -/
def fExp2 (f : Fmt) (md : RMode) (neg : Bool) (m : Nat) (e : Int) : Res :=
  let (n, d) := scale2 m 1 e
  if n / d ≥ 4096 then
    (if neg then roundTo f md false 1 (2 ^ 4096) else roundTo f md false (2 ^ 4096) 1)
  else
    let a : Int := sInt neg n
    let i := a.fdiv d
    let fr := (a - i * d).toNat
    if fr == 0 then let (p, q) := scale2 1 1 i; roundTo f md false p q
    else
      let v := 2 * exp2Fix (fr * 2 ^ fixP / d) + 1
      let (p, q) := scale2 v (2 ^ (fixP + 1)) i
      roundTo f md false p q

/-- log2 a of a finite positive `a` (R136). -/
def fLog2 (f : Fmt) (md : RMode) (m : Nat) (e : Int) : Res :=
  let (n, d) := scale2 m 1 e
  let l := log2Rat n d
  let (p, q) := scale2 n d (-l)
  if p == q then
    if l == 0 then (0, 0) else roundTo f md (l < 0) l.natAbs 1
  else
    let v : Int := 2 * (l * 2 ^ fixP + log2Fix p q) + 1
    roundTo f md (v < 0) v.natAbs (2 ^ (fixP + 1))

/-- f(a) of R136 with its special operands. -/
def fUnary (u : FUn) (f : Fmt) (md : RMode) (a : FVal) : Res :=
  match a with
  | .nan s => (f.qnan, flag s flNV)
  | .inf neg =>
    match u with
    | .rcp => (f.signed neg 0, 0)
    | .rsq => if neg then (f.qnan, flNV) else (0, 0)
    | .sqrt | .log2 => if neg then (f.qnan, flNV) else (f.infBits, 0)
    | .exp2 => if neg then (0, 0) else (f.infBits, 0)
  | .num neg m e =>
    if m == 0 then
      match u with
      | .rcp | .rsq => (f.signed neg f.infBits, flDZ)
      | .sqrt => (f.signed neg 0, 0)
      | .exp2 => roundTo f md false 1 1
      | .log2 => (f.signed true f.infBits, flDZ)
    else
      match u with
      | .rcp => let (n, d) := scale2 m 1 e; roundTo f md neg d n
      | .exp2 => fExp2 f md neg m e
      | .rsq | .sqrt | .log2 =>
        if neg then (f.qnan, flNV)
        else
          let (n, d) := scale2 m 1 e
          match u with
          | .sqrt => let (p, q) := sqrtRat n d; roundTo f md false p q
          | .rsq => let (p, q) := sqrtRat d n; roundTo f md false p q
          | _ => fLog2 f md m e

end Sys2Proof.Machine
end

