-- ==== Sys2Proof/Syntax.lean ====
section
/-! DEFINITION. The instruction set Gostin 1 and the device's events, one constructor per row of
spec/opcode_table.json. Rows with a word encoding are instructions (R73 to R94); rows without one
are the events of spec/95_what_each_step_holds.md, which `State.agenda` brings about.

A field structure holds the fields of one word format and nothing else. A name field is the raw
7-bit code of R79; which codes a form allows is `Instr.wellFormed`. `x` is the payload of the
extension word of R80, zero when neither A nor B names `x`. -/

namespace Sys2Proof

/-- A name field (R79). -/
abbrev Name := BitVec 7

/-- Lane-set primary word with D, A, B, H, N (R76). -/
structure L3 where
  d : Name
  a : Name
  b : Name
  h : Bool
  n : Bool
  x : BitVec 28
  deriving DecidableEq, Repr, Inhabited

/-- `L3` with a rounding mode in F (R53). -/
structure L3R where
  d : Name
  a : Name
  b : Name
  r : BitVec 2
  h : Bool
  n : Bool
  x : BitVec 28
  deriving DecidableEq, Repr, Inhabited

/-- Unary lane form, B = 120 (R92). -/
structure L2 where
  d : Name
  a : Name
  h : Bool
  n : Bool
  deriving DecidableEq, Repr, Inhabited

/-- `L2` with a rounding mode in F. -/
structure L2R where
  d : Name
  a : Name
  r : BitVec 2
  h : Bool
  n : Bool
  deriving DecidableEq, Repr, Inhabited

/-- `mov` (R126): unary, and A may be `x`. -/
structure LMov where
  d : Name
  a : Name
  h : Bool
  n : Bool
  x : BitVec 28
  deriving DecidableEq, Repr, Inhabited

/-- `movx` with one extension word (R126). -/
structure LMovx where
  d : Name
  h : Bool
  n : Bool
  imm : BitVec 28
  deriving DecidableEq, Repr, Inhabited

/-- `movx.w` with two extension words (R80, R126). -/
structure LMovxW where
  d : Name
  h : Bool
  n : Bool
  imm : Word
  deriving DecidableEq, Repr, Inhabited

/-- Three names and `x`, no H or N: the 64-bit lane forms (R127) and the group-set forms (R77). -/
structure N3 where
  d : Name
  a : Name
  b : Name
  x : BitVec 28
  deriving DecidableEq, Repr, Inhabited

/-- `N3` with a scale in F (R127). -/
structure N3S where
  d : Name
  a : Name
  b : Name
  s : BitVec 2
  x : BitVec 28
  deriving DecidableEq, Repr, Inhabited

/-- `N3` with a predicate in F (R128 `g.sel`). -/
structure N3P where
  d : Name
  a : Name
  b : Name
  p : BitVec 3
  x : BitVec 28
  deriving DecidableEq, Repr, Inhabited

/-- Three names with a rounding mode (R138). -/
structure N3R where
  d : Name
  a : Name
  b : Name
  r : BitVec 2
  deriving DecidableEq, Repr, Inhabited

/-- D and A only. -/
structure N2 where
  d : Name
  a : Name
  deriving DecidableEq, Repr, Inhabited

/-- D, A and `x` (`g.mov`). -/
structure N2X where
  d : Name
  a : Name
  x : BitVec 28
  deriving DecidableEq, Repr, Inhabited

/-- A and B only. -/
structure AB where
  a : Name
  b : Name
  deriving DecidableEq, Repr, Inhabited

/-- A, B and `x` (R185). -/
structure ABX where
  a : Name
  b : Name
  x : BitVec 28
  deriving DecidableEq, Repr, Inhabited

/-- D, A and B without `x`. -/
structure DAB where
  d : Name
  a : Name
  b : Name
  deriving DecidableEq, Repr, Inhabited

/-- Compare: predicate, condition, sources, H (R88). -/
structure LCmp where
  p : BitVec 3
  c : BitVec 4
  a : Name
  b : Name
  h : Bool
  x : BitVec 28
  deriving DecidableEq, Repr, Inhabited

/-- Group-set compare (R88, R128). -/
structure GCmp where
  p : BitVec 3
  c : BitVec 4
  a : Name
  b : Name
  x : BitVec 28
  deriving DecidableEq, Repr, Inhabited

/-- `sel` with two predicate bits in F (R124). -/
structure LSel where
  d : Name
  a : Name
  b : Name
  p : BitVec 2
  h : Bool
  n : Bool
  x : BitVec 28
  deriving DecidableEq, Repr, Inhabited

/-- `pand`, `por` (R125). -/
structure P3 where
  p : BitVec 3
  q : BitVec 3
  r : BitVec 3
  deriving DecidableEq, Repr, Inhabited

/-- `pnot`, `pmov` (R125). -/
structure P2 where
  p : BitVec 3
  q : BitVec 3
  deriving DecidableEq, Repr, Inhabited

/-- `vote.any`, `vote.all` (R144). -/
structure VoteP where
  p : BitVec 3
  q : BitVec 3
  h : Bool
  deriving DecidableEq, Repr, Inhabited

/-- `vote.ballot` (R144). -/
structure VoteB where
  d : Name
  q : BitVec 3
  h : Bool
  n : Bool
  deriving DecidableEq, Repr, Inhabited

/-- `cvt` with its C word (R86, R139). -/
structure CvtF where
  d : Name
  a : Name
  h : Bool
  n : Bool
  src : BitVec 4
  dst : BitVec 4
  rm : BitVec 2
  deriving DecidableEq, Repr, Inhabited

/-- `shfl` with its S word (R86, R143). -/
structure ShflF where
  d : Name
  a : Name
  b : Name
  h : Bool
  n : Bool
  fill : Name
  deriving DecidableEq, Repr, Inhabited

/-- `w.bind` (R148): walker K, A, B. -/
structure WBindF where
  k : BitVec 3
  a : Name
  b : Name
  deriving DecidableEq, Repr, Inhabited

/-- `w.skip` (R150). -/
structure WSkipF where
  k : BitVec 3
  a : Name
  deriving DecidableEq, Repr, Inhabited

/-- Branch form with predicate or walker, sense and cast policy (R78). -/
structure BrF where
  p : BitVec 3
  ps : Bool
  cp : BitVec 2
  off : BitVec 19
  deriving DecidableEq, Repr, Inhabited

/-- `gbra` (R78, R160). -/
structure GBrF where
  p : BitVec 3
  ps : Bool
  off : BitVec 19
  deriving DecidableEq, Repr, Inhabited

/-- `call` (R78, R161). -/
structure CallF where
  l : BitVec 6
  off : BitVec 19
  deriving DecidableEq, Repr, Inhabited

/-- Memory form with B = 120 and an M word (R86, R245). -/
structure MemF where
  d : Name
  a : Name
  sb : BitVec 3
  scope : BitVec 4
  sz : BitVec 3
  off : BitVec 18
  deriving DecidableEq, Repr, Inhabited

/-- `ld.probe`: `MemF` with a predicate in B bits 10:8 (R89). -/
structure ProbeF where
  d : Name
  a : Name
  p : BitVec 3
  sb : BitVec 3
  scope : BitVec 4
  sz : BitVec 3
  off : BitVec 18
  deriving DecidableEq, Repr, Inhabited

/-- `waita`: `MemF` with a compare value in B (R260). -/
structure WaitaF where
  d : Name
  a : Name
  b : Name
  sb : BitVec 3
  scope : BitVec 4
  sz : BitVec 3
  off : BitVec 18
  deriving DecidableEq, Repr, Inhabited

/-- Gathers and scatters with a G word (R86). -/
structure GatF where
  d : Name
  a : Name
  b : Name
  sb : BitVec 3
  scope : BitVec 4
  sz : BitVec 3
  rmp : BitVec 2
  sh : BitVec 3
  deriving DecidableEq, Repr, Inhabited

/-- `atom` with an A word, AOP other than 11 (R86, R256). -/
structure AtomF where
  d : Name
  a : Name
  b : Name
  sb : BitVec 3
  scope : BitVec 4
  sz : BitVec 3
  aop : BitVec 4
  off : BitVec 14
  deriving DecidableEq, Repr, Inhabited

/-- `atom.fadd.ord` (R257): D = 120, SCOPE 0, SZ 2, AOP 11. -/
structure OrdF where
  a : Name
  b : Name
  sb : BitVec 3
  off : BitVec 14
  deriving DecidableEq, Repr, Inhabited

/-- `spb`, `fla`, `wb`, `inv`, `pref` (R263): D = B = 120, SCOPE 0, SZ 0. -/
structure CacheF where
  a : Name
  sb : BitVec 3
  off : BitVec 18
  deriving DecidableEq, Repr, Inhabited

/-- `ws.clear` (R264). -/
structure WsClrF where
  a : Name
  b : Name
  sb : BitVec 3
  off : BitVec 18
  deriving DecidableEq, Repr, Inhabited

/-- `fence` (R87). -/
structure FenceF where
  scope : BitVec 4
  kind : BitVec 2
  deriving DecidableEq, Repr, Inhabited

/-- `pfence` (R87). -/
structure PfenceF where
  f : BitVec 3
  t : BitVec 3
  deriving DecidableEq, Repr, Inhabited

/-- `redecl` (R153): F is the target place code. -/
structure RedeclF where
  d : Name
  a : Name
  f : BitVec 2
  deriving DecidableEq, Repr, Inhabited

/-- `g.movx` (R128). -/
structure GMovx where
  d : Name
  imm : BitVec 28
  deriving DecidableEq, Repr, Inhabited

/-- `g.movx.w` (R128). -/
structure GMovxW where
  d : Name
  imm : Word
  deriving DecidableEq, Repr, Inhabited

/-- `sysr`, `sysw`, `perf.read` (R77): D and a 14-bit number. -/
structure NumF where
  d : Name
  num : BitVec 14
  deriving DecidableEq, Repr, Inhabited

/-- `wait` (R178). -/
structure WaitF where
  k : BitVec 3
  n : BitVec 8
  deriving DecidableEq, Repr, Inhabited

/-- A, B and an SB field of a Q word: `cont.push`, `ldl.copy` (R319). -/
structure QF where
  a : Name
  b : Name
  sb : BitVec 3
  deriving DecidableEq, Repr, Inhabited

/-- `ttask` (R330). -/
structure TtaskF where
  a : Name
  sb : BitVec 3
  deriving DecidableEq, Repr, Inhabited

/-- `ldl.feed` (R337). -/
structure FeedF where
  a : Name
  b : Name
  sb : BitVec 3
  pat : BitVec 8
  fifo : Bool
  deriving DecidableEq, Repr, Inhabited

/-- `run.copy` (R340). -/
structure RunF where
  a : Name
  b : Name
  sb : BitVec 3
  scope : BitVec 4
  deriving DecidableEq, Repr, Inhabited

/-- `mx.zero` (R300). -/
structure MxZeroF where
  sb : BitVec 3
  row0 : BitVec 7
  cb : BitVec 2
  deriving DecidableEq, Repr, Inhabited

/-- `mx.load` (R300). -/
structure MxLoadF where
  a : Name
  pc : BitVec 8
  sg : BitVec 2
  sb : BitVec 3
  row0 : BitVec 7
  cb : BitVec 2
  deriving DecidableEq, Repr, Inhabited

/-- `mx.mma`, `mx.smma` (R300). -/
structure MxMmaF where
  pa : BitVec 8
  pb : BitVec 8
  pc : BitVec 8
  sg : BitVec 2
  sb : BitVec 3
  row0 : BitVec 7
  cb : BitVec 2
  k : BitVec 12
  deriving DecidableEq, Repr, Inhabited

/-- `mx.store` (R300). -/
structure MxStoreF where
  a : Name
  pc : BitVec 8
  sg : BitVec 2
  sb : BitVec 3
  row0 : BitVec 7
  cb : BitVec 2
  epi : BitVec 4
  deriving DecidableEq, Repr, Inhabited

/-- A bring-up failure (R371, R372): step, unit kind, unit number, failure code. -/
structure Failure where
  step : Nat
  kind : Nat
  unit : Nat
  code : Nat
  deriving DecidableEq, Repr, Inhabited

/-- What bring-up finds and lays down (R371 steps 1 to 6). `firmware`: the bytes of the firmware file. `bad`: the units
that fail self-test, as die, kind and logical unit: 0 cluster, 1 slice, 2 lane of the link to die `unit`. `shortCode`:
the failure code where the reserves do not suffice. `failed`: what a later step meets. `windows`: writes of the control
windows, as die, offset and value. `res`: frames where firmware places structures of the device that no register
locates (R212). `kernel`: the bytes of the resident kernel, by physical address. -/
structure BringUp where
  firmware : List Byte := []
  bad : List (Nat × Nat × Nat) := []
  shortCode : Nat := 0
  failed : Option Failure := none
  windows : List (Nat × Nat × DWord) := []
  res : List Nat := []
  kernel : List (Nat × List Byte) := []
  deriving DecidableEq, Repr, Inhabited

/-- A management mailbox command. The spec names those that take a die offline (R375) and lower a die's
budget (R13); it gives no meaning to any other. -/
inductive MailCmd where
  | dieOffline (die : Nat)
  /-- A die's budget lowered, in watts (R13). -/
  | budget (die watts : Nat)
  | other (code : Nat)
  deriving DecidableEq, Repr, Inhabited

/-- The parameters of an event of the device. `die` 0 to 3, `xdie` 4 or 5, `cluster` 32 x die + logical
cluster, `loc` the LOC of a core (R165), `wg`, `gid`, `op`, `id` the model's names of a workgroup, group,
operation, item. -/
inductive Ev where
  | apertureWrite (die off : Nat) (data : List Byte)
  | apertureStagingTransfer (die : Nat)
  | contPop (loc : Nat)
  | resumePop (loc : Nat)
  | recordAgeing (die id : Nat)
  | contRingPushRetry (die id : Nat)
  | contPushAck (die id : Nat)
  | workgroupFinish (wg : Nat)
  | deferredCast (gid rank : Nat)
  | casterFormGroup (wg : Nat) (pc : DWord)
  | casterTimeout (wg : Nat) (pc : DWord)
  | overflowReturn (wg : Nat)
  | farResult (op rank : Nat)
  /-- A result of a logged instruction fails its residue check (R45). -/
  | residueFailure (op : Nat)
  /-- The next result at LANE of a core fails its residue check (R45). -/
  | laneResidue (loc : Nat)
  /-- A far entry in backing store of an operation meets an error response (R117, R156). -/
  | farEntryError (op : Nat)
  /-- The next far entry in backing store that an instruction at LANE of a core reads meets one (R117). -/
  | laneFarError (loc : Nat)
  | instructionConfirm (op : Nat)
  | heldTrapRecord (id : Nat)
  | loadDataReturn (op rank frag : Nat)
  | storePerformed (op rank frag : Nat)
  | storeErrorResponse (op rank frag : Nat)
  | translationWalk (die holder : Nat) (va : DWord)
  | peerTranslation (die holder : Nat) (va : DWord)
  | residencyExchange (loc out inn : Nat)
  | residencyTimeout (loc inn : Nat)
  | handlerEntry (gid : Nat)
  | preq (die : Nat) (value : Word)
  | trapack (die : Nat) (addr : DWord)
  | referenceTick (die : Nat)
  | workgroupWdogExpiry (wg : Nat)
  | engineTaskWdogExpiry (loc : Nat)
  | stewardWdogExpiry (xdie core : Nat)
  | droopReport (cluster : Nat)
  | droopHoldEnd (cluster : Nat)
  | grantLevelChange (loc level : Nat)
  | revolutionBoundary (die : Nat)
  | ringCycleDraw (die : Nat)
  | budgetInterval (draw : Nat)
  | hotnessIntervalEnd (die : Nat)
  | completionReport (region : Nat)
  /-- The write of a completion record passes its checks and meets an error response (R383). -/
  | completionError (region : Nat)
  | taskStart (cluster : Nat)
  | gangReserve (cluster : Nat)
  | taskEnd (id : Nat)
  | sequencerStep (loc : Nat)
  | engineKgroupStep (loc : Nat)
  /-- The next result of an engine fails its residue check (R313). -/
  | engineResidue (loc : Nat)
  | engineSuspend (loc : Nat)
  | ladleCommandStart (cluster ladle : Nat)
  | ladleFeedPush (cluster ladle : Nat)
  | copyDoneWrite (cluster ladle : Nat)
  | runnerCommandStart (xdie queue : Nat)
  | runnerCommandComplete (xdie id : Nat) (errAt : Option Nat)
  | orderedAddCombine (die slice region : Nat)
  | waitaSatisfied (op : Nat)
  | dupInvalidate (die frame : Nat)
  | dupAck (die frame : Nat)
  | crossDieWriteReceive (src dst : Nat)
  | clockBeatReceive (src dst : Nat)
  | heldWriteApply (die idx : Nat)
  | hostWrite (die addr : Nat) (data : List Byte)
  | hostRead (die addr n : Nat)
  /-- The oldest host request that waits for a die is tried again (R286). -/
  | hostPosted (die : Nat)
  /-- A host read of the launch aperture (R323), of the window's mirror in BAR2 (R364). -/
  | apertureRead (die off n : Nat)
  | bar2Read (die off n : Nat)
  | laneLoss (src dst : Nat)
  | linkRetrainDone (src dst : Nat)
  | dieOffline (die : Nat) (strand : List Nat)
  | correctedErrorWindow (die kind unit count : Nat)
  | powerLoss
  | checkpointComplete (mask : Nat) (ok : Bool)
  | warmReset (die : Nat)
  /-- A cold reset and the bring-up that follows it (R370, R371). -/
  | coldReset (b : BringUp)
  | mailboxCommand (c : MailCmd)
  | budget (die : Nat) (value : Word)
  | qen (die : Nat) (value : Word)
  | ringf (die : Nat) (value : Word)
  | clk (die cluster : Nat) (value : Word)
  | clkApply (cluster : Nat)
  | dupcmdRegister (die : Nat)
  | dupcmdWithdraw (die : Nat)
  | spillbase (die core : Nat) (value : DWord)
  | controlWindowWrite (die off size : Nat) (value : DWord)
  | heat (die port ring : Nat) (value : Word)
  | wmap (die port : Nat) (value : DWord)
  | wactive (die port : Nat) (value : Word)
  | glintRelease (die port : Nat)
  | pstatRead (die port : Nat)
  | wavelengthDegrade (die port wavelength : Nat)
  | flitRetransmit (die port wavelength : Nat)
  | engineCommandRetire (loc : Nat)
  | xstAccepted (op rank : Nat)
  /-- The temperature at a port changes: `warm` is its rise, as the heater codes that it stands for (R380). -/
  | lossOfLock (die port : Nat) (warm : Int)
  | warmResetEnd (die : Nat)
  deriving DecidableEq, Repr, Inhabited

/-- An instruction of Gostin 1, or an event of the device. -/
inductive Instr where
  | add (f : L3)
  | sub (f : L3)
  | add64 (f : N3)
  | sub64 (f : N3)
  | mul (f : L3)
  | mulhiS (f : L3)
  | mulhiU (f : L3)
  | mad (f : L3)
  | divS (f : L3)
  | divU (f : L3)
  | remS (f : L3)
  | remU (f : L3)
  | minS (f : L3)
  | minU (f : L3)
  | maxS (f : L3)
  | maxU (f : L3)
  | and (f : L3)
  | or (f : L3)
  | xor (f : L3)
  | shl (f : L3)
  | shr (f : L3)
  | sar (f : L3)
  | rot (f : L3)
  | bfxU (f : L3)
  | bfxS (f : L3)
  | bfi (f : L3)
  | popc (f : L2)
  | clz (f : L2)
  | ctz (f : L2)
  | brev (f : L2)
  | abs (f : L2)
  | cmp (f : LCmp)
  | selLo (f : LSel)
  | selHi (f : LSel)
  | mov (f : LMov)
  | movx (f : LMovx)
  | movxW (f : LMovxW)
  | lea64 (f : N3S)
  | pand (f : P3)
  | por (f : P3)
  | pnot (f : P2)
  | pmov (f : P2)
  | fadd (f : L3R)
  | fsub (f : L3R)
  | fmul (f : L3R)
  | ffma (f : L3R)
  | fmin (f : L3)
  | fmax (f : L3)
  | fcmp (f : LCmp)
  | frcp (f : L2R)
  | frsq (f : L2R)
  | fsqrt (f : L2R)
  | fexp2 (f : L2R)
  | flog2 (f : L2R)
  | hadd2F16 (f : L3)
  | hmul2F16 (f : L3)
  | hadd2Bf16 (f : L3)
  | hmul2Bf16 (f : L3)
  | hfma2F16 (f : L3)
  | hfma2Bf16 (f : L3)
  | dadd (f : N3R)
  | dmul (f : N3R)
  | dfma (f : N3R)
  | cvt (f : CvtF)
  | cvtD8x4 (f : N2)
  | cvtF32x4 (f : N2)
  | shflIdx (f : ShflF)
  | shflUp (f : ShflF)
  | shflDown (f : ShflF)
  | shflXor (f : ShflF)
  | voteAny (f : VoteP)
  | voteAll (f : VoteP)
  | voteBallot (f : VoteB)
  | reduxAdd (f : L2)
  | reduxMin (f : L2)
  | reduxMax (f : L2)
  | match_ (f : L2)
  | wBind (f : WBindF)
  | wSkip (f : WSkipF)
  | bw (f : BrF)
  | ld (f : MemF)
  | ldNc (f : MemF)
  | ldByp (f : MemF)
  | st (f : MemF)
  | stNc (f : MemF)
  | stByp (f : MemF)
  | ldAcq (f : MemF)
  | stRel (f : MemF)
  | ldProbe (f : ProbeF)
  | gather (f : GatF)
  | scatter (f : GatF)
  | scatterAdd (f : GatF)
  | atom (f : AtomF)
  | atomFaddOrd (f : OrdF)
  | lds (f : MemF)
  | sts (f : MemF)
  | xst (f : MemF)
  | waitaEq (f : WaitaF)
  | waitaNe (f : WaitaF)
  | fence (f : FenceF)
  | pfence (f : PfenceF)
  | spb (f : CacheF)
  | fla (f : CacheF)
  | wb (f : CacheF)
  | inv (f : CacheF)
  | pref (f : CacheF)
  | wsClear (f : WsClrF)
  | redecl (f : RedeclF)
  | plc (f : N2)
  | bra (f : BrF)
  | exit
  | nop
  | yield
  | ret (a : Name)
  | gAdd (f : N3)
  | gSub (f : N3)
  | gAdd64 (f : N3)
  | gSub64 (f : N3)
  | gMul (f : N3)
  | gMulhiS (f : N3)
  | gMulhiU (f : N3)
  | gAnd (f : N3)
  | gOr (f : N3)
  | gXor (f : N3)
  | gShl (f : N3)
  | gShr (f : N3)
  | gSar (f : N3)
  | gRot (f : N3)
  | gMinS (f : N3)
  | gMinU (f : N3)
  | gMaxS (f : N3)
  | gMaxU (f : N3)
  | gCmp (f : GCmp)
  | gSel (f : N3P)
  | gMov (f : N2X)
  | gMovx (f : GMovx)
  | gMovxW (f : GMovxW)
  | gBfxU (f : N3)
  | gBfxS (f : N3)
  | gBfi (f : N3)
  | gLea64 (f : N3S)
  | gPopc (f : N2)
  | gClz (f : N2)
  | gCtz (f : N2)
  | gDivS (f : N3)
  | gDivU (f : N3)
  | gRemS (f : N3)
  | gRemU (f : N3)
  | jmp (off : BitVec 19)
  | call (f : CallF)
  | callr (f : N2)
  | gbra (f : GBrF)
  | ifence
  | trap (code : BitVec 21)
  | sysr (f : NumF)
  | sysw (f : NumF)
  | eret
  | eretSave
  | wait (f : WaitF)
  | barSync (b : BitVec 4)
  | barArrive (b : BitVec 4)
  | barSwap (b : BitVec 4)
  | join (a : Name)
  | gateAdd (f : ABX)
  | gateWait (f : ABX)
  | lumPurse (d : Name)
  | perfRead (f : NumF)
  | wdogKick
  | patSet (f : AB)
  | patInv (a : Name)
  | tlook (f : N2)
  | tset (f : DAB)
  | tclr (f : N2)
  | seqLoad (a : Name)
  | remapSet (f : AB)
  | tlbInv (f : AB)
  | retype (f : AB)
  | priceSet (f : AB)
  | rgnMake (a : Name)
  | peerMap (a : Name)
  | spawn (f : N3)
  | contPush (f : QF)
  | ttask (f : TtaskF)
  | ldlCopy (f : QF)
  | ldlFeed (f : FeedF)
  | runCopy (f : RunF)
  | castFlush
  | mxZero (f : MxZeroF)
  | mxSync (f : N2)
  | mxGang (a : Name)
  | mxLoad (f : MxLoadF)
  | mxMma (f : MxMmaF)
  | mxSmma (f : MxMmaF)
  | mxStore (f : MxStoreF)
  /- Events: their parameters are an `Ev`, held in `State.event`. -/
  | apertureWrite
  | apertureStagingTransfer
  | contPop
  | resumePop
  | recordAgeing
  | contRingPushRetry
  | contPushAck
  | workgroupFinish
  | deferredCast
  | casterFormGroup
  | casterTimeout
  | overflowReturn
  | farResult
  | instructionConfirm
  | heldTrapRecord
  | loadDataReturn
  | storePerformed
  | storeErrorResponse
  | translationWalk
  | peerTranslation
  | residencyExchange
  | residencyTimeout
  | handlerEntry
  | preq
  | trapack
  | referenceTick
  | workgroupWdogExpiry
  | engineTaskWdogExpiry
  | stewardWdogExpiry
  | droopReport
  | droopHoldEnd
  | grantLevelChange
  | revolutionBoundary
  | ringCycleDraw
  | budgetInterval
  | hotnessIntervalEnd
  | completionReport
  | taskStart
  | gangReserve
  | taskEnd
  | sequencerStep
  | engineKgroupStep
  | engineSuspend
  | ladleCommandStart
  | ladleFeedPush
  | copyDoneWrite
  | runnerCommandStart
  | runnerCommandComplete
  | orderedAddCombine
  | waitaSatisfied
  | dupInvalidate
  | dupAck
  | crossDieWriteReceive
  | clockBeatReceive
  | heldWriteApply
  | hostWrite
  | hostRead
  | laneLoss
  | linkRetrainDone
  | dieOffline
  | correctedErrorWindow
  | powerLoss
  | checkpointComplete
  | warmReset
  | coldReset
  | mailboxCommand
  | budget
  | qen
  | ringf
  | clk
  | clkApply
  | dupcmdRegister
  | dupcmdWithdraw
  | spillbase
  | controlWindowWrite
  | heat
  | wmap
  | wactive
  | glintRelease
  | pstatRead
  | wavelengthDegrade
  | flitRetransmit
  | engineCommandRetire
  | xstAccepted
  | lossOfLock
  | warmResetEnd
  deriving DecidableEq, Repr, Inhabited

/-- The row of an event. -/
def Ev.row : Ev → Instr
  | .apertureWrite .. => .apertureWrite
  | .apertureStagingTransfer .. => .apertureStagingTransfer
  | .contPop .. => .contPop
  | .resumePop .. => .resumePop
  | .recordAgeing .. => .recordAgeing
  | .contRingPushRetry .. => .contRingPushRetry
  | .contPushAck .. => .contPushAck
  | .workgroupFinish .. => .workgroupFinish
  | .deferredCast .. => .deferredCast
  | .casterFormGroup .. => .casterFormGroup
  | .casterTimeout .. => .casterTimeout
  | .overflowReturn .. => .overflowReturn
  | .farResult .. | .residueFailure .. | .laneResidue .. | .farEntryError .. | .laneFarError .. => .farResult
  | .instructionConfirm .. => .instructionConfirm
  | .heldTrapRecord .. => .heldTrapRecord
  | .loadDataReturn .. => .loadDataReturn
  | .storePerformed .. => .storePerformed
  | .storeErrorResponse .. => .storeErrorResponse
  | .translationWalk .. => .translationWalk
  | .peerTranslation .. => .peerTranslation
  | .residencyExchange .. => .residencyExchange
  | .residencyTimeout .. => .residencyTimeout
  | .handlerEntry .. => .handlerEntry
  | .preq .. => .preq
  | .trapack .. => .trapack
  | .referenceTick .. => .referenceTick
  | .workgroupWdogExpiry .. => .workgroupWdogExpiry
  | .engineTaskWdogExpiry .. => .engineTaskWdogExpiry
  | .stewardWdogExpiry .. => .stewardWdogExpiry
  | .droopReport .. => .droopReport
  | .droopHoldEnd .. => .droopHoldEnd
  | .grantLevelChange .. => .grantLevelChange
  | .revolutionBoundary .. => .revolutionBoundary
  | .ringCycleDraw .. => .ringCycleDraw
  | .budgetInterval .. => .budgetInterval
  | .hotnessIntervalEnd .. => .hotnessIntervalEnd
  | .completionReport .. | .completionError .. => .completionReport
  | .taskStart .. => .taskStart
  | .gangReserve .. => .gangReserve
  | .taskEnd .. => .taskEnd
  | .sequencerStep .. => .sequencerStep
  | .engineKgroupStep .. | .engineResidue .. => .engineKgroupStep
  | .engineSuspend .. => .engineSuspend
  | .ladleCommandStart .. => .ladleCommandStart
  | .ladleFeedPush .. => .ladleFeedPush
  | .copyDoneWrite .. => .copyDoneWrite
  | .runnerCommandStart .. => .runnerCommandStart
  | .runnerCommandComplete .. => .runnerCommandComplete
  | .orderedAddCombine .. => .orderedAddCombine
  | .waitaSatisfied .. => .waitaSatisfied
  | .dupInvalidate .. => .dupInvalidate
  | .dupAck .. => .dupAck
  | .crossDieWriteReceive .. => .crossDieWriteReceive
  | .clockBeatReceive .. => .clockBeatReceive
  | .heldWriteApply .. => .heldWriteApply
  | .hostWrite .. | .hostPosted .. => .hostWrite
  | .hostRead .. | .apertureRead .. | .bar2Read .. => .hostRead
  | .laneLoss .. => .laneLoss
  | .linkRetrainDone .. => .linkRetrainDone
  | .dieOffline .. => .dieOffline
  | .correctedErrorWindow .. => .correctedErrorWindow
  | .powerLoss => .powerLoss
  | .checkpointComplete .. => .checkpointComplete
  | .warmReset .. => .warmReset
  | .coldReset .. => .coldReset
  | .mailboxCommand .. => .mailboxCommand
  | .budget .. => .budget
  | .qen .. => .qen
  | .ringf .. => .ringf
  | .clk .. => .clk
  | .clkApply .. => .clkApply
  | .dupcmdRegister .. => .dupcmdRegister
  | .dupcmdWithdraw .. => .dupcmdWithdraw
  | .spillbase .. => .spillbase
  | .controlWindowWrite .. => .controlWindowWrite
  | .heat .. => .heat
  | .wmap .. => .wmap
  | .wactive .. => .wactive
  | .glintRelease .. => .glintRelease
  | .pstatRead .. => .pstatRead
  | .wavelengthDegrade .. => .wavelengthDegrade
  | .flitRetransmit .. => .flitRetransmit
  | .engineCommandRetire .. => .engineCommandRetire
  | .xstAccepted .. => .xstAccepted
  | .lossOfLock .. => .lossOfLock
  | .warmResetEnd .. => .warmResetEnd

end Sys2Proof
end

