-- ==== Sys2Proof/WellFormed.lean ====
section
/-! DEFINITION. Which instructions the name and field rules allow (R53, R76 to R92, and each form's
operand rule). A decoded word that is not well-formed raises ILL when it would issue (R93 check 3).
Which `v` names the workgroup has (R110), what an open chain allows (R83, R84) and the place of a
name (R35) depend on the state and are checked at issue. -/

namespace Sys2Proof

/-- A `v` name (R79). -/
def Name.isV (n : Name) : Bool := n.toNat < 112

/-- A walker name (R79). -/
def Name.isW (n : Name) : Bool := 112 ≤ n.toNat && n.toNat < 120

/-- `b1`, `b2` and `o0` to `o2` (R79). -/
def Name.isLatch (n : Name) : Bool := 122 ≤ n.toNat && n.toNat < 127

/-- `z` (R79). -/
def Name.isZ (n : Name) : Bool := n.toNat == 120

/-- `x` (R79). -/
def Name.isX (n : Name) : Bool := n.toNat == 127

/-- A lane-set source other than `x`. -/
def Name.laneSrc (n : Name) : Bool := !n.isX

/-- A group-set source other than `x` (R82). -/
def Name.groupSrc (n : Name) : Bool := n.isV || n.toNat == 120 || n.toNat == 121

/-- A group-set source, `x` allowed (R82). -/
def Name.groupSrcX (n : Name) : Bool := n.groupSrc || n.isX

/-- A destination: a `v` name or `z` (R79). -/
def Name.dst (n : Name) : Bool := n.isV || n.isZ

/-- A destination under N: only `z` (R83). -/
def Name.dstN (n : Name) (noWrite : Bool) : Bool := if noWrite then n.isZ else n.dst

/-- An even `v` name (R50). -/
def Name.pairV (n : Name) : Bool := n.isV && n.toNat % 2 == 0

/-- An even name: a pair or `z` (R79, R117; assumption log 10). -/
def Name.pair (n : Name) : Bool := n.pairV || n.isZ

/-- A `v` name that is a multiple of 4 (R79). -/
def Name.quadV (n : Name) : Bool := n.isV && n.toNat % 4 == 0

/-- A 128-bit name or `z`. -/
def Name.quad (n : Name) : Bool := n.quadV || n.isZ

/-- The extension value is zero unless A or B names `x` (R80): one syntax per instruction. -/
def xFits (a b : Name) (x : BitVec 28) : Bool := a.isX || b.isX || x == 0

/-- `L3` operands (R117). -/
def L3.ok (f : L3) : Bool := f.d.dstN f.n && xFits f.a f.b f.x

/-- `L3R` operands (R132). -/
def L3R.ok (f : L3R) : Bool := f.d.dstN f.n && xFits f.a f.b f.x

/-- Unary operands; no `x` (R92, R136). R80 lets a form without a fixed extension word name `x`, while R89 gives `popc`,
`clz`, `ctz`, `brev`, `abs`, `redux`, `match` and `cvt.f32x4` one word and no extension: the model takes the words and
raises ILL for `x` in A (its choice, assumption log 114). -/
def L2.ok (f : L2) : Bool := f.d.dstN f.n && f.a.laneSrc

/-- Unary operands with a rounding mode. -/
def L2R.ok (f : L2R) : Bool := f.d.dstN f.n && f.a.laneSrc

/-- A pair source that `x` may stand for, or an even name (R127). -/
def Name.pairX (n : Name) : Bool := n.pair || n.isX

/-- `add64`, `sub64` and their group forms (R127, R128). -/
def N3.ok64 (f : N3) : Bool := f.d.pair && f.a.pairX && f.b.pairX && xFits f.a f.b f.x

/-- `lea64` (R127): D and A even names, `x` in B alone. -/
def N3S.okLane (f : N3S) : Bool := f.d.pair && f.a.pair && xFits f.a f.b f.x

/-- `g.lea64` (R128). -/
def N3S.okGroup (f : N3S) : Bool :=
  f.d.pair && f.a.pair && f.b.groupSrcX && xFits f.a f.b f.x

/-- Group-set three-operand form (R82, R128). -/
def N3.okG (f : N3) : Bool := f.d.dst && f.a.groupSrcX && f.b.groupSrcX && xFits f.a f.b f.x

/-- Group-set unary form without `x`: as `L2.ok`, for `g.popc`, `g.clz` and `g.ctz` (R90; the model's choice, assumption
log 114). -/
def N2.okG (f : N2) : Bool := f.d.dst && f.a.groupSrc

/-- Binary64 form: even `v` names only (R138). -/
def N3R.ok (f : N3R) : Bool := f.d.pairV && f.a.pairV && f.b.pairV

/-- A conversion format that takes 64 bits (R86). -/
def fmt64 (c : BitVec 4) : Bool := c == 5 || c == 8 || c == 9

/-- `cvt` (R139). -/
def CvtF.ok (f : CvtF) : Bool :=
  f.src.toNat ≤ 9 && f.dst.toNat ≤ 9 && f.src != f.dst
    && (if fmt64 f.src then f.a.pairV else f.a.laneSrc)
    && (if fmt64 f.dst then f.d.pair else f.d.dstN f.n)
    && !((fmt64 f.src || fmt64 f.dst) && (f.h || f.n))

/-- `shfl` (R143). -/
def ShflF.ok (f : ShflF) : Bool :=
  f.d.dstN f.n && f.a.laneSrc && f.b.laneSrc && f.fill.groupSrc

/-- Scope codes (R87). -/
def okScope (s : BitVec 4) : Bool := s.toNat ≤ 10

/-- A data or destination name of size code `sz` (R79, R245). As store data R245 names `z` beside the `v` names, and names
`rank` only for an index; whether `rank`, which R79 lists as a source, may stand there is not said, and the model gives ILL
(DESIGN CHOICE, assumption log 126). -/
def okData (sz : BitVec 3) (d : Name) : Bool :=
  if sz == 3 then d.pair else if sz == 4 then d.quad else d.dst

/-- Load forms (R245): SZ 0 to 6. -/
def MemF.okLoad (f : MemF) : Bool :=
  f.sz.toNat ≤ 6 && okData f.sz f.d && f.a.pairV && okScope f.scope

/-- Store forms (R245): SZ 0 to 4. -/
def MemF.okStore (f : MemF) : Bool :=
  f.sz.toNat ≤ 4 && okData f.sz f.d && f.a.pairV && okScope f.scope

/-- `ld.probe` (R245). -/
def ProbeF.ok (f : ProbeF) : Bool :=
  f.sz.toNat ≤ 4 && okData f.sz f.d && f.a.pairV && okScope f.scope

/-- `waita` (R245, R260). -/
def WaitaF.ok (f : WaitaF) : Bool :=
  (f.sz == 2 || f.sz == 3) && okData f.sz f.d && f.a.pairV
    && (if f.sz == 3 then f.b.pair else f.b.groupSrc) && okScope f.scope

/-- `gather`, `scatter` (R86, R245). -/
def GatF.ok (f : GatF) (maxSz : Nat) : Bool :=
  f.sz.toNat ≤ maxSz && okData f.sz f.d && f.a.pairV && f.b.groupSrc && okScope f.scope
    && f.sh.toNat ≤ 4

/-- `scatter.add` (R245). -/
def GatF.okAdd (f : GatF) : Bool := (f.sz == 2 || f.sz == 3) && f.ok 3

/-- `atom` other than `fadd.ord` (R256). -/
def AtomF.ok (f : AtomF) : Bool :=
  (f.sz == 2 || f.sz == 3) && f.aop.toNat ≤ 10 && !(f.aop == 10 && f.sz == 3)
    && okData f.sz f.d && f.a.pairV && okScope f.scope
    && (if f.aop == 9 then (if f.sz == 3 then f.b.quad else f.b.pair)
        else if f.sz == 3 then f.b.pair else f.b.groupSrc)

/-- `lds` (R245, R258). -/
def MemF.okLds (f : MemF) : Bool :=
  f.sz.toNat ≤ 6 && okData f.sz f.d && f.a.groupSrc && f.scope == 0

/-- `sts` (R245, R258). -/
def MemF.okSts (f : MemF) : Bool :=
  f.sz.toNat ≤ 4 && okData f.sz f.d && f.a.groupSrc && f.scope == 0

/-- `xst` (R245, R259). -/
def MemF.okXst (f : MemF) : Bool :=
  2 ≤ f.sz.toNat && f.sz.toNat ≤ 4 && okData f.sz f.d && f.a.groupSrc && f.scope == 0

/-- `redecl` (R153). Target CLUSTER is no ILL: it raises PLACE. -/
def RedeclF.ok (f : RedeclF) : Bool :=
  if f.f == 0 then f.d.isV && f.a.isZ
  else if f.f == 1 then true
  else f.d.isV && f.a.pairV

/-- Condition code of `cmp` and `g.cmp` (R88). -/
def okCond (c : BitVec 4) : Bool := c.toNat ≤ 9

/-- `mx` commands: the column block (R86). -/
def okCb (cb : BitVec 2) : Bool := cb.toNat ≤ 2

/-- Epilogue codes of `mx.store` (R307). -/
def okEpi (e : BitVec 4) : Bool := e.toNat ≤ 3

/-- A C-die number (R8). -/
def okDie (d : Nat) : Bool := d < 4

/-- The LOC of a core of a C-die (R165). -/
def okLoc (l : Nat) : Bool := l < 1024 && l % 256 < 128

/-- An X-die number (R8). -/
def okXdie (d : Nat) : Bool := 4 ≤ d && d < 6

/-- The row is an event, not an instruction: it has no words. -/
def Instr.isEvent : Instr → Bool
  | .apertureWrite | .apertureStagingTransfer | .contPop | .resumePop
  | .recordAgeing | .contRingPushRetry | .contPushAck | .workgroupFinish
  | .deferredCast | .casterFormGroup | .casterTimeout | .overflowReturn
  | .farResult | .instructionConfirm | .heldTrapRecord | .loadDataReturn
  | .storePerformed | .storeErrorResponse | .translationWalk | .peerTranslation
  | .residencyExchange | .residencyTimeout | .handlerEntry | .preq | .trapack
  | .referenceTick | .workgroupWdogExpiry | .engineTaskWdogExpiry | .stewardWdogExpiry
  | .droopReport | .droopHoldEnd | .grantLevelChange | .revolutionBoundary
  | .ringCycleDraw | .budgetInterval | .hotnessIntervalEnd | .completionReport
  | .taskStart | .gangReserve | .taskEnd | .sequencerStep | .engineKgroupStep
  | .engineSuspend | .ladleCommandStart | .ladleFeedPush | .copyDoneWrite
  | .runnerCommandStart | .runnerCommandComplete | .orderedAddCombine | .waitaSatisfied
  | .dupInvalidate | .dupAck | .crossDieWriteReceive | .clockBeatReceive
  | .heldWriteApply | .hostWrite | .hostRead | .laneLoss | .linkRetrainDone
  | .dieOffline | .correctedErrorWindow | .powerLoss | .checkpointComplete
  | .warmReset | .coldReset | .mailboxCommand | .budget | .qen | .ringf
  | .clk | .clkApply | .dupcmdRegister | .dupcmdWithdraw | .spillbase
  | .controlWindowWrite | .heat | .wmap | .wactive | .glintRelease | .pstatRead
  | .wavelengthDegrade | .flitRetransmit | .engineCommandRetire | .xstAccepted
  | .lossOfLock | .warmResetEnd => true
  | _ => false

/-- The name and field rules of the instruction's form; an event row is
well-formed; its parameters are `Ev.wellFormed`. -/
def Instr.wellFormed : Instr → Bool
  | .add f | .sub f | .mul f | .mulhiS f | .mulhiU f | .mad f | .divS f | .divU f | .remS f
  | .remU f | .minS f | .minU f | .maxS f | .maxU f | .and f | .or f | .xor f | .shl f | .shr f
  | .sar f | .rot f | .bfxU f | .bfxS f | .bfi f | .fmin f | .fmax f | .hadd2F16 f | .hmul2F16 f
  | .hadd2Bf16 f | .hmul2Bf16 f | .hfma2F16 f | .hfma2Bf16 f => f.ok
  | .add64 f | .sub64 f => f.ok64
  | .popc f | .clz f | .ctz f | .brev f | .abs f | .reduxAdd f | .reduxMin f | .reduxMax f
  | .match_ f => f.ok
  | .cmp f => okCond f.c && xFits f.a f.b f.x
  | .fcmp f => f.c.toNat ≤ 7 && xFits f.a f.b f.x
  | .selLo f | .selHi f => f.d.dstN f.n && xFits f.a f.b f.x
  | .mov f => f.d.dstN f.n && (f.a.isX || f.x == 0)
  | .movx f => f.d.dstN f.n
  | .movxW f => f.d.dstN f.n
  | .lea64 f => f.okLane
  | .pand _ | .por _ | .pnot _ | .pmov _ => true
  | .fadd f | .fsub f | .fmul f | .ffma f => f.ok
  | .frcp f | .frsq f | .fsqrt f | .fexp2 f | .flog2 f => f.ok
  | .dadd f | .dmul f | .dfma f => f.ok
  | .cvt f => f.ok
  | .cvtD8x4 f => f.d.dst && f.a.quadV
  -- a walker in A: R117 and R132 allow it, R152 lists no read of it; allowed (the model's choice, assumption log 115)
  | .cvtF32x4 f => f.d.quadV && f.a.laneSrc
  | .shflIdx f | .shflUp f | .shflDown f | .shflXor f => f.ok
  | .voteAny _ | .voteAll _ => true
  | .voteBallot f => f.d.dstN f.n
  | .wBind f => f.a.pairV && f.b.quadV
  | .wSkip f => f.a.isV
  | .bw f | .bra f => f.cp.toNat ≤ 1
  | .ld f | .ldNc f | .ldByp f | .ldAcq f => f.okLoad
  | .st f | .stNc f | .stByp f | .stRel f => f.okStore
  | .ldProbe f => f.ok
  | .gather f => f.ok 6
  | .scatter f => f.ok 4
  | .scatterAdd f => f.okAdd
  | .atom f => f.ok
  | .atomFaddOrd f => f.a.pairV && f.b.groupSrc
  | .lds f => f.okLds
  | .sts f => f.okSts
  | .xst f => f.okXst
  | .waitaEq f | .waitaNe f => f.ok
  | .fence f => okScope f.scope && f.kind.toNat ≤ 2
  | .pfence f => f.f.toNat ≤ 4 && f.t.toNat ≤ 4
  | .spb f | .fla f | .wb f | .inv f | .pref f => f.a.pairV
  | .wsClear f => f.a.pairV && f.b.groupSrc
  | .redecl f => f.ok
  | .plc f => f.d.pairV && f.a.isV
  | .exit | .nop | .yield => true
  | .ret a => a.pairV
  | .gAdd f | .gSub f | .gMul f | .gMulhiS f | .gMulhiU f | .gAnd f | .gOr f | .gXor f | .gShl f
  | .gShr f | .gSar f | .gRot f | .gMinS f | .gMinU f | .gMaxS f | .gMaxU f | .gBfxU f | .gBfxS f
  | .gBfi f | .gDivS f | .gDivU f | .gRemS f | .gRemU f => f.okG
  | .gAdd64 f | .gSub64 f => f.ok64
  | .gCmp f => okCond f.c && f.a.groupSrcX && f.b.groupSrcX && xFits f.a f.b f.x
  | .gSel f => f.d.dst && f.a.groupSrcX && f.b.groupSrcX && xFits f.a f.b f.x
  | .gMov f => f.d.dst && f.a.groupSrcX && (f.a.isX || f.x == 0)
  | .gMovx f => f.d.dst
  | .gMovxW f => f.d.dst
  | .gLea64 f => f.okGroup
  | .gPopc f | .gClz f | .gCtz f => f.okG
  | .jmp _ => true
  | .call f => f.l.toNat ≤ 55
  | .callr f => f.d.pair && f.a.pair
  | .gbra _ | .ifence | .trap _ => true
  | .sysr f | .sysw f => f.d.isV
  | .eret | .eretSave => true
  | .wait f => f.k != 0 || f.n == 0
  | .barSync _ | .barArrive _ | .barSwap _ => true
  | .join a => a.pair
  | .gateAdd f | .gateWait f => f.a.groupSrcX && f.b.groupSrcX && xFits f.a f.b f.x
  | .lumPurse d => d.dst
  | .perfRead f => f.d.pairV
  | .wdogKick => true
  | .patSet f => f.a.groupSrc && f.b.pair
  | .patInv a => a.groupSrc
  | .tlook f | .tclr f => f.d.dst && f.a.groupSrc
  | .tset f => f.d.dst && f.a.groupSrc && f.b.groupSrc
  | .seqLoad a => a.pair
  | .remapSet f => f.a.groupSrc && f.b.groupSrc
  | .tlbInv f => f.a.pair && f.b.groupSrc
  | .retype f => f.a.pair && f.b.groupSrc
  | .priceSet f => f.a.groupSrc && f.b.groupSrc
  | .rgnMake a => a.pair
  | .peerMap a => a.pair
  | .spawn f => f.d.dst && f.a.pairV && f.b.groupSrcX && xFits f.a f.b f.x
  | .contPush f => f.a.pairV && f.b.groupSrc
  | .ttask f => f.a.pairV
  | .ldlCopy f => f.a.quadV && f.b.quadV
  | .ldlFeed f => f.a.pairV && f.b.pairV
  | .runCopy f => f.a.quadV && f.b.pairV && okScope f.scope
  | .castFlush => true
  | .mxZero f => okCb f.cb
  | .mxSync f => f.d.dst && f.a.dst
  | .mxGang a => a.dst
  | .mxLoad f => f.a.pair && okCb f.cb
  | .mxMma f | .mxSmma f => okCb f.cb
  | .mxStore f => f.a.pair && okCb f.cb && okEpi f.epi
  | i => i.isEvent

/-- A link of the package: the four C-dies in a full mesh, each C-die with each X-die (R9). -/
def okLink (s d : Nat) : Bool := s < 6 && d < 6 && s != d && (s < 4 || d < 4)

/-- The unit numbers of an event are in range. -/
def Ev.wellFormed : Ev → Bool
  | .apertureWrite d off data => okDie d && decide (off + data.length ≤ 65536)
  | .apertureStagingTransfer d => okDie d
  | .contPop l | .resumePop l => okLoc l
  | .recordAgeing d _ | .contRingPushRetry d _ => okDie d
  | .contPushAck d _ => d < 6
  | .workgroupFinish _ | .casterFormGroup _ _ | .casterTimeout _ _ | .overflowReturn _ => true
  | .deferredCast _ r => r < 32
  | .farResult _ r => r < 32
  | .residueFailure _ | .farEntryError _ => true
  | .laneResidue l | .laneFarError l | .engineResidue l => okLoc l
  | .instructionConfirm _ | .heldTrapRecord _ => true
  | .loadDataReturn _ r _ | .storePerformed _ r _ | .storeErrorResponse _ r _ => r < 32
  | .translationWalk d _ _ | .peerTranslation d _ _ => d < 6
  | .residencyExchange l _ _ | .residencyTimeout l _ => okLoc l
  | .handlerEntry _ => true
  | .preq d _ | .trapack d _ => okDie d
  | .referenceTick d => okDie d
  | .workgroupWdogExpiry _ => true
  | .engineTaskWdogExpiry l => okLoc l
  | .stewardWdogExpiry x c => okXdie x && c < 4
  | .droopReport c | .droopHoldEnd c => c < 128
  | .grantLevelChange l g => okLoc l && 16 ≤ g && g ≤ 64
  | .revolutionBoundary d | .ringCycleDraw d => okDie d
  | .budgetInterval _ => true
  | .hotnessIntervalEnd d => okDie d
  | .completionReport r | .completionError r => r < 65536
  | .taskStart c | .gangReserve c => c < 128
  | .taskEnd _ => true
  | .sequencerStep l | .engineKgroupStep l | .engineSuspend l => okLoc l
  | .ladleCommandStart c l | .ladleFeedPush c l | .copyDoneWrite c l => c < 128 && l < 4
  | .runnerCommandStart x q => okXdie x && q < 5
  | .runnerCommandComplete x _ _ => okXdie x
  | .orderedAddCombine d sl r => okDie d && sl < 64 && r < 65536
  | .waitaSatisfied _ => true
  | .dupInvalidate d _ | .dupAck d _ => okDie d
  | .crossDieWriteReceive s d | .clockBeatReceive s d => okLink s d
  | .heldWriteApply d _ => d < 6
  | .hostWrite d _ _ | .hostRead d _ _ | .hostPosted d => okDie d
  | .apertureRead d off n => okDie d && decide (off + n ≤ 65536)
  | .bar2Read d off n => okDie d && decide (off + n ≤ 4194304)
  | .laneLoss s d | .linkRetrainDone s d => okLink s d
  | .dieOffline d _ => okDie d
  | .correctedErrorWindow d _ _ _ => d < 6
  | .powerLoss | .checkpointComplete _ _ => true
  | .warmReset d | .warmResetEnd d => okDie d
  | .coldReset b => (b.failed.all fun x => 2 ≤ x.step && x.step ≤ 6)
      && (b.bad.all fun u => decide (u.1 < 6) && decide (u.2.1 < 3)
        && (if u.2.1 == 2 then okLink u.1 u.2.2 else okDie u.1 && decide (u.2.2 < if u.2.1 == 0 then 32 else 64)))
      && (b.windows.all fun w => okDie w.1 && decide (w.2.1 < 4194304))
      && (b.res.all fun n => decide (n < 4 * 786432))
  | .mailboxCommand _ => true
  | .budget d _ | .qen d _ | .ringf d _ => okDie d
  | .clk d c _ => okDie d && c < 32
  | .clkApply c => c < 128
  | .dupcmdRegister d | .dupcmdWithdraw d => okDie d
  | .spillbase d c _ => okDie d && c < 128
  | .controlWindowWrite d off _ _ => okDie d && off < 4194304
  | .heat d p r _ => okDie d && p < 96 && r < 16
  | .wmap d p _ | .wactive d p _ | .glintRelease d p | .pstatRead d p => okDie d && p < 96
  | .wavelengthDegrade d p w | .flitRetransmit d p w => okDie d && p < 96 && w < 12
  | .engineCommandRetire l => okLoc l
  | .xstAccepted _ r => r < 32
  | .lossOfLock d p _ => okDie d && p < 96

end Sys2Proof
end

