-- ==== Sys2Proof/Decode.lean ====
section
/-! DEFINITION. The decoder and the encoder of Gostin 1 words (R73 to R92). The decoder follows the
match and mask bits of spec/opcode_table.json and the layouts of R86: an unassigned OP or F, a
nonzero reserved field and an unused name field other than 120 are refused here (R92); the names a
form allows are `Instr.wellFormed`. -/

namespace Sys2Proof

/-- Payload of an extension word (R74). -/
abbrev Payload := BitVec 28

/-- Why words are no instruction. -/
inductive DecodeErr where
  /-- The first word is an extension word (R75): XLAND or ILL, as it was reached. -/
  | extensionFirst
  /-- A required extension word lacks the 0b1111 nibble (R74): ILL. -/
  | extensionMissing
  /-- An unassigned operation or a nonzero reserved field (R92): ILL. -/
  | unassigned
  /-- The bytes end inside the instruction. -/
  | truncated
  deriving DecidableEq, Repr

/-- The fields of a first word (R76, R77); `f` is bits 3:0, which hold F, H and N in the lane set. -/
structure Prim where
  s : Bool
  op : BitVec 6
  d : Name
  a : Name
  b : Name
  f : BitVec 4
  deriving DecidableEq, Repr

/-- `n` bits of `v` from bit `k` up. -/
def lo {w : Nat} (v : BitVec w) (k n : Nat) : BitVec n := v.extractLsb' k n

/-- Bit `k` of `v`. -/
def bit {w : Nat} (v : BitVec w) (k : Nat) : Bool := v.getLsbD k

/-- The fields of a word. -/
def Prim.unpack (w : Word) : Prim :=
  ⟨bit w 31, lo w 25 6, lo w 18 7, lo w 11 7, lo w 4 7, lo w 0 4⟩

/-- The word of the fields. -/
def Prim.pack (p : Prim) : Word :=
  BitVec.ofBool p.s ++ p.op ++ p.d ++ p.a ++ p.b ++ p.f

/-- The code of `z`. -/
def z7 : Name := 120#7

/-- F, H and N (R76). -/
def fhn (f : BitVec 2) (h n : Bool) : BitVec 4 := f ++ BitVec.ofBool h ++ BitVec.ofBool n

/-- Branch form (R78). -/
def brPrim (s : Bool) (op : BitVec 6) (p : BitVec 3) (ps : Bool) (cp : BitVec 2)
    (off : BitVec 19) : Prim :=
  ⟨s, op, p ++ BitVec.ofBool ps ++ cp ++ lo off 18 1, lo off 11 7, lo off 4 7, lo off 0 4⟩

/-- F of a lane-set word. -/
def Prim.fn (p : Prim) : BitVec 2 := lo p.f 2 2
/-- H. -/
def Prim.h (p : Prim) : Bool := bit p.f 1
/-- N. -/
def Prim.n (p : Prim) : Bool := bit p.f 0
/-- D bits 24:22. -/
def Prim.dHi (p : Prim) : BitVec 3 := lo p.d 4 3
/-- D bits 21:18. -/
def Prim.dLo (p : Prim) : BitVec 4 := lo p.d 0 4
/-- A bits 17:15. -/
def Prim.aHi (p : Prim) : BitVec 3 := lo p.a 4 3
/-- A bits 14:11. -/
def Prim.aLo (p : Prim) : BitVec 4 := lo p.a 0 4
/-- B bits 10:8. -/
def Prim.bHi (p : Prim) : BitVec 3 := lo p.b 4 3
/-- B bits 7:4. -/
def Prim.bLo (p : Prim) : BitVec 4 := lo p.b 0 4
/-- Branch sense (R78). -/
def Prim.ps (p : Prim) : Bool := bit p.d 3
/-- Cast policy (R78). -/
def Prim.cp (p : Prim) : BitVec 2 := lo p.d 1 2
/-- Branch offset (R78). -/
def Prim.off (p : Prim) : BitVec 19 := lo p.d 0 1 ++ p.a ++ p.b ++ p.f
/-- Bits 17:0. -/
def Prim.low18 (p : Prim) : BitVec 18 := p.a ++ p.b ++ p.f
/-- D, A and B all hold 120. -/
def Prim.allZ (p : Prim) : Bool := p.d.isZ && p.a.isZ && p.b.isZ

/-- A form without H and N: both must be 0. -/
def Prim.noHN (p : Prim) (o : Option Instr) : Option Instr := if p.h || p.n then none else o

/-- A one-word form under a condition on its fields. -/
def onlyIf (c : Bool) (e : List Payload) (i : Instr) : Option Instr :=
  match c, e with
  | true, [] => some i
  | _, _ => none

/-- A form that may name `x` (R80): its payload, or 0. -/
def Prim.withX (p : Prim) (e : List Payload) (k : Payload → Instr) : Option Instr :=
  match p.a.isX || p.b.isX, e with
  | true, [x] => some (k x)
  | false, [] => some (k 0)
  | _, _ => none

/-- A form with one extension word. -/
def with1 (e : List Payload) (k : Payload → Option Instr) : Option Instr :=
  match e with
  | [m] => k m
  | _ => none

/-- A form with two extension words. -/
def with2 (e : List Payload) (k : Payload → Payload → Option Instr) : Option Instr :=
  match e with
  | [m, n] => k m n
  | _ => none

/-- `movx` with F = 2 (R80): bits 27:4 of the second payload are reserved. -/
def withW (e : List Payload) (k : Word → Option Instr) : Option Instr :=
  with2 e fun m n => if lo n 4 24 == 0#24 then k (lo n 0 4 ++ m) else none

/-- The extension payload list of a form that may name `x`. -/
def extX (a b : Name) (x : Payload) : List Payload := if a.isX || b.isX then [x] else []

/-- The payloads of a 32-bit value (R80). -/
def extW (v : Word) : List Payload := [lo v 0 28, 0#24 ++ lo v 28 4]

/-- `atom` and `atom.fadd.ord` (R86, R256, R257). -/
def decodeAtom (p : Prim) (m : Payload) : Option Instr :=
  if lo m 14 4 == 11#4 then
    if p.d.isZ && lo m 21 4 == 0#4 && lo m 18 3 == 2#3 then
      some (.atomFaddOrd ⟨p.a, p.b, lo m 25 3, lo m 0 14⟩)
    else none
  else some (.atom ⟨p.d, p.a, p.b, lo m 25 3, lo m 21 4, lo m 18 3, lo m 14 4, lo m 0 14⟩)

/-- Lane-set OP 0x00 (R89). -/
def lane00 (p : Prim) (e : List Payload) : Option Instr :=
  match p.fn.toNat with
  | 0 => p.withX e fun x => .add ⟨p.d, p.a, p.b, p.h, p.n, x⟩
  | 1 => p.withX e fun x => .sub ⟨p.d, p.a, p.b, p.h, p.n, x⟩
  | 2 => p.noHN (p.withX e fun x => .add64 ⟨p.d, p.a, p.b, x⟩)
  | 3 => p.noHN (p.withX e fun x => .sub64 ⟨p.d, p.a, p.b, x⟩)
  | _ => none

/-- Lane-set OP 0x01 (R89). -/
def lane01 (p : Prim) (e : List Payload) : Option Instr :=
  match p.fn.toNat with
  | 0 => p.withX e fun x => .mul ⟨p.d, p.a, p.b, p.h, p.n, x⟩
  | 1 => p.withX e fun x => .mulhiS ⟨p.d, p.a, p.b, p.h, p.n, x⟩
  | 2 => p.withX e fun x => .mulhiU ⟨p.d, p.a, p.b, p.h, p.n, x⟩
  | _ => none

/-- Lane-set OP 0x02 (R89). -/
def lane02 (p : Prim) (e : List Payload) : Option Instr :=
  match p.fn.toNat with
  | 0 => p.withX e fun x => .mad ⟨p.d, p.a, p.b, p.h, p.n, x⟩
  | _ => none

/-- Lane-set OP 0x03 (R89). -/
def lane03 (p : Prim) (e : List Payload) : Option Instr :=
  match p.fn.toNat with
  | 0 => p.withX e fun x => .divS ⟨p.d, p.a, p.b, p.h, p.n, x⟩
  | 1 => p.withX e fun x => .divU ⟨p.d, p.a, p.b, p.h, p.n, x⟩
  | 2 => p.withX e fun x => .remS ⟨p.d, p.a, p.b, p.h, p.n, x⟩
  | 3 => p.withX e fun x => .remU ⟨p.d, p.a, p.b, p.h, p.n, x⟩
  | _ => none

/-- Lane-set OP 0x04 (R89). -/
def lane04 (p : Prim) (e : List Payload) : Option Instr :=
  match p.fn.toNat with
  | 0 => p.withX e fun x => .minS ⟨p.d, p.a, p.b, p.h, p.n, x⟩
  | 1 => p.withX e fun x => .minU ⟨p.d, p.a, p.b, p.h, p.n, x⟩
  | 2 => p.withX e fun x => .maxS ⟨p.d, p.a, p.b, p.h, p.n, x⟩
  | 3 => p.withX e fun x => .maxU ⟨p.d, p.a, p.b, p.h, p.n, x⟩
  | _ => none

/-- Lane-set OP 0x05 (R89). -/
def lane05 (p : Prim) (e : List Payload) : Option Instr :=
  match p.fn.toNat with
  | 0 => p.withX e fun x => .and ⟨p.d, p.a, p.b, p.h, p.n, x⟩
  | 1 => p.withX e fun x => .or ⟨p.d, p.a, p.b, p.h, p.n, x⟩
  | 2 => p.withX e fun x => .xor ⟨p.d, p.a, p.b, p.h, p.n, x⟩
  | _ => none

/-- Lane-set OP 0x06 (R89). -/
def lane06 (p : Prim) (e : List Payload) : Option Instr :=
  match p.fn.toNat with
  | 0 => p.withX e fun x => .shl ⟨p.d, p.a, p.b, p.h, p.n, x⟩
  | 1 => p.withX e fun x => .shr ⟨p.d, p.a, p.b, p.h, p.n, x⟩
  | 2 => p.withX e fun x => .sar ⟨p.d, p.a, p.b, p.h, p.n, x⟩
  | 3 => p.withX e fun x => .rot ⟨p.d, p.a, p.b, p.h, p.n, x⟩
  | _ => none

/-- Lane-set OP 0x07 (R89). -/
def lane07 (p : Prim) (e : List Payload) : Option Instr :=
  match p.fn.toNat with
  | 0 => p.withX e fun x => .bfxU ⟨p.d, p.a, p.b, p.h, p.n, x⟩
  | 1 => p.withX e fun x => .bfxS ⟨p.d, p.a, p.b, p.h, p.n, x⟩
  | 2 => p.withX e fun x => .bfi ⟨p.d, p.a, p.b, p.h, p.n, x⟩
  | _ => none

/-- Lane-set OP 0x08 (R89). -/
def lane08 (p : Prim) (e : List Payload) : Option Instr :=
  match p.fn.toNat with
  | 0 => onlyIf p.b.isZ e (.popc ⟨p.d, p.a, p.h, p.n⟩)
  | 1 => onlyIf p.b.isZ e (.clz ⟨p.d, p.a, p.h, p.n⟩)
  | 2 => onlyIf p.b.isZ e (.ctz ⟨p.d, p.a, p.h, p.n⟩)
  | 3 => onlyIf p.b.isZ e (.brev ⟨p.d, p.a, p.h, p.n⟩)
  | _ => none

/-- Lane-set OP 0x09 (R89). -/
def lane09 (p : Prim) (e : List Payload) : Option Instr :=
  match p.fn.toNat with
  | 0 => onlyIf p.b.isZ e (.abs ⟨p.d, p.a, p.h, p.n⟩)
  | _ => none

/-- Lane-set OP 0x0A (R89). -/
def lane0A (p : Prim) (e : List Payload) : Option Instr :=
  match p.fn.toNat with
  | 0 => if p.n then none else p.withX e fun x => .cmp ⟨p.dHi, p.dLo, p.a, p.b, p.h, x⟩
  | _ => none

/-- Lane-set OP 0x0B (R89). -/
def lane0B (p : Prim) (e : List Payload) : Option Instr :=
  p.withX e fun x => .selLo ⟨p.d, p.a, p.b, p.fn, p.h, p.n, x⟩

/-- Lane-set OP 0x0C (R89). -/
def lane0C (p : Prim) (e : List Payload) : Option Instr :=
  p.withX e fun x => .selHi ⟨p.d, p.a, p.b, p.fn, p.h, p.n, x⟩

/-- Lane-set OP 0x0D (R89). -/
def lane0D (p : Prim) (e : List Payload) : Option Instr :=
  match p.fn.toNat with
  | 0 => if p.b.isZ then p.withX e fun x => .mov ⟨p.d, p.a, p.h, p.n, x⟩ else none
  | 1 => if p.a.isZ && p.b.isZ then with1 e fun m => some (.movx ⟨p.d, p.h, p.n, m⟩) else none
  | 2 => if p.a.isZ && p.b.isZ then withW e fun m => some (.movxW ⟨p.d, p.h, p.n, m⟩) else none
  | _ => none

/-- Lane-set OP 0x0E (R89). -/
def lane0E (p : Prim) (e : List Payload) : Option Instr :=
  p.noHN (p.withX e fun x => .lea64 ⟨p.d, p.a, p.b, p.fn, x⟩)

/-- Lane-set OP 0x0F (R89). -/
def lane0F (p : Prim) (e : List Payload) : Option Instr :=
  match p.fn.toNat with
  | 0 => p.noHN (onlyIf (p.dLo == 0 && p.aLo == 0 && p.bLo == 0) e (.pand ⟨p.dHi, p.aHi, p.bHi⟩))
  | 1 => p.noHN (onlyIf (p.dLo == 0 && p.aLo == 0 && p.bLo == 0) e (.por ⟨p.dHi, p.aHi, p.bHi⟩))
  | 2 => p.noHN (onlyIf (p.dLo == 0 && p.aLo == 0 && p.b == 0) e (.pnot ⟨p.dHi, p.aHi⟩))
  | 3 => p.noHN (onlyIf (p.dLo == 0 && p.aLo == 0 && p.b == 0) e (.pmov ⟨p.dHi, p.aHi⟩))
  | _ => none

/-- Lane-set OP 0x10 (R89). -/
def lane10 (p : Prim) (e : List Payload) : Option Instr :=
  p.withX e fun x => .fadd ⟨p.d, p.a, p.b, p.fn, p.h, p.n, x⟩

/-- Lane-set OP 0x11 (R89). -/
def lane11 (p : Prim) (e : List Payload) : Option Instr :=
  p.withX e fun x => .fsub ⟨p.d, p.a, p.b, p.fn, p.h, p.n, x⟩

/-- Lane-set OP 0x12 (R89). -/
def lane12 (p : Prim) (e : List Payload) : Option Instr :=
  p.withX e fun x => .fmul ⟨p.d, p.a, p.b, p.fn, p.h, p.n, x⟩

/-- Lane-set OP 0x13 (R89). -/
def lane13 (p : Prim) (e : List Payload) : Option Instr :=
  p.withX e fun x => .ffma ⟨p.d, p.a, p.b, p.fn, p.h, p.n, x⟩

/-- Lane-set OP 0x14 (R89). -/
def lane14 (p : Prim) (e : List Payload) : Option Instr :=
  match p.fn.toNat with
  | 0 => p.withX e fun x => .fmin ⟨p.d, p.a, p.b, p.h, p.n, x⟩
  | 1 => p.withX e fun x => .fmax ⟨p.d, p.a, p.b, p.h, p.n, x⟩
  | _ => none

/-- Lane-set OP 0x15 (R89). -/
def lane15 (p : Prim) (e : List Payload) : Option Instr :=
  match p.fn.toNat with
  | 0 => if p.n then none else p.withX e fun x => .fcmp ⟨p.dHi, p.dLo, p.a, p.b, p.h, x⟩
  | _ => none

/-- Lane-set OP 0x16 (R89). -/
def lane16 (p : Prim) (e : List Payload) : Option Instr :=
  onlyIf p.b.isZ e (.frcp ⟨p.d, p.a, p.fn, p.h, p.n⟩)

/-- Lane-set OP 0x17 (R89). -/
def lane17 (p : Prim) (e : List Payload) : Option Instr :=
  onlyIf p.b.isZ e (.frsq ⟨p.d, p.a, p.fn, p.h, p.n⟩)

/-- Lane-set OP 0x18 (R89). -/
def lane18 (p : Prim) (e : List Payload) : Option Instr :=
  onlyIf p.b.isZ e (.fsqrt ⟨p.d, p.a, p.fn, p.h, p.n⟩)

/-- Lane-set OP 0x19 (R89). -/
def lane19 (p : Prim) (e : List Payload) : Option Instr :=
  onlyIf p.b.isZ e (.fexp2 ⟨p.d, p.a, p.fn, p.h, p.n⟩)

/-- Lane-set OP 0x1A (R89). -/
def lane1A (p : Prim) (e : List Payload) : Option Instr :=
  onlyIf p.b.isZ e (.flog2 ⟨p.d, p.a, p.fn, p.h, p.n⟩)

/-- Lane-set OP 0x1B (R89). -/
def lane1B (p : Prim) (e : List Payload) : Option Instr :=
  match p.fn.toNat with
  | 0 => p.withX e fun x => .hadd2F16 ⟨p.d, p.a, p.b, p.h, p.n, x⟩
  | 1 => p.withX e fun x => .hmul2F16 ⟨p.d, p.a, p.b, p.h, p.n, x⟩
  | 2 => p.withX e fun x => .hadd2Bf16 ⟨p.d, p.a, p.b, p.h, p.n, x⟩
  | 3 => p.withX e fun x => .hmul2Bf16 ⟨p.d, p.a, p.b, p.h, p.n, x⟩
  | _ => none

/-- Lane-set OP 0x1C (R89). -/
def lane1C (p : Prim) (e : List Payload) : Option Instr :=
  match p.fn.toNat with
  | 0 => p.withX e fun x => .hfma2F16 ⟨p.d, p.a, p.b, p.h, p.n, x⟩
  | 2 => p.withX e fun x => .hfma2Bf16 ⟨p.d, p.a, p.b, p.h, p.n, x⟩
  | _ => none

/-- Lane-set OP 0x1D (R89). -/
def lane1D (p : Prim) (e : List Payload) : Option Instr :=
  p.noHN (onlyIf true e (.dadd ⟨p.d, p.a, p.b, p.fn⟩))

/-- Lane-set OP 0x1E (R89). -/
def lane1E (p : Prim) (e : List Payload) : Option Instr :=
  p.noHN (onlyIf true e (.dmul ⟨p.d, p.a, p.b, p.fn⟩))

/-- Lane-set OP 0x1F (R89). -/
def lane1F (p : Prim) (e : List Payload) : Option Instr :=
  p.noHN (onlyIf true e (.dfma ⟨p.d, p.a, p.b, p.fn⟩))

/-- Lane-set OP 0x20 (R89). -/
def lane20 (p : Prim) (e : List Payload) : Option Instr :=
  match p.fn.toNat with
  | 0 => if p.b.isZ then with1 e fun m => if lo m 0 18 == 0#18 then some (.cvt ⟨p.d, p.a, p.h, p.n, lo m 24 4, lo m 20 4, lo m 18 2⟩) else none else none
  | 1 => p.noHN (onlyIf p.b.isZ e (.cvtD8x4 ⟨p.d, p.a⟩))
  | 2 => p.noHN (onlyIf p.b.isZ e (.cvtF32x4 ⟨p.d, p.a⟩))
  | _ => none

/-- Lane-set OP 0x21 (R89). -/
def lane21 (p : Prim) (e : List Payload) : Option Instr :=
  match p.fn.toNat with
  | 0 => with1 e fun m => if lo m 0 21 == 0#21 then some (.shflIdx ⟨p.d, p.a, p.b, p.h, p.n, lo m 21 7⟩) else none
  | 1 => with1 e fun m => if lo m 0 21 == 0#21 then some (.shflUp ⟨p.d, p.a, p.b, p.h, p.n, lo m 21 7⟩) else none
  | 2 => with1 e fun m => if lo m 0 21 == 0#21 then some (.shflDown ⟨p.d, p.a, p.b, p.h, p.n, lo m 21 7⟩) else none
  | 3 => with1 e fun m => if lo m 0 21 == 0#21 then some (.shflXor ⟨p.d, p.a, p.b, p.h, p.n, lo m 21 7⟩) else none
  | _ => none

/-- Lane-set OP 0x22 (R89). -/
def lane22 (p : Prim) (e : List Payload) : Option Instr :=
  match p.fn.toNat with
  | 0 => if p.n then none else onlyIf (p.dLo == 0 && p.aLo == 0 && p.b.isZ) e (.voteAny ⟨p.dHi, p.aHi, p.h⟩)
  | 1 => if p.n then none else onlyIf (p.dLo == 0 && p.aLo == 0 && p.b.isZ) e (.voteAll ⟨p.dHi, p.aHi, p.h⟩)
  | 2 => onlyIf (p.aLo == 0 && p.b.isZ) e (.voteBallot ⟨p.d, p.aHi, p.h, p.n⟩)
  | _ => none

/-- Lane-set OP 0x23 (R89). -/
def lane23 (p : Prim) (e : List Payload) : Option Instr :=
  match p.fn.toNat with
  | 0 => onlyIf p.b.isZ e (.reduxAdd ⟨p.d, p.a, p.h, p.n⟩)
  | 1 => onlyIf p.b.isZ e (.reduxMin ⟨p.d, p.a, p.h, p.n⟩)
  | 2 => onlyIf p.b.isZ e (.reduxMax ⟨p.d, p.a, p.h, p.n⟩)
  | _ => none

/-- Lane-set OP 0x24 (R89). -/
def lane24 (p : Prim) (e : List Payload) : Option Instr :=
  match p.fn.toNat with
  | 0 => onlyIf p.b.isZ e (.match_ ⟨p.d, p.a, p.h, p.n⟩)
  | _ => none

/-- Lane-set OP 0x25 (R89). -/
def lane25 (p : Prim) (e : List Payload) : Option Instr :=
  match p.fn.toNat with
  | 0 => p.noHN (onlyIf (lo p.d 3 4 == 14#4) e (.wBind ⟨lo p.d 0 3, p.a, p.b⟩))
  | _ => none

/-- Lane-set OP 0x26 (R89). -/
def lane26 (p : Prim) (e : List Payload) : Option Instr :=
  match p.fn.toNat with
  | 0 => p.noHN (onlyIf (lo p.d 3 4 == 14#4 && p.b.isZ) e (.wSkip ⟨lo p.d 0 3, p.a⟩))
  | _ => none

/-- Lane-set OP 0x27 (R89). -/
def lane27 (p : Prim) (e : List Payload) : Option Instr :=
  onlyIf true e (.bw ⟨p.dHi, p.ps, p.cp, p.off⟩)

/-- Lane-set OP 0x28 (R89). -/
def lane28 (p : Prim) (e : List Payload) : Option Instr :=
  match p.fn.toNat with
  | 0 => p.noHN (if p.b.isZ then with1 e fun m => some (.ld ⟨p.d, p.a, lo m 25 3, lo m 21 4, lo m 18 3, lo m 0 18⟩) else none)
  | 1 => p.noHN (if p.b.isZ then with1 e fun m => some (.ldNc ⟨p.d, p.a, lo m 25 3, lo m 21 4, lo m 18 3, lo m 0 18⟩) else none)
  | 2 => p.noHN (if p.b.isZ then with1 e fun m => some (.ldByp ⟨p.d, p.a, lo m 25 3, lo m 21 4, lo m 18 3, lo m 0 18⟩) else none)
  | _ => none

/-- Lane-set OP 0x29 (R89). -/
def lane29 (p : Prim) (e : List Payload) : Option Instr :=
  match p.fn.toNat with
  | 0 => p.noHN (if p.b.isZ then with1 e fun m => some (.st ⟨p.d, p.a, lo m 25 3, lo m 21 4, lo m 18 3, lo m 0 18⟩) else none)
  | 1 => p.noHN (if p.b.isZ then with1 e fun m => some (.stNc ⟨p.d, p.a, lo m 25 3, lo m 21 4, lo m 18 3, lo m 0 18⟩) else none)
  | 2 => p.noHN (if p.b.isZ then with1 e fun m => some (.stByp ⟨p.d, p.a, lo m 25 3, lo m 21 4, lo m 18 3, lo m 0 18⟩) else none)
  | _ => none

/-- Lane-set OP 0x2A (R89). -/
def lane2A (p : Prim) (e : List Payload) : Option Instr :=
  match p.fn.toNat with
  | 0 => p.noHN (if p.b.isZ then with1 e fun m => some (.ldAcq ⟨p.d, p.a, lo m 25 3, lo m 21 4, lo m 18 3, lo m 0 18⟩) else none)
  | 1 => p.noHN (if p.b.isZ then with1 e fun m => some (.stRel ⟨p.d, p.a, lo m 25 3, lo m 21 4, lo m 18 3, lo m 0 18⟩) else none)
  | _ => none

/-- Lane-set OP 0x2B (R89). -/
def lane2B (p : Prim) (e : List Payload) : Option Instr :=
  match p.fn.toNat with
  | 0 => p.noHN (if p.bLo == 0 then with1 e fun m => some (.ldProbe ⟨p.d, p.a, p.bHi, lo m 25 3, lo m 21 4, lo m 18 3, lo m 0 18⟩) else none)
  | _ => none

/-- Lane-set OP 0x2C (R89). -/
def lane2C (p : Prim) (e : List Payload) : Option Instr :=
  match p.fn.toNat with
  | 0 => p.noHN (with1 e fun m => if lo m 0 13 == 0#13 then some (.gather ⟨p.d, p.a, p.b, lo m 25 3, lo m 21 4, lo m 18 3, lo m 16 2, lo m 13 3⟩) else none)
  | _ => none

/-- Lane-set OP 0x2D (R89). -/
def lane2D (p : Prim) (e : List Payload) : Option Instr :=
  match p.fn.toNat with
  | 0 => p.noHN (with1 e fun m => if lo m 0 13 == 0#13 then some (.scatter ⟨p.d, p.a, p.b, lo m 25 3, lo m 21 4, lo m 18 3, lo m 16 2, lo m 13 3⟩) else none)
  | 1 => p.noHN (with1 e fun m => if lo m 0 13 == 0#13 then some (.scatterAdd ⟨p.d, p.a, p.b, lo m 25 3, lo m 21 4, lo m 18 3, lo m 16 2, lo m 13 3⟩) else none)
  | _ => none

/-- Lane-set OP 0x2E (R89). -/
def lane2E (p : Prim) (e : List Payload) : Option Instr :=
  match p.fn.toNat with
  | 0 => p.noHN (with1 e fun m => decodeAtom p m)
  | _ => none

/-- Lane-set OP 0x2F (R89). -/
def lane2F (p : Prim) (e : List Payload) : Option Instr :=
  match p.fn.toNat with
  | 0 => p.noHN (if p.b.isZ then with1 e fun m => some (.lds ⟨p.d, p.a, lo m 25 3, lo m 21 4, lo m 18 3, lo m 0 18⟩) else none)
  | 1 => p.noHN (if p.b.isZ then with1 e fun m => some (.sts ⟨p.d, p.a, lo m 25 3, lo m 21 4, lo m 18 3, lo m 0 18⟩) else none)
  | 2 => p.noHN (if p.b.isZ then with1 e fun m => some (.xst ⟨p.d, p.a, lo m 25 3, lo m 21 4, lo m 18 3, lo m 0 18⟩) else none)
  | _ => none

/-- Lane-set OP 0x30 (R89). -/
def lane30 (p : Prim) (e : List Payload) : Option Instr :=
  match p.fn.toNat with
  | 0 => p.noHN (with1 e fun m => some (.waitaEq ⟨p.d, p.a, p.b, lo m 25 3, lo m 21 4, lo m 18 3, lo m 0 18⟩))
  | 1 => p.noHN (with1 e fun m => some (.waitaNe ⟨p.d, p.a, p.b, lo m 25 3, lo m 21 4, lo m 18 3, lo m 0 18⟩))
  | _ => none

/-- Lane-set OP 0x31 (R89). -/
def lane31 (p : Prim) (e : List Payload) : Option Instr :=
  onlyIf (p.low18 == 0 && lo p.d 0 1 == 0#1) e (.fence ⟨lo p.d 3 4, lo p.d 1 2⟩)

/-- Lane-set OP 0x32 (R89). -/
def lane32 (p : Prim) (e : List Payload) : Option Instr :=
  onlyIf (p.low18 == 0 && lo p.d 0 1 == 0#1) e (.pfence ⟨lo p.d 4 3, lo p.d 1 3⟩)

/-- Lane-set OP 0x33 (R89). -/
def lane33 (p : Prim) (e : List Payload) : Option Instr :=
  match p.fn.toNat with
  | 0 => p.noHN (if p.d.isZ && p.b.isZ then with1 e fun m => if lo m 18 7 == 0#7 then some (.spb ⟨p.a, lo m 25 3, lo m 0 18⟩) else none else none)
  | 1 => p.noHN (if p.d.isZ && p.b.isZ then with1 e fun m => if lo m 18 7 == 0#7 then some (.fla ⟨p.a, lo m 25 3, lo m 0 18⟩) else none else none)
  | _ => none

/-- Lane-set OP 0x34 (R89). -/
def lane34 (p : Prim) (e : List Payload) : Option Instr :=
  match p.fn.toNat with
  | 0 => p.noHN (if p.d.isZ && p.b.isZ then with1 e fun m => if lo m 18 7 == 0#7 then some (.wb ⟨p.a, lo m 25 3, lo m 0 18⟩) else none else none)
  | 1 => p.noHN (if p.d.isZ && p.b.isZ then with1 e fun m => if lo m 18 7 == 0#7 then some (.inv ⟨p.a, lo m 25 3, lo m 0 18⟩) else none else none)
  | 2 => p.noHN (if p.d.isZ && p.b.isZ then with1 e fun m => if lo m 18 7 == 0#7 then some (.pref ⟨p.a, lo m 25 3, lo m 0 18⟩) else none else none)
  | _ => none

/-- Lane-set OP 0x35 (R89). -/
def lane35 (p : Prim) (e : List Payload) : Option Instr :=
  match p.fn.toNat with
  | 0 => p.noHN (if p.d.isZ then with1 e fun m => if lo m 18 7 == 0#7 then some (.wsClear ⟨p.a, p.b, lo m 25 3, lo m 0 18⟩) else none else none)
  | _ => none

/-- Lane-set OP 0x38 (R89). With F = 1 the table of R153 sets no limit on any field: the form raises PLACE. -/
def lane38 (p : Prim) (e : List Payload) : Option Instr :=
  if p.fn == 1 then onlyIf true e (.redecl ⟨p.d, p.a, p.fn⟩) else p.noHN (onlyIf p.b.isZ e (.redecl ⟨p.d, p.a, p.fn⟩))

/-- Lane-set OP 0x39 (R89). -/
def lane39 (p : Prim) (e : List Payload) : Option Instr :=
  match p.fn.toNat with
  | 0 => p.noHN (onlyIf p.b.isZ e (.plc ⟨p.d, p.a⟩))
  | _ => none

/-- Lane-set OP 0x3A (R89). -/
def lane3A (p : Prim) (e : List Payload) : Option Instr :=
  onlyIf true e (.bra ⟨p.dHi, p.ps, p.cp, p.off⟩)

/-- Lane-set OP 0x3B (R89). -/
def lane3B (p : Prim) (e : List Payload) : Option Instr :=
  match p.fn.toNat with
  | 0 => p.noHN (onlyIf p.allZ e .exit)
  | _ => none

/-- Lane-set OP 0x3C (R89). -/
def lane3C (p : Prim) (e : List Payload) : Option Instr :=
  match p.fn.toNat with
  | 0 => p.noHN (onlyIf p.allZ e .nop)
  | 1 => p.noHN (onlyIf p.allZ e .yield)
  | _ => none

/-- Lane-set OP 0x3D (R89). -/
def lane3D (p : Prim) (e : List Payload) : Option Instr :=
  match p.fn.toNat with
  | 0 => p.noHN (onlyIf (p.d.isZ && p.b.isZ) e (.ret p.a))
  | _ => none

/-- Group-set OP 0x00 (R90). -/
def group00 (p : Prim) (e : List Payload) : Option Instr :=
  match p.f.toNat with
  | 0 => p.withX e fun x => .gAdd ⟨p.d, p.a, p.b, x⟩
  | 1 => p.withX e fun x => .gSub ⟨p.d, p.a, p.b, x⟩
  | 2 => p.withX e fun x => .gAdd64 ⟨p.d, p.a, p.b, x⟩
  | 3 => p.withX e fun x => .gSub64 ⟨p.d, p.a, p.b, x⟩
  | _ => none

/-- Group-set OP 0x01 (R90). -/
def group01 (p : Prim) (e : List Payload) : Option Instr :=
  match p.f.toNat with
  | 0 => p.withX e fun x => .gMul ⟨p.d, p.a, p.b, x⟩
  | 1 => p.withX e fun x => .gMulhiS ⟨p.d, p.a, p.b, x⟩
  | 2 => p.withX e fun x => .gMulhiU ⟨p.d, p.a, p.b, x⟩
  | _ => none

/-- Group-set OP 0x02 (R90). -/
def group02 (p : Prim) (e : List Payload) : Option Instr :=
  match p.f.toNat with
  | 0 => p.withX e fun x => .gAnd ⟨p.d, p.a, p.b, x⟩
  | 1 => p.withX e fun x => .gOr ⟨p.d, p.a, p.b, x⟩
  | 2 => p.withX e fun x => .gXor ⟨p.d, p.a, p.b, x⟩
  | _ => none

/-- Group-set OP 0x03 (R90). -/
def group03 (p : Prim) (e : List Payload) : Option Instr :=
  match p.f.toNat with
  | 0 => p.withX e fun x => .gShl ⟨p.d, p.a, p.b, x⟩
  | 1 => p.withX e fun x => .gShr ⟨p.d, p.a, p.b, x⟩
  | 2 => p.withX e fun x => .gSar ⟨p.d, p.a, p.b, x⟩
  | 3 => p.withX e fun x => .gRot ⟨p.d, p.a, p.b, x⟩
  | _ => none

/-- Group-set OP 0x04 (R90). -/
def group04 (p : Prim) (e : List Payload) : Option Instr :=
  match p.f.toNat with
  | 0 => p.withX e fun x => .gMinS ⟨p.d, p.a, p.b, x⟩
  | 1 => p.withX e fun x => .gMinU ⟨p.d, p.a, p.b, x⟩
  | 2 => p.withX e fun x => .gMaxS ⟨p.d, p.a, p.b, x⟩
  | 3 => p.withX e fun x => .gMaxU ⟨p.d, p.a, p.b, x⟩
  | _ => none

/-- Group-set OP 0x05 (R90). -/
def group05 (p : Prim) (e : List Payload) : Option Instr :=
  match p.f.toNat with
  | 0 => p.withX e fun x => .gCmp ⟨p.dHi, p.dLo, p.a, p.b, x⟩
  | _ => none

/-- Group-set OP 0x06 (R90). -/
def group06 (p : Prim) (e : List Payload) : Option Instr :=
  if lo p.f 3 1 == 0#1 then p.withX e fun x => .gSel ⟨p.d, p.a, p.b, lo p.f 0 3, x⟩ else none

/-- Group-set OP 0x07 (R90). -/
def group07 (p : Prim) (e : List Payload) : Option Instr :=
  match p.f.toNat with
  | 0 => if p.b.isZ then p.withX e fun x => .gMov ⟨p.d, p.a, x⟩ else none
  | 1 => if p.a.isZ && p.b.isZ then with1 e fun m => some (.gMovx ⟨p.d, m⟩) else none
  | 2 => if p.a.isZ && p.b.isZ then withW e fun m => some (.gMovxW ⟨p.d, m⟩) else none
  | _ => none

/-- Group-set OP 0x08 (R90). -/
def group08 (p : Prim) (e : List Payload) : Option Instr :=
  match p.f.toNat with
  | 0 => p.withX e fun x => .gBfxU ⟨p.d, p.a, p.b, x⟩
  | 1 => p.withX e fun x => .gBfxS ⟨p.d, p.a, p.b, x⟩
  | 2 => p.withX e fun x => .gBfi ⟨p.d, p.a, p.b, x⟩
  | _ => none

/-- Group-set OP 0x09 (R90). -/
def group09 (p : Prim) (e : List Payload) : Option Instr :=
  if lo p.f 2 2 == 0#2 then p.withX e fun x => .gLea64 ⟨p.d, p.a, p.b, lo p.f 0 2, x⟩ else none

/-- Group-set OP 0x0A (R90). -/
def group0A (p : Prim) (e : List Payload) : Option Instr :=
  match p.f.toNat with
  | 0 => onlyIf p.b.isZ e (.gPopc ⟨p.d, p.a⟩)
  | 1 => onlyIf p.b.isZ e (.gClz ⟨p.d, p.a⟩)
  | 2 => onlyIf p.b.isZ e (.gCtz ⟨p.d, p.a⟩)
  | _ => none

/-- Group-set OP 0x0B (R90). -/
def group0B (p : Prim) (e : List Payload) : Option Instr :=
  match p.f.toNat with
  | 0 => p.withX e fun x => .gDivS ⟨p.d, p.a, p.b, x⟩
  | 1 => p.withX e fun x => .gDivU ⟨p.d, p.a, p.b, x⟩
  | 2 => p.withX e fun x => .gRemS ⟨p.d, p.a, p.b, x⟩
  | 3 => p.withX e fun x => .gRemU ⟨p.d, p.a, p.b, x⟩
  | _ => none

/-- Group-set OP 0x0C (R90). -/
def group0C (p : Prim) (e : List Payload) : Option Instr :=
  onlyIf (lo p.d 1 6 == 0#6) e (.jmp p.off)

/-- Group-set OP 0x0D (R90). -/
def group0D (p : Prim) (e : List Payload) : Option Instr :=
  onlyIf true e (.call ⟨lo p.d 1 6, p.off⟩)

/-- Group-set OP 0x0E (R90). -/
def group0E (p : Prim) (e : List Payload) : Option Instr :=
  match p.f.toNat with
  | 0 => onlyIf p.b.isZ e (.callr ⟨p.d, p.a⟩)
  | _ => none

/-- Group-set OP 0x0F (R90). -/
def group0F (p : Prim) (e : List Payload) : Option Instr :=
  onlyIf (p.cp == 0) e (.gbra ⟨p.dHi, p.ps, p.off⟩)

/-- Group-set OP 0x10 (R90). -/
def group10 (p : Prim) (e : List Payload) : Option Instr :=
  match p.f.toNat with
  | 0 => onlyIf p.allZ e .ifence
  | _ => none

/-- Group-set OP 0x14 (R90). -/
def group14 (p : Prim) (e : List Payload) : Option Instr :=
  match p.f.toNat with
  | 0 => onlyIf true e (.trap (p.d ++ p.a ++ p.b))
  | _ => none

/-- Group-set OP 0x15 (R90). -/
def group15 (p : Prim) (e : List Payload) : Option Instr :=
  match p.f.toNat with
  | 0 => onlyIf true e (.sysr ⟨p.d, p.a ++ p.b⟩)
  | _ => none

/-- Group-set OP 0x16 (R90). -/
def group16 (p : Prim) (e : List Payload) : Option Instr :=
  match p.f.toNat with
  | 0 => onlyIf true e (.sysw ⟨p.d, p.a ++ p.b⟩)
  | _ => none

/-- Group-set OP 0x17 (R90). -/
def group17 (p : Prim) (e : List Payload) : Option Instr :=
  match p.f.toNat with
  | 0 => onlyIf p.allZ e .eret
  | 1 => onlyIf p.allZ e .eretSave
  | _ => none

/-- Group-set OP 0x1C (R90). -/
def group1C (p : Prim) (e : List Payload) : Option Instr :=
  match p.f.toNat with
  | 0 => onlyIf (lo p.a 0 3 == 0#3 && p.b == 0) e (.wait ⟨p.dHi, p.dLo ++ lo p.a 3 4⟩)
  | _ => none

/-- Group-set OP 0x1D (R90). -/
def group1D (p : Prim) (e : List Payload) : Option Instr :=
  match p.f.toNat with
  | 0 => onlyIf (lo p.d 0 3 == 0#3 && p.a.isZ && p.b.isZ) e (.barSync (lo p.d 3 4))
  | 1 => onlyIf (lo p.d 0 3 == 0#3 && p.a.isZ && p.b.isZ) e (.barArrive (lo p.d 3 4))
  | 2 => onlyIf (lo p.d 0 3 == 0#3 && p.a.isZ && p.b.isZ) e (.barSwap (lo p.d 3 4))
  | _ => none

/-- Group-set OP 0x1E (R90). -/
def group1E (p : Prim) (e : List Payload) : Option Instr :=
  match p.f.toNat with
  | 0 => onlyIf (p.d.isZ && p.b.isZ) e (.join p.a)
  | _ => none

/-- Group-set OP 0x1F (R90). -/
def group1F (p : Prim) (e : List Payload) : Option Instr :=
  match p.f.toNat with
  | 0 => if p.d.isZ then p.withX e fun x => .gateAdd ⟨p.a, p.b, x⟩ else none
  | 1 => if p.d.isZ then p.withX e fun x => .gateWait ⟨p.a, p.b, x⟩ else none
  | _ => none

/-- Group-set OP 0x20 (R90). -/
def group20 (p : Prim) (e : List Payload) : Option Instr :=
  match p.f.toNat with
  | 0 => onlyIf (p.a.isZ && p.b.isZ) e (.lumPurse p.d)
  | _ => none

/-- Group-set OP 0x21 (R90). -/
def group21 (p : Prim) (e : List Payload) : Option Instr :=
  match p.f.toNat with
  | 0 => onlyIf true e (.perfRead ⟨p.d, p.a ++ p.b⟩)
  | _ => none

/-- Group-set OP 0x22 (R90). -/
def group22 (p : Prim) (e : List Payload) : Option Instr :=
  match p.f.toNat with
  | 0 => onlyIf p.allZ e .wdogKick
  | _ => none

/-- Group-set OP 0x24 (R90). -/
def group24 (p : Prim) (e : List Payload) : Option Instr :=
  match p.f.toNat with
  | 1 => onlyIf (p.d.isZ && p.b.isZ) e (.patInv p.a)
  | 0 => onlyIf p.d.isZ e (.patSet ⟨p.a, p.b⟩)
  | _ => none

/-- Group-set OP 0x25 (R90). -/
def group25 (p : Prim) (e : List Payload) : Option Instr :=
  match p.f.toNat with
  | 0 => onlyIf p.b.isZ e (.tlook ⟨p.d, p.a⟩)
  | 2 => onlyIf p.b.isZ e (.tclr ⟨p.d, p.a⟩)
  | 1 => onlyIf true e (.tset ⟨p.d, p.a, p.b⟩)
  | _ => none

/-- Group-set OP 0x26 (R90). -/
def group26 (p : Prim) (e : List Payload) : Option Instr :=
  match p.f.toNat with
  | 0 => onlyIf (p.d.isZ && p.b.isZ) e (.seqLoad p.a)
  | _ => none

/-- Group-set OP 0x27 (R90). -/
def group27 (p : Prim) (e : List Payload) : Option Instr :=
  match p.f.toNat with
  | 0 => onlyIf p.d.isZ e (.remapSet ⟨p.a, p.b⟩)
  | _ => none

/-- Group-set OP 0x28 (R90). -/
def group28 (p : Prim) (e : List Payload) : Option Instr :=
  match p.f.toNat with
  | 0 => onlyIf p.d.isZ e (.tlbInv ⟨p.a, p.b⟩)
  | 1 => onlyIf p.d.isZ e (.retype ⟨p.a, p.b⟩)
  | 2 => onlyIf p.d.isZ e (.priceSet ⟨p.a, p.b⟩)
  | _ => none

/-- Group-set OP 0x29 (R90). -/
def group29 (p : Prim) (e : List Payload) : Option Instr :=
  match p.f.toNat with
  | 0 => onlyIf (p.d.isZ && p.b.isZ) e (.rgnMake p.a)
  | 1 => onlyIf (p.d.isZ && p.b.isZ) e (.peerMap p.a)
  | _ => none

/-- Group-set OP 0x2A (R90). -/
def group2A (p : Prim) (e : List Payload) : Option Instr :=
  match p.f.toNat with
  | 0 => p.withX e fun x => .spawn ⟨p.d, p.a, p.b, x⟩
  | _ => none

/-- Group-set OP 0x2B (R90). -/
def group2B (p : Prim) (e : List Payload) : Option Instr :=
  match p.f.toNat with
  | 0 => if p.d.isZ then with1 e fun m => if lo m 0 25 == 0#25 then some (.contPush ⟨p.a, p.b, lo m 25 3⟩) else none else none
  | _ => none

/-- Group-set OP 0x2C (R90). -/
def group2C (p : Prim) (e : List Payload) : Option Instr :=
  match p.f.toNat with
  | 0 => if p.d.isZ && p.b.isZ then with1 e fun m => if lo m 0 25 == 0#25 then some (.ttask ⟨p.a, lo m 25 3⟩) else none else none
  | _ => none

/-- Group-set OP 0x2D (R90). -/
def group2D (p : Prim) (e : List Payload) : Option Instr :=
  match p.f.toNat with
  | 0 => if p.d.isZ then with1 e fun m => if lo m 0 25 == 0#25 then some (.ldlCopy ⟨p.a, p.b, lo m 25 3⟩) else none else none
  | _ => none

/-- Group-set OP 0x2E (R90). -/
def group2E (p : Prim) (e : List Payload) : Option Instr :=
  match p.f.toNat with
  | 0 => if p.d.isZ then with1 e fun m => if lo m 0 12 == 0#12 && lo m 21 4 == 0#4 then some (.ldlFeed ⟨p.a, p.b, lo m 25 3, lo m 13 8, bit m 12⟩) else none else none
  | _ => none

/-- Group-set OP 0x2F (R90). -/
def group2F (p : Prim) (e : List Payload) : Option Instr :=
  match p.f.toNat with
  | 0 => if p.d.isZ then with1 e fun m => if lo m 0 21 == 0#21 then some (.runCopy ⟨p.a, p.b, lo m 25 3, lo m 21 4⟩) else none else none
  | _ => none

/-- Group-set OP 0x30 (R90). -/
def group30 (p : Prim) (e : List Payload) : Option Instr :=
  match p.f.toNat with
  | 0 => onlyIf p.allZ e .castFlush
  | _ => none

/-- Group-set OP 0x34 (R90). -/
def group34 (p : Prim) (e : List Payload) : Option Instr :=
  match p.f.toNat with
  | 1 => onlyIf p.b.isZ e (.mxSync ⟨p.d, p.a⟩)
  | 2 => onlyIf (p.d.isZ && p.b.isZ) e (.mxGang p.a)
  | 0 => if p.allZ then with1 e fun m => if lo m 0 16 == 0#16 then some (.mxZero ⟨lo m 25 3, lo m 18 7, lo m 16 2⟩) else none else none
  | _ => none

/-- Group-set OP 0x35 (R90). -/
def group35 (p : Prim) (e : List Payload) : Option Instr :=
  match p.f.toNat with
  | 0 => if p.d.isZ && p.b.isZ then with2 e fun m n => if lo m 12 16 == 0#16 && lo m 0 2 == 0#2 && lo n 0 16 == 0#16 then some (.mxLoad ⟨p.a, lo m 4 8, lo m 2 2, lo n 25 3, lo n 18 7, lo n 16 2⟩) else none else none
  | _ => none

/-- Group-set OP 0x36 (R90). -/
def group36 (p : Prim) (e : List Payload) : Option Instr :=
  match p.f.toNat with
  | 0 => if p.allZ then with2 e fun m n => if lo m 0 2 == 0#2 && lo n 0 4 == 0#4 then some (.mxMma ⟨lo m 20 8, lo m 12 8, lo m 4 8, lo m 2 2, lo n 25 3, lo n 18 7, lo n 16 2, lo n 4 12⟩) else none else none
  | 1 => if p.allZ then with2 e fun m n => if lo m 0 2 == 0#2 && lo n 0 4 == 0#4 then some (.mxSmma ⟨lo m 20 8, lo m 12 8, lo m 4 8, lo m 2 2, lo n 25 3, lo n 18 7, lo n 16 2, lo n 4 12⟩) else none else none
  | _ => none

/-- Group-set OP 0x37 (R90). -/
def group37 (p : Prim) (e : List Payload) : Option Instr :=
  match p.f.toNat with
  | 0 => if p.d.isZ && p.b.isZ then with2 e fun m n => if lo m 12 16 == 0#16 && lo m 0 2 == 0#2 && lo n 4 12 == 0#12 then some (.mxStore ⟨p.a, lo m 4 8, lo m 2 2, lo n 25 3, lo n 18 7, lo n 16 2, lo n 0 4⟩) else none else none
  | _ => none

/-- The lane-set map (R89); an OP absent from it is none (R92). -/
def decodeLane (p : Prim) (e : List Payload) : Option Instr :=
  match p.op.toNat with
  | 0x00 => lane00 p e
  | 0x01 => lane01 p e
  | 0x02 => lane02 p e
  | 0x03 => lane03 p e
  | 0x04 => lane04 p e
  | 0x05 => lane05 p e
  | 0x06 => lane06 p e
  | 0x07 => lane07 p e
  | 0x08 => lane08 p e
  | 0x09 => lane09 p e
  | 0x0A => lane0A p e
  | 0x0B => lane0B p e
  | 0x0C => lane0C p e
  | 0x0D => lane0D p e
  | 0x0E => lane0E p e
  | 0x0F => lane0F p e
  | 0x10 => lane10 p e
  | 0x11 => lane11 p e
  | 0x12 => lane12 p e
  | 0x13 => lane13 p e
  | 0x14 => lane14 p e
  | 0x15 => lane15 p e
  | 0x16 => lane16 p e
  | 0x17 => lane17 p e
  | 0x18 => lane18 p e
  | 0x19 => lane19 p e
  | 0x1A => lane1A p e
  | 0x1B => lane1B p e
  | 0x1C => lane1C p e
  | 0x1D => lane1D p e
  | 0x1E => lane1E p e
  | 0x1F => lane1F p e
  | 0x20 => lane20 p e
  | 0x21 => lane21 p e
  | 0x22 => lane22 p e
  | 0x23 => lane23 p e
  | 0x24 => lane24 p e
  | 0x25 => lane25 p e
  | 0x26 => lane26 p e
  | 0x27 => lane27 p e
  | 0x28 => lane28 p e
  | 0x29 => lane29 p e
  | 0x2A => lane2A p e
  | 0x2B => lane2B p e
  | 0x2C => lane2C p e
  | 0x2D => lane2D p e
  | 0x2E => lane2E p e
  | 0x2F => lane2F p e
  | 0x30 => lane30 p e
  | 0x31 => lane31 p e
  | 0x32 => lane32 p e
  | 0x33 => lane33 p e
  | 0x34 => lane34 p e
  | 0x35 => lane35 p e
  | 0x38 => lane38 p e
  | 0x39 => lane39 p e
  | 0x3A => lane3A p e
  | 0x3B => lane3B p e
  | 0x3C => lane3C p e
  | 0x3D => lane3D p e
  | _ => none

/-- The group-set map (R90); an OP absent from it is none (R92). -/
def decodeGroup (p : Prim) (e : List Payload) : Option Instr :=
  match p.op.toNat with
  | 0x00 => group00 p e
  | 0x01 => group01 p e
  | 0x02 => group02 p e
  | 0x03 => group03 p e
  | 0x04 => group04 p e
  | 0x05 => group05 p e
  | 0x06 => group06 p e
  | 0x07 => group07 p e
  | 0x08 => group08 p e
  | 0x09 => group09 p e
  | 0x0A => group0A p e
  | 0x0B => group0B p e
  | 0x0C => group0C p e
  | 0x0D => group0D p e
  | 0x0E => group0E p e
  | 0x0F => group0F p e
  | 0x10 => group10 p e
  | 0x14 => group14 p e
  | 0x15 => group15 p e
  | 0x16 => group16 p e
  | 0x17 => group17 p e
  | 0x1C => group1C p e
  | 0x1D => group1D p e
  | 0x1E => group1E p e
  | 0x1F => group1F p e
  | 0x20 => group20 p e
  | 0x21 => group21 p e
  | 0x22 => group22 p e
  | 0x24 => group24 p e
  | 0x25 => group25 p e
  | 0x26 => group26 p e
  | 0x27 => group27 p e
  | 0x28 => group28 p e
  | 0x29 => group29 p e
  | 0x2A => group2A p e
  | 0x2B => group2B p e
  | 0x2C => group2C p e
  | 0x2D => group2D p e
  | 0x2E => group2E p e
  | 0x2F => group2F p e
  | 0x30 => group30 p e
  | 0x34 => group34 p e
  | 0x35 => group35 p e
  | 0x36 => group36 p e
  | 0x37 => group37 p e
  | _ => none

/-- The instruction of a first word and its extension payloads. -/
def decodeParts (p : Prim) (e : List Payload) : Option Instr :=
  if p.s then decodeGroup p e else decodeLane p e

/-- First word and extension payloads of an instruction (R76 to R90); none for an event. -/
def encodeParts : Instr → Option (Prim × List Payload)
  | .add i => some (⟨false, 0x00, i.d, i.a, i.b, fhn 0 i.h i.n⟩, extX i.a i.b i.x)
  | .sub i => some (⟨false, 0x00, i.d, i.a, i.b, fhn 1 i.h i.n⟩, extX i.a i.b i.x)
  | .add64 i => some (⟨false, 0x00, i.d, i.a, i.b, fhn 2 false false⟩, extX i.a i.b i.x)
  | .sub64 i => some (⟨false, 0x00, i.d, i.a, i.b, fhn 3 false false⟩, extX i.a i.b i.x)
  | .mul i => some (⟨false, 0x01, i.d, i.a, i.b, fhn 0 i.h i.n⟩, extX i.a i.b i.x)
  | .mulhiS i => some (⟨false, 0x01, i.d, i.a, i.b, fhn 1 i.h i.n⟩, extX i.a i.b i.x)
  | .mulhiU i => some (⟨false, 0x01, i.d, i.a, i.b, fhn 2 i.h i.n⟩, extX i.a i.b i.x)
  | .mad i => some (⟨false, 0x02, i.d, i.a, i.b, fhn 0 i.h i.n⟩, extX i.a i.b i.x)
  | .divS i => some (⟨false, 0x03, i.d, i.a, i.b, fhn 0 i.h i.n⟩, extX i.a i.b i.x)
  | .divU i => some (⟨false, 0x03, i.d, i.a, i.b, fhn 1 i.h i.n⟩, extX i.a i.b i.x)
  | .remS i => some (⟨false, 0x03, i.d, i.a, i.b, fhn 2 i.h i.n⟩, extX i.a i.b i.x)
  | .remU i => some (⟨false, 0x03, i.d, i.a, i.b, fhn 3 i.h i.n⟩, extX i.a i.b i.x)
  | .minS i => some (⟨false, 0x04, i.d, i.a, i.b, fhn 0 i.h i.n⟩, extX i.a i.b i.x)
  | .minU i => some (⟨false, 0x04, i.d, i.a, i.b, fhn 1 i.h i.n⟩, extX i.a i.b i.x)
  | .maxS i => some (⟨false, 0x04, i.d, i.a, i.b, fhn 2 i.h i.n⟩, extX i.a i.b i.x)
  | .maxU i => some (⟨false, 0x04, i.d, i.a, i.b, fhn 3 i.h i.n⟩, extX i.a i.b i.x)
  | .and i => some (⟨false, 0x05, i.d, i.a, i.b, fhn 0 i.h i.n⟩, extX i.a i.b i.x)
  | .or i => some (⟨false, 0x05, i.d, i.a, i.b, fhn 1 i.h i.n⟩, extX i.a i.b i.x)
  | .xor i => some (⟨false, 0x05, i.d, i.a, i.b, fhn 2 i.h i.n⟩, extX i.a i.b i.x)
  | .shl i => some (⟨false, 0x06, i.d, i.a, i.b, fhn 0 i.h i.n⟩, extX i.a i.b i.x)
  | .shr i => some (⟨false, 0x06, i.d, i.a, i.b, fhn 1 i.h i.n⟩, extX i.a i.b i.x)
  | .sar i => some (⟨false, 0x06, i.d, i.a, i.b, fhn 2 i.h i.n⟩, extX i.a i.b i.x)
  | .rot i => some (⟨false, 0x06, i.d, i.a, i.b, fhn 3 i.h i.n⟩, extX i.a i.b i.x)
  | .bfxU i => some (⟨false, 0x07, i.d, i.a, i.b, fhn 0 i.h i.n⟩, extX i.a i.b i.x)
  | .bfxS i => some (⟨false, 0x07, i.d, i.a, i.b, fhn 1 i.h i.n⟩, extX i.a i.b i.x)
  | .bfi i => some (⟨false, 0x07, i.d, i.a, i.b, fhn 2 i.h i.n⟩, extX i.a i.b i.x)
  | .popc i => some (⟨false, 0x08, i.d, i.a, z7, fhn 0 i.h i.n⟩, [])
  | .clz i => some (⟨false, 0x08, i.d, i.a, z7, fhn 1 i.h i.n⟩, [])
  | .ctz i => some (⟨false, 0x08, i.d, i.a, z7, fhn 2 i.h i.n⟩, [])
  | .brev i => some (⟨false, 0x08, i.d, i.a, z7, fhn 3 i.h i.n⟩, [])
  | .abs i => some (⟨false, 0x09, i.d, i.a, z7, fhn 0 i.h i.n⟩, [])
  | .cmp i => some (⟨false, 0x0A, i.p ++ i.c, i.a, i.b, fhn 0 i.h false⟩, extX i.a i.b i.x)
  | .selLo i => some (⟨false, 0x0B, i.d, i.a, i.b, fhn i.p i.h i.n⟩, extX i.a i.b i.x)
  | .selHi i => some (⟨false, 0x0C, i.d, i.a, i.b, fhn i.p i.h i.n⟩, extX i.a i.b i.x)
  | .mov i => some (⟨false, 0x0D, i.d, i.a, z7, fhn 0 i.h i.n⟩, extX i.a z7 i.x)
  | .movx i => some (⟨false, 0x0D, i.d, z7, z7, fhn 1 i.h i.n⟩, [i.imm])
  | .movxW i => some (⟨false, 0x0D, i.d, z7, z7, fhn 2 i.h i.n⟩, extW i.imm)
  | .lea64 i => some (⟨false, 0x0E, i.d, i.a, i.b, fhn i.s false false⟩, extX i.a i.b i.x)
  | .pand i => some (⟨false, 0x0F, i.p ++ 0#4, i.q ++ 0#4, i.r ++ 0#4, fhn 0 false false⟩, [])
  | .por i => some (⟨false, 0x0F, i.p ++ 0#4, i.q ++ 0#4, i.r ++ 0#4, fhn 1 false false⟩, [])
  | .pnot i => some (⟨false, 0x0F, i.p ++ 0#4, i.q ++ 0#4, 0, fhn 2 false false⟩, [])
  | .pmov i => some (⟨false, 0x0F, i.p ++ 0#4, i.q ++ 0#4, 0, fhn 3 false false⟩, [])
  | .fadd i => some (⟨false, 0x10, i.d, i.a, i.b, fhn i.r i.h i.n⟩, extX i.a i.b i.x)
  | .fsub i => some (⟨false, 0x11, i.d, i.a, i.b, fhn i.r i.h i.n⟩, extX i.a i.b i.x)
  | .fmul i => some (⟨false, 0x12, i.d, i.a, i.b, fhn i.r i.h i.n⟩, extX i.a i.b i.x)
  | .ffma i => some (⟨false, 0x13, i.d, i.a, i.b, fhn i.r i.h i.n⟩, extX i.a i.b i.x)
  | .fmin i => some (⟨false, 0x14, i.d, i.a, i.b, fhn 0 i.h i.n⟩, extX i.a i.b i.x)
  | .fmax i => some (⟨false, 0x14, i.d, i.a, i.b, fhn 1 i.h i.n⟩, extX i.a i.b i.x)
  | .fcmp i => some (⟨false, 0x15, i.p ++ i.c, i.a, i.b, fhn 0 i.h false⟩, extX i.a i.b i.x)
  | .frcp i => some (⟨false, 0x16, i.d, i.a, z7, fhn i.r i.h i.n⟩, [])
  | .frsq i => some (⟨false, 0x17, i.d, i.a, z7, fhn i.r i.h i.n⟩, [])
  | .fsqrt i => some (⟨false, 0x18, i.d, i.a, z7, fhn i.r i.h i.n⟩, [])
  | .fexp2 i => some (⟨false, 0x19, i.d, i.a, z7, fhn i.r i.h i.n⟩, [])
  | .flog2 i => some (⟨false, 0x1A, i.d, i.a, z7, fhn i.r i.h i.n⟩, [])
  | .hadd2F16 i => some (⟨false, 0x1B, i.d, i.a, i.b, fhn 0 i.h i.n⟩, extX i.a i.b i.x)
  | .hmul2F16 i => some (⟨false, 0x1B, i.d, i.a, i.b, fhn 1 i.h i.n⟩, extX i.a i.b i.x)
  | .hadd2Bf16 i => some (⟨false, 0x1B, i.d, i.a, i.b, fhn 2 i.h i.n⟩, extX i.a i.b i.x)
  | .hmul2Bf16 i => some (⟨false, 0x1B, i.d, i.a, i.b, fhn 3 i.h i.n⟩, extX i.a i.b i.x)
  | .hfma2F16 i => some (⟨false, 0x1C, i.d, i.a, i.b, fhn 0 i.h i.n⟩, extX i.a i.b i.x)
  | .hfma2Bf16 i => some (⟨false, 0x1C, i.d, i.a, i.b, fhn 2 i.h i.n⟩, extX i.a i.b i.x)
  | .dadd i => some (⟨false, 0x1D, i.d, i.a, i.b, fhn i.r false false⟩, [])
  | .dmul i => some (⟨false, 0x1E, i.d, i.a, i.b, fhn i.r false false⟩, [])
  | .dfma i => some (⟨false, 0x1F, i.d, i.a, i.b, fhn i.r false false⟩, [])
  | .cvt i => some (⟨false, 0x20, i.d, i.a, z7, fhn 0 i.h i.n⟩, [i.src ++ i.dst ++ i.rm ++ 0#18])
  | .cvtD8x4 i => some (⟨false, 0x20, i.d, i.a, z7, fhn 1 false false⟩, [])
  | .cvtF32x4 i => some (⟨false, 0x20, i.d, i.a, z7, fhn 2 false false⟩, [])
  | .shflIdx i => some (⟨false, 0x21, i.d, i.a, i.b, fhn 0 i.h i.n⟩, [i.fill ++ 0#21])
  | .shflUp i => some (⟨false, 0x21, i.d, i.a, i.b, fhn 1 i.h i.n⟩, [i.fill ++ 0#21])
  | .shflDown i => some (⟨false, 0x21, i.d, i.a, i.b, fhn 2 i.h i.n⟩, [i.fill ++ 0#21])
  | .shflXor i => some (⟨false, 0x21, i.d, i.a, i.b, fhn 3 i.h i.n⟩, [i.fill ++ 0#21])
  | .voteAny i => some (⟨false, 0x22, i.p ++ 0#4, i.q ++ 0#4, z7, fhn 0 i.h false⟩, [])
  | .voteAll i => some (⟨false, 0x22, i.p ++ 0#4, i.q ++ 0#4, z7, fhn 1 i.h false⟩, [])
  | .voteBallot i => some (⟨false, 0x22, i.d, i.q ++ 0#4, z7, fhn 2 i.h i.n⟩, [])
  | .reduxAdd i => some (⟨false, 0x23, i.d, i.a, z7, fhn 0 i.h i.n⟩, [])
  | .reduxMin i => some (⟨false, 0x23, i.d, i.a, z7, fhn 1 i.h i.n⟩, [])
  | .reduxMax i => some (⟨false, 0x23, i.d, i.a, z7, fhn 2 i.h i.n⟩, [])
  | .match_ i => some (⟨false, 0x24, i.d, i.a, z7, fhn 0 i.h i.n⟩, [])
  | .wBind i => some (⟨false, 0x25, 14#4 ++ i.k, i.a, i.b, 0⟩, [])
  | .wSkip i => some (⟨false, 0x26, 14#4 ++ i.k, i.a, z7, 0⟩, [])
  | .bw i => some (brPrim false 0x27 i.p i.ps i.cp i.off, [])
  | .ld i => some (⟨false, 0x28, i.d, i.a, z7, fhn 0 false false⟩, [i.sb ++ i.scope ++ i.sz ++ i.off])
  | .ldNc i => some (⟨false, 0x28, i.d, i.a, z7, fhn 1 false false⟩, [i.sb ++ i.scope ++ i.sz ++ i.off])
  | .ldByp i => some (⟨false, 0x28, i.d, i.a, z7, fhn 2 false false⟩, [i.sb ++ i.scope ++ i.sz ++ i.off])
  | .st i => some (⟨false, 0x29, i.d, i.a, z7, fhn 0 false false⟩, [i.sb ++ i.scope ++ i.sz ++ i.off])
  | .stNc i => some (⟨false, 0x29, i.d, i.a, z7, fhn 1 false false⟩, [i.sb ++ i.scope ++ i.sz ++ i.off])
  | .stByp i => some (⟨false, 0x29, i.d, i.a, z7, fhn 2 false false⟩, [i.sb ++ i.scope ++ i.sz ++ i.off])
  | .ldAcq i => some (⟨false, 0x2A, i.d, i.a, z7, fhn 0 false false⟩, [i.sb ++ i.scope ++ i.sz ++ i.off])
  | .stRel i => some (⟨false, 0x2A, i.d, i.a, z7, fhn 1 false false⟩, [i.sb ++ i.scope ++ i.sz ++ i.off])
  | .ldProbe i => some (⟨false, 0x2B, i.d, i.a, i.p ++ 0#4, 0⟩, [i.sb ++ i.scope ++ i.sz ++ i.off])
  | .gather i => some (⟨false, 0x2C, i.d, i.a, i.b, fhn 0 false false⟩, [i.sb ++ i.scope ++ i.sz ++ i.rmp ++ i.sh ++ 0#13])
  | .scatter i => some (⟨false, 0x2D, i.d, i.a, i.b, fhn 0 false false⟩, [i.sb ++ i.scope ++ i.sz ++ i.rmp ++ i.sh ++ 0#13])
  | .scatterAdd i => some (⟨false, 0x2D, i.d, i.a, i.b, fhn 1 false false⟩, [i.sb ++ i.scope ++ i.sz ++ i.rmp ++ i.sh ++ 0#13])
  | .atom i => some (⟨false, 0x2E, i.d, i.a, i.b, 0⟩, [i.sb ++ i.scope ++ i.sz ++ i.aop ++ i.off])
  | .atomFaddOrd i => some (⟨false, 0x2E, z7, i.a, i.b, 0⟩, [i.sb ++ 0#4 ++ 2#3 ++ 11#4 ++ i.off])
  | .lds i => some (⟨false, 0x2F, i.d, i.a, z7, fhn 0 false false⟩, [i.sb ++ i.scope ++ i.sz ++ i.off])
  | .sts i => some (⟨false, 0x2F, i.d, i.a, z7, fhn 1 false false⟩, [i.sb ++ i.scope ++ i.sz ++ i.off])
  | .xst i => some (⟨false, 0x2F, i.d, i.a, z7, fhn 2 false false⟩, [i.sb ++ i.scope ++ i.sz ++ i.off])
  | .waitaEq i => some (⟨false, 0x30, i.d, i.a, i.b, fhn 0 false false⟩, [i.sb ++ i.scope ++ i.sz ++ i.off])
  | .waitaNe i => some (⟨false, 0x30, i.d, i.a, i.b, fhn 1 false false⟩, [i.sb ++ i.scope ++ i.sz ++ i.off])
  | .fence i => some (⟨false, 0x31, i.scope ++ i.kind ++ 0#1, 0, 0, 0⟩, [])
  | .pfence i => some (⟨false, 0x32, i.f ++ i.t ++ 0#1, 0, 0, 0⟩, [])
  | .spb i => some (⟨false, 0x33, z7, i.a, z7, fhn 0 false false⟩, [i.sb ++ 0#7 ++ i.off])
  | .fla i => some (⟨false, 0x33, z7, i.a, z7, fhn 1 false false⟩, [i.sb ++ 0#7 ++ i.off])
  | .wb i => some (⟨false, 0x34, z7, i.a, z7, fhn 0 false false⟩, [i.sb ++ 0#7 ++ i.off])
  | .inv i => some (⟨false, 0x34, z7, i.a, z7, fhn 1 false false⟩, [i.sb ++ 0#7 ++ i.off])
  | .pref i => some (⟨false, 0x34, z7, i.a, z7, fhn 2 false false⟩, [i.sb ++ 0#7 ++ i.off])
  | .wsClear i => some (⟨false, 0x35, z7, i.a, i.b, 0⟩, [i.sb ++ 0#7 ++ i.off])
  | .redecl i => some (⟨false, 0x38, i.d, i.a, z7, fhn i.f false false⟩, [])
  | .plc i => some (⟨false, 0x39, i.d, i.a, z7, 0⟩, [])
  | .bra i => some (brPrim false 0x3A i.p i.ps i.cp i.off, [])
  | .exit => some (⟨false, 0x3B, z7, z7, z7, fhn 0 false false⟩, [])
  | .nop => some (⟨false, 0x3C, z7, z7, z7, fhn 0 false false⟩, [])
  | .yield => some (⟨false, 0x3C, z7, z7, z7, fhn 1 false false⟩, [])
  | .ret a => some (⟨false, 0x3D, z7, a, z7, 0⟩, [])
  | .gAdd i => some (⟨true, 0x00, i.d, i.a, i.b, 0⟩, extX i.a i.b i.x)
  | .gSub i => some (⟨true, 0x00, i.d, i.a, i.b, 1⟩, extX i.a i.b i.x)
  | .gAdd64 i => some (⟨true, 0x00, i.d, i.a, i.b, 2⟩, extX i.a i.b i.x)
  | .gSub64 i => some (⟨true, 0x00, i.d, i.a, i.b, 3⟩, extX i.a i.b i.x)
  | .gMul i => some (⟨true, 0x01, i.d, i.a, i.b, 0⟩, extX i.a i.b i.x)
  | .gMulhiS i => some (⟨true, 0x01, i.d, i.a, i.b, 1⟩, extX i.a i.b i.x)
  | .gMulhiU i => some (⟨true, 0x01, i.d, i.a, i.b, 2⟩, extX i.a i.b i.x)
  | .gAnd i => some (⟨true, 0x02, i.d, i.a, i.b, 0⟩, extX i.a i.b i.x)
  | .gOr i => some (⟨true, 0x02, i.d, i.a, i.b, 1⟩, extX i.a i.b i.x)
  | .gXor i => some (⟨true, 0x02, i.d, i.a, i.b, 2⟩, extX i.a i.b i.x)
  | .gShl i => some (⟨true, 0x03, i.d, i.a, i.b, 0⟩, extX i.a i.b i.x)
  | .gShr i => some (⟨true, 0x03, i.d, i.a, i.b, 1⟩, extX i.a i.b i.x)
  | .gSar i => some (⟨true, 0x03, i.d, i.a, i.b, 2⟩, extX i.a i.b i.x)
  | .gRot i => some (⟨true, 0x03, i.d, i.a, i.b, 3⟩, extX i.a i.b i.x)
  | .gMinS i => some (⟨true, 0x04, i.d, i.a, i.b, 0⟩, extX i.a i.b i.x)
  | .gMinU i => some (⟨true, 0x04, i.d, i.a, i.b, 1⟩, extX i.a i.b i.x)
  | .gMaxS i => some (⟨true, 0x04, i.d, i.a, i.b, 2⟩, extX i.a i.b i.x)
  | .gMaxU i => some (⟨true, 0x04, i.d, i.a, i.b, 3⟩, extX i.a i.b i.x)
  | .gCmp i => some (⟨true, 0x05, i.p ++ i.c, i.a, i.b, 0⟩, extX i.a i.b i.x)
  | .gSel i => some (⟨true, 0x06, i.d, i.a, i.b, 0#1 ++ i.p⟩, extX i.a i.b i.x)
  | .gMov i => some (⟨true, 0x07, i.d, i.a, z7, 0⟩, extX i.a z7 i.x)
  | .gMovx i => some (⟨true, 0x07, i.d, z7, z7, 1⟩, [i.imm])
  | .gMovxW i => some (⟨true, 0x07, i.d, z7, z7, 2⟩, extW i.imm)
  | .gBfxU i => some (⟨true, 0x08, i.d, i.a, i.b, 0⟩, extX i.a i.b i.x)
  | .gBfxS i => some (⟨true, 0x08, i.d, i.a, i.b, 1⟩, extX i.a i.b i.x)
  | .gBfi i => some (⟨true, 0x08, i.d, i.a, i.b, 2⟩, extX i.a i.b i.x)
  | .gLea64 i => some (⟨true, 0x09, i.d, i.a, i.b, 0#2 ++ i.s⟩, extX i.a i.b i.x)
  | .gPopc i => some (⟨true, 0x0A, i.d, i.a, z7, 0⟩, [])
  | .gClz i => some (⟨true, 0x0A, i.d, i.a, z7, 1⟩, [])
  | .gCtz i => some (⟨true, 0x0A, i.d, i.a, z7, 2⟩, [])
  | .gDivS i => some (⟨true, 0x0B, i.d, i.a, i.b, 0⟩, extX i.a i.b i.x)
  | .gDivU i => some (⟨true, 0x0B, i.d, i.a, i.b, 1⟩, extX i.a i.b i.x)
  | .gRemS i => some (⟨true, 0x0B, i.d, i.a, i.b, 2⟩, extX i.a i.b i.x)
  | .gRemU i => some (⟨true, 0x0B, i.d, i.a, i.b, 3⟩, extX i.a i.b i.x)
  | .jmp off => some (⟨true, 0x0C, 0#6 ++ lo off 18 1, lo off 11 7, lo off 4 7, lo off 0 4⟩, [])
  | .call i => some (⟨true, 0x0D, i.l ++ lo i.off 18 1, lo i.off 11 7, lo i.off 4 7, lo i.off 0 4⟩, [])
  | .callr i => some (⟨true, 0x0E, i.d, i.a, z7, 0⟩, [])
  | .gbra i => some (brPrim true 0x0F i.p i.ps 0 i.off, [])
  | .ifence => some (⟨true, 0x10, z7, z7, z7, 0⟩, [])
  | .trap c => some (⟨true, 0x14, lo c 14 7, lo c 7 7, lo c 0 7, 0⟩, [])
  | .sysr i => some (⟨true, 0x15, i.d, lo i.num 7 7, lo i.num 0 7, 0⟩, [])
  | .sysw i => some (⟨true, 0x16, i.d, lo i.num 7 7, lo i.num 0 7, 0⟩, [])
  | .eret => some (⟨true, 0x17, z7, z7, z7, 0⟩, [])
  | .eretSave => some (⟨true, 0x17, z7, z7, z7, 1⟩, [])
  | .wait i => some (⟨true, 0x1C, i.k ++ lo i.n 4 4, lo i.n 0 4 ++ 0#3, 0, 0⟩, [])
  | .barSync b => some (⟨true, 0x1D, b ++ 0#3, z7, z7, 0⟩, [])
  | .barArrive b => some (⟨true, 0x1D, b ++ 0#3, z7, z7, 1⟩, [])
  | .barSwap b => some (⟨true, 0x1D, b ++ 0#3, z7, z7, 2⟩, [])
  | .join a => some (⟨true, 0x1E, z7, a, z7, 0⟩, [])
  | .gateAdd i => some (⟨true, 0x1F, z7, i.a, i.b, 0⟩, extX i.a i.b i.x)
  | .gateWait i => some (⟨true, 0x1F, z7, i.a, i.b, 1⟩, extX i.a i.b i.x)
  | .lumPurse d => some (⟨true, 0x20, d, z7, z7, 0⟩, [])
  | .perfRead i => some (⟨true, 0x21, i.d, lo i.num 7 7, lo i.num 0 7, 0⟩, [])
  | .wdogKick => some (⟨true, 0x22, z7, z7, z7, 0⟩, [])
  | .patSet i => some (⟨true, 0x24, z7, i.a, i.b, 0⟩, [])
  | .patInv a => some (⟨true, 0x24, z7, a, z7, 1⟩, [])
  | .tlook i => some (⟨true, 0x25, i.d, i.a, z7, 0⟩, [])
  | .tset i => some (⟨true, 0x25, i.d, i.a, i.b, 1⟩, [])
  | .tclr i => some (⟨true, 0x25, i.d, i.a, z7, 2⟩, [])
  | .seqLoad a => some (⟨true, 0x26, z7, a, z7, 0⟩, [])
  | .remapSet i => some (⟨true, 0x27, z7, i.a, i.b, 0⟩, [])
  | .tlbInv i => some (⟨true, 0x28, z7, i.a, i.b, 0⟩, [])
  | .retype i => some (⟨true, 0x28, z7, i.a, i.b, 1⟩, [])
  | .priceSet i => some (⟨true, 0x28, z7, i.a, i.b, 2⟩, [])
  | .rgnMake a => some (⟨true, 0x29, z7, a, z7, 0⟩, [])
  | .peerMap a => some (⟨true, 0x29, z7, a, z7, 1⟩, [])
  | .spawn i => some (⟨true, 0x2A, i.d, i.a, i.b, 0⟩, extX i.a i.b i.x)
  | .contPush i => some (⟨true, 0x2B, z7, i.a, i.b, 0⟩, [i.sb ++ 0#25])
  | .ttask i => some (⟨true, 0x2C, z7, i.a, z7, 0⟩, [i.sb ++ 0#25])
  | .ldlCopy i => some (⟨true, 0x2D, z7, i.a, i.b, 0⟩, [i.sb ++ 0#25])
  | .ldlFeed i => some (⟨true, 0x2E, z7, i.a, i.b, 0⟩, [i.sb ++ 0#4 ++ i.pat ++ BitVec.ofBool i.fifo ++ 0#12])
  | .runCopy i => some (⟨true, 0x2F, z7, i.a, i.b, 0⟩, [i.sb ++ i.scope ++ 0#21])
  | .castFlush => some (⟨true, 0x30, z7, z7, z7, 0⟩, [])
  | .mxZero i => some (⟨true, 0x34, z7, z7, z7, 0⟩, [i.sb ++ i.row0 ++ i.cb ++ 0#16])
  | .mxSync i => some (⟨true, 0x34, i.d, i.a, z7, 1⟩, [])
  | .mxGang a => some (⟨true, 0x34, z7, a, z7, 2⟩, [])
  | .mxLoad i => some (⟨true, 0x35, z7, i.a, z7, 0⟩, [0#16 ++ i.pc ++ i.sg ++ 0#2, i.sb ++ i.row0 ++ i.cb ++ 0#16])
  | .mxMma i => some (⟨true, 0x36, z7, z7, z7, 0⟩, [i.pa ++ i.pb ++ i.pc ++ i.sg ++ 0#2, i.sb ++ i.row0 ++ i.cb ++ i.k ++ 0#4])
  | .mxSmma i => some (⟨true, 0x36, z7, z7, z7, 1⟩, [i.pa ++ i.pb ++ i.pc ++ i.sg ++ 0#2, i.sb ++ i.row0 ++ i.cb ++ i.k ++ 0#4])
  | .mxStore i => some (⟨true, 0x37, z7, i.a, z7, 0⟩, [0#16 ++ i.pc ++ i.sg ++ 0#2, i.sb ++ i.row0 ++ i.cb ++ 0#12 ++ i.epi])
  | .apertureWrite | .apertureStagingTransfer | .contPop | .resumePop | .recordAgeing | .contRingPushRetry
  | .contPushAck | .workgroupFinish | .deferredCast | .casterFormGroup | .casterTimeout | .overflowReturn
  | .farResult | .instructionConfirm | .heldTrapRecord | .loadDataReturn | .storePerformed
  | .storeErrorResponse | .translationWalk | .peerTranslation | .residencyExchange | .residencyTimeout
  | .handlerEntry | .preq | .trapack | .referenceTick | .workgroupWdogExpiry | .engineTaskWdogExpiry
  | .stewardWdogExpiry | .droopReport | .droopHoldEnd | .grantLevelChange | .revolutionBoundary
  | .ringCycleDraw | .budgetInterval | .hotnessIntervalEnd | .completionReport | .taskStart
  | .gangReserve | .taskEnd | .sequencerStep | .engineKgroupStep | .engineSuspend | .ladleCommandStart
  | .ladleFeedPush | .copyDoneWrite | .runnerCommandStart | .runnerCommandComplete | .orderedAddCombine
  | .waitaSatisfied | .dupInvalidate | .dupAck | .crossDieWriteReceive | .clockBeatReceive
  | .heldWriteApply | .hostWrite | .hostRead | .laneLoss | .linkRetrainDone | .dieOffline | .correctedErrorWindow
  | .powerLoss | .checkpointComplete | .warmReset | .coldReset | .mailboxCommand | .budget
  | .qen | .ringf | .clk | .clkApply | .dupcmdRegister | .dupcmdWithdraw | .spillbase | .controlWindowWrite
  | .heat | .wmap | .wactive | .glintRelease | .pstatRead | .wavelengthDegrade | .flitRetransmit
  | .engineCommandRetire | .xstAccepted | .lossOfLock | .warmResetEnd => none

/-- Fixed extension words of a form (R89, R90), and whether the form may name `x` (R80). -/
def Prim.extKind (p : Prim) : Nat × Bool :=
  if p.s then
    match p.op.toNat with
    | 0x00 | 0x01 | 0x02 | 0x03 | 0x04 | 0x05 | 0x06 | 0x08 | 0x09 | 0x0B | 0x1F | 0x2A => (0, true)
    | 0x07 => match p.f.toNat with
      | 1 => (1, false)
      | 2 => (2, false)
      | _ => (0, true)
    | 0x2B | 0x2C | 0x2D | 0x2E | 0x2F => (1, false)
    | 0x34 => if p.f == 0 then (1, false) else (0, false)
    | 0x35 | 0x36 | 0x37 => (2, false)
    | _ => (0, false)
  else
    match p.op.toNat with
    | 0x00 | 0x01 | 0x02 | 0x03 | 0x04 | 0x05 | 0x06 | 0x07 | 0x0A | 0x0B | 0x0C | 0x0E
    | 0x10 | 0x11 | 0x12 | 0x13 | 0x14 | 0x15 | 0x1B | 0x1C => (0, true)
    | 0x0D => match p.fn.toNat with
      | 1 => (1, false)
      | 2 => (2, false)
      | _ => (0, true)
    | 0x20 => if p.fn == 0 then (1, false) else (0, false)
    | 0x21 | 0x28 | 0x29 | 0x2A | 0x2B | 0x2C | 0x2D | 0x2E | 0x2F | 0x30 | 0x33 | 0x34
    | 0x35 => (1, false)
    | _ => (0, false)

/-- Extension words that follow a first word (R74): known from the first word alone. -/
def Prim.extCount (p : Prim) : Nat :=
  p.extKind.1 + (if p.extKind.2 && (p.a.isX || p.b.isX) then 1 else 0)

/-- An extension word (R74). -/
def isExtWord (w : Word) : Bool := lo w 28 4 == 15#4

/-- The extension word of a payload. -/
def extWord (m : Payload) : Word := 15#4 ++ m

/-- Decode from a first word and the words after it; the instruction and the words left over. -/
def decodeWords : List Word → Except DecodeErr (Instr × List Word)
  | [] => .error .truncated
  | w :: ws =>
    if isExtWord w then .error .extensionFirst
    else
      let p := Prim.unpack w
      let es := ws.take p.extCount
      if es.length < p.extCount then .error .truncated
      else if es.all isExtWord then
        match decodeParts p (es.map fun v => lo v 0 28) with
        | some i => .ok (i, ws.drop p.extCount)
        | none => .error .unassigned
      else .error .extensionMissing

/-- Words of an instruction, first word first; no words for an event. -/
def encode (i : Instr) : List Word :=
  match encodeParts i with
  | some (p, es) => p.pack :: es.map extWord
  | none => []

/-- Words an instruction takes (R74). -/
def Instr.words (i : Instr) : Nat := (encode i).length

/-- A word's bytes, little-endian (R73). -/
def wordBytes (w : Word) : List Byte := [lo w 0 8, lo w 8 8, lo w 16 8, lo w 24 8]

/-- The words of a list of bytes; a last part of under four bytes is dropped. -/
def bytesWords : List Byte → List Word
  | b0 :: b1 :: b2 :: b3 :: r => (b3 ++ b2 ++ b1 ++ b0) :: bytesWords r
  | _ => []

/-- Decode bytes: the instruction and how many bytes it takes. -/
def decodeBytes (bs : List Byte) : Except DecodeErr (Instr × Nat) :=
  match decodeWords (bytesWords bs) with
  | .ok (i, r) => .ok (i, 4 * ((bytesWords bs).length - r.length))
  | .error e => .error e

/-- The three words of a number numbered as spec/opcode_table.json numbers bits; bits at `nbits` and
above are 0. -/
def tableWords (nbits w : Nat) : List Word :=
  let v := w % 2 ^ nbits
  [BitVec.ofNat 32 v, BitVec.ofNat 32 (v / 2 ^ 32), BitVec.ofNat 32 (v / 2 ^ 64)]

/-- The instruction the decoder reads from the bits `w`. -/
def decodeTableWord (nbits w : Nat) : Option Instr :=
  match decodeBytes ((tableWords nbits w).flatMap wordBytes) with
  | .ok (i, _) => some i
  | .error _ => none

end Sys2Proof
end

