-- ==== Sys2Proof/Machine/State.lean ====
section
/-! DEFINITION. The state of the device as plain data (INVENTORY.md '## State'), the reasons a step
can stop, and the state after reset. A table (`Tab`) lists the entries that differ from their reset
value or that exist at all; its keys rise strictly. -/

namespace Sys2Proof.Machine

/-- A finite table with rising keys. -/
abbrev Tab (α : Type) := List (Nat × α)

/-- Bytes by address, in the canonical form of `Memory.wf`. -/
abbrev Memory := List Host.Cell

/-- The place of a register name (R33). -/
inductive Place where
  | lane | cluster | slice | memory
  deriving DecidableEq, Repr, Inhabited

/-- A name that stands at SLICE or MEMORY (R33, R154): its unit, recorded anchor and far entry. -/
structure FarName where
  place : Place
  unit : Nat
  anchor : DWord
  value : Word
  deriving DecidableEq, Repr, Inhabited

/-- A walker (R147). `c0` and `c1` hold the counts minus 1. -/
structure Walker where
  bound : Bool := false
  base : DWord := 0
  e : BitVec 2 := 0
  c0 : BitVec 16 := 0
  c1 : BitVec 16 := 0
  s0 : Word := 0
  s1 : Word := 0
  i0 : BitVec 16 := 0
  i1 : BitVec 16 := 0
  fin : Bool := false
  deriving DecidableEq, Repr, Inhabited

/-- Register state of one thread (R109). -/
structure Thread where
  /-- The thread's name in the model: it stays with the thread through casts. -/
  tid : Nat := 0
  /-- LANE copies; absent reads 0 (R110). -/
  lane : Tab Word := []
  /-- Names at SLICE or MEMORY. -/
  far : Tab FarName := []
  preds : BitVec 8 := 0
  walkers : Tab Walker := []
  b1 : Option Word := none
  b2 : Option Word := none
  o0 : Option Word := none
  o1 : Option Word := none
  o2 : Option Word := none
  /-- Earlier ordered adds of the thread in its workgroup (R257). -/
  ordAdds : Nat := 0
  /-- Far slot held (R31); launched threads hold their rank's. -/
  farSlot : Nat := 0
  deriving DecidableEq, Repr, Inhabited

/-- What a path waits for besides the conditions of issue (R47). -/
inductive Wait where
  | none
  /-- Arrived at a barrier and waiting for its release (R180). -/
  | bar (b : Nat)
  /-- An instruction that leaves its path not ready until an operation ends (`waita`, R205). -/
  | op (id : Nat)
  /-- An enqueue that its queue has not accepted: it counts as not issued (R319). -/
  | enq (id : Nat)
  /-- Stopped by a precise fault until its record is answered (R44, R349). -/
  | trap (party : Nat)
  deriving DecidableEq, Repr, Inhabited

/-- An open latch chain (R83 to R85). -/
structure Chain where
  /-- Address of the chain's first instruction. -/
  start : DWord
  /-- Instructions issued in it. -/
  count : Nat
  /-- Instructions that still belong to it. -/
  left : Nat
  /-- Names and walkers read so far, by their codes. -/
  reads : List Nat
  /-- Walkers as they stood before the chain, by rank. -/
  walkers : List (Nat × Tab Walker)
  deriving DecidableEq, Repr, Inhabited

/-- A path (R25): PC and membership. -/
structure Path where
  pc : DWord
  mask : Word
  /-- Held at its PC while the other path's PC lies in (from, PC) (R27). -/
  hold : Option DWord := none
  wait : Wait := .none
  /-- Where paths have merged while one of them waited (R26): the waits of the parts, each with the ranks
  that it concerns. -/
  joined : List (Word × Wait) := []
  chain : Option Chain := none
  /-- The PC was reached by a control transfer (R75). -/
  xfer : Bool := true
  /-- The next instruction is ready except for lumens; revolution boundaries passed so (R191, R192). -/
  lumBlocked : Bool := false
  lumWait : Nat := 0
  /-- The `mx.sync` at the PC waits: commands named below this were issued before it (R309). -/
  syncAt : Option Nat := none
  deriving DecidableEq, Repr, Inhabited

/-- Threads whose cast waits for far instructions or room (R29, R32). -/
structure Casting where
  pc : DWord
  mask : Word
  /-- Address of the branch that cast them. -/
  branch : DWord
  /-- What their path waited for when it was cast. -/
  wait : Wait := .none
  /-- The SPAWNX record that they wait on. -/
  party : Option Nat := none
  deriving DecidableEq, Repr, Inhabited

/-- A group (R24, R25, R165). -/
structure Group where
  wg : Nat
  /-- LOC of the core (R165). -/
  loc : Nat
  gindex : Nat := 0
  slot : Nat := 0
  /-- The single thread of a steward core (R73). -/
  steward : Bool := false
  threads : Tab Thread := []
  /-- Active paths, primary first. -/
  paths : List Path := []
  parked : Option Path := none
  casting : List Casting := []
  /-- Counters sb1 to sb7 (R176): counted operations, oldest first, and whether each is complete. -/
  sb : Tab (List (Nat × Bool)) := []
  fpx : BitVec 5 := 0
  /-- Path records (R165): PC and mask. -/
  epc : Tab DWord := []
  emsk : Tab Word := []
  ctx : DWord := 0
  hcause : BitVec 25 := 0
  handler : Bool := false
  /-- A PREEMPT request waits (R170). -/
  preempt : Bool := false
  /-- A local trap to enter by, with its path's mask (R169, R170). -/
  localTrap : Option (BitVec 21 × Word) := none
  /-- What paths waited for when handler state was entered (a barrier, the answer to a record): mask
  and wait. -/
  waits : List (Word × Wait) := []
  timeHi : Word := 0
  /-- Number of its last issue (R112). -/
  lastIssue : Nat := 0
  /-- It has issued since the last tick of its die (R197). -/
  sinceTick : Bool := false
  perf : Tab Nat := []
  /-- In the spill area (R112). -/
  stored : Bool := false
  /-- Names tagged uniform (R113). -/
  uniform : List Nat := []
  /-- The latest issue that wrote a name: issue number, ranks that it gave the same value, the value (R113). -/
  uniNow : Tab (Nat × Word × Word) := []
  /-- Operations named below this were issued before the group's latest handler entry (R353). -/
  entryId : Nat := 0
  deriving DecidableEq, Repr, Inhabited

/-- One access fragment: bytes of one member that are one access to one memory. -/
structure Frag where
  /-- Offset of the fragment in the member's data; 16 for the element of a walker B. -/
  off : Nat
  size : Nat
  va : Nat
  /-- Physical address (R206), or the offset in a scratchpad. -/
  pa : Nat
  /-- Cluster whose scratchpad holds it. -/
  cl : Option Nat := none
  /-- Type of the frame it reached. -/
  typ : BitVec 2 := 0
  done : Bool := false
  /-- Sent to another die and not yet applied there (R284). -/
  sent : Bool := false
  /-- Bytes that a load has read. -/
  data : List Byte := []
  deriving DecidableEq, Repr, Inhabited

/-- One member of an operation: its logged sources and its accesses (R42). -/
structure Member where
  rank : Nat
  tid : Nat
  /-- Execution place and unit (R35). -/
  place : Place := .lane
  unit : Nat := 0
  /-- The thread's far slot: it stays in use until the member is done (R163). -/
  slot : Nat := 0
  /-- Address for a form that makes an access. -/
  addr : DWord := 0
  /-- Logged source words: A, B, D or data, as the form delivers them. -/
  a : DWord := 0
  b : DWord := 0
  d : DWord := 0
  dhi : DWord := 0
  /-- Names at the member's unit whose logged value stands: a write that the member must not see came
  first (R38, R43, R119). -/
  frozen : List Nat := []
  /-- Walker reads of source A and of source B: address, size code of the element. -/
  wa : Option (DWord × BitVec 2) := none
  wb : Option (DWord × BitVec 2) := none
  /-- Issued to the member's unit and finished. -/
  done : Bool := false
  /-- The checks passed and the fragments are known. -/
  frags : List Frag := []
  deriving DecidableEq, Repr, Inhabited

/-- How far an operation has come (R41, R43). -/
inductive Stage where
  | issued | confirmed | faulted
  deriving DecidableEq, Repr, Inhabited

/-- Access paths (R87, R271). -/
inductive APath where
  | lane | far | ladle | matrix | runner
  deriving DecidableEq, Repr, Inhabited

/-- An instruction in flight: its operand-log entry and pending writes (R39, R42). -/
structure Op where
  gid : Nat
  wg : Nat
  region : Nat
  loc : Nat
  pc : DWord
  /-- GINDEX of the issuing group. -/
  gindex : Nat := 0
  instr : Instr
  mask : Word
  members : List Member
  /-- `v` names and predicate it writes: they are pending for a member until it is done (R39). -/
  dests : List Nat := []
  predDest : Option Nat := none
  stage : Stage := .issued
  /-- Operand-log entry held (R42). -/
  logix : Option Nat := none
  sb : Nat := 0
  scope : Nat := 0
  path : APath := .lane
  /-- Issue number: operations of the two paths of one issue share it. -/
  cycle : Nat := 0
  /-- Issued inside a latch chain (R85). -/
  inChain : Bool := false
  /-- A result is suspect (R45): the check that it failed, 0 residue, 1 droop (R346); failures of the same
  recast so far. -/
  suspect : Option Nat := none
  recasts : Nat := 0
  /-- A far entry of it in a unit's backing store meets an error response (R117, R156). -/
  farError : Bool := false
  /-- Frames in transition on which its access has stalled (R213, R280). -/
  stalledOn : List Nat := []
  /-- Restored from a save area: it replays in program order (R356). -/
  restored : Bool := false
  /-- Invalidations of copies on other dies that its writes wait for at package scope (R283). -/
  invs : Nat := 0
  /-- Logged when its group entered handler state for a pre-emption, or restored by a RESUME record: set
  aside until the group's `eret` (R353, R356). -/
  aside : Bool := false
  /-- Flags of the members that are done: they enter FPX when the instruction is complete (R56). -/
  flags : BitVec 5 := 0
  deriving DecidableEq, Repr, Inhabited

/-- A barrier (R179, R180): arrival marks by thread, phase, whether an arrival was a swap. -/
structure Barrier where
  marks : List Nat := []
  phase : Bool := false
  swap : Bool := false
  deriving DecidableEq, Repr, Inhabited

/-- An item of spawn memory or the overflow area (R29, R31). -/
inductive Item where
  | spawn (pc : DWord) (a b : Word)
  | cast (pc : DWord) (t : Thread)
  deriving DecidableEq, Repr, Inhabited

/-- A continuation record (R18), 32 bytes as four doublewords, and its time of enqueue in ticks. -/
structure Record where
  w0 : DWord
  w1 : DWord
  w2 : DWord
  w3 : DWord
  deriving DecidableEq, Repr, Inhabited

/-- A workgroup (R20 to R23, R225). -/
structure Workgroup where
  loc : Nat
  index : BitVec 24 := 0
  region : Nat := 0
  nb : Nat := 1
  mode : Nat := 0
  priv : Bool := false
  join : DWord := 0
  scrBase : Nat := 0
  scrSize : Nat := 0
  xwin : Nat := 0
  spw : Nat := 0
  gmax : Nat := 0
  /-- Offset of the live bank and of the shadow bank (R234). -/
  live : Nat := 0
  shadow : Nat := 0
  /-- Bytes of the workgroup's spawn memory start here. -/
  spawnBase : Nat := 0
  /-- Placement map: bit n is set when vn is CLUSTER (R34). -/
  clusterMap : BitVec 112 := 0
  clusterRegs : Tab Word := []
  barriers : Tab Barrier := []
  /-- Spawn memory in order of arrival: arrival number and item (R30). -/
  items : List (Nat × Item) := []
  overflow : List (Nat × Item) := []
  /-- Forming lists whose caster has been told to form now (R30, R327). -/
  flush : List DWord := []
  tbase : Option Nat := none
  modb : Word := 0
  /-- Watchdog: accumulator in 1/256 ticks, held ticks and ticks at reduced clock since its reset (R197). -/
  wdogAcc : Nat := 0
  wdogHeld : Nat := 0
  wdogSlow : Nat := 0
  /-- Its watchdog has expired since its reset. -/
  wdogFired : Bool := false
  /-- Stopped by a fault of a group of it that is a handler group (R348). -/
  stopped : Bool := false
  /-- The save area that the first `eret.save` fixed (R354); the groups saved so far, by name, and their
  logged operations. -/
  saveArea : Option DWord := none
  savedGroups : Tab Group := []
  savedOps : Tab Op := []
  /-- Its finish has released what it held (R22); its decrement of JOIN waits on a trap record. -/
  released : Bool := false
  finishing : Option Nat := none
  deriving DecidableEq, Repr, Inhabited

/-- A ladle command (R334 to R338). -/
structure LadleCmd where
  id : Nat
  feed : Bool := false
  a : List Word := []
  b : List Word := []
  pat : Nat := 0
  fifo : Bool := false
  entry : List Byte := []
  core : Nat := 0
  region : Nat := 0
  wg : Nat := 0
  gid : Nat := 0
  pc : DWord := 0
  /-- Threads it is attributed to (R262). -/
  tids : List Nat := []
  sb : Nat := 0
  task : Option Nat := none
  /-- Frames in transition on which its access stalls (R213, R280). -/
  stalledOn : List Nat := []
  /-- Bytes copied or K-groups pushed. -/
  done : Nat := 0
  started : Bool := false
  doneWord : Bool := false
  party : Option Nat := none
  deriving DecidableEq, Repr, Inhabited

/-- One row or column of an operand FIFO entry (R298). -/
structure FifoLine where
  /-- 32 element codes; a sparse line lists its stored slots. -/
  elems : List Nat
  /-- Position mask of a sparse A line (R65). -/
  smask : Option Word := none
  scale : Int := 0
  /-- Non-finite summary (R66). -/
  summary : Bool := false
  deriving DecidableEq, Repr, Inhabited

/-- An entry of an operand FIFO (R298). -/
structure FifoEntry where
  pat : Nat
  fmt : Nat
  spn : Nat
  /-- The feed that pushed it, cut to this K-group: it is fed again after a suspension (R314). -/
  feed : LadleCmd
  lines : List FifoLine
  deriving DecidableEq, Repr, Inhabited

/-- Block status of an accumulator block (R294). -/
structure BlockStatus where
  /-- 0 EMPTY, 1 fixed, 2 A56. -/
  mode : Nat := 0
  q : Int := 0
  bits : BitVec 8 := 0
  deriving DecidableEq, Repr, Inhabited

/-- An engine command (R300): its form, patterns copied at acceptance, progress. -/
structure EngCmd where
  id : Nat
  instr : Instr
  /-- Leader's coordinates for `mx.load` and `mx.store`. -/
  tile : DWord := 0
  gang : BitVec 8 := 0
  wg : Nat
  gid : Nat
  region : Nat
  pc : DWord
  /-- Threads it is attributed to (R262). -/
  tids : List Nat := []
  sb : Nat := 0
  /-- The task that issued it by a sequencer state. -/
  task : Option Nat := none
  pa : List Byte := []
  pb : List Byte := []
  pcEnt : List Byte := []
  /-- K-groups done. -/
  done : Nat := 0
  started : Bool := false
  /-- First K-group of a task's command (R346). -/
  k0 : Nat := 0
  /-- Frames in transition on which its access stalls (R213, R280). -/
  stalledOn : List Nat := []
  /-- Passes of the present K-group that are debited (R306). -/
  paid : Nat := 0
  /-- A data fault has stopped it: what remains is consumed and discarded (R311). -/
  skip : Bool := false
  /-- Waits on a trap record. -/
  party : Option Nat := none
  deriving DecidableEq, Repr, Inhabited

/-- Who owns an engine (R296). -/
inductive Owner where
  | free
  | wg (id : Nat)
  | task (id : Nat)
  deriving DecidableEq, Repr, Inhabited

/-- A matrix engine with its sequencer (R293). -/
structure Engine where
  acc : Tab (BitVec 56) := []
  blocks : Tab BlockStatus := []
  fifoA : List FifoEntry := []
  fifoB : List FifoEntry := []
  gang : BitVec 8 := 0
  queue : List EngCmd := []
  owner : Owner := .free
  /-- Sequencer state S, KC and CBC (R315). -/
  seqS : Nat := 0
  seqKC : Nat := 0
  seqCBC : Nat := 0
  /-- The state table, 64 states of 64 bits (R222). -/
  table : Tab DWord := []
  lumWait : Nat := 0
  /-- Its next step waits for lumens (R191). -/
  lumBlocked : Bool := false
  /-- A step of it has started since the last tick (R197). -/
  stepped : Bool := false
  /-- Checks that its next result has failed, first to last: 0 residue, 1 droop (R313). -/
  stepFails : List Nat := []
  wdogAcc : Nat := 0
  wdogHeld : Nat := 0
  wdogSlow : Nat := 0
  /-- Set by a PREQ that matches the owner (R352). -/
  suspend : Bool := false
  /-- Suspended for its workgroup's pre-emption (R314). -/
  halted : Bool := false
  /-- Feeds to run again when the engine resumes (R314). -/
  refeeds : List LadleCmd := []
  deriving DecidableEq, Repr, Inhabited

/-- A core (R109, R175, R235). -/
structure Core where
  purse : Nat := 0
  /-- Starving parties (R192): a group's name plus 1, and 0 for the engine. -/
  starveQ : List Nat := []
  /-- Flagged starved at the last boundary (R190). -/
  flagged : Bool := false
  grant : Nat := 64
  /-- IP lines in the L1 by line number (physical address / 128): 128 bytes and which are dirty (R235).
  RC and WS copies are coherent and hold nothing of their own. -/
  l1 : Tab (List Byte × Bool) := []
  engine : Engine := {}
  /-- Lines of code that its instruction cache holds, by line number, as they stood when they were fetched (R173). -/
  icache : Tab (List Byte) := []
  /-- Residue checks that the next result at LANE of this core fails, first to last, 0 each (R45). -/
  laneFails : List Nat := []
  /-- For each droop whose window is open the results at LANE of this core that it still takes in (R196). -/
  droops : List Nat := []
  /-- A read of a far entry in backing store by an instruction at LANE meets an error response (R117). -/
  farError : Bool := false
  perf : Tab Nat := []
  deriving DecidableEq, Repr, Inhabited

/-- A tile task (R329): its record and what the scheduler knows of it. -/
structure Task where
  id : Nat
  /-- The 64-byte record as eight doublewords. -/
  words : List DWord
  addr : DWord
  region : Nat
  die : Nat
  cluster : Nat
  wg : Nat
  gid : Nat
  pc : DWord
  /-- Threads it is attributed to (R262). -/
  tids : List Nat := []
  mode : Nat
  /-- Tick of its enqueue. -/
  since : Nat := 0
  /-- Cores it runs on; empty while queued. -/
  cores : List Nat := []
  /-- Cores whose sequencer has ended. -/
  ended : List Nat := []
  failed : Bool := false
  party : Option Nat := none
  relaunch : Bool := false
  suspended : Bool := false
  /-- Saved engine images of a suspended task, by core of the gang. -/
  images : List (Nat × Engine) := []
  /-- Its copies of the pattern entries PA, PB and PC, empty where invalid (R220, R330). -/
  pa : List Byte := []
  pb : List Byte := []
  pcEnt : List Byte := []
  deriving DecidableEq, Repr, Inhabited

/-- A runner command (R339, R340). -/
structure RunCmd where
  id : Nat
  src : DWord
  dst : DWord
  len : Nat
  ctl : Word
  scope : Nat
  region : Nat
  die : Nat
  gid : Nat
  wg : Nat
  pc : DWord
  /-- Threads it is attributed to (R262). -/
  tids : List Nat := []
  /-- Frames in transition on which its access stalls (R213, R280). -/
  stalledOn : List Nat := []
  sb : Nat
  started : Bool := false
  party : Option Nat := none
  deriving DecidableEq, Repr, Inhabited

/-- A cluster (R203, R232, R331, R334). -/
structure Cluster where
  spad : Memory := []
  /-- Scratchpad allocations: offset and size. -/
  allocs : List (Nat × Nat) := []
  /-- Tag table (R221): region and key of a valid slot. -/
  tags : Tab (BitVec 16 × Word) := []
  tasks : List Task := []
  ladles : Tab (List LadleCmd) := []
  /-- In droop hold, since the tick of the report (R196). -/
  droop : Bool := false
  droopAt : Nat := 0
  gangRes : Option Nat := none
  /-- The oldest ready task and the tick since which it is that (R332). -/
  oldest : Option (Nat × Nat) := none
  perf : Tab Nat := []
  /-- CLK register of the cluster (R367): F, LR and what is pending. -/
  freq : Nat := 1200
  lr : Nat := 1
  clkPend : Option Word := none
  deriving DecidableEq, Repr, Inhabited

/-- A frame's entry in the type table (R212). Type 0 RC, 1 SC, 2 WS, 3 IP. -/
structure Frame where
  typ : BitVec 2 := 0
  trans : Bool := false
  newType : BitVec 2 := 0
  strand : Bool := false
  dev : Bool := false
  res : Bool := false
  owner : BitVec 7 := 0
  /-- HOLD: C-dies that hold read duplicates. -/
  hold : BitVec 4 := 0
  deriving DecidableEq, Repr, Inhabited

/-- A cached translation (R211): its holder (the LOC of a core, or 2,048 + X-die), tag, page, and the
leaf with the entry it was read from. A peer translation is tagged with its slot and names the export
entry it went through (R216). -/
structure Trans where
  holder : Nat
  sid : Nat
  base : Nat
  size : Nat
  frame : Nat
  leaf : DWord
  epa : Nat
  slot : Option Nat := none
  /-- Exporting die x 1,024 + export index. -/
  export_ : Option Nat := none
  /-- Rights R, W and A that slot and export leave (R216). -/
  rights : BitVec 3 := 7
  deriving DecidableEq, Repr, Inhabited

/-- A pointer entry held in a die's walk cache (R211): the space, the addresses that it serves, the table
of the next level. -/
structure WalkPtr where
  sid : Nat
  base : Nat
  size : Nat
  table : Nat
  deriving DecidableEq, Repr, Inhabited

/-- A write of the device that waits for the read duplicates of its frame (R242): bytes, or the OR of ACC
into a page-table entry that the walk read as `old` (R210). -/
inductive Late where
  | bytes (pa : Nat) (bs : List Byte)
  | acc (epa : Nat) (old : DWord)
  deriving DecidableEq, Repr, Inhabited

/-- A peer window slot (R216). -/
structure PeerSlot where
  valid : Bool := false
  word0 : DWord := 0
  word1 : DWord := 0
  word2 : DWord := 0
  word3 : DWord := 0
  deriving DecidableEq, Repr, Inhabited

/-- A region control block held in a die's directory (R226): sixteen doublewords; and the region's home
die (R16, R228). -/
structure RgnBlock where
  words : List DWord := []
  home : Nat := 0
  deriving DecidableEq, Repr, Inhabited

/-- A queued continuation record, its name, the level that it entered and its tick of enqueue (R322). -/
structure QRec where
  id : Nat
  record : Record
  level : Nat := 0
  since : Nat := 0
  deriving DecidableEq, Repr, Inhabited

/-- An item of an ordered-atomic queue (R257, R341). -/
structure OrdItem where
  region : Nat
  pa : Nat
  windex : Nat
  rank : Nat
  count : Nat
  value : Word
  /-- The issuing die. -/
  die : Nat
  deriving DecidableEq, Repr, Inhabited

/-- A photonic receive port (R377, R378, R380). -/
structure Port where
  heat : Tab Nat := []
  /-- Base codes: what the main ring of a wavelength needs at the temperature of bring-up (R380 N). -/
  base : Tab Nat := []
  /-- The rise of the temperature, as the heater codes that it stands for (R380: 20 for each kelvin). -/
  warm : Int := 0
  wmap : DWord := 0x0000BA9876543210
  lockset : Word := 0x01900800
  deg : Bool := false
  err : Bool := false
  wactive : Nat := 12
  glint : Bool := false
  /-- Retransmissions by wavelength in the present window (R378). -/
  retrans : Tab Nat := []
  losses : Nat := 0
  deriving DecidableEq, Repr, Inhabited

/-- Fault codes (R344), in the order of their numbers 0x01 to 0x18. -/
inductive FCode where
  | ill | xland | priv | place | align | page | perm | attr | alias_ | ws2 | wsa | ipx | viol | sparse
  | pat | fifo | nullret | spawnx | lumen | strand | recast | wdog | swtrap | preempt
  deriving DecidableEq, Repr, Inhabited

/-- What a trap record says besides SEQ and DISP (R343). -/
structure TrapInfo where
  code : FCode
  src : Nat := 0
  defer : Bool := false
  info : Bool := false
  /-- none: unattributable (0xFFFF). -/
  region : Option Nat := none
  loc : Nat := 0
  pc : DWord := 0
  vaddr : DWord := 0
  paddr : Nat := 0
  mask : Word := 0
  windex : BitVec 24 := 0
  gindex : Nat := 0
  obj : DWord := 0
  detail : DWord := 0
  logix : Option Nat := none
  /-- The invalid continuation record of SRC 1. -/
  rcd : Option Record := none
  /-- The workgroup, where a handler group met the fault (R348). -/
  kernel : Option Nat := none
  deriving DecidableEq, Repr, Inhabited

/-- What waits on a trap record (R345, R349). -/
inductive Party where
  /-- A logged instruction. -/
  | op (id : Nat)
  /-- A stopped path: the one whose `Wait` names the record. -/
  | path (gid : Nat)
  /-- Threads whose cast found no room. -/
  | cast (gid : Nat)
  | task (id : Nat)
  | engine (loc id : Nat)
  | ladle (cluster ladle id : Nat)
  | runner (xdie id : Nat)
  | wg (id : Nat)
  | tree (region : Nat)
  deriving DecidableEq, Repr, Inhabited

/-- A trap record that waits in a queue for its answer (R349): die, address as TRAPACK names it, and
the physical address of the record. -/
structure Pending where
  id : Nat
  die : Nat
  addr : DWord
  pa : Nat
  region : Option Nat
  party : Party
  deriving DecidableEq, Repr, Inhabited

/-- A record held at its party while its queue is full (R348). -/
structure HeldRec where
  id : Nat
  die : Nat
  trap : TrapInfo
  party : Option Party
  deriving DecidableEq, Repr, Inhabited

/-- A release that has been performed before earlier accesses of its thread, for agents outside its scope (R271,
R274): the operation, its path, its agent, the bytes that it wrote. -/
structure Rel where
  id : Nat
  far : Bool := false
  tid : Nat
  gid : Nat
  wg : Nat
  loc : Nat
  scope : Nat
  pa : Nat
  size : Nat
  deriving DecidableEq, Repr, Inhabited

/-- A message on a die-to-die link (R283, R284). `clock` is row `e` of the sender's matrix. -/
inductive Msg where
  /-- A store: physical address, bytes, clock, and the fragment of the operation that it performs. -/
  | write (pa : Nat) (data : List Byte) (clock : List Nat) (op : Option (Nat × Nat × Nat))
  /-- An invalidation of copies of a line, and the operation that waits for it. -/
  | inv (line : Nat) (clock : List Nat) (op : Option Nat)
  /-- A continuation push and its acknowledgement (R324). -/
  | push (r : QRec) (clock : List Nat)
  /-- A push whose region a kill has taken: it leaves nothing at its die, and is counted and acknowledged (R284,
  R350). -/
  | dropped (id : Nat) (clock : List Nat)
  | ack (id : Nat)
  /-- A clock beat: the sender's whole matrix. -/
  | beat (clock : Tab Nat)
  deriving DecidableEq, Repr, Inhabited

/-- A read duplicate of a home frame (R242). -/
structure Dup where
  holder : Nat
  /-- Physical address of the copy on the holder. -/
  copy : Nat
  /-- An invalidation was sent; the holder has acknowledged it. -/
  sent : Bool := false
  acked : Bool := false
  deriving DecidableEq, Repr, Inhabited

/-- A C-die (R8, R367). -/
structure Die where
  rootBase : DWord := 0
  ftBase : DWord := 0
  ftFirst : Nat := 0
  expBase : DWord := 0
  rgnBase : DWord := 0
  dfqBase : DWord := 0
  vlBase : DWord := 0
  vlTail : Word := 0
  vlOver : Word := 0
  /-- The violation log has filled once: a further entry overwrites the oldest (R351). -/
  vlFull : Bool := false
  fqWake : Word := 0
  hotBase : DWord := 0
  fabBase : DWord := 0
  budget : Nat := 420
  /-- The budget in force, and the one that the next boundary takes (R13), in quarter watts. -/
  budgetInForce : Nat := 1680
  budgetNext : Nat := 1680
  qen : Word := 0
  ringf : Nat := 1200
  ringfPend : Option Nat := none
  cqBase : Tab DWord := []
  cqK : Tab Nat := []
  dupFrame : DWord := 0
  dupCopy : DWord := 0
  dupStatus : Word := 0
  spill : Tab DWord := []
  sid : Nat := 0
  mem : Memory := []
  /-- Written 16-byte parts of WS frames, by part number, rising (R239). -/
  wsWritten : List Nat := []
  frames : Tab Frame := []
  peers : Tab PeerSlot := []
  /-- Translation caches (R211), oldest entry first: L1 of a core, L2 of a cluster, by holder. -/
  tlb : List Trans := []
  /-- The walk cache's pointer entries (R211). -/
  walkPtrs : List WalkPtr := []
  patterns : Tab (List Byte) := []
  prices : Tab Nat := []
  pricePend : Tab Nat := []
  regions : Tab RgnBlock := []
  gates : Tab Word := []
  queues : Tab (List QRec) := []
  staging : List Record := []
  heldPush : List (Nat × QRec) := []
  ordq : List OrdItem := []
  openPool : Nat := 0
  reservePool : Nat := 0
  /-- Lumens injected at the last boundary (T of R189), and lumens that the workgroups of a region
  have debited in this revolution (R227). -/
  injected : Nat := 0
  /-- Reserve share of a core flagged at the last boundary (R190). -/
  share : Nat := 0
  lumUsed : Tab Nat := []
  ringPos : Nat := 0
  revolutions : Nat := 0
  /-- Sketch counters, by 4,096 x unit + 1,024 x row + index, and the candidate frames by unit, the oldest
  first (R199). -/
  hot : Tab Nat := []
  hotCand : Tab (List Nat) := []
  /-- The slice caches (R11, R230): by slice, the 64-byte units that it holds and which are dirty, newest first. -/
  slices : Tab (List (Nat × Bool)) := []
  clock : Tab Nat := []
  held : List (Nat × Msg) := []
  /-- Copies of peer lines at the home slices, by line number: 128 bytes (R283). -/
  peerLines : Tab (List Byte) := []
  /-- Read duplicates of the die's frames, by frame number (R242). -/
  dups : Tab (List Dup) := []
  /-- Writes of the device's own units that wait for read duplicates (R242), oldest first. -/
  late : List Late := []
  ticks : Nat := 0
  trapSeq : Nat := 0
  perf : Tab Nat := []
  ports : Tab Port := []
  offline : Bool := false
  /-- TRANS stands on every frame that the type table does not list (R375). -/
  transAll : Bool := false
  inReset : Bool := false
  /-- Reserve clusters and slices used (R373). -/
  reserves : Tab Nat := []
  /-- Physical units by 128 x kind + logical number where they differ from it, and those that the next reset of the
  die brings in (R8): kind 0 cluster, 1 slice. -/
  units : Tab Nat := []
  unitsNext : Tab Nat := []
  deriving DecidableEq, Repr, Inhabited

/-- An X-die (R8, R339, R368). -/
structure Xdie where
  sid : Nat := 0
  rootBase : DWord := 0
  sfqBase : DWord := 0
  queues : Tab (List RunCmd) := []
  active : List RunCmd := []
  clock : Tab Nat := []
  wdog : Tab Nat := []
  held : List (Nat × Msg) := []
  deriving DecidableEq, Repr, Inhabited

/-- What a region's launch keeps besides its blocks (R187): records written, launches completed,
whether its subtree was killed, whether a launch is on, and the record of a failed report (R383). The
completion counts of R186 are the items themselves. -/
structure RegionRun where
  faults : Nat := 0
  seq : Nat := 0
  killed : Bool := false
  active : Bool := false
  party : Option Nat := none
  deriving DecidableEq, Repr, Inhabited

/-- A saved workgroup that awaits its RESUME record (R355): its name, the workgroup as it stood, the image
of the engine it owned. -/
structure Saved where
  id : Nat
  die : Nat
  area : DWord
  wg : Workgroup
  engine : Option Engine
  deriving DecidableEq, Repr, Inhabited

/-- How the package stands (R371, R372, R376). -/
inductive Power where
  | running
  /-- A bring-up failure stopped compute; the record is served by the mailbox (R372). -/
  | beacon (f : Failure)
  /-- Power is lost; the checkpoint runs on hold-up energy (R376). -/
  | lost
  deriving DecidableEq, Repr, Inhabited

/-- A report posted in the management mailbox (R197, R372 to R375). -/
inductive Report where
  /-- The failure record (R372). -/
  | failure (record : List Byte)
  | substituted (die kind unit : Nat)
  | stranded (die frame : Nat)
  /-- A fault of a handler group (R348): LOC of its core, fault code. -/
  | handlerFault (loc code : Nat)
  /-- A steward core reset by its watchdog, with its held ticks and ticks at reduced clock (R197). -/
  | stewardReset (xdie core held slow : Nat)
  deriving DecidableEq, Repr, Inhabited

/-- A RoCEv2 operation sent through a scale-out port (R366): the peer table entry, the offset in the peer's region,
the bytes of a write. -/
structure FabricOp where
  port : Nat
  peer : List Byte
  off : Nat
  data : Option (List Byte) := none
  deriving DecidableEq, Repr, Inhabited

/-- A posted request of the host (R286, R323, R365): a write of device memory, or of a launch aperture. -/
inductive Posted where
  | mem (addr : Nat) (data : List Byte)
  | record (off : Nat) (data : List Byte)
  deriving DecidableEq, Repr, Inhabited

/-- Whose turn is next: an event of the device, or a path of a group. -/
inductive Turn where
  | ev (e : Ev)
  | issue (gid path : Nat)
  deriving DecidableEq, Repr, Inhabited

/-- The whole package. -/
structure State where
  dies : Tab Die := []
  xdies : Tab Xdie := []
  clusters : Tab Cluster := []
  cores : Tab Core := []
  wgs : Tab Workgroup := []
  groups : Tab Group := []
  ops : Tab Op := []
  regionRuns : Tab RegionRun := []
  pending : List Pending := []
  heldRecs : List HeldRec := []
  saved : List Saved := []
  hostMem : Memory := []
  safeTier : Memory := []
  /-- Messages of a link, oldest first, by 8 x source + destination; the matrix at its last beat. -/
  links : Tab (List Msg) := []
  linkBeats : Tab (Tab Nat) := []
  /-- Data lanes in use and reserve lanes left of a link (R374). -/
  linkLanes : Tab Nat := []
  linkReserve : Tab Nat := []
  linkDown : List Nat := []
  /-- Releases that agents within their scopes await the earlier accesses of (R272, R274). -/
  rels : List Rel := []
  /-- Sections of code of the firmware, by address (R104, R371): what a steward core fetches from. -/
  firmware : List (Nat × List Byte) := []
  power : Power := .running
  /-- P of R13. -/
  powerDraw : Nat := 0
  /-- Interrupts sent to the host, oldest first (R364). -/
  irqs : List Nat := []
  /-- Reports in the management mailbox, oldest first (R373, R375). -/
  mailbox : List Report := []
  /-- What the host reads returned, oldest first (R365). -/
  hostReads : List (List Byte) := []
  /-- Posted requests of the host that wait, with their die, oldest first (R286). -/
  posted : List (Nat × Posted) := []
  /-- Operations sent to scale-out peers, oldest first (R366). -/
  fabric : List FabricOp := []
  agenda : List Turn := []
  /-- The event that is taking place. -/
  event : Option Ev := none
  /-- The path that issues when the agenda is empty: group and path index. -/
  cursor : Nat × Nat := (0, 0)
  /-- Groups whose turn came since their stage last issued, and which could not issue (R47). -/
  tried : List Nat := []
  cycle : Nat := 0
  nextId : Nat := 0
  fresh : Nat := 0
  deriving DecidableEq, Repr, Inhabited

/-- Why the machine stops. -/
inductive Fault where
  /-- Power is lost: the package runs no instruction (R376). Raised by `step`; safe: the spec stops
  the clocks. -/
  | powerLost
  /-- Bring-up failed: the package serves the failure record and runs no instruction (R372). Raised by
  `step`; safe: the spec stops compute. -/
  | beacon
  deriving DecidableEq, Repr, Inhabited

/-- Why an instruction or event has no meaning. -/
inductive Refusal where
  /-- Its arm is not written yet. Raised by `exec`; safe: nothing can be proved past it. -/
  | notModelled (mnemonic : String)
  /-- A management mailbox command that the spec does not describe (R372 to R375). Raised by
  MAILBOX_COMMAND; safe: nothing can be proved past it. -/
  | mailboxUnspecified (code : Nat)
  deriving DecidableEq, Repr, Inhabited

/-- The outcome of a step. -/
abbrev Out := Host.Outcome State Fault Refusal

/-- A C-die after cold reset and bring-up steps 1 to 5 (R367, R369 to R371). -/
def Die.reset (d : Nat) : Die := { ftFirst := Config.ftFirst d }

/-- The state after cold reset and bring-up, before any QEN write (R370, R371): every table at its
reset value, no work anywhere. Assumption log 1, 4, 5. -/
def State.reset : State := {}

end Sys2Proof.Machine
end

