-- ==== Sys2Proof/Machine/Table.lean ====
section
/-! DEFINITION. Finite tables, canonical byte memories, and the accessors of the parts of State. -/

namespace Sys2Proof.Machine

/-- Consecutive numbers. -/
def upFrom (n : Nat) : Nat → List Nat
  | 0 => []
  | k + 1 => n :: upFrom (n + 1) k

/-- The entry of a key. -/
def Tab.find? {α : Type} : Tab α → Nat → Option α
  | [], _ => none
  | (k, v) :: t, n => if k = n then some v else Tab.find? t n

/-- The entry of a key, or a default. -/
def Tab.getD {α : Type} (t : Tab α) (n : Nat) (d : α) : α := (Tab.find? t n).getD d

/-- Set an entry; keys stay rising. -/
def Tab.put {α : Type} : Tab α → Nat → α → Tab α
  | [], n, v => [(n, v)]
  | (k, w) :: t, n, v =>
    if n < k then (n, v) :: (k, w) :: t
    else if n = k then (n, v) :: t
    else (k, w) :: Tab.put t n v

/-- Remove an entry. -/
def Tab.del {α : Type} : Tab α → Nat → Tab α
  | [], _ => []
  | (k, w) :: t, n => if k = n then Tab.del t n else (k, w) :: Tab.del t n

/-- Change an entry that exists. -/
def Tab.upd {α : Type} (t : Tab α) (n : Nat) (f : α → α) : Tab α :=
  match Tab.find? t n with
  | some v => Tab.put t n (f v)
  | none => t

/-- Every entry changed, keys kept. -/
def Tab.mapV {α : Type} (t : Tab α) (f : Nat → α → α) : Tab α := t.map fun e => (e.1, f e.1 e.2)

/-- What an address that no entry lists reads as (assumption log 3). -/
def memDefault : Byte := 0

/-- The canonical form: addresses strictly rising, no entry equal to what an unlisted address reads as. -/
def Memory.wfFrom (lo : Nat) : Memory → Bool
  | [] => true
  | (a, v) :: m => decide (lo ≤ a) && v != memDefault && Memory.wfFrom (a + 1) m

/-- The canonical form of a memory. -/
def Memory.wf (m : Memory) : Bool := Memory.wfFrom 0 m

/-- One byte. -/
def Memory.read : Memory → Nat → Byte
  | [], _ => memDefault
  | (k, v) :: m, a => if k = a then v else Memory.read m a

/-- An entry removed. -/
def Memory.drop : Memory → Nat → Memory
  | [], _ => []
  | (k, v) :: m, a => if k = a then Memory.drop m a else (k, v) :: Memory.drop m a

/-- An entry put in order. -/
def Memory.insert : Memory → Nat → Byte → Memory
  | [], a, v => [(a, v)]
  | (k, w) :: m, a, v =>
    if a < k then (a, v) :: (k, w) :: m
    else if a = k then (a, v) :: m
    else (k, w) :: Memory.insert m a v

/-- One byte written; the canonical form is kept. -/
def Memory.write (m : Memory) (a : Nat) (v : Byte) : Memory :=
  if v = memDefault then Memory.drop m a else Memory.insert m a v

/-- `n` bytes from `a` up. -/
def Memory.readN (m : Memory) (a : Nat) : Nat → List Byte
  | 0 => []
  | n + 1 => Memory.read m a :: Memory.readN m (a + 1) n

/-- Bytes written from `a` up. -/
def Memory.writeN (m : Memory) (a : Nat) : List Byte → Memory
  | [] => m
  | v :: vs => Memory.writeN (Memory.write m a v) (a + 1) vs

/-- Little-endian value of bytes (R1). -/
def leNat : List Byte → Nat
  | [] => 0
  | b :: bs => b.toNat + 256 * leNat bs

/-- Bytes `k` up to `k + n` of a list, little-endian. -/
def leAt (bs : List Byte) (k n : Nat) : Nat := leNat ((bs.drop k).take n)

/-- The low `n` bytes of a value, little-endian (R1). -/
def leBytes : Nat → Nat → List Byte
  | 0, _ => []
  | n + 1, v => BitVec.ofNat 8 v :: leBytes n (v / 256)

/-- Die of a LOC (R165). -/
def locDie (loc : Nat) : Nat := loc / 256
/-- Cluster key of a LOC: 32 x die + logical cluster. -/
def locCluster (loc : Nat) : Nat := 32 * (loc / 256) + loc % 256 / 4
/-- Number of the core on its die. -/
def locCoreOfDie (loc : Nat) : Nat := loc % 256
/-- LOC of a core of a cluster (R165): die in bits 9:8, cluster in 7:2, core in 1:0. -/
def clusterLoc (ck k : Nat) : Nat := 256 * (ck / 32) + 4 * (ck % 32) + k
/-- LOC from which the model numbers the cores of steward groups, which lie on no C-die. -/
def stewardLoc : Nat := 1024
/-- Core in its cluster. -/
def locCore (loc : Nat) : Nat := loc % 4

/-- A C-die. -/
def State.die (s : State) (d : Nat) : Die := Tab.getD s.dies d (Die.reset d)
/-- A C-die replaced. -/
def State.setDie (s : State) (d : Nat) (x : Die) : State := { s with dies := Tab.put s.dies d x }
/-- A C-die changed. -/
def State.modDie (s : State) (d : Nat) (f : Die → Die) : State := s.setDie d (f (s.die d))
/-- An X-die. -/
def State.xdie (s : State) (d : Nat) : Xdie := Tab.getD s.xdies d {}
/-- An X-die changed. -/
def State.modXdie (s : State) (d : Nat) (f : Xdie → Xdie) : State :=
  { s with xdies := Tab.put s.xdies d (f (s.xdie d)) }
/-- A cluster. -/
def State.cluster (s : State) (c : Nat) : Cluster := Tab.getD s.clusters c {}
/-- A cluster changed. -/
def State.modCluster (s : State) (c : Nat) (f : Cluster → Cluster) : State :=
  { s with clusters := Tab.put s.clusters c (f (s.cluster c)) }
/-- A core. -/
def State.core (s : State) (loc : Nat) : Core := Tab.getD s.cores loc {}
/-- A core changed. -/
def State.modCore (s : State) (loc : Nat) (f : Core → Core) : State :=
  { s with cores := Tab.put s.cores loc (f (s.core loc)) }
/-- The engine of a core changed. -/
def State.modEngine (s : State) (loc : Nat) (f : Engine → Engine) : State :=
  s.modCore loc fun c => { c with engine := f c.engine }
/-- A group. -/
def State.group? (s : State) (g : Nat) : Option Group := Tab.find? s.groups g
/-- A group set. -/
def State.setGroup (s : State) (g : Nat) (x : Group) : State :=
  { s with groups := Tab.put s.groups g x }
/-- A group that exists changed. -/
def State.modGroup (s : State) (g : Nat) (f : Group → Group) : State :=
  { s with groups := Tab.upd s.groups g f }
/-- A workgroup. -/
def State.wg? (s : State) (w : Nat) : Option Workgroup := Tab.find? s.wgs w
/-- A workgroup set. -/
def State.setWg (s : State) (w : Nat) (x : Workgroup) : State := { s with wgs := Tab.put s.wgs w x }
/-- A workgroup that exists changed. -/
def State.modWg (s : State) (w : Nat) (f : Workgroup → Workgroup) : State :=
  { s with wgs := Tab.upd s.wgs w f }
/-- An operation in flight. -/
def State.op? (s : State) (o : Nat) : Option Op := Tab.find? s.ops o
/-- An operation set. -/
def State.setOp (s : State) (o : Nat) (x : Op) : State := { s with ops := Tab.put s.ops o x }
/-- An operation gone. -/
def State.delOp (s : State) (o : Nat) : State := { s with ops := Tab.del s.ops o }
/-- A region's run data. -/
def State.run (s : State) (r : Nat) : RegionRun := Tab.getD s.regionRuns r {}
/-- A region's run data changed. -/
def State.modRun (s : State) (r : Nat) (f : RegionRun → RegionRun) : State :=
  { s with regionRuns := Tab.put s.regionRuns r (f (s.run r)) }

/-- A fresh name of an operation, command or item. -/
def State.newId (s : State) : Nat × State := (s.nextId, { s with nextId := s.nextId + 1 })

/-- A free word (assumption log 8). -/
def State.freeWord (s : State) : Word × State :=
  (Config.freeWord s.fresh, { s with fresh := s.fresh + 1 })

/-- `n` free bytes (assumption log 8). -/
def freeBytes (k : Nat) : Nat → List Byte
  | 0 => []
  | n + 1 => Config.freeByte k :: freeBytes (k + 1) n

/-- Free bytes taken from the state. -/
def State.freeBytes (s : State) (n : Nat) : List Byte × State :=
  (Machine.freeBytes s.fresh n, { s with fresh := s.fresh + n })

end Sys2Proof.Machine
end

