-- ==== Sys2Proof/Machine/Ops.lean ====
section
/-! DEFINITION. Operations over physical memory, frames, regions, translation (R206 to R216), trap
records (R343 to R350), taking an exception and returning from one (R169 to R171). -/

namespace Sys2Proof.Machine

/-- Fault code number (R344). -/
def FCode.num : FCode → Nat
  | .ill => 1 | .xland => 2 | .priv => 3 | .place => 4 | .align => 5 | .page => 6 | .perm => 7
  | .attr => 8 | .alias_ => 9 | .ws2 => 10 | .wsa => 11 | .ipx => 12 | .viol => 13 | .sparse => 14
  | .pat => 15 | .fifo => 16 | .nullret => 17 | .spawnx => 18 | .lumen => 19 | .strand => 20
  | .recast => 21 | .wdog => 22 | .swtrap => 23 | .preempt => 24

/-- Order of the faults found at execution (R246): the lowest is reported. -/
def FCode.rank : FCode → Nat
  | .align => 1 | .page => 2 | .perm => 3 | .attr => 4 | .alias_ => 5 | .strand => 6 | .ipx => 7
  | .wsa => 8 | .ws2 => 9 | .viol => 10
  | _ => 0

/-- Die whose queues take a core's records: the die of its LOC. -/
def coreDie (loc : Nat) : Nat := if loc < stewardLoc then locDie loc else 4 + (loc - stewardLoc) / 4

/-! ### Physical memory -/

/-- C-die whose HBM holds a physical address (R231, assumption log 5). -/
def hbmDie (pa : Nat) : Option Nat :=
  let d := pa / Config.frameBytes / Config.framesPerDie
  if d < 4 then some d else none

/-- A host physical address: bit 47 (R365). -/
def isHostPa (pa : Nat) : Bool := pa / 2 ^ 47 % 2 == 1

/-- Frame number of a physical address. -/
def frameOf (pa : Nat) : Nat := pa / Config.frameBytes

/-- An address of the control window (R367). -/
def isCwPa (pa : Nat) : Bool :=
  decide (Config.framesPerDie - Config.cwFrames ≤ frameOf pa % Config.framesPerDie)
    && (hbmDie pa).isSome

/-- Offset in the control window. -/
def cwOff (pa : Nat) : Nat :=
  pa - (frameOf pa / Config.framesPerDie * Config.framesPerDie
    + (Config.framesPerDie - Config.cwFrames)) * Config.frameBytes

/-- One byte of physical memory. -/
def State.readPa (s : State) (pa : Nat) : Byte :=
  if isHostPa pa then Memory.read s.hostMem (pa % 2 ^ 47)
  else match hbmDie pa with
    | some d => Memory.read (s.die d).mem pa
    | none => 0

/-- `n` bytes of physical memory. -/
def State.readPaN (s : State) (pa : Nat) : Nat → List Byte
  | 0 => []
  | n + 1 => s.readPa pa :: State.readPaN s (pa + 1) n

/-- Little-endian value at a physical address. -/
def State.readPaLe (s : State) (pa n : Nat) : Nat := leNat (s.readPaN pa n)

/-- One byte written to physical memory. -/
def State.writePa (s : State) (pa : Nat) (b : Byte) : State :=
  if isHostPa pa then { s with hostMem := Memory.write s.hostMem (pa % 2 ^ 47) b }
  else match hbmDie pa with
    | some d => s.modDie d fun x => { x with mem := Memory.write x.mem pa b }
    | none => s

/-- Bytes written to physical memory. -/
def State.writePaN (s : State) (pa : Nat) : List Byte → State
  | [] => s
  | b :: bs => State.writePaN (s.writePa pa b) (pa + 1) bs

/-- A device's own structure of `n` bytes, at a base that has been written, has bytes in the frame of an address. -/
def ownsPa (base : DWord) (n pa : Nat) : Bool :=
  let f := pa / Config.frameBytes * Config.frameBytes
  base != 0 && decide (base.toNat < f + Config.frameBytes) && decide (f < base.toNat + n)

/-- The address lies in a structure that the device owns and that a register of the control window locates (R204,
R212, R226): the frame type table, the region directory, a continuation ring, a spill area. Their frames carry RES
(assumption log 111). -/
def Die.ownStructure (x : Die) (pa : Nat) : Bool :=
  ownsPa x.ftBase (4 * Config.framesPerDie) pa || ownsPa x.rgnBase (128 * 65536) pa
    || (x.cqBase.any fun e => ownsPa e.2 (32 * 2 ^ Tab.getD x.cqK e.1 8) pa)
    || x.spill.any fun e => ownsPa e.2 1179648 pa

/-- A frame's type entry; the control window's frames are DEV and SC (R367, R371). -/
def State.frame (s : State) (pa : Nat) : Frame :=
  match hbmDie pa with
  | some d => Tab.getD (s.die d).frames (frameOf pa)
      (if isCwPa pa then { typ := 1, dev := true, trans := (s.die d).transAll }
       else { trans := (s.die d).transAll, res := (s.die d).ownStructure pa })
  | none => {}

/-- A frame's type entry changed. -/
def State.modFrame (s : State) (pa : Nat) (f : Frame → Frame) : State :=
  match hbmDie pa with
  | some d => s.modDie d fun x => { x with frames := Tab.put x.frames (frameOf pa) (f (s.frame pa)) }
  | none => s

/-- Home slice (R231). -/
def homeSlice (pa : Nat) : Nat :=
  if isCwPa pa then 0
  else
    let o := pa % (Config.framesPerDie * Config.frameBytes)
    ((o / 2 ^ 7 % 64) ^^^ (o / 2 ^ 13 % 64) ^^^ (o / 2 ^ 19 % 64) ^^^ (o / 2 ^ 25 % 64)
      ^^^ (o / 2 ^ 31 % 64))

/-- Serving memory unit (R231). -/
def memUnit (pa : Nat) : Nat :=
  let o := pa % (Config.framesPerDie * Config.frameBytes)
  16 * (o / 2 ^ 16 % 2) + o / 2 ^ 12 % 16

/-! ### Slices and hot frames (R199, R230) -/

/-- Index of row `k` for a frame. -/
def hotIdx (n k : Nat) : Nat :=
  let m := [0x9E3779B1, 0x85EBCA77, 0xC2B2AE3D, 0x27D4EB2F].getD k 0
  n * m % 2 ^ 32 / 2 ^ 22

/-- Counter of row `k` that a frame uses in a controller's sketch. -/
def hotKey (u n k : Nat) : Nat := 4096 * u + 1024 * k + hotIdx n k

/-- The estimate of a frame: the least of its four counters, as they stand (R199). -/
def Die.hotEst (x : Die) (u n : Nat) : Nat :=
  [0, 1, 2, 3].foldl (fun m k => min m (Tab.getD x.hot (hotKey u n k) 0)) 0xFFFF

/-- The candidates of a controller after an access of frame `n`, by the estimates as they stand (R199). -/
def Die.hotUpdate (x : Die) (u n : Nat) (l : List Nat) : List Nat :=
  if l.contains n then l
  else if l.length < 32 then l ++ [n]
  else
    -- the smallest; on a tie the younger goes
    let m := l.foldl (fun b y => if x.hotEst u y ≤ x.hotEst u b then y else b) (l.headD 0)
    if x.hotEst u m < x.hotEst u n then l.filter (fun y => y != m) ++ [n] else l

/-- A 64-byte access of a memory controller counted in its sketch (R199). -/
def Die.hbmAccess (x : Die) (pa : Nat) : Die :=
  let u := memUnit pa
  let n := frameOf pa
  let y : Die := { x with hot := [0, 1, 2, 3].foldl (fun t k =>
    Tab.put t (hotKey u n k) (min 0xFFFF (Tab.getD t (hotKey u n k) 0 + 1))) x.hot }
  { y with hotCand := Tab.put y.hotCand u (y.hotUpdate u n (Tab.getD y.hotCand u [])) }

/-- 64-byte units that a slice cache of 1.5 MiB holds (R11, R230). -/
def sliceUnits : Nat := 24576

/-- An access at a home slice: what the slice holds needs no access of the memory controller; a unit that it does not
hold is filled, and the oldest leaves, to be written back if it is dirty (assumption log 20). -/
def Die.sliceTouch (x : Die) (pa : Nat) (write : Bool) : Die :=
  let u := pa / 64
  let sl := homeSlice pa
  let l := Tab.getD x.slices sl []
  if l.any fun e => e.1 == u then
    if write then { x with slices := Tab.put x.slices sl (l.map fun e => if e.1 == u then (u, true) else e) } else x
  else
    let y := x.hbmAccess pa
    let l1 := (u, write) :: l
    let z := match l1[sliceUnits]? with
      | some (v, true) => y.hbmAccess (64 * v)
      | _ => y
    { z with slices := Tab.put z.slices sl (l1.take sliceUnits) }

/-- An access at the home slice of an address (R199, R230). -/
def State.hotTouch (s : State) (pa : Nat) (write : Bool := false) : State :=
  match hbmDie pa with
  | none => s
  | some d => s.modDie d fun x => x.sliceTouch pa write

/-- Dirty units of a line in the home slice written to HBM (R263). -/
def State.sliceClean (s : State) (line : Nat) : State :=
  match hbmDie (128 * line) with
  | none => s
  | some d => s.modDie d fun x =>
    let sl := homeSlice (128 * line)
    let l := Tab.getD x.slices sl []
    let y := l.foldl (fun y e => if e.2 && e.1 / 2 == line then y.hbmAccess (64 * e.1) else y) x
    { y with slices := Tab.put y.slices sl (l.map fun e => if e.1 / 2 == line then (e.1, false) else e) }

/-- The units that `n` bytes from an address up lie in, accessed at their home slices. -/
def State.touchAll (s : State) (pa n : Nat) (write : Bool := false) : State :=
  (upFrom (pa / 64) ((pa + n - 1) / 64 + 1 - pa / 64)).foldl (fun s u => s.hotTouch (64 * u) write) s

/-- The units of a frame leave the home slices, dirty ones written to HBM (R213). -/
def Die.sliceDrop (x : Die) (n : Nat) : Die :=
  let on := fun e : Nat × Bool => frameOf (64 * e.1) == n
  let y := x.slices.foldl (fun y l => l.2.foldl (fun y e => if on e && e.2 then y.hbmAccess (64 * e.1) else y) y) x
  { y with slices := (Tab.mapV y.slices fun _ l => l.filter fun e => !on e).filter fun l => !l.2.isEmpty }

/-! ### Writes of the device -/

/-- The duplicates of a frame that a test picks are to be invalidated (R242). -/
def State.dupSend (s : State) (d n : Nat) (p : Dup → Bool) : State :=
  s.modDie d fun x =>
    { x with dups := Tab.upd x.dups n fun l => l.map fun u => if p u then { u with sent := true } else u }

/-- A write to a frame with read duplicates stalls; every holder is sent an invalidation (R242). -/
def State.dupStall (s : State) (pa : Nat) : Option State :=
  match hbmDie pa with
  | some h => if (s.frame pa).hold != 0 then some (s.dupSend h (frameOf pa) fun _ => true) else none
  | none => none

/-- A write that a frame's read duplicates hold back, kept until they are gone (R242). -/
def State.keepLate (s : State) (pa : Nat) (w : Late) : State :=
  match hbmDie pa with
  | some h => s.modDie h fun x => { x with late := x.late ++ [w] }
  | none => s

/-- Whether a die reaches a physical address as memory (R209): its own HBM and host memory; through a peer
slot the HBM of the exporting die `ex`; an X-die's steward cores reach every C-die. -/
def reaches (d pa : Nat) (ex : Option Nat) : Bool :=
  isHostPa pa || (match hbmDie pa, ex with
    | some h, some x => h == x
    | some h, none => h == d || decide (4 ≤ d)
    | none, _ => false)

/-- Bytes written to memory through the home slices that hold them. -/
def State.putPa (s : State) (pa : Nat) (bs : List Byte) : State := (s.writePaN pa bs).touchAll pa bs.length true

/-- Bytes written by a die itself, for which no party waits: now, or once the frame's read duplicates are gone (R242).
What the die does not reach meets an error response, and is lost (R9; assumption log 89). -/
def State.devWrite (s : State) (d pa : Nat) (bs : List Byte) : State :=
  if !reaches d pa none then s
  else match s.dupStall pa with
    | some s1 => s1.keepLate pa (.bytes pa bs)
    | none => s.putPa pa bs

/-- An entry in a die's violation log (R351); what an X-die meets is logged on C-die 0 (assumption log 27). -/
def State.logViolation (s : State) (die pa cause kind unit : Nat) : State :=
  let d := if die < 4 then die else 0
  let x := s.die d
  let at_ := x.vlBase.toNat + 16 * (x.vlTail.toNat % 4096)
  let s1 := s.devWrite d at_
    (leBytes 8 (pa % 2 ^ 48) ++ leBytes 1 cause ++ leBytes 1 kind ++ leBytes 2 unit
      ++ leBytes 4 (x.ticks % 2 ^ 32))
  s1.modDie d fun x =>
    { x with vlTail := x.vlTail + 1, vlOver := if x.vlFull then x.vlOver + 1 else x.vlOver,
             vlFull := x.vlFull || x.vlTail.toNat + 1 == 4096 }

/-! ### Regions -/

/-- Region 0's block as bring-up writes it (R384). -/
def rgnZero : RgnBlock :=
  { words := [0x00000000000007FF, 0x0000000000800507, Config.rgn0Quota, Config.rgn0Handler,
      Config.rgn0OvfBase, BitVec.ofNat 64 Config.rgn0OvfSize, 0, 0, 0, 0, 0, 0, 0, 0, 0, 0] }

/-- A region's block on a die; none: the number is not live. -/
def State.rgn? (s : State) (d r : Nat) : Option RgnBlock :=
  match Tab.find? (s.die d).regions r with
  | some b => some b
  | none => if r == 0 then some rgnZero else none

/-- `n` bytes at offset `off` of a block. -/
def RgnBlock.field (b : RgnBlock) (off n : Nat) : Nat :=
  (b.words.getD (off / 8) 0).toNat / 2 ^ (8 * (off % 8)) % 2 ^ (8 * n)

/-- PARENT (R226). -/
def RgnBlock.parent (b : RgnBlock) : Nat := b.field 6 2
/-- PRIO (R226). -/
def RgnBlock.prio (b : RgnBlock) : Nat := b.field 8 1 % 8
/-- PRIV (R226). -/
def RgnBlock.priv (b : RgnBlock) : Bool := b.field 9 1 % 2 == 1
/-- IRQEN (R226). -/
def RgnBlock.irqen (b : RgnBlock) : Bool := b.field 9 1 / 2 % 2 == 1
/-- FMODE: 1 KILL, 2 STALL (R226). -/
def RgnBlock.fmode (b : RgnBlock) : Nat := b.field 9 1 / 4 % 4
/-- POLICY: kill the subtree (R226). -/
def RgnBlock.policyKill (b : RgnBlock) : Bool := b.field 9 1 / 16 % 2 == 1
/-- CORES (R226). -/
def RgnBlock.cores (b : RgnBlock) : Nat := b.field 0x0A 2
/-- LSHARE (R226). -/
def RgnBlock.lshare (b : RgnBlock) : Nat := b.field 0x0C 4
/-- HANDLER (R226). -/
def RgnBlock.handler (b : RgnBlock) : DWord := b.words.getD 3 0
/-- OVFBASE (R226). -/
def RgnBlock.ovfBase (b : RgnBlock) : DWord := b.words.getD 4 0
/-- OVFSIZE (R226). -/
def RgnBlock.ovfSize (b : RgnBlock) : Nat := b.field 0x28 4
/-- WDOG interval (R226). -/
def RgnBlock.wdog (b : RgnBlock) : Nat := b.field 0x2C 4
/-- CREC (R226). -/
def RgnBlock.crec (b : RgnBlock) : DWord := b.words.getD 6 0
/-- FQBASE (R226). -/
def RgnBlock.fqBase (b : RgnBlock) : DWord := b.words.getD 7 0
/-- FQSIZE (R226). -/
def RgnBlock.fqSize (b : RgnBlock) : Nat := b.field 0x40 4
/-- IRQVEC (R226). -/
def RgnBlock.irqVec (b : RgnBlock) : Nat := b.field 0x44 4

/-- `r` is `top` or a descendant of it on a die; `fuel` bounds the depth of the tree. -/
def State.inSubtree (s : State) (d top : Nat) : Nat → Nat → Bool
  | 0, _ => false
  | fuel + 1, r =>
    if r == top then true
    else if r == 0 then false
    else match s.rgn? d r with
      | some b => State.inSubtree s d top fuel b.parent
      | none => false

/-- A region and its ancestors on a die. -/
def State.lineage (s : State) (d : Nat) : Nat → Nat → List Nat
  | 0, _ => []
  | fuel + 1, r => r :: (if r == 0 then [] else match s.rgn? d r with
    | some b => State.lineage s d fuel b.parent
    | none => [])

/-- Membership of a region's subtree: a region tree is at most 65,536 deep. -/
def State.under (s : State) (d top r : Nat) : Bool := s.inSubtree d top 65536 r

/-- The 32 bits of a frame's type entry (R212). -/
def Frame.word (f : Frame) : Nat :=
  let b := fun (x : Bool) k => if x then 2 ^ k else 0
  f.typ.toNat + b f.trans 3 + 2 ^ 4 * f.newType.toNat + b f.strand 6 + b f.dev 7 + b f.res 8 + 2 ^ 9 * f.owner.toNat
    + 2 ^ 16 * f.hold.toNat

/-- Offset of an address in a structure of `n` bytes whose base register has been written. -/
def offsetIn (base : DWord) (n pa : Nat) : Option Nat :=
  if base != 0 && decide (base.toNat ≤ pa) && decide (pa < base.toNat + n) then some (pa - base.toNat) else none

/-- A byte of the frame type table or of the region directory of a die, which the device alone writes (R204, R212, R226);
none: the address lies in neither. -/
def State.tableByte (s : State) (pa : Nat) : Option Byte :=
  match hbmDie pa with
  | none => none
  | some d =>
    let x := s.die d
    match offsetIn x.ftBase (4 * Config.framesPerDie) pa, offsetIn x.rgnBase (128 * 65536) pa with
    | some i, _ => some (BitVec.ofNat 8 ((s.frame ((x.ftFirst + i / 4) * Config.frameBytes)).word / 256 ^ (i % 4)))
    | none, some i => some (match s.rgn? d (i / 128) with
      | some b => BitVec.ofNat 8 (b.field (i % 128) 1)
      | none => 0)
    | none, none => none

/-- A little-endian value as the device's units find it in memory, tables of the device included. -/
def State.devLe (s : State) (pa n : Nat) : Nat :=
  leNat ((upFrom pa n).map fun a => (s.tableByte a).getD (s.readPa a))

/-! ### Translation -/

/-- A table walk's outcome (R208). -/
inductive Walk where
  | ok (base size frame : Nat) (leaf : DWord) (epa : Nat)
  | page
  | malformed (epa : Nat)
  /-- The entry lies in no memory that the walking die reaches (R9). -/
  | unreached (epa : Nat)
  deriving DecidableEq, Repr

/-- Bits of a table entry. -/
def pteBit (e : DWord) (k : Nat) : Bool := e.getLsbD k

/-- ADDR of an entry: bits 47:16 (R207). -/
def pteAddr (e : DWord) : Nat := (e.toNat / 2 ^ 16 % 2 ^ 32) * 2 ^ 16

/-- A malformed entry (R208). Levels 1 to 3. -/
def pteMalformed (e : DWord) (level : Nat) : Bool :=
  e.toNat / 2 ^ 48 != 0 || e.toNat / 2 ^ 13 % 8 != 0
    || (pteBit e 1 && level == 1) || (!pteBit e 1 && level == 3)
    || (pteBit e 10 && level != 3)
    || (!pteBit e 1 && e.toNat / 4 % 2 ^ 11 != 0)
    || (pteBit e 1 && pteBit e 16)
    || (pteBit e 1 && level == 2 && e.toNat / 2 ^ 16 % 2 ^ 14 != 0)

/-- The leaf at level 3, its run followed (R208). -/
def State.walkRun (s : State) (table va : Nat) (e : DWord) : Walk :=
  let i := va / 2 ^ 17 % 8192
  if pteBit e 10 then
    let hpa := table + 8 * (i / 64 * 64)
    let h := BitVec.ofNat 64 (s.devLe hpa 8)
    if !pteBit h 0 || !pteBit h 10 || pteAddr h / 2 ^ 17 % 64 != 0 || pteMalformed h 3 then .malformed hpa
    else .ok (va / 2 ^ 23 * 2 ^ 23) (2 ^ 23) (pteAddr h) h hpa
  else .ok (va / 2 ^ 17 * 2 ^ 17) (2 ^ 17) (pteAddr e) e (table + 8 * i)

/-- Walk from the level-1 table down by the walkers of a die (R208). -/
def State.walkLevels (s : State) (d va table : Nat) : Nat → Walk
  | 0 => .page
  | fuel + 1 =>
    let level := 3 - fuel
    let i := va / 2 ^ (17 + 13 * fuel) % 8192
    let epa := table + 8 * i
    let e := BitVec.ofNat 64 (s.devLe epa 8)
    if !reaches d epa none then .unreached epa
    else if !pteBit e 0 then .page
    else if pteMalformed e level then .malformed epa
    else if pteBit e 1 then
      if level == 3 then s.walkRun table va e
      else .ok (va / 2 ^ 30 * 2 ^ 30) (2 ^ 30) (pteAddr e) e epa
    else State.walkLevels s d va (pteAddr e) fuel

/-- The pointer entries on the walk of an address, from a table down (R208). -/
def State.walkPath (s : State) (d sid va table : Nat) : Nat → List WalkPtr
  | 0 => []
  | fuel + 1 =>
    let size := 2 ^ (17 + 13 * fuel)
    let epa := table + 8 * (va / size % 8192)
    let e := BitVec.ofNat 64 (s.devLe epa 8)
    if !reaches d epa none || !pteBit e 0 || pteMalformed e (3 - fuel) || pteBit e 1 then []
    else { sid, base := va / size * size, size, table := pteAddr e } :: State.walkPath s d sid va (pteAddr e) fuel

/-- The entries that a walk reads, from a table down, the head of a run among them (R208). -/
def State.walkEntries (s : State) (d va table : Nat) : Nat → List Nat
  | 0 => []
  | fuel + 1 =>
    let i := va / 2 ^ (17 + 13 * fuel) % 8192
    let epa := table + 8 * i
    let e := BitVec.ofNat 64 (s.devLe epa 8)
    if !reaches d epa none then []
    else if !pteBit e 0 || pteMalformed e (3 - fuel) || (pteBit e 1 && !pteBit e 10) then [epa]
    else if pteBit e 1 then [epa, table + 8 * (i / 64 * 64)]
    else epa :: State.walkEntries s d va (pteAddr e) fuel

/-- Entries read through the home slices that hold them (R199). -/
def State.touchWalk (s : State) (l : List Nat) : State := l.foldl (fun s a => s.hotTouch a) s

/-- The pointer entry of a level that a die's walk cache holds for an address (R211). -/
def State.walkPtr (s : State) (d sid va n : Nat) : Option WalkPtr :=
  (s.die d).walkPtrs.find? fun p => p.sid == sid && p.size == n && decide (p.base ≤ va) && decide (va < p.base + p.size)

/-- Where the walk of an address begins (R208, R211): the table and the levels left, by the lowest pointer
entry that the die's walk cache holds for it, else by the root array. -/
def State.walkStart (s : State) (d root sid va : Nat) : Except Walk (Nat × Nat) :=
  match s.walkPtr d sid va (2 ^ 30), s.walkPtr d sid va (2 ^ 43) with
  | some p, _ => .ok (p.table, 1)
  | none, some p => .ok (p.table, 2)
  | none, none =>
    let epa := root + 8 * sid
    let e := BitVec.ofNat 64 (s.devLe epa 8)
    if !reaches d epa none then .error (.unreached epa)
    else if !pteBit e 0 || e.toNat / 2 ^ 48 != 0 || e.toNat / 2 % 2 ^ 15 != 0 then .error .page
    else .ok (pteAddr e, 3)

/-- Root array base and SID of a die, C-die or X-die. -/
def State.space (s : State) (d : Nat) : Nat × Nat :=
  if d < 4 then ((s.die d).rootBase.toNat, (s.die d).sid)
  else ((s.xdie d).rootBase.toNat, (s.xdie d).sid)

/-- The walk of a space by a die's walkers (R208, R211), and its pointer entries kept in the walk cache. -/
def State.walk (s : State) (d root sid va : Nat) : Walk × State :=
  match s.walkStart d root sid va with
  | .error w => (w, s)
  | .ok (table, n) =>
    (s.walkLevels d va table n,
      (s.modDie d fun x => { x with walkPtrs := x.walkPtrs ++ s.walkPath d sid va table n }).touchWalk
        ((if n == 3 then [root + 8 * sid] else []) ++ s.walkEntries d va table n))

/-- What an access needs (R209). -/
inductive Acc where
  | read | write | atomic | fetch | locate
  /-- W and AT: `ws.clear`, `join` (R183, R264). -/
  | writeAt
  /-- R and W: a block that the device reads and answers in (R217, R228). -/
  | readWrite
  deriving DecidableEq, Repr

/-- The rights of R209 check 2, with the rights a peer slot leaves (R216). -/
def accOk (a : Acc) (leaf : DWord) (rights : BitVec 3) : Bool :=
  let r := pteBit leaf 4 && rights.getLsbD 0
  let w := pteBit leaf 5 && rights.getLsbD 1
  let t := pteBit leaf 7 && rights.getLsbD 2
  match a with
  | .read => r
  | .write => w
  | .atomic => r && w && t
  | .writeAt => w && t
  | .readWrite => r && w
  | .fetch => pteBit leaf 6
  | .locate => pteBit leaf 8

/-- An OR into an entry if V, ADDR and TYPE are still those of `old` (R210). -/
def State.orEntry (s : State) (epa : Nat) (old : DWord) (bits : Nat) : Option State :=
  let e := BitVec.ofNat 64 (s.readPaLe epa 8)
  if e.getLsbD 0 == old.getLsbD 0 && pteAddr e == pteAddr old && e.toNat / 4 % 4 == old.toNat / 4 % 4
  then some (s.putPa epa (leBytes 8 (e.toNat ||| bits)))
  else none

/-- ACC set in the entry of a walk (R210): nothing waits for it, also where the entry's frame has read
duplicates (R242; assumption log 94). -/
def State.setAcc (s : State) (epa : Nat) (leaf : DWord) : State :=
  if pteBit leaf 11 then s
  else match s.dupStall epa with
    | some s1 => s1.keepLate epa (.acc epa leaf)
    | none => (s.orEntry epa leaf 0x800).getD s

/-- A core's holder number of its cluster's L2 (R211). -/
def l2Holder (holder : Nat) : Option Nat :=
  if holder < stewardLoc then some (2 * stewardLoc + 64 + locCluster holder) else none

/-- A cached translation of a holder (R211). -/
def State.cachedAt (s : State) (d holder sid va : Nat) (slot : Option Nat) : Option Trans :=
  List.find? (fun t : Trans => t.holder == holder && t.sid == sid && t.slot == slot
    && decide (t.base ≤ va) && decide (va < t.base + t.size)) (s.die d).tlb

/-- A cached translation that serves a holder (R211): a core's own L1, then its cluster's L2. -/
def State.cached (s : State) (d holder sid va : Nat) (slot : Option Nat) : Option Trans :=
  match s.cachedAt d holder sid va slot, l2Holder holder with
  | some t, _ => some t
  | none, some h => (s.cachedAt d h sid va slot).map fun t => { t with holder }
  | none, none => none

/-- An entry added to the cache of its holder; a full cache drops its oldest entry (assumption log 95). -/
def cacheIn (cap : Nat) (t : Trans) (l : List Trans) : List Trans :=
  if l.contains t then l
  else
    let own := l.filter fun x => x.holder == t.holder
    (match own.head? with
      | some o => if own.length < cap then l else l.erase o
      | none => l) ++ [t]

/-- A translation added to a die's caches (R211): 64 entries in a core's L1, 2,048 in a cluster's L2. -/
def State.fill (s : State) (d : Nat) (t : Trans) : State :=
  s.modDie d fun x => { x with tlb := match l2Holder t.holder with
    | some h => cacheIn 64 t (cacheIn 2048 { t with holder := h } x.tlb)
    | none => x.tlb ++ [t] }

/-- A cached translation dropped, from its holder's cache and the L2 behind it. -/
def State.unfill (s : State) (d : Nat) (t : Trans) : State :=
  s.modDie d fun x => { x with tlb := x.tlb.filter fun u =>
    u != t && !((l2Holder t.holder == some u.holder) && u == { t with holder := u.holder }) }

/-- A walk that fills the cache and sets ACC (R208, R210, R211); a malformed entry is logged. The
caches of an X-die's steward cores are kept under the X-die's number. -/
def State.walkFill (s : State) (d holder va : Nat) : Option Trans × State :=
  let (root, sid) := s.space d
  match s.walk d root sid va with
  | (.page, s1) => (none, s1)
  | (.malformed epa, s1) => (none, s1.logViolation d epa 3 5 0)
  | (.unreached epa, s1) => (none, s1.logViolation d epa 1 5 0)
  | (.ok base size frame leaf epa, s1) =>
    let t : Trans := { holder, sid, base, size, frame, leaf := leaf ||| 0x800, epa }
    (some t, (s1.setAcc epa leaf).fill d t)

/-- A valid peer slot's window over an address (R216). -/
def PeerSlot.covers (p : PeerSlot) (va : Nat) : Bool :=
  p.valid && decide (p.word1.toNat ≤ va)
    && decide (va < p.word1.toNat + p.word2.toNat % 2 ^ 32 * 2 ^ 23)

/-- The peer slot whose window holds an address. -/
def State.peerOf (s : State) (d va : Nat) : Option (Nat × PeerSlot) :=
  List.find? (fun e : Nat × PeerSlot => e.2.covers va) (s.die d).peers

/-- An export entry of a die (R215): valid with this KEY, or none; PERM, SID, ELEN, EBASE. -/
def State.export? (s : State) (d idx key : Nat) : Option (Nat × Nat × Nat × Nat) :=
  let pa := (s.die d).expBase.toNat + 32 * idx
  let w0 := s.readPaLe pa 8
  let base := s.readPaLe (pa + 8) 8
  let k := s.readPaLe (pa + 16) 8
  let rsv := w0 / 16 % 4096 != 0 || w0 / 2 ^ 28 % 16 != 0 || k / 2 ^ 52 != 0
    || s.readPaLe (pa + 24) 8 != 0
  if reaches d pa none && w0 % 2 == 1 && !rsv && base % 2 ^ 23 == 0 && k == key then
    some (w0 / 2 % 8, w0 / 2 ^ 16 % 4096, w0 / 2 ^ 32, base)
  else none

/-- Peer translation (R216): the exporting die walks EBASE + offset under the entry's SID. -/
def State.peerFill (s : State) (d holder va k : Nat) (p : PeerSlot) : Option Trans × State :=
  let h := p.word0.toNat
  let ex := h / 2 ^ 62
  let idx := h / 2 ^ 52 % 1024
  let off := va - p.word1.toNat
  match s.export? ex idx (h % 2 ^ 52) with
  | none => (none, s)
  | some (perm, sid, elen, ebase) =>
    if off ≥ elen * 2 ^ 23 || ebase + off ≥ 2 ^ 56 then (none, s) else
    match s.walk ex (s.die ex).rootBase.toNat sid (ebase + off) with
    | (.page, s1) => (none, s1)
    | (.malformed epa, s1) => (none, s1.logViolation ex epa 3 5 0)
    | (.unreached epa, s1) => (none, s1.logViolation ex epa 1 5 0)
    | (.ok base size frame leaf epa, s0) =>
      let s1 := s0.setAcc epa leaf
      -- the part of the leaf's page that the slot shows, in 128 KiB pages
      let pg := va / Config.frameBytes * Config.frameBytes
      let fr := frame + ((ebase + off) / Config.frameBytes * Config.frameBytes - base)
      let _ := size
      let t : Trans :=
        { holder, sid := (s.die d).sid, base := pg, size := Config.frameBytes, frame := fr,
          leaf := leaf ||| 0x800, epa, slot := some k, export_ := some (ex * 1024 + idx),
          rights := BitVec.ofNat 3 (perm &&& (p.word2.toNat / 2 ^ 40 % 8)) }
      (some t, s1.fill d t)

/-- A translation found in a core's L2 also enters its L1 (R211). -/
def State.keepL1 (s : State) (d : Nat) (t : Trans) : State :=
  if (s.die d).tlb.contains t then s else s.modDie d fun x => { x with tlb := cacheIn 64 t x.tlb }

/-- The translation of an address for a holder of a die (R206, R211, R216): cached, or walked now. -/
def State.lookup (s : State) (d holder va : Nat) : Option Trans × State :=
  if va ≥ 2 ^ 56 then (none, s)
  else match (if d < 4 then s.peerOf d va else none) with
    | some (k, p) =>
      match s.cached d holder (s.die d).sid va (some k) with
      | some t => (some t, s.keepL1 d t)
      | none => s.peerFill d holder va k p
    | none =>
      match s.cached d holder (s.space d).2 va none with
      | some t => (some t, s.keepL1 d t)
      | none => s.walkFill d holder va

/-- What setting DIRTY came to (R210). -/
inductive Dirtied where
  | ok (s : State)
  /-- The entry has changed: the access walks again. -/
  | again (s : State)
  /-- The entry's frame has read duplicates: the write waits for them (R242). -/
  | stall (s : State)

/-- DIRTY set before the first write through a cached leaf (R210). -/
def State.dirty (s : State) (d : Nat) (t : Trans) : Dirtied :=
  if pteBit t.leaf 12 then .ok s
  else match s.dupStall t.epa with
    | some s1 => .stall s1
    | none => match s.orEntry t.epa t.leaf 0x1000 with
      | some s1 => .ok ((s1.unfill d t).fill d { t with leaf := t.leaf ||| 0x1000 })
      | none => .again (s.unfill d t)

/-- The outcome of the checks of R209. -/
inductive Chk where
  | ok (pa : Nat) (typ : BitVec 2)
  | fault (c : FCode) (pa : Nat)
  /-- The frame is in transition: the access stalls (R209). -/
  | stall
  deriving DecidableEq, Repr

/-- Exporting die of a peer translation (R216). -/
def Trans.exporter (t : Trans) : Option Nat := t.export_.map (· / 1024)

/-- Checks 2 to 6 of R209 through a translation, for an access of `acc` by a core of die `d`; those of check
1 are past. -/
def State.checkVia (s : State) (d : Nat) (acc : Acc) (attr : BitVec 2 → Bool) (core : Option Nat) (t : Trans)
    (pa : Nat) : Chk :=
  let fr := s.frame pa
  let far := reaches d pa t.exporter
  if !accOk acc t.leaf t.rights || (fr.res && far) then .fault .perm pa
  else if acc == .locate then (if fr.strand then .fault .strand pa else .ok pa fr.typ)
  else if !far then .fault .viol pa
  else if fr.trans then .stall
  else if !attr fr.typ then .fault .attr pa
  else if BitVec.ofNat 2 (t.leaf.toNat / 4) != fr.typ then .fault .alias_ pa
  else if fr.strand then .fault .strand pa
  else if fr.typ == 3 && core.isSome && (core != some fr.owner.toNat || hbmDie pa != some d) then .fault .ipx pa
  else .ok pa fr.typ

/-- The access writes: DIRTY is set first (R210). -/
def Acc.writes (a : Acc) : Bool :=
  match a with
  | .write | .atomic | .writeAt | .readWrite => true
  | .read | .fetch | .locate => false

/-- One pass of the checks of R209; none: the entry has changed before DIRTY was set, and the access walks
again (R210). -/
def State.checkOnce (s : State) (d holder : Nat) (acc : Acc) (attr : BitVec 2 → Bool) (core : Option Nat)
    (va : Nat) : Option Chk × State :=
  match s.lookup d holder va with
  | (none, s1) => (some (.fault .page 0), s1)
  | (some t, s1) =>
    match s1.checkVia d acc attr core t (t.frame + (va - t.base)) with
    | .ok pa ty =>
      if acc.writes then match s1.dirty d t with
        | .ok s2 => (some (.ok pa ty), s2)
        | .again s2 => (none, s2)
        | .stall s2 => (some .stall, s2)
      else (some (.ok pa ty), s1)
    | .fault c pa => (some (.fault c pa), s1.unfill d t)
    | .stall => (some .stall, s1)

/-- The checks of R209 for an access of `acc` at `va` by a core of die `d`. `attr` tells whether the
operation is allowed on a frame type; `core` is the owner number of the accessing core, or none for a
path that IPX does not bind (R240). A translation whose access faults leaves the cache, so that the
access walks again when it is retried (R211; assumption log 48). -/
def State.check (s : State) (d holder : Nat) (acc : Acc) (attr : BitVec 2 → Bool) (core : Option Nat)
    (va : Nat) : Chk × State :=
  match s.checkOnce d holder acc attr core va with
  | (some c, s1) => (c, s1)
  | (none, s1) => match s1.checkOnce d holder acc attr core va with
    | (some c, s2) => (c, s2)
    | (none, s2) => (.stall, s2)

/-- Every right access of a unit of the device itself (fault queues, completion records, contexts):
`n` bytes at `va` under the die's SID, page by page. -/
def State.checkRange (s : State) (d : Nat) (acc : Acc) (va n : Nat) : Chk × State :=
  match s.check d (2048 + d) acc (fun _ => true) none va with
  | (.ok pa ty, s1) =>
    let last := va + n - 1
    if frameOf last == frameOf va then (.ok pa ty, s1)
    else match s1.check d (2048 + d) acc (fun _ => true) none last with
      | (.ok _ _, s2) => (.ok pa ty, s2)
      | r => r
  | r => r

/-! ### Trap records -/

/-- SRC codes by party are in `TrapInfo.src` (R345). A word of 64 bits in bytes. -/
def dw (v : Nat) : List Byte := leBytes 8 v

/-- The 64 bytes of a trap record (R343). -/
def TrapInfo.bytes (t : TrapInfo) (disp : Nat) (info redirect : Bool) (seq : Nat) : List Byte :=
  let flags := (if t.defer then 1 else 0) + (if info then 2 else 0) + (if redirect then 4 else 0)
  leBytes 1 t.code.num ++ leBytes 1 t.src ++ leBytes 1 disp ++ leBytes 1 flags
    ++ leBytes 2 (t.region.getD 0xFFFF) ++ leBytes 2 t.loc ++ dw t.pc.toNat
    ++ (match t.rcd with
      | some r => dw r.w0.toNat ++ dw r.w1.toNat ++ dw r.w2.toNat ++ dw r.w3.toNat
      | none => dw t.vaddr.toNat ++ dw t.paddr ++ leBytes 4 t.mask.toNat
          ++ leBytes 4 (t.windex.toNat + 2 ^ 24 * (t.gindex % 32)) ++ dw t.obj.toNat)
    ++ dw t.detail.toNat ++ leBytes 4 seq ++ leBytes 1 (t.logix.getD 0xFF) ++ leBytes 3 0

/-- A region's fault queue on a die (R348): virtual base and entries, if the region is live. -/
def State.faultQueue (s : State) (d : Nat) (r : Option Nat) : Option (Nat × Nat) :=
  match r with
  | none => none
  | some r => match s.rgn? d r with
    | some b => if b.fqSize == 0 then none else some (b.fqBase.toNat, b.fqSize)
    | none => none

/-- POLICY 1 of a record's region (R349). -/
def State.killsAtOnce (s : State) (d : Nat) (r : Option Nat) : Bool :=
  match r with
  | some r => match s.rgn? d r with
    | some b => b.policyKill
    | none => false
  | none => false

/-- Where a record goes (R348): header and record addresses, virtual for TRAPACK, or full. -/
inductive QSlot where
  /-- Physical address of TAIL, of the record, the address that TRAPACK names, REDIRECT. -/
  | room (tail rec_ : Nat) (ack : Nat) (redirect : Bool)
  | full
  deriving DecidableEq, Repr

/-- The die queue's next slot (R348): 4,096 records at DFQBASE. -/
def State.dieSlot (s : State) (d : Nat) : QSlot :=
  let b := (s.die d).dfqBase.toNat
  let tail := s.readPaLe b 4
  let head := s.readPaLe (b + 4) 4
  if !reaches d b none || (tail + 2 ^ 32 - head) % 2 ^ 32 == 4096 then .full
  else
    let r := b + 64 + 64 * (tail % 4096)
    .room b r (2 ^ 63 + r) true

/-- A slot whose frames have read duplicates takes no record until they are gone (R242). -/
def State.slotHeld (s : State) (q : QSlot) : QSlot × State :=
  match q with
  | .full => (.full, s)
  | .room tail rec_ _ _ => match s.dupStall tail, s.dupStall rec_ with
    | none, none => (q, s)
    | some s1, _ | none, some s1 => (.full, s1)

/-- The next slot of the queue a record goes to: the region's, or the die's when FQSIZE is 0, the
region is not live, or writing the queue would meet a fault (R348). A queue whose frame is in transition takes none
until that is over (R209). -/
def State.queueSlotAt (s : State) (d : Nat) (r : Option Nat) : QSlot × State :=
  match s.faultQueue d r with
  | none => (s.dieSlot d, s)
  | some (base, size) =>
    match s.checkRange d .write base 8 with
    | (.ok hpa _, s1) =>
      let tail := s1.readPaLe hpa 4
      let head := s1.readPaLe (hpa + 4) 4
      if (tail + 2 ^ 32 - head) % 2 ^ 32 == size then (.full, s1)
      else
        let va := base + 64 + 64 * (tail % size)
        match s1.checkRange d .write va 64 with
        | (.ok rpa _, s2) => (.room hpa rpa va false, s2)
        | (.stall, s2) => (.full, s2)
        | (.fault _ _, s2) => (s2.dieSlot d, s2)
    | (.stall, s1) => (.full, s1)
    | (.fault _ _, s1) => (s1.dieSlot d, s1)

/-- The next slot that takes a record now. -/
def State.queueSlot (s : State) (d : Nat) (r : Option Nat) : QSlot × State :=
  let (q, s1) := s.queueSlotAt d r
  s1.slotHeld q

/-- Removing what a killed region's subtree holds is `killSubtree`; this is the test of an item. -/
def State.dies4 : List Nat := [0, 1, 2, 3]

/-- Which regions a kill of `r` takes (R350). -/
def State.killed (s : State) (r x : Nat) : Bool := State.dies4.any fun d => s.under d r x

/-- The REGION field of a continuation record (R18). -/
def Record.region (r : Record) : Nat := r.w3.toNat % 2 ^ 16

/-- An engine scrubbed to the values of a claim and released (R296). -/
def Engine.release (e : Engine) : Engine :=
  { e with acc := [], blocks := [], fifoA := [], fifoB := [], gang := 0, queue := [],
           owner := .free, suspend := false, halted := false, refeeds := [], lumWait := 0, lumBlocked := false,
           stepped := false, stepFails := [], seqS := 0, seqKC := 0, seqCBC := 0, wdogAcc := 0, wdogHeld := 0, wdogSlow := 0 }

/-- The owner of an engine belongs to a killed region. -/
def State.ownerKilled (s : State) (r : Nat) (o : Owner) (tasks : List Task) : Bool :=
  match o with
  | .free => false
  | .wg w => match s.wg? w with
    | some g => s.killed r g.region
    | none => false
  | .task t => tasks.any fun x => x.id == t && s.killed r x.region

/-- The matrix of a die. -/
def State.clockOf (s : State) (d : Nat) : Tab Nat := if d < 4 then (s.die d).clock else (s.xdie d).clock

/-- Messages on a link. -/
def State.link (s : State) (d e : Nat) : List Msg := Tab.getD s.links (8 * d + e) []

/-- A message put on a link. -/
def State.push (s : State) (d e : Nat) (m : Msg) : State :=
  { s with links := Tab.put s.links (8 * d + e) (s.link d e ++ [m]) }

/-- A beat sent first if the matrix has changed since the last beat on the link (R284). -/
def State.beat (s : State) (d e : Nat) : State :=
  if s.clockOf d == Tab.getD s.linkBeats (8 * d + e) [] then s
  else { s.push d e (.beat (s.clockOf d)) with
    linkBeats := Tab.put s.linkBeats (8 * d + e) (s.clockOf d) }

/-- Any other cross-die message (R284). -/
def State.sendMsg (s : State) (d e : Nat) (m : Msg) : State := (s.beat d e).push d e m

/-- A push of a record whose region a test picks has nothing left to push (R350). -/
def Msg.drop (k : Nat → Bool) : Msg → Msg
  | .push q v => if k q.record.region then .dropped q.id v else .push q v
  | m => m

/-- An acknowledgement of a push goes back to its die (R17). -/
def State.ackPush (s : State) (d id : Nat) : State :=
  match s.op? id with
  | some o => if coreDie o.loc == d then s else s.sendMsg d (coreDie o.loc) (.ack id)
  | none => s

/-- The pushes of killed regions that their dies hold, by die and name. -/
def State.heldKilled (s : State) (k : Nat → Bool) : List (Nat × Nat) :=
  s.dies.flatMap fun d => (d.2.heldPush.filter fun x => k x.2.record.region).map fun x => (d.1, x.1)

/-- A region's launch as a kill leaves it (R350, R383): a report that waited on its record is dropped. -/
def RegionRun.kill (v : RegionRun) : RegionRun :=
  if v.party.isSome then { v with killed := true, party := none, active := false, seq := v.seq + 1 }
  else { v with killed := true }

/-- Kill of a subtree (R350): nothing of it has a further effect on any die. A push on its way pushes nothing; it is
counted as applied (R284) and acknowledged to a pusher outside the subtree (R17). -/
def State.killSubtree (s : State) (r : Nat) : State :=
  let k := s.killed r
  let tasks := s.clusters.flatMap fun c => c.2.tasks
  let wgDead := fun w => match s.wg? w with
    | some g => k g.region
    | none => false
  let s1 : State := { s with
    cores := Tab.mapV s.cores fun _ c =>
      if s.ownerKilled r c.engine.owner tasks then { c with engine := c.engine.release } else c
    clusters := Tab.mapV s.clusters fun ck c =>
      { c with
        tasks := c.tasks.filter fun t => !k t.region
        ladles := Tab.mapV c.ladles fun _ q => q.filter fun x => !k x.region
        allocs := c.allocs.filter fun a => !(s.wgs.any fun w =>
          locCluster w.2.loc == ck && k w.2.region && !w.2.released && a.1 == w.2.scrBase) }
    groups := s.groups.filter fun g => !wgDead g.2.wg || g.2.steward
    ops := s.ops.filter fun o => !k o.2.region
    wgs := s.wgs.filter fun w => !k w.2.region
    dies := Tab.mapV s.dies fun _ d =>
      { d with
        queues := Tab.mapV d.queues fun _ q => q.filter fun x => !k x.record.region
        heldPush := d.heldPush.filter fun x => !k x.2.record.region
        staging := d.staging.filter fun x => !k x.region
        ordq := d.ordq.filter fun x => !k x.region
        held := d.held.map fun h => (h.1, h.2.drop k) }
    links := Tab.mapV s.links fun _ l => l.map (Msg.drop k)
    xdies := Tab.mapV s.xdies fun _ x =>
      { x with
        queues := Tab.mapV x.queues fun _ q => q.filter fun c => !k c.region
        active := x.active.filter fun c => !k c.region }
    saved := s.saved.filter fun v => !k v.wg.region
    pending := s.pending.filter fun p => match p.region with
      | some x => !k x
      | none => true
    heldRecs := s.heldRecs.filter fun h => match h.trap.region with
      | some x => !k x
      | none => true
    regionRuns := Tab.put (Tab.mapV s.regionRuns fun x v => if k x then v.kill else v) r (s.run r).kill }
  (s.heldKilled k).foldl (fun s x => s.ackPush x.1 x.2) s1

/-- A completion record dropped: the launch ends without it (R383). -/
def State.dropReport (s : State) (r : Nat) : State :=
  s.modRun r fun x => { x with party := none, active := false, seq := x.seq + 1 }

/-- A record written to a slot (R343, R348): SEQ, the record, TAIL, FQWAKE, FAULTS; then POLICY
(R349): the party waits, or the subtree is killed at once. -/
def State.putRecord (s : State) (d id : Nat) (t : TrapInfo) (party : Option Party)
    (tail rpa ack : Nat) (redirect : Bool) : State :=
  let kill := s.killsAtOnce d t.region
  let seq := (s.die d).trapSeq + 1
  let info := t.info || kill || party.isNone
  let s1 := s.writePaN rpa (t.bytes (if kill then 2 else 0) info redirect seq)
  let s2 := s1.writePaN tail (leBytes 4 (s1.readPaLe tail 4 + 1))
  let s3 := s2.modDie d fun x => { x with trapSeq := seq % 2 ^ 32, fqWake := x.fqWake + 1 }
  let s4 := match t.region with
    | some r => (s3.lineage d 65536 r).foldl (fun s a => s.modRun a fun x => { x with faults := x.faults + 1 }) s3
    | none => s3
  if kill then (match party with
    | some (.tree r) => s4.dropReport r
    | _ => s4).killSubtree (t.region.getD 0)
  else match party with
    | some p => { s4 with pending := s4.pending ++
        [{ id, die := d, addr := BitVec.ofNat 64 ack, pa := rpa, region := t.region, party := p }] }
    | none => s4

/-- A report posted in the mailbox, with the management function's interrupt (R364). -/
def State.postReport (s : State) (r : Report) : State :=
  { s with mailbox := s.mailbox ++ [r], irqs := s.irqs ++ [2048 * 4] }

/-- The queue that a record goes to is this region's: the die's own for a handler group (R348). -/
def TrapInfo.queue (t : TrapInfo) : Option Nat := if t.kernel.isSome then none else t.region

/-- A fault of a handler group stops its workgroup, and the steward cores are told (R348). -/
def State.stopKernel (s : State) (t : TrapInfo) : State :=
  match t.kernel with
  | some w => (s.modWg w fun w => { w with stopped := true }).postReport (.handlerFault t.loc t.code.num)
  | none => s

/-- A trap record of a party, written now or held at its party while its queue is full (R348). The
record's name `id` is what a stopped path waits on. -/
def State.writeTrap (s : State) (d id : Nat) (t : TrapInfo) (party : Option Party) : State :=
  match (s.stopKernel t).queueSlot d t.queue with
  | (.room tail rpa ack rd, s1) => s1.putRecord d id t party tail rpa ack rd
  | (.full, s1) => { s1 with heldRecs := s1.heldRecs ++ [{ id, die := d, trap := t, party }] }

/-! ### Paths -/

/-- Lowest rank of a mask, 32 for an empty one. -/
def lowRankGo (m : Word) : Nat → Nat → Nat
  | 0, k => k
  | n + 1, k => if m.getLsbD k then k else lowRankGo m n (k + 1)

/-- The leader of a mask (R25). -/
def lowRank (m : Word) : Nat := lowRankGo m 32 0

/-- The ranks of a mask, rising. -/
def ranksOf (m : Word) : List Nat := (List.range 32).filter fun k => m.getLsbD k

/-- Members of a mask. -/
def countMask (m : Word) : Nat := (ranksOf m).length

/-- The waits of a path, each with the ranks that it concerns. -/
def Path.waits (p : Path) : List (Word × Wait) :=
  if p.wait == .none then p.joined else (p.mask, p.wait) :: p.joined

/-- The path waits for nothing (R47). -/
def Path.free (p : Path) : Bool := p.wait == .none && p.joined.isEmpty

/-- A wait that has ended. -/
def Path.clear (v : Wait) (p : Path) : Path :=
  { p with wait := if p.wait == v then .none else p.wait, joined := p.joined.filter fun x => x.2 != v }

/-- The path's only wait, if it has one for all its members. -/
def Path.waitsAll (v : Wait) (p : Path) : Bool := !p.free && p.waits.all fun x => x.2 == v

/-- A path that may merge: it is not inside a chain (R26, R85). An enqueue that no queue has accepted has not
issued, and its path stands before it (R319). -/
def Path.mergeable (p : Path) : Bool :=
  p.chain.isNone && match p.wait with
    | .enq _ => false
    | .none | .bar _ | .op _ | .trap _ => true

/-- Members taken out of a path, and out of what it waits for. -/
def Path.cut (m : Word) (p : Path) : Path :=
  { p with mask := p.mask &&& ~~~m,
           joined := (p.joined.map fun x => (x.1 &&& ~~~m, x.2)).filter fun x => x.1 != 0 }

/-- Paths with the primary, which holds the lowest-ranked member, first (R25). -/
def orderPaths (ps : List Path) : List Path :=
  match ps with
  | [p, q] => if lowRank q.mask < lowRank p.mask then [q, p] else [p, q]
  | ps => ps

/-- Two paths of equal PC merged (R26). The merged path stands at its PC by a transfer only if both did: an
extension word there raises XLAND only then (R75 does not say; assumption log 98). What one of them waits for
the merged path waits for (assumption log 99). An `mx.sync` that one of them waits in is to await the commands
of both (R309). -/
def mergePair (p q : Path) : Path :=
  { p with mask := p.mask ||| q.mask, hold := none, xfer := p.xfer && q.xfer, wait := .none,
           joined := p.waits ++ q.waits,
           lumBlocked := p.lumBlocked || q.lumBlocked, lumWait := max p.lumWait q.lumWait,
           syncAt := none }

/-- Equal-PC active paths merged (R26). -/
def mergeActive (ps : List Path) : List Path :=
  match ps with
  | [p, q] => if p.pc == q.pc && p.mergeable && q.mergeable then [mergePair p q] else [p, q]
  | ps => ps

/-- A held path whose other path left the interval, or emptied, is released (R27). -/
def releaseHolds (ps : List Path) : List Path :=
  match ps with
  | [p, q] =>
    let rel := fun (a b : Path) => match a.hold with
      | some y => if y < b.pc && b.pc < a.pc then a else { a with hold := none }
      | none => a
    [rel p q, rel q p]
  | ps => ps.map fun p => { p with hold := none }

/-- The paths of a group brought to rest after an instruction: empty ones dropped, merges (R26),
holds released (R27), then the parked path made active when a place is free (R28). -/
def Group.settle (g : Group) : Group :=
  let ps := releaseHolds (mergeActive (g.paths.filter fun p => p.mask != 0))
  let g1 : Group := match g.parked with
    | none => { g with paths := ps }
    | some k =>
      match ps.find? fun p => p.pc == k.pc && p.mergeable && k.mergeable with
      | some p =>
        let join := fun q : Path => if q == p then { mergePair q k with hold := q.hold } else q
        { g with paths := ps.map join, parked := none }
      | none => if ps.length < 2
        then { g with paths := ps ++ [{ k with hold := none }], parked := none }
        else { g with paths := ps }
  { g1 with paths := orderPaths (releaseHolds (mergeActive g1.paths)) }

/-- All the ranks of a group's paths, held and parked included (R165 GMEMBERS). -/
def Group.members (g : Group) : Word :=
  (g.paths.foldl (fun m p => m ||| p.mask) 0) ||| (g.parked.elim 0 (·.mask))
    ||| (g.casting.foldl (fun m c => m ||| c.mask) 0)

/-- Path `i` of a group changed. -/
def Group.modPath (g : Group) (i : Nat) (f : Path → Path) : Group :=
  { g with paths := g.paths.mapIdx fun k p => if k == i then f p else p }

/-- Latches discarded (R85). -/
def Thread.dropLatches (t : Thread) : Thread :=
  { t with b1 := none, b2 := none, o0 := none, o1 := none, o2 := none }

/-- Threads of a mask changed. -/
def Group.modThreads (g : Group) (m : Word) (f : Nat → Thread → Thread) : Group :=
  { g with threads := Tab.mapV g.threads fun r t => if m.getLsbD r then f r t else t }

/-- A path taken out of its chain as a fault leaves it: back at the chain's first instruction, the
walkers as they stood, the latches gone (R85). -/
def Group.rewindChain (g : Group) (i : Nat) : Group :=
  match (g.paths[i]?).bind (·.chain) with
  | none => g
  | some c =>
    let g1 := (g.modPath i fun p => { p with pc := c.start, chain := none })
    { g1 with threads := Tab.mapV g1.threads fun r t =>
        match c.walkers.find? fun w => w.1 == r with
        | some w => { t.dropLatches with walkers := w.2 }
        | none => t }

/-! ### Taking an exception -/

/-- A fault of a group in privileged mode is one of a handler group (R90, R348; assumption log 103); a SWTRAP is
no fault of the group. -/
def kernelFault (w : Workgroup) (wg : Nat) (code : FCode) : Option Nat :=
  if w.priv && code != .swtrap then some wg else none

/-- The parts of a trap record that a group's instruction gives (R343). -/
def State.trapInfo (s : State) (g : Group) (code : FCode) (pc : DWord) (mask : Word) : TrapInfo :=
  let w := (s.wg? g.wg).getD { loc := g.loc }
  { code, region := some w.region, loc := g.loc, pc, mask, windex := w.index, gindex := g.gindex,
    kernel := kernelFault w g.wg code }

/-- A steward core's ring of records is full (R368): 256 records at SFQBASE of its X-die. -/
def State.stewardFull (s : State) (x : Nat) : Bool :=
  let b := (s.xdie x).sfqBase.toNat
  (s.readPaLe b 4 + 2 ^ 32 - s.readPaLe (b + 4) 4) % 2 ^ 32 == 256

/-- A record written to a steward core's ring (R368); its LOC has no stated value (log 8). -/
def State.stewardTrap (s : State) (x : Nat) (t : TrapInfo) : State :=
  let b := (s.xdie x).sfqBase.toNat
  let tail := s.readPaLe b 4
  let s1 := s.devWrite x (b + 64 + 64 * (tail % 256))
    ({ t with loc := (Config.stewardLocWord t.loc).toNat % 1024, region := some 0 }.bytes 0 true false (tail + 1))
  s1.devWrite x b (leBytes 4 (tail + 1))

/-- TAKING AN EXCEPTION of an instruction that holds no log entry (R44): nothing of it is performed,
its path stops, and a trap record that names it goes to the region's fault queue (R343, R348). Inside
a chain the path goes back to the chain's first instruction (R85). `resume` is the resume point of a
SWTRAP (R169). A steward core writes to its X-die's ring and answers nothing (R368): after a SWTRAP it
goes on, after another fault it stops (assumption log 14). -/
def State.takeTrap (s : State) (gid pi : Nat) (t : TrapInfo) (resume : Option DWord) : State :=
  match s.group? gid with
  | none => s
  | some g =>
    let (id, s0) := s.newId
    let g1 := g.rewindChain pi
    let g2 := g1.modPath pi fun p =>
      { p with wait := if g.steward && resume.isSome then .none else .trap id,
               pc := resume.getD p.pc, hold := none, xfer := p.xfer && resume.isNone,
               lumBlocked := false, lumWait := 0, syncAt := none }
    let s1 := s0.setGroup gid g2
    if g.steward then
      if s1.stewardFull (coreDie g.loc) then s1 else s1.stewardTrap (coreDie g.loc) t
    else s1.writeTrap (coreDie g.loc) id t (some (.path gid))

/-- The region's handler entry on the group's die. -/
def State.handlerOf (s : State) (g : Group) : DWord :=
  match s.wg? g.wg with
  | some w => match s.rgn? (coreDie g.loc) w.region with
    | some b => b.handler
    | none => 0
  | none => 0

/-- TAKING THE EXCEPTION of R170: the group enters handler state. The path records take the PC and
mask of the primary, secondary and parked paths, HCAUSE takes cause and code, PRIVST bit 1 is set,
and one path of all the members stands at the region's handler entry, as a transfer brings it: an extension
word there raises XLAND (R75 does not name this entry; assumption log 98). -/
def State.enterHandler (s : State) (gid : Nat) (cause : Nat) (code : BitVec 21) : State :=
  match s.group? gid with
  | none => s
  | some g =>
    let p0 := g.paths.getD 0 { pc := 0, mask := 0 }
    let p1 := g.paths.getD 1 { pc := 0, mask := 0 }
    let p2 := g.parked.getD { pc := 0, mask := 0 }
    s.setGroup gid
      { g with
        epc := [(0, p0.pc), (1, p1.pc), (2, p2.pc)]
        emsk := [(0, p0.mask), (1, p1.mask), (2, p2.mask)]
        hcause := code ++ BitVec.ofNat 4 cause
        handler := true
        entryId := s.nextId
        preempt := if cause == 1 then false else g.preempt
        localTrap := none
        parked := none
        waits := (g.paths ++ g.parked.toList).flatMap Path.waits
        paths := [{ pc := s.handlerOf g, mask := p0.mask ||| p1.mask ||| p2.mask }] }

/-- A path record (R165). -/
def Group.epcOf (g : Group) (k : Nat) : DWord := Tab.getD g.epc k 0
/-- Its mask. -/
def Group.emskOf (g : Group) (k : Nat) : Word := Tab.getD g.emsk k 0

/-- What members that waited when handler state was entered wait for still; at a barrier they still hold the
marks of that arrival (assumption log 11). -/
def Group.waitsOf (g : Group) (w : Workgroup) (mask : Word) : List (Word × Wait) :=
  ((g.waits.map fun x => (x.1 &&& mask, x.2)).filter fun x => x.1 != 0).filter fun x => match x.2 with
    | .bar b => (ranksOf x.1).all fun r => match Tab.find? g.threads r with
      | some t => (Tab.getD w.barriers b {}).marks.contains t.tid
      | none => false
    | _ => true

/-- A path that waits for what its members wait for. -/
def Path.withWaits (p : Path) (ws : List (Word × Wait)) : Path :=
  match ws with
  | [(m, v)] => if m == p.mask then { p with wait := v } else { p with joined := ws }
  | ws => { p with joined := ws }

/-- RETURN FROM AN EXCEPTION (R171): every nonzero record becomes a path at its PC, record 2 parked
when all three are nonzero; HCAUSE and PRIVST bit 1 become 0. -/
def Group.leaveHandler (g : Group) (w : Workgroup) : Group :=
  let mk := fun k =>
    ({ pc := g.epcOf k, mask := g.emskOf k } : Path).withWaits (g.waitsOf w (g.emskOf k))
  let rs := ([0, 1, 2].map mk).filter fun p => p.mask != 0
  let g1 : Group :=
    { g with handler := false, hcause := 0, waits := [],
             paths := orderPaths (rs.take 2), parked := (rs.drop 2).head? }
  g1.settle

end Sys2Proof.Machine
end

