-- ==== Sys2Proof/Machine/Operands.lean ====
section
/-! DEFINITION. Every operand form: register names and their places (R33 to R36, R79 to R83, R109 to
R116), sources, destinations, walker reads (R81, R149) and latches (R83). -/

namespace Sys2Proof.Machine

/-- A source or destination field: no operand, a 32-bit name, an aligned pair, an aligned quad. -/
inductive Fld where
  | none
  | w (n : Name)
  | pair (n : Name)
  | quad (n : Name)
  deriving DecidableEq, Repr

/-- The `v` names of a field. -/
def Fld.names : Fld → List Nat
  | .none => []
  | .w n => if n.isV then [n.toNat] else []
  | .pair n => if n.isV then upFrom n.toNat 2 else []
  | .quad n => if n.isV then upFrom n.toNat 4 else []

/-- The name in the field. -/
def Fld.name? : Fld → Option Name
  | .none => Option.none
  | .w n | .pair n | .quad n => some n

/-- The field with a size code's width (R86, R245). -/
def Fld.ofSz (sz : BitVec 3) (n : Name) : Fld :=
  if sz == 3 then .pair n else if sz == 4 then .quad n else .w n

/-- Where a name of a thread stands (R33): place and unit. -/
def placeOf (w : Workgroup) (t : Thread) (n : Nat) : Place × Nat :=
  match Tab.find? t.far n with
  | some f => (f.place, f.unit)
  | none => if w.clusterMap.getLsbD n then (.cluster, 0) else (.lane, 0)

/-- A `v` name's value for a thread (R110, R115). -/
def readV (w : Workgroup) (t : Thread) (n : Nat) : Word :=
  match Tab.find? t.far n with
  | some f => f.value
  | none => if w.clusterMap.getLsbD n then Tab.getD w.clusterRegs n 0 else Tab.getD t.lane n 0

/-- A `v` name written at its place (R35). A place is never changed by a write. -/
def writeV (w : Workgroup) (t : Thread) (n : Nat) (v : Word) : Workgroup × Thread :=
  match Tab.find? t.far n with
  | some f => (w, { t with far := Tab.put t.far n { f with value := v } })
  | none =>
    if w.clusterMap.getLsbD n then ({ w with clusterRegs := Tab.put w.clusterRegs n v }, t)
    else (w, { t with lane := Tab.put t.lane n v })

/-- What delivers a thread's sources (R115). -/
structure Env where
  w : Workgroup
  t : Thread
  rank : Nat
  /-- The extension value (R80). -/
  x : Word := 0

/-- A 32-bit source that is no walker (R79, R115). -/
def Env.word (e : Env) (n : Name) : Word :=
  if n.isV then readV e.w e.t n.toNat
  else match n.toNat with
    | 121 => BitVec.ofNat 32 e.rank
    | 122 => e.t.b1.getD 0
    | 123 => e.t.b2.getD 0
    | 124 => e.t.o0.getD 0
    | 125 => e.t.o1.getD 0
    | 126 => e.t.o2.getD 0
    | 127 => e.x
    | _ => 0

/-- A 64-bit source: an aligned pair, `z`, or `x` sign-extended (R50, R127). -/
def Env.pair (e : Env) (n : Name) : DWord :=
  if n.isV then readV e.w e.t (n.toNat + 1) ++ readV e.w e.t n.toNat
  else if n.isX then e.x.signExtend 64
  else 0

/-- The words of a quad from the first up (R79). -/
def Env.quad (e : Env) (n : Name) : List Word :=
  if n.isV then (upFrom n.toNat 4).map (readV e.w e.t) else [0, 0, 0, 0]

/-- A field's value as a number: word 0 in the low bits. -/
def Env.val (e : Env) : Fld → BitVec 128
  | .none => 0
  | .w n => (e.word n).zeroExtend 128
  | .pair n => (e.pair n).zeroExtend 128
  | .quad n => match e.quad n with
    | [a, b, c, d] => d ++ c ++ b ++ a
    | _ => 0

/-- Words of a value for a field's names. -/
def wordsOf (v : BitVec 128) : Fld → List Word
  | .none => []
  | .w _ => [lo v 0 32]
  | .pair _ => [lo v 0 32, lo v 32 32]
  | .quad _ => [lo v 0 32, lo v 32 32, lo v 64 32, lo v 96 32]

/-- The extension value of a payload (R80). -/
def extVal (x : Payload) : Word := x.signExtend 32

/-- Address of a walker's next element (R149). -/
def Walker.addr (k : Walker) : DWord :=
  k.base + k.s1.signExtend 64 * k.i1.zeroExtend 64 + k.s0.signExtend 64 * k.i0.zeroExtend 64

/-- The walker after one read or skip (R149). -/
def Walker.step (k : Walker) : Walker :=
  if k.i0 == k.c0 then
    { k with i0 := 0, fin := true, i1 := if k.i1 == k.c1 then 0 else k.i1 + 1 }
  else { k with i0 := k.i0 + 1, fin := false }

/-- Positions in one round of a walker. -/
def Walker.total (k : Walker) : Nat := (k.c0.toNat + 1) * (k.c1.toNat + 1)

/-- The walker after `n` skips (R150): its position as a number, moved, and END as the last would
leave it. -/
def Walker.skip (k : Walker) (n : Nat) : Walker :=
  if n == 0 || !k.bound then k
  else
    let row := k.c0.toNat + 1
    let p := (k.i1.toNat * row + k.i0.toNat + n) % k.total
    { k with i0 := BitVec.ofNat 16 (p % row), i1 := BitVec.ofNat 16 (p / row), fin := p % row == 0 }

/-- Bytes of a walker's element (R147). -/
def elemSize (e : BitVec 2) : Nat :=
  match e.toNat with
  | 0 | 3 => 1
  | 1 => 2
  | _ => 4

/-- An element's value from its bytes (R147, R149). -/
def elemValue (e : BitVec 2) (v : Nat) : Word :=
  if e == 3 then (BitVec.ofNat 8 v).signExtend 32 else BitVec.ofNat 32 v

/-- One walker read by a source field: the address and element if bound, and the thread after it. An
unbound walker reads 0 and stays (R149). -/
def readWalker (t : Thread) (n : Name) : Option (DWord × BitVec 2) × Thread :=
  let k := Tab.getD t.walkers (n.toNat - 112) {}
  if k.bound then
    (some (k.addr, k.e), { t with walkers := Tab.put t.walkers (n.toNat - 112) k.step })
  else (none, t)

/-- END of a walker as `bw` sees it: 1 while unbound (R147, R151). -/
def walkerEnd (t : Thread) (k : Nat) : Bool :=
  let w := Tab.getD t.walkers k {}
  !w.bound || w.fin

/-- A predicate (R109). -/
def predOf (t : Thread) (p : Nat) : Bool := t.preds.getLsbD p

/-- A predicate written. -/
def setPred (t : Thread) (p : Nat) (v : Bool) : Thread :=
  { t with preds := if v then t.preds ||| ((1 : BitVec 8) <<< p) else t.preds &&& ~~~((1 : BitVec 8) <<< p) }

/-- The operand latch takes a fetched value of A (R83). -/
def pushOperand (t : Thread) (a : Word) : Thread :=
  { t with o2 := t.o1, o1 := t.o0, o0 := some a }

/-- The bypass latches take a result (R83). -/
def pushResult (t : Thread) (r : Word) : Thread := { t with b2 := t.b1, b1 := some r }

/-- A latch name is filled (R83). -/
def latchFilled (t : Thread) (n : Name) : Bool :=
  match n.toNat with
  | 122 => t.b1.isSome
  | 123 => t.b2.isSome
  | 124 => t.o0.isSome
  | 125 => t.o1.isSome
  | 126 => t.o2.isSome
  | _ => true

end Sys2Proof.Machine
end

