-- ==== Sys2Proof/Machine/Port.lean ====
section
/-! DEFINITION. Photonic receive ports (R377 to R380): rings, monitors, locks, and the channels that wait for them. -/

namespace Sys2Proof.Machine

/-- The ring of a wavelength in a map. -/
def ringAt (m : DWord) (w : Nat) : Nat := (lo m (4 * w) 4).toNat

/-- The rings of a map, by wavelength. -/
def ringsOf (m : DWord) : List Nat := (List.range 12).map (ringAt m)

/-- A ring is in the map. -/
def Port.mapped (p : Port) (i : Nat) : Bool := (ringsOf p.wmap).contains i

/-- The wavelength that a map gives a ring. -/
def waveOf (m : DWord) (i : Nat) : Option Nat := (List.range 12).find? fun w => ringAt m w == i

/-- HEATi (R377): bring-up heats rings 0 to 11 to lock at codes the spec does not give (assumption log 4). -/
def Port.heatOf (p : Port) (i : Nat) : Nat := Tab.getD p.heat i (if i < 12 then 2048 else 0)

/-- Heater drive of a ring: 0 while it is parked (R379). -/
def Port.drive (p : Port) (i : Nat) : Nat := if p.mapped i then p.heatOf i else 0

/-- N(j, w): the drive that ring `j` needs for wavelength `w` at the temperature of bring-up (R380). For a main ring
under a wavelength other than its own the spec gives none (assumption log 23). -/
def Port.need (p : Port) (j w : Nat) : Int :=
  let n : Nat := Tab.getD p.base w 2048
  if j == w then n else if 12 ≤ j then n + 2000 else (Config.foreignNeed j w : Nat)

/-- MONi as it is sampled (R379, R380): 0 for a parked ring. -/
def Port.monOf (p : Port) (i : Nat) : Nat :=
  match waveOf p.wmap i with
  | some w => min 4095 (2048 + 4 * ((p.drive i : Int) - p.need i w + p.warm)).toNat
  | none => 0

/-- LOCK of a ring (R377). -/
def Port.locked (p : Port) (i : Nat) : Bool :=
  let t := p.lockset.toNat % 4096
  let tol := p.lockset.toNat / 2 ^ 16 % 4096
  p.mapped i && decide (p.monOf i ≤ t + tol) && decide (t ≤ p.monOf i + tol)

/-- Flits pass a wavelength (R378, R380): its ring is in lock, and reads within 400 of 2,048. -/
def Port.passes (p : Port) (w : Nat) : Bool :=
  let i := ringAt p.wmap w
  p.locked i && decide (p.monOf i ≤ 2448) && decide (1648 ≤ p.monOf i)

/-- A channel carries nothing while its glint is held, or while a wavelength that it stripes across does not pass
(R377, R378). -/
def Port.stuck (p : Port) : Bool := p.glint || (List.range p.wactive).any fun w => !p.passes w

/-- A number with bit `i` set where `f i` holds, for i below 16. -/
def bits16 (f : Nat → Bool) : Nat := ((List.range 16).map fun i => if f i then 2 ^ i else 0).sum

/-- PSTAT (R377). -/
def Port.pstat (p : Port) : Nat :=
  bits16 p.locked + 2 ^ 16 * bits16 (fun i => p.heatOf i == 0 || p.heatOf i == 4095)
    + 2 ^ 32 * bits16 (fun i => !p.mapped i)
    + (if p.deg then 2 ^ 48 else 0) + (if p.err then 2 ^ 63 else 0)

/-- A port of a die. -/
def State.port (s : State) (d k : Nat) : Port := Tab.getD (s.die d).ports k {}

/-- A port changed. -/
def State.modPort (s : State) (d k : Nat) (f : Port → Port) : State :=
  s.modDie d fun x => { x with ports := Tab.put x.ports k (f (Tab.getD x.ports k {})) }

/-- A write of HEATi (R379): stored; it drives unless the ring is parked. -/
def State.setHeat (s : State) (d k i v : Nat) : State :=
  s.modPort d k fun p => { p with heat := Tab.put p.heat i (v % 4096) }

/-- Some ring stands twice in a map. -/
def twice : List Nat → Bool
  | [] => false
  | r :: rs => rs.contains r || twice rs

/-- A write of WMAP (R377, R379): rings that leave the map are parked. -/
def State.setWmap (s : State) (d k : Nat) (v : DWord) : State :=
  let p := s.port d k
  let m := v &&& 0x0000FFFFFFFFFFFF
  if twice (ringsOf m) then s.modPort d k fun p => { p with err := true }
  else if m == p.wmap then s
  else
    let gone := (ringsOf p.wmap).filter fun r => !(ringsOf m).contains r
    s.modPort d k fun p =>
      { p with wmap := m, glint := true, heat := gone.foldl (fun h r => Tab.put h r 0) p.heat }

/-- A write of WACTIVE (R377). -/
def State.setWactive (s : State) (d k v : Nat) : State :=
  let n := v % 16
  if (n == 12 || n == 6 || n == 3) && n != (s.port d k).wactive then
    s.modPort d k fun p => { p with wactive := n, glint := true }
  else s

/-- A read of PSTAT clears ERR (R377). -/
def State.readPstat (s : State) (d k : Nat) : Nat × State :=
  ((s.port d k).pstat, s.modPort d k fun p => { p with err := false })

/-- A read in a photonic block. -/
def State.portRead (s : State) (d k b : Nat) : Nat × State :=
  let p := s.port d k
  if b < 0x40 then (p.heatOf (b / 4), s)
  else if b < 0x80 then (p.monOf ((b - 0x40) / 4), s)
  else if b == 0x80 then (p.wmap.toNat, s)
  else if b == 0x88 then (p.lockset.toNat, s)
  else if b == 0x90 then s.readPstat d k
  else (p.wactive, s)

/-- A write in a photonic block. -/
def State.portWrite (s : State) (d k b : Nat) (v : DWord) : State :=
  if b < 0x40 then s.setHeat d k (b / 4) v.toNat
  else if b == 0x80 then s.setWmap d k v
  else if b == 0x88 then s.modPort d k fun p => { p with lockset := lo v 0 32 &&& 0x0FFF0FFF }
  else if b == 0x98 then s.setWactive d k v.toNat
  else s

/-- The width a port falls back to (R378): the largest whose wavelengths all have LOCK set, else 3. It
is never above the width in force. -/
def Port.fallback (p : Port) : Nat :=
  let ok := fun n => n ≤ p.wactive && (List.range n).all fun w => p.locked (ringAt p.wmap w)
  if ok 12 then 12 else if ok 6 then 6 else 3

/-- WAVELENGTH_DEGRADE (R378): flits on a striped wavelength have failed for 10 µs. -/
def State.degrade (s : State) (d k w : Nat) : State :=
  if w < (s.port d k).wactive && !(s.port d k).passes w then
    s.modPort d k fun p => { p with deg := true, wactive := p.fallback, glint := p.glint || p.fallback != p.wactive }
  else s

/-- FLIT_RETRANSMIT (R378): a flit on a striped wavelength fails its check; order and content are kept, and the port
counts the retransmission. -/
def State.retransmit (s : State) (d k w : Nat) : State :=
  if w < (s.port d k).wactive && !(s.port d k).passes w then
    s.modPort d k fun p => { p with retrans := Tab.put p.retrans w (Tab.getD p.retrans w 0 + 1) }
  else s

/-- The port at another temperature (R380): rings in lock that leave it are losses of lock (R373). -/
def Port.warmed (p : Port) (t : Int) : Port :=
  let q : Port := { p with warm := t }
  { q with losses := p.losses + ((List.range 16).filter fun i => p.locked i && !q.locked i).length }

/-- LOSS_OF_LOCK (R373): the temperature at a port changes. -/
def State.loseLock (s : State) (d k : Nat) (t : Int) : State := s.modPort d k fun p => p.warmed t

/-! ### Channels that wait (R11, R377, R378) -/

/-- The channel of a port carries nothing. A port that is as bring-up left it is locked at every wavelength
(`portStuck_eq`). -/
def State.portStuck (s : State) (d k : Nat) : Bool :=
  match Tab.find? (s.die d).ports k with
  | some p => p.stuck
  | none => false

/-- An access by a core to a line of a die's HBM waits: the home channel of its slice, or that of the core's cluster,
carries nothing. The control window is reached without them, and host memory has none (assumption log 130). -/
def State.channelHeld (s : State) (loc pa : Nat) : Bool :=
  match hbmDie pa with
  | none => false
  | some h => !isCwPa pa && (s.portStuck h (homeSlice pa)
      || (decide (loc < stewardLoc) && s.portStuck (locDie loc) (64 + locCluster loc % 32)))

end Sys2Proof.Machine
end

