-- ==== Sys2Proof/Machine/Issue.lean ====
section
/-! DEFINITION. Issue of an instruction by the path whose turn it is: the checks of R93, the stalls
of R39, R41, R42, R176 and R191, and what every issue does (R25 to R27, R83 to R85). -/

namespace Sys2Proof.Machine

/-- What issue must know of an instruction. -/
structure Form where
  /-- Price class (R89 to R91). -/
  cls : Nat := 0
  a : Fld := .none
  b : Fld := .none
  /-- D or a further name as a source. -/
  d : Fld := .none
  /-- FILL of `shfl`. -/
  fill : Fld := .none
  dst : Fld := .none
  x : Payload := 0
  h : Bool := false
  n : Bool := false
  predR : List Nat := []
  predW : List Nat := []
  /-- `sel`: the predicate that takes the place of D's old value as third source (R124). -/
  selP : Option Nat := Option.none
  /-- The destination is this predicate (R123, R135). -/
  dstP : Option Nat := Option.none
  /-- A group-set form (R77). -/
  group : Bool := false
  /-- A group-set form that reads every member's copies (R82). -/
  perMember : Bool := false
  /-- A group-set form that a steward core may not execute (R73). -/
  noSteward : Bool := false
  /-- A lane-set form from OP 0x00 to 0x27 other than `bw` (R84). -/
  chain : Bool := false
  /-- Walkers that it sets or moves by name (R148, R150). -/
  wDst : List Nat := []
  /-- Effects outside the thread (R41). -/
  outside : Bool := false
  /-- Takes an operand-log entry even where every member is at LANE (R42). -/
  log : Bool := false
  /-- Places of the destination (R89, R90). -/
  cluster : Bool := false
  far : Bool := false
  priv : Bool := false
  sb : Nat := 0
  /-- Names that stall on every pending write of them (addresses and data of accesses). -/
  full : List Nat := []
  /-- Names that are named but not read: only a `redecl` in flight stalls (R157). -/
  see : List Nat := []
  /-- Conditions of the form's own rule on the state: ILL and PRIV of R166, R169, R171; PLACE of R34. -/
  illOn : Group → Workgroup → Bool := fun _ _ => false
  privOn : Group → Workgroup → Bool := fun _ _ => false
  placeOn : Tab Op → Workgroup → Thread → Bool := fun _ _ _ => false

/-- The path whose turn it is, and what it issues. -/
structure Ctx where
  gid : Nat
  pi : Nat
  g : Group
  p : Path
  w : Workgroup
  i : Instr
  f : Form
  /-- Operations in flight. -/
  ops : Tab Op

/-- The workgroup of a group; a steward core's single thread belongs to region 0 in privileged mode
and has every name (R165, R340). -/
def State.wgOf (s : State) (g : Group) : Workgroup :=
  if g.steward then { loc := g.loc, nb := 14, priv := true }
  else (s.wg? g.wg).getD { loc := g.loc }

/-- The path at the cursor. -/
def State.ctx? (s : State) (i : Instr) (f : Form) : Option Ctx :=
  match s.group? s.cursor.1 with
  | none => none
  | some g => match g.paths[s.cursor.2]? with
    | some p => some ⟨s.cursor.1, s.cursor.2, g, p, s.wgOf g, i, f, s.ops⟩
    | none => none

/-- Threads of the issuing path, in ascending rank. -/
def Ctx.threads (c : Ctx) : List (Nat × Thread) :=
  (ranksOf c.p.mask).filterMap fun r => (Tab.find? c.g.threads r).map fun t => (r, t)

/-- The leader (R25). -/
def Ctx.leader (c : Ctx) : Nat × Thread := (c.threads.head?).getD (0, {})

/-- A thread's source environment. -/
def Ctx.env (c : Ctx) (e : Nat × Thread) : Env := ⟨c.w, e.2, e.1, extVal c.f.x⟩

/-- The third source of a thread: D's old value, or the predicate of `sel`. -/
def Ctx.third (c : Ctx) (e : Nat × Thread) : BitVec 128 :=
  match c.f.selP with
  | some p => if predOf e.2 p then 1 else 0
  | none => (c.env e).val c.f.d

/-- The leader's source environment (R82). -/
def Ctx.lead (c : Ctx) : Env := c.env c.leader

/-- Names an instruction reads and writes. -/
def Form.reads (f : Form) : List Nat := f.a.names ++ f.b.names ++ f.d.names ++ f.fill.names

/-- Names of its source fields. -/
def Form.srcNames (f : Form) : List Name :=
  (f.a.name?.toList ++ f.b.name?.toList ++ f.d.name?.toList ++ f.fill.name?.toList)

/-- Names and walkers that it reads, by their codes (R84). -/
def Form.readCodes (f : Form) : List Nat := f.reads ++ (f.srcNames.filter Name.isW).map (·.toNat)

/-- Names and walkers that it writes, by their codes (R84). -/
def Form.writeCodes (f : Form) : List Nat := f.dst.names ++ f.wDst

/-- The operation is a `redecl`. -/
def Op.isRedecl (o : Op) : Bool :=
  match o.instr with
  | .redecl _ => true
  | _ => false

/-- A pending write of an operation for a thread (R39). -/
def Op.pends (o : Op) (tid : Nat) : Option Member :=
  o.members.find? fun m => m.tid == tid && !m.done

/-- Target place of `redecl` (R153). -/
def placeTo (f : RedeclF) : Place :=
  if f.f == 0 then .lane else if f.f == 2 then .slice else .memory

/-- The place and unit to which a `redecl` moves a member's name; none: its anchor is not located yet (R154). -/
def Op.movesTo (o : Op) (m : Member) : Option (Place × Nat) :=
  match o.instr with
  | .redecl f => match placeTo f, m.frags.head? with
    | .lane, _ => some (.lane, 0)
    | .slice, some x => some (.slice, homeSlice x.pa)
    | p, some x => some (p, memUnit x.pa)
    | _, none => none
  | _ => none

/-- The latest `redecl` in flight of a thread's name; one that is set aside moves nothing yet (R353). -/
def moveOf (ops : Tab Op) (tid n : Nat) : Option Op :=
  (List.filter (fun o : Nat × Op => o.2.isRedecl && !o.2.aside && o.2.dests.contains n
    && (o.2.pends tid).isSome) ops).getLast?.map (·.2)

/-- The target place of a `redecl` in flight for a thread's name (R155). -/
def inFlightPlace (ops : Tab Op) (tid n : Nat) : Option Place :=
  match moveOf ops tid n with
  | some o => match o.instr with
    | .redecl f => some (placeTo f)
    | _ => none
  | none => none

/-- The unit of a place whose anchor is not located yet: no unit has this number. -/
def noUnit : Nat := 64

/-- Where a name of a thread counts from issue on (R35, R155): at the place to which a `redecl` in flight moves
it. -/
def Ctx.place (c : Ctx) (t : Thread) (n : Nat) : Place × Nat :=
  match moveOf c.ops t.tid n with
  | some o => match o.pends t.tid with
    | some m => (o.movesTo m).getD ((inFlightPlace c.ops t.tid n).getD .lane, noUnit)
    | none => placeOf c.w t n
  | none => placeOf c.w t n

/-- Issue stage of a slot: 24 slots each (R112). -/
def stageOf (slot : Nat) : Nat := slot / 24

/-- Another group of the same issue stage keeps the stage by an open chain (R85). -/
def State.stageKept (s : State) (gid : Nat) (g : Group) : Bool :=
  s.groups.any fun e => e.1 != gid && e.2.loc == g.loc && stageOf e.2.slot == stageOf g.slot
    && e.2.paths.any fun p => p.chain.isSome

/-- A PREEMPT request or a local trap is to be taken (R170). -/
def Group.entryDue (g : Group) : Bool := (g.localTrap.isSome || g.preempt) && !g.handler

/-- An access of the path's chain has not performed for some thread: its latches are not filled yet
(R83, R149). -/
def State.chainPending (s : State) (c : Ctx) : Bool :=
  c.p.chain.isSome && s.ops.any fun o => o.2.inChain && !o.2.aside &&
    c.threads.any fun t => o.2.members.any fun m => m.tid == t.2.tid && !m.done

/-- The path can be chosen to issue (R25, R27, R47, R83, R112). A group that is to enter handler state
issues only to the end of an open chain (R170). A steward core waits while its ring of records is full (R368). -/
def State.canIssue (s : State) (c : Ctx) : Bool :=
  !(c.g.steward && s.stewardFull (coreDie c.g.loc)) && c.p.free && c.p.hold.isNone && !c.g.stored && !c.w.stopped
    && !(c.g.entryDue && c.p.chain.isNone) && !s.stageKept c.gid c.g && !s.chainPending c

/-- A chain limit of R84 is broken, or a latch that the chain has not filled is named (R83). -/
def Ctx.chainIll (c : Ctx) : Bool :=
  let inChain := c.p.chain.isSome || c.f.h || c.f.n
  let latches := c.f.srcNames.filter Name.isLatch
  (!latches.isEmpty && c.p.chain.isNone)
    || (c.threads.any fun t => latches.any fun n => !latchFilled t.2 n)
    || (inChain && !c.f.chain)
    || (match c.p.chain with
      | some k => k.count ≥ 8 || c.f.writeCodes.any fun n => k.reads.contains n
      | none => false)

/-- ILL before any source is read (R73, R82, R92, R103, R110). -/
def Ctx.isIll (c : Ctx) : Bool :=
  !c.i.wellFormed
    || (c.g.steward && (!c.f.group || c.f.noSteward))
    || ((c.f.reads ++ c.f.full ++ c.f.see ++ c.f.dst.names).any fun n => n ≥ 8 * c.w.nb)
    || c.f.illOn c.g c.w
    || (!c.f.group && c.chainIll)
    || (c.f.group && c.p.chain.isSome)

/-- Privileged mode (R165). -/
def Ctx.privileged (c : Ctx) : Bool := c.w.priv || c.g.steward

/-- Ranks whose destination name stands at a place that the form omits, or away from LANE in a chain
(R35, R84), or whose form's own rule raises PLACE. -/
def State.badPlace (s : State) (c : Ctx) : Word :=
  let inChain := c.p.chain.isSome || c.f.h || c.f.n
  (c.threads.filter fun t => c.f.placeOn s.ops c.w t.2 || c.f.dst.names.any fun n =>
    match (c.place t.2 n).1 with
    | .lane => false
    | .cluster => inChain || !c.f.cluster
    | .slice | .memory => inChain || !c.f.far).foldl (fun m t => m ||| ((1 : Word) <<< t.1)) 0

/-- Prices at warm reset (R191). -/
def resetPrices : List Nat := [0, 1, 2, 4, 3, 8, 24, 32, 410, 221, 119, 68, 1230, 0, 0, 0]

/-- A price in force on a die (R191, R224). -/
def Die.price (d : Die) (k : Nat) : Nat := Tab.getD d.prices k (resetPrices.getD k 0)

/-- The price of an issue; a steward core draws no lumens (assumption log 12). -/
def State.priceOf (s : State) (c : Ctx) : Nat :=
  if c.g.steward then 0 else (s.die (locDie c.g.loc)).price c.f.cls

/-- A path of the group is a starving party (R192). -/
def Group.starves (g : Group) : Bool := g.paths.any fun p => p.lumBlocked && decide (4 ≤ p.lumWait)

/-- A region may still debit on a die in this revolution: its workgroups have not debited its share yet
(R227). -/
def State.shareOk (s : State) (d r p : Nat) : Bool :=
  match s.rgn? d r with
  | some b => b.lshare == 0
      || decide (Tab.getD (s.die d).lumUsed r 0 * 65536 < b.lshare * (s.die d).injected)
      || p == 0
  | none => true

/-- The starving parties of a core that still wait (R192). -/
def State.starving (s : State) (loc : Nat) : List Nat :=
  (s.core loc).starveQ.filter fun p => match p with
    | 0 => (s.core loc).engine.lumBlocked && decide (4 ≤ (s.core loc).engine.lumWait)
    | g + 1 => match s.group? g with
      | some x => x.starves
      | none => false

/-- A core's purse licenses a price for a party: its number in the starving queue is the group's name
plus 1, and 0 for the engine (R191, R192). -/
def State.licensed (s : State) (loc party region p : Nat) : Bool :=
  let c := s.core loc
  p == 0 || (decide (p ≤ c.purse) && ((s.starving loc).isEmpty || (s.starving loc).head? == some party)
    && s.shareOk (locDie loc) region p)

/-- A debit: the purse falls (R191). -/
def State.debit (s : State) (loc region p : Nat) : State :=
  if p == 0 then s
  else
    let s1 := s.modCore loc fun c => { c with purse := c.purse - p }
    s1.modDie (locDie loc) fun d =>
      { d with lumUsed := Tab.put d.lumUsed region (Tab.getD d.lumUsed region 0 + p) }

/-- The place and unit at which an instruction executes for a thread (R35). -/
def Ctx.execPlace (c : Ctx) (t : Thread) : Place × Nat :=
  match c.f.dst.names with
  | n :: _ => c.place t n
  | [] => (.lane, 0)

/-- A pending writer that stalls a reader or writer executing at `pl` (R39): at LANE every one; away
from LANE those of another place or unit. A `redecl` writes at the new place (R155): where its anchor is not
located yet every other instruction waits. -/
def pendStalls (pl : Place × Nat) (o : Op) (m : Member) : Bool :=
  pl.1 == .lane || (if o.isRedecl then o.movesTo m else some (m.place, m.unit)) != some pl

/-- The written bit of the WS part that holds a physical address (R239). -/
def State.wsBit (s : State) (pa : Nat) : Bool :=
  match hbmDie pa with
  | some d => (s.die d).wsWritten.contains (pa / 16)
  | none => true

/-- The parts that a fragment touches, by number. -/
def Frag.parts (f : Frag) : List Nat :=
  upFrom (f.pa / 16) ((f.pa + f.size - 1) / 16 + 1 - f.pa / 16)

/-- A fragment on a WS frame that touches an unwritten part (R239). -/
def State.wsUnwritten (s : State) (f : Frag) : Bool :=
  (s.frame f.pa).typ == 2 && f.parts.any fun p => !s.wsBit (16 * p)

/-- The operation stores, or updates memory: its fragments are performed, not returned. -/
def Op.stores (o : Op) : Bool :=
  match o.instr with
  | .st _ | .stNc _ | .stByp _ | .stRel _ | .scatter _ | .scatterAdd _ | .sts _ | .xst _
  | .atomFaddOrd _ | .wsClear _ | .spb _ | .fla _ | .wb _ | .inv _ | .pref _ | .join _ => true
  | _ => false

/-- A logged operation: it faulted, or it is a load that waits for an unwritten WS part (R43, R239), or
a wait on an address that has not returned (assumption log 18). -/
def State.logged (s : State) (o : Op) : Bool :=
  o.stage == .faulted || (match o.instr with
      | .waitaEq _ | .waitaNe _ => true
      | _ => false)
    || (o.stage == .confirmed && !o.stores && o.members.any fun m => !m.done
        && m.frags.any fun f => !f.done && s.wsUnwritten f)

/-- The group is in handler state for a pre-emption or a resumption (R353). -/
def Group.preempted (g : Group) : Bool := g.handler && [1, 3].contains (g.hcause.toNat % 16)

/-- The stalls of R39 on the names and predicates of an instruction. An operation set aside holds nothing
(R353). -/
def State.pending_ (s : State) (c : Ctx) : Bool :=
  s.ops.any fun o =>
    !o.2.aside &&
    c.threads.any fun t => match o.2.pends t.2.tid with
      | some m =>
        let src := !c.f.group || c.f.perMember || t.1 == c.leader.1
        let names := (if src then c.f.reads else []) ++ c.f.dst.names
        let preds := (if src then c.f.predR else []) ++ c.f.predW
        (names.any fun n => o.2.dests.contains n && pendStalls (c.execPlace t.2) o.2 m)
          || (src && c.f.full.any fun n => o.2.dests.contains n)
          || (c.f.see.any fun n => o.2.dests.contains n && o.2.isRedecl)
          || (match o.2.predDest with
            | some p => preds.contains p
            | none => false)
      | none => false

/-- Some thread of the path has an earlier instruction that is not confirmed (R41). -/
def State.unconfirmed (s : State) (c : Ctx) : Bool :=
  s.ops.any fun o => o.2.stage != .confirmed && !o.2.aside &&
    c.threads.any fun t => o.2.members.any fun m => m.tid == t.2.tid

/-- The lowest free operand-log entry of a core (R42). -/
def State.freeLog (s : State) (loc : Nat) : Option Nat :=
  (List.range 64).find? fun k => !(s.ops.any fun o => o.2.loc == loc && o.2.logix == some k)

/-- A walker source that is bound in some member: the instruction makes an access (R149). -/
def Ctx.walks (c : Ctx) : Bool :=
  c.f.srcNames.any fun n => n.isW && c.threads.any fun t =>
    (Tab.getD t.2.walkers (n.toNat - 112) {}).bound

/-- Some member executes away from LANE. -/
def Ctx.goesFar (c : Ctx) : Bool := c.threads.any fun t => (c.execPlace t.2).1 != .lane

/-- A `redecl` to LANE: confirmed at issue, it takes no log entry (R155, R267). -/
def Ctx.toLane (c : Ctx) : Bool :=
  match c.i with
  | .redecl f => placeTo f == .lane
  | _ => false

/-- The issue needs an operand-log entry (R42). -/
def Ctx.needsLog (c : Ctx) : Bool := c.f.log || c.walks || (c.goesFar && !c.toLane)

/-- Operations counted in a scoreboard counter of a group (R176). -/
def Group.sbList (g : Group) (k : Nat) : List (Nat × Bool) := Tab.getD g.sb k []

/-- The issue stalls: pending writes, unconfirmed earlier instructions, no log entry, no room in the
scoreboard counter (R39, R41, R42, R176). -/
def State.stalls (s : State) (c : Ctx) : Bool :=
  s.pending_ c || (c.f.outside && s.unconfirmed c)
    || (c.needsLog && (s.freeLog c.g.loc).isNone)
    || (c.f.sb != 0 && (c.g.sbList c.f.sb).length ≥ 255)

/-- The issue stage that a group's slot belongs to, package-wide. -/
def Group.stage (g : Group) : Nat := 2 * g.loc + stageOf g.slot

/-- Of two groups of a stage the one that has waited longest since it last issued (R47). -/
def longerWait (a b : Nat × Group) : Nat × Group := if b.2.lastIssue < a.2.lastIssue then b else a

/-- The group that a stage serves next: the one that has waited longest, of those not tried in vain since the
stage last issued (R47). -/
def State.serve (s : State) (st : Nat) : Option Nat :=
  let all := s.groups.filter fun e => e.2.stage == st
  let fresh := all.filter fun e => !s.tried.contains e.1
  match fresh, all with
  | e :: r, _ => some (r.foldl longerWait e).1
  | [], e :: r => some (r.foldl longerWait e).1
  | [], [] => none

/-- The stage whose turn follows that of stage `st`: stages take turns in rising order (assumption log 2). -/
def State.nextStage (s : State) (st : Option Nat) : Option Nat :=
  let all := s.groups.map fun e => e.2.stage
  let least := fun l : List Nat => l.foldl (fun m k => match m with
    | some x => if k < x then some k else some x
    | none => some k) (none : Option Nat)
  match st with
  | some k => match least (all.filter fun x => decide (k < x)) with
    | some x => some x
    | none => least all
  | none => least all

/-- The groups tried in vain, after the turn of a group: none of a stage that has just issued. -/
def State.triedNow (s : State) (gid : Nat) : List Nat :=
  match s.group? gid with
  | none => s.tried.filter (· != gid)
  | some g =>
    let others := s.tried.filter fun k => k != gid && (match s.group? k with
      | some x => x.stage != g.stage
      | none => false)
    if g.lastIssue == s.cycle + 1 then others
    else
      let now := gid :: s.tried.filter (· != gid)
      if s.groups.all fun e => e.2.stage != g.stage || now.contains e.1 then others else now

/-- The cursor on the first path of the group that the next stage serves (R47), a new issue number. -/
def State.nextGroup (s : State) : State :=
  let s1 := { s with tried := s.triedNow s.cursor.1, cycle := s.cycle + 1 }
  { s1 with cursor := (((s.nextStage ((s.group? s.cursor.1).map Group.stage)).bind s1.serve).getD 0, 0) }

/-- The cursor after an issue or a turned-down turn: the secondary path of the same issue, then the
next group (R25; assumption log 2). -/
def State.moveOn (s : State) : State :=
  if s.cursor.2 == 0 then
    match s.group? s.cursor.1 with
    | some g => if g.paths.length == 2 then { s with cursor := (s.cursor.1, 1) } else s.nextGroup
    | none => s.nextGroup
  else s.nextGroup

/-- The event that takes a member of a confirmed operation further. -/
def memberEvent (id : Nat) (i : Instr) (m : Member) : Ev :=
  match i with
  | .waitaEq _ | .waitaNe _ => .waitaSatisfied id
  | .xst _ => .xstAccepted id m.rank
  | .st _ | .stNc _ | .stByp _ | .stRel _ | .scatter _ | .scatterAdd _ | .sts _
  | .atomFaddOrd _ | .wsClear _ | .spb _ | .fla _ | .wb _ | .inv _ | .pref _ | .join _
  | .retype _ => .storePerformed id m.rank ((m.frags.findIdx? fun f => !f.done).getD 0)
  | .patSet _ | .seqLoad _ | .rgnMake _ | .peerMap _ | .contPush _ | .ttask _ =>
    .loadDataReturn id m.rank ((m.frags.findIdx? fun f => !f.done).getD 0)
  | _ => match m.frags.findIdx? fun f => !f.done with
    | some k => .loadDataReturn id m.rank k
    | none => .farResult id m.rank

/-- The events that take an operation in flight further: one for every member that is not done. -/
def opEvent (id : Nat) (o : Op) : List Ev :=
  if o.aside then [] else match o.stage with
  | .issued => [.instructionConfirm id]
  | .faulted => []
  | .confirmed => (o.members.filter fun m => !m.done).map (memberEvent id o.instr)

/-- Handler entry can be taken now (R170). -/
def State.entryReady (s : State) (gid : Nat) : Bool :=
  match s.group? gid with
  | none => false
  | some g => g.entryDue && (g.paths.all fun p => p.chain.isNone)
      && !(s.ops.any fun o => o.2.gid == gid && !s.logged o.2
        && o.2.members.any fun m => !m.done && (m.place != .lane || o.2.isRedecl))

/-- The events that take operations in flight further. -/
def State.opEvents (s : State) : List Ev := s.ops.flatMap fun e => opEvent e.1 e.2

/-- Events of casts that wait and of spawn memory (R29, R30, R32). -/
def State.spawnEvents (s : State) : List Ev :=
  (s.groups.flatMap fun g => (g.2.casting.filter fun k => k.party.isNone).flatMap fun k =>
      (ranksOf k.mask).map fun r => .deferredCast g.1 r)
    ++ (s.wgs.flatMap fun w =>
      (if w.2.overflow.isEmpty then [] else [.overflowReturn w.1])
        ++ (match w.2.items with
          | (_, .spawn pc _ _) :: _ | (_, .cast pc _) :: _ => [.casterFormGroup w.1 pc, .casterTimeout w.1 pc]
          | [] => []))

/-- Events of links, held writes, read duplicates and held records (R242, R284, R320, R348). -/
def State.linkEvents (s : State) : List Ev :=
  (s.links.flatMap fun l => match l.2 with
    | .beat _ :: _ => [.clockBeatReceive (l.1 / 8) (l.1 % 8)]
    | .ack id :: _ => [.contPushAck (l.1 % 8) id]
    | _ :: _ => [.crossDieWriteReceive (l.1 / 8) (l.1 % 8)]
    | [] => [])
    ++ (s.dies.flatMap fun d =>
      ((List.range d.2.held.length).map fun k => .heldWriteApply d.1 k)
        ++ (d.2.dups.flatMap fun u =>
          (u.2.filter fun x => x.sent && !x.acked).map fun x => .dupInvalidate x.holder u.1)
        ++ (d.2.dups.map fun u => .dupAck d.1 u.1)
        ++ (d.2.heldPush.map fun x => .contRingPushRetry d.1 x.1)
        ++ (if d.2.staging.isEmpty then [] else [.apertureStagingTransfer d.1]))
    ++ (s.heldRecs.map fun h => .heldTrapRecord h.id) ++ (s.posted.map fun p => .hostPosted p.1).take 1

/-- Events of queues, tasks, engines, ladles and runners. -/
def State.unitEvents (s : State) : List Ev :=
  (s.dies.flatMap fun d =>
    if d.2.queues.any fun q => !q.2.isEmpty then
      [.contPop (256 * d.1 + s.cycle % 128), .resumePop (256 * d.1 + s.cycle % 128)] else [])
    ++ (s.clusters.flatMap fun c =>
      (if c.2.tasks.isEmpty then [] else [.taskStart c.1])
        ++ (c.2.tasks.map fun t => .taskEnd t.id)
        ++ (c.2.ladles.flatMap fun q => if q.2.isEmpty then []
          else [.ladleCommandStart c.1 q.1, .ladleFeedPush c.1 q.1, .copyDoneWrite c.1 q.1]))
    ++ (s.cores.flatMap fun c =>
      (match c.2.engine.owner with
        | .task _ => [.sequencerStep c.1]
        | _ => [])
        ++ (if c.2.engine.queue.isEmpty then []
          else [.engineCommandRetire c.1, .engineKgroupStep c.1])
        ++ (if c.2.engine.suspend then [.engineSuspend c.1] else []))
    ++ (s.xdies.flatMap fun x =>
      ((List.range 5).map fun q => .runnerCommandStart x.1 q)
        ++ (x.2.active.map fun c => .runnerCommandComplete x.1 c.id none))

/-- Time on the dies that run work, what time brings about, and work that may have ended (R22, R112, R187,
R189, R190, R197, R257, R322, R332, R374). -/
def State.timeEvents (s : State) : List Ev :=
  ([0, 1, 2, 3].flatMap fun d =>
    if s.groups.any fun g => locDie g.2.loc == d then
      [if (s.die d).ringPos ≥ 128 || (s.die d).revolutions == 0 then .revolutionBoundary d else .ringCycleDraw d,
        .referenceTick d]
    else [])
    ++ (s.wgs.flatMap fun w => [.workgroupFinish w.1, .workgroupWdogExpiry w.1])
    ++ (s.clusters.flatMap fun c => (if c.2.tasks.isEmpty then [] else [.gangReserve c.1])
      ++ (if c.2.droop then [.droopHoldEnd c.1] else []) ++ if c.2.clkPend.isSome then [.clkApply c.1] else [])
    ++ (s.cores.flatMap fun c => match c.2.engine.owner with
      | .task _ => [.engineTaskWdogExpiry c.1]
      | _ => [])
    ++ (s.dies.flatMap fun d => (d.2.queues.flatMap fun q => q.2.map fun x => .recordAgeing d.1 x.id)
      ++ d.2.ordq.map fun x => .orderedAddCombine d.1 (homeSlice x.pa) x.region)
    ++ (s.regionRuns.filterMap fun r => if r.2.active then some (.completionReport r.1) else none)
    ++ (s.groups.filterMap fun g => if g.2.stored then some (.residencyTimeout g.2.loc g.1) else none)
    ++ (s.linkDown.map fun k => .linkRetrainDone (k / 8) (k % 8))
    ++ s.dies.flatMap fun d => d.2.ports.flatMap fun p =>
      (if p.2.glint then [.glintRelease d.1 p.1] else [])
        ++ (((List.range p.2.wactive).find? fun w => !p.2.passes w).map fun w => .wavelengthDegrade d.1 p.1 w).toList

/-- The events that may be due; each has its effect only where its conditions hold. -/
def State.dueEvents (s : State) : List Ev :=
  s.opEvents ++ s.spawnEvents ++ s.linkEvents ++ s.unitEvents ++ s.timeEvents

/-- One of the events that may be due, in turn, after every eighth issue: a run of issues holds no event
back for ever (assumption log 2). -/
def State.poll (s : State) : State :=
  if s.cycle % 8 != 0 then s
  else
    let es := s.dueEvents
    match es[s.cycle / 8 % es.length]? with
    | some e => { s with agenda := s.agenda ++ [.ev e] }
    | none => s

/-- A turn that issues nothing: handler entry if the group is to take one, or one of the events that may
be due, in turn; then the cursor moves on (assumption log 2). -/
def State.turnOver (s : State) : State :=
  if s.entryReady s.cursor.1 then
    { s.moveOn with agenda := s.agenda ++ [.ev (.handlerEntry s.cursor.1)] }
  else
    let es := s.dueEvents
    match es[s.cycle % es.length]? with
    | some e => { s.moveOn with agenda := s.agenda ++ [.ev e] }
    | none => s.moveOn

/-- A precise fault of the issuing path for some of its ranks (R44). -/
def State.trapMask (s : State) (c : Ctx) (code : FCode) (mask : Word) (va : DWord) (detail : DWord) :
    State :=
  (s.takeTrap c.gid c.pi
    { s.trapInfo c.g code c.p.pc mask with vaddr := va, detail } none).moveOn

/-- A precise fault of the issuing path (R44). -/
def State.trapCode (s : State) (c : Ctx) (code : FCode) : State := s.trapMask c code c.p.mask 0 0

/-- The chain after an instruction of a path (R83, R84). A chain whose last instruction reads a walker stays open,
with nothing left, until the element has come (R85, R149). -/
def Ctx.nextChain (c : Ctx) : Option Chain :=
  let hot := c.f.h || c.f.n
  match c.p.chain with
  | none =>
    if hot then some { start := c.p.pc, count := 1, left := 2, reads := c.f.readCodes,
                       walkers := c.threads.map fun t => (t.1, t.2.walkers) }
    else none
  | some k =>
    let left := if hot then 2 else k.left - 1
    if left == 0 && !c.walks then none
    else some { k with count := k.count + 1, left, reads := k.reads ++ c.f.readCodes }

/-- The latches of the path's threads when its chain has ended. -/
def Ctx.closeChain (c : Ctx) (g : Group) : Group :=
  if c.p.chain.isSome && c.nextChain.isNone then g.modThreads c.p.mask fun _ t => t.dropLatches
  else g

/-- A performance counter one higher. -/
def bump (t : Tab Nat) (k n : Nat) : Tab Nat := Tab.put t k (Tab.getD t k 0 + n)

/-- An issue counted on its group (R47, R112, R201); `lastIssue` holds the issue number plus 1. -/
def Group.issued (g : Group) (cycle : Nat) : Group :=
  { g with perf := bump g.perf 0 1, lastIssue := cycle + 1, sinceTick := true }

/-- The cursor after an issue. A path that this issue has split off issues from the group's next turn on. -/
def State.afterIssue (s : State) (c : Ctx) : State :=
  if c.g.paths.length == 2 then s.moveOn else s.nextGroup

/-- A path that has issued waits no longer for lumens (R192) or as an `mx.sync` (R309). -/
def Path.licensed (p : Path) : Path := { p with lumBlocked := false, lumWait := 0, syncAt := none }

/-! ### Performance counters (R201) -/

/-- F-cycles pass on a core: a model without time counts a free number of them (assumption log 35), those at a
grant below 64 as well. -/
def State.runCycles (s : State) (loc : Nat) : State :=
  let (k, s1) := s.freeWord
  s1.modCore loc fun c =>
    let p := bump c.perf 0x100 k.toNat
    { c with perf := if c.grant < 64 then bump p 0x104 k.toNat else p }

/-- A turn of a group that waits for lumens: a free number of F-cycles (assumption log 35). -/
def State.lumTurn (s : State) (c : Ctx) : State :=
  let (k, s1) := s.freeWord
  s1.modGroup c.gid fun g =>
    { g.modPath c.pi fun p => { p with lumBlocked := true } with perf := bump g.perf 1 k.toNat }

/-- Ranks whose copy of a name the operand collector reads: a group-set form's leader alone (R82). -/
def Ctx.laneRanks (c : Ctx) (n : Nat) : List Nat :=
  ((if c.f.group && !c.f.perMember then [c.leader] else c.threads).filter fun t =>
    (placeOf c.w t.2 n).1 == .lane).map (·.1)

/-- The names that an instruction reads at LANE, each once. -/
def Ctx.laneSources (c : Ctx) : List Nat :=
  ((c.f.reads ++ c.f.full).foldl (fun l n => if l.contains n then l else l ++ [n]) []).filter fun n =>
    !(c.laneRanks n).isEmpty

/-- Bank reads of a name (R111, R113): one for a uniform name, else one for each pair of lanes (assumption log 102). -/
def Ctx.bankReads (c : Ctx) (n : Nat) : Nat :=
  if c.g.uniform.contains n then 1
  else ((List.range 16).filter fun p => (c.laneRanks n).any fun r => r / 2 == p).length

/-- Extra collector cycles: every source after the first in its bank, (name + slot) mod 4 (R111). -/
def Ctx.conflicts (c : Ctx) : Nat :=
  ([0, 1, 2, 3].map fun b => (c.laneSources.filter fun n => (n + c.g.slot) % 4 == b).length - 1).sum

/-- The operand collector's counters after an issue (R111, R113, R201). -/
def State.collected (s : State) (c : Ctx) : State :=
  let l := c.laneSources
  if l.isEmpty then s
  else s.modCore c.g.loc fun k =>
    { k with perf := bump (bump (bump k.perf 0x101 (l.map c.bankReads).sum) 0x102
        (l.filter fun n => c.g.uniform.contains n).length) 0x103 c.conflicts }

/-- What every issue does once its effect is applied: the debit, the count of issues, `moved` on the
group, merges and holds, the cursor (R25 to R27, R191, R201). -/
def State.retire (s : State) (c : Ctx) (moved : Group → Group) : State :=
  let s1 := (s.debit c.g.loc c.w.region (s.priceOf c)).collected c
  let s2 := s1.modGroup c.gid fun g => (moved ((g.issued s.cycle).modPath c.pi Path.licensed)).settle
  (s2.afterIssue c).poll

/-- Byte length of an instruction (R73, R74). -/
def Ctx.len (c : Ctx) : DWord := BitVec.ofNat 64 (4 * c.i.words)

/-- The next instruction of the path, its chain continued. -/
def Ctx.seqPath (c : Ctx) (p : Path) : Path :=
  { p with pc := c.p.pc + c.len, chain := c.nextChain, xfer := false }

/-- Retire and go on with the next instruction. -/
def State.next_ (s : State) (c : Ctx) : State :=
  s.retire c fun g => c.closeChain (g.modPath c.pi c.seqPath)

/-- The instruction has a result that is checked at LANE as it issues (R45): it holds no log entry. A result that a
chain keeps in `b1` alone is one too (R83, R85). -/
def Ctx.laneResult (c : Ctx) : Bool :=
  !c.needsLog && (!c.f.dst.names.isEmpty || c.f.dstP.isSome || !c.f.predW.isEmpty
    || (c.f.dst != .none && (c.p.chain.isSome || c.f.h || c.f.n)))

/-- Far entries of a thread at a unit. -/
def Thread.farAt (u : Place × Nat) (t : Thread) : Nat :=
  (List.filter (fun e : Nat × FarName => (e.2.place, e.2.unit) == u) t.far).length

/-- Far entries of a cast item's thread at a unit: they stay where they are (R29). -/
def Item.farAt (u : Place × Nat) : Item → Nat
  | .cast _ t => t.farAt u
  | .spawn _ _ _ => 0

/-- Far entries anchored at a unit of a die (R29, R37). -/
def State.farCount (s : State) (d : Nat) (u : Place × Nat) : Nat :=
  (s.groups.map fun g => if locDie g.2.loc != d then 0 else (g.2.threads.map fun t => t.2.farAt u).sum).sum
    + (s.wgs.map fun w => if locDie w.2.loc != d then 0
        else ((w.2.items ++ w.2.overflow).map fun e => e.2.farAt u).sum).sum

/-- Far entries of a unit stand in its backing store: it holds 16,384 on chip (R37). -/
def State.backed (s : State) (d : Nat) (u : Place × Nat) : Bool :=
  (u.1 == .slice || u.1 == .memory) && decide (16384 < s.farCount d u)

/-- Some thread reads a far entry of a unit that keeps entries in backing store. -/
def State.readsBacked (s : State) (c : Ctx) : Bool :=
  c.threads.any fun t => (c.f.reads ++ c.f.full).any fun n => s.backed (coreDie c.g.loc) (placeOf c.w t.2 n)

/-- The checks that a result at LANE of the core fails now: its residue checks, and the droops whose window takes it
in (R45, R196). -/
def State.laneFailsNow (s : State) (loc : Nat) : List Nat :=
  (s.core loc).laneFails ++ (s.core loc).droops.map fun _ => 1

/-- The precise fault of an instruction that holds no log entry (R45, R117): an error response from a far entry
comes before a second failure of a recast; its DETAIL (R346). -/
def State.laneFault (s : State) (c : Ctx) : Option (FCode × DWord) :=
  if (s.core c.g.loc).farError && !c.needsLog && s.readsBacked c then some (.viol, 0)
  else match s.laneFailsNow c.g.loc with
    | _ :: k :: _ => if c.laneResult then some (.recast, BitVec.ofNat 64 k) else none
    | _ => none

/-- The failed checks taken: a suspect result is recast from the operands that its pipe holds, and counted
(R45, R201). -/
def State.laneChecked (s : State) (c : Ctx) : State :=
  let hit := c.laneResult && !(s.laneFailsNow c.g.loc).isEmpty
  if (s.laneFailsNow c.g.loc).isEmpty && !(s.core c.g.loc).farError then s
  else s.modCore c.g.loc fun k =>
    { k with perf := if hit then bump k.perf 0x107 1 else k.perf,
             laneFails := if c.laneResult then [] else k.laneFails,
             droops := if c.laneResult then (k.droops.map fun n => n - 1).filter (· != 0) else k.droops,
             farError := k.farError && (c.needsLog || !s.readsBacked c) }

/-- A turn of a path that is not ready, lumens apart: it does not wait for lumens (R192). -/
def State.lumClear (s : State) (c : Ctx) : State :=
  if c.p.lumBlocked then s.modGroup c.gid fun g => g.modPath c.pi fun p => { p with lumBlocked := false } else s

/-- ISSUE. The checks of R93 in order, each a precise fault; then the stalls, among them `wait`, the form's own; then
the lumens; then the faults of R45 and R117 of a result at LANE; then `k`, which applies the effect and retires. A turn
that cannot issue is turned over. -/
def State.issueOr (s : State) (i : Instr) (f : Form) (wait : Ctx → State → Option State) (k : Ctx → State → State) :
    State :=
  match s.ctx? i f with
  | none => s.moveOn
  | some c =>
    if !s.canIssue c then s.turnOver
    else if c.isIll then s.trapCode c .ill
    else if (c.f.priv || c.f.privOn c.g c.w) && !c.privileged then s.trapCode c .priv
    else if s.priceOf c > 8192 then s.trapCode c .lumen
    else if s.badPlace c != 0 then s.trapMask c .place (s.badPlace c) 0 0
    else if s.stalls c then (s.lumClear c).turnOver
    else match wait c s with
      | some s1 => (s1.lumClear c).turnOver
      | none =>
        if !s.licensed c.g.loc (c.gid + 1) c.w.region (s.priceOf c) then (s.lumTurn c).turnOver
        else match s.laneFault c with
          | some (e, v) =>
            ((s.laneChecked c).debit c.g.loc c.w.region (s.priceOf c)).trapMask c e c.p.mask 0 v
          | none => k c (s.laneChecked c)

/-- The issue of a form whose wait changes nothing (`issueOr`). -/
def State.issueIf (s : State) (i : Instr) (f : Form) (wait : Ctx → State → Bool) (k : Ctx → State → State) : State :=
  s.issueOr i f (fun c s => if wait c s then some s else none) k

/-- The issue of a form that has no wait of its own (`issueIf`). -/
def State.issue (s : State) (i : Instr) (f : Form) (k : Ctx → State → State) : State :=
  s.issueIf i f (fun _ _ => false) k

/-! ### Applying results -/

/-- One name written for one member of a group (R35). -/
def State.writeName (s : State) (gid rank n : Nat) (v : Word) : State :=
  match s.group? gid with
  | none => s
  | some g => match Tab.find? g.threads rank with
    | none => s
    | some t =>
      let (w', t') := writeV (s.wgOf g) t n v
      let s1 := s.setGroup gid { g with threads := Tab.put g.threads rank t' }
      if (placeOf (s.wgOf g) t n).1 == .cluster && !g.steward then s1.setWg g.wg w' else s1

/-- Consecutive names written. -/
def State.writeNames (s : State) (gid rank n : Nat) : List Word → State
  | [] => s
  | v :: vs => State.writeNames (s.writeName gid rank n v) gid rank (n + 1) vs

/-- A field's destination written with a value; `z` discards (R79). -/
def State.writeFld (s : State) (gid rank : Nat) (f : Fld) (v : BitVec 128) : State :=
  match f.names with
  | [] => s
  | n :: _ => s.writeNames gid rank n (wordsOf v f)

/-- The uniform tag of a name gone (R113). -/
def Group.untag (g : Group) (n : Nat) : Group :=
  { g with uniform := g.uniform.filter (· != n), uniNow := Tab.del g.uniNow n }

/-- THE UNIFORM TAG of a name after one member's write by the issue of number `cycle` (R113): set once the issue,
both paths counted, has given all 32 members one value at LANE; otherwise gone. -/
def Group.tag (g : Group) (w : Workgroup) (cycle rank n : Nat) (v : Word) : Group :=
  let lane := match Tab.find? g.threads rank with
    | some t => (placeOf w t n).1 == .lane
    | none => false
  if !lane then g.untag n
  else
    let before : Word := match Tab.find? g.uniNow n with
      | some (k, m, x) => if k == cycle && x == v then m else 0
      | none => 0
    let m := before ||| ((1 : Word) <<< rank)
    { g with uniNow := Tab.put g.uniNow n (cycle, m, v),
             uniform := (if m == -1 then [n] else []) ++ g.uniform.filter (· != n) }

/-- The tags of consecutive names. -/
def Group.tags (g : Group) (w : Workgroup) (cycle rank n : Nat) : List Word → Group
  | [] => g
  | v :: vs => Group.tags (g.tag w cycle rank n v) w cycle rank (n + 1) vs

/-- Every member's result written, in ascending rank, and the tags of its names (R35, R113, R116). -/
def State.writeResults (s : State) (c : Ctx) (f : Fld) (rs : List (Nat × BitVec 128)) : State :=
  let s1 := rs.foldl (fun s r => s.writeFld c.gid r.1 f r.2) s
  match f.names with
  | [] => s1
  | n :: _ => s1.modGroup c.gid fun g =>
      rs.foldl (fun g r => g.tags c.w s.cycle r.1 n (wordsOf r.2 f)) g

/-- Flags ORed into FPX (R55, R56). -/
def State.orFpx (s : State) (gid : Nat) (fl : Fpx) : State :=
  s.modGroup gid fun g => { g with fpx := g.fpx ||| fl }

/-- A member's thread changed. -/
def State.modThread (s : State) (gid rank : Nat) (f : Thread → Thread) : State :=
  s.modGroup gid fun g => { g with threads := Tab.upd g.threads rank f }

/-- A predicate of every member written (R123, R128). -/
def State.writePreds (s : State) (c : Ctx) (p : Nat) (rs : List (Nat × Bool)) : State :=
  rs.foldl (fun s r => s.modThread c.gid r.1 fun t => setPred t p r.2) s

/-- Counted in a scoreboard counter at issue (R176). -/
def Group.sbAdd (g : Group) (k id : Nat) : Group :=
  if k == 0 then g else { g with sb := Tab.put g.sb k (g.sbList k ++ [(id, false)]) }

/-- Complete operations leave a counter in issue order (R176). -/
def sbDrain : List (Nat × Bool) → List (Nat × Bool)
  | (_, true) :: r => sbDrain r
  | l => l

/-- A counted operation is complete (R176). -/
def Group.sbDone (g : Group) (k id : Nat) : Group :=
  if k == 0 then g
  else
    let l := (g.sbList k).map fun e => if e.1 == id then (id, true) else e
    { g with sb := Tab.put g.sb k (sbDrain l) }

end Sys2Proof.Machine
end

