-- ==== Sys2Proof/Machine/Lane.lean ====
section
/-! DEFINITION. What every register-to-register form of the lane set and the group set shares (R117,
R128, R132): results at LANE at issue, results at CLUSTER, SLICE and MEMORY or from a walker by an
operation in flight (R35, R39 to R42), latches (R83), flags (R56). -/

namespace Sys2Proof.Machine

/-- A register-to-register form: what issue needs, and the result and flags of the source values. -/
structure LaneOp where
  form : Form
  eval : BitVec 128 → BitVec 128 → BitVec 128 → BitVec 128 × Fpx

/-- A result of 32-bit sources without flags. -/
def ev32 (f : Word → Word → Word → Word) (a b d : BitVec 128) : BitVec 128 × Fpx :=
  ((f (lo a 0 32) (lo b 0 32) (lo d 0 32)).zeroExtend 128, 0)

/-- A result of 64-bit sources without flags. -/
def ev64 (f : DWord → DWord → DWord) (a b _d : BitVec 128) : BitVec 128 × Fpx :=
  ((f (lo a 0 64) (lo b 0 64)).zeroExtend 128, 0)

/-- A rounded result of 32-bit sources. -/
def evF (f : Nat → Nat → Nat → Res) (a b d : BitVec 128) : BitVec 128 × Fpx :=
  let r := f (lo a 0 32).toNat (lo b 0 32).toNat (lo d 0 32).toNat
  (BitVec.ofNat 128 r.1, r.2)

/-- A rounded result of 64-bit sources. -/
def evD (f : Nat → Nat → Nat → Res) (a b d : BitVec 128) : BitVec 128 × Fpx :=
  let r := f (lo a 0 64).toNat (lo b 0 64).toNat (lo d 0 64).toNat
  (BitVec.ofNat 128 r.1, r.2)

/-- A field that names a walker. -/
def Fld.walker? (f : Fld) : Option Name :=
  match f.name? with
  | .some n => if n.isW then .some n else Option.none
  | Option.none => Option.none

/-- Walker reads of A and then B by one thread (R81). -/
def walkReads (f : Form) (t : Thread) :
    Option (DWord × BitVec 2) × Option (DWord × BitVec 2) × Thread :=
  let (wa, t1) := match f.a.walker? with
    | some n => readWalker t n
    | none => (none, t)
  let (wb, t2) := match f.b.walker? with
    | some n => readWalker t1 n
    | none => (none, t1)
  (wa, wb, t2)

/-- The result that the bypass latch takes: one 32-bit value, else a free word (R83, log 8). -/
def latchWord (f : Form) (v : BitVec 128) (free : Word) : Word :=
  match f.dst, f.dstP with
  | .w _, _ => lo v 0 32
  | _, some _ => lo v 0 32
  | _, none => free

/-- Latches of one thread after a chain instruction: H takes the value of A, then the result (R83). -/
def latch (f : Form) (a r : Word) (t : Thread) : Thread :=
  pushResult (if f.h then pushOperand t a else t) r

/-- The instruction stands in a chain or starts one (R83). -/
def Ctx.inChain (c : Ctx) : Bool := c.p.chain.isSome || c.f.h || c.f.n

/-- Latches of the listed members (R83). `vs` holds rank, value of A and result. -/
def State.latchAll (s : State) (c : Ctx) (vs : List (Nat × Word × Word)) : State :=
  if c.inChain then vs.foldl (fun s v => s.modThread c.gid v.1 (latch c.f v.2.1 v.2.2)) s else s

/-- A member of an operation with its logged sources (R42). -/
def mkMember (c : Ctx) (e : Nat × Thread) (wa wb : Option (DWord × BitVec 2)) : Member :=
  let v := c.env e
  let (pl, u) := c.execPlace e.2
  { rank := e.1, tid := e.2.tid, place := pl, unit := u, slot := e.2.farSlot, wa, wb,
    a := lo (v.val c.f.a) 0 64, b := lo (v.val c.f.b) 0 64,
    d := lo (c.third e) 0 64, dhi := lo (c.third e) 64 64 }

/-- An operation put in flight, with its log entry and its count (R39, R42, R176). -/
def State.launch (s : State) (c : Ctx) (ms : List Member) (dests : List Nat) (pred : Option Nat)
    (path : APath) (scope : Nat) (flags : Fpx := 0) : Nat × State :=
  let (id, s1) := s.newId
  let o : Op :=
    { gid := c.gid, wg := c.g.wg, region := c.w.region, loc := c.g.loc, pc := c.p.pc,
      gindex := c.g.gindex, instr := c.i,
      mask := c.p.mask, members := ms, dests, predDest := pred,
      logix := if c.needsLog then s.freeLog c.g.loc else none,
      sb := c.f.sb, scope, path, cycle := s.cycle, inChain := c.inChain, flags }
  (id, (s1.setOp id o).modGroup c.gid fun g => g.sbAdd c.f.sb id)

/-- Walkers of the path's threads advance at issue (R149). -/
def State.advanceWalkers (s : State) (c : Ctx) : State :=
  s.modGroup c.gid fun g => g.modThreads c.p.mask fun _ t => (walkReads c.f t).2.2

/-- EFFECT OF A LANE-SET FORM (R117): members at LANE without a walker read write at once; the others
go in flight, and the flags of all enter FPX when the instruction is complete (R56). -/
def State.runLane (s : State) (op : LaneOp) (c : Ctx) : State :=
  let parts : List ((Nat × Thread) × Option (DWord × BitVec 2) × Option (DWord × BitVec 2) × Thread) :=
    c.threads.map fun e => (e, walkReads c.f e.2)
  let now := parts.filter fun p => (c.execPlace p.1.2).1 == .lane && p.2.1.isNone && p.2.2.1.isNone
  let later := parts.filter fun p =>
    !((c.execPlace p.1.2).1 == .lane && p.2.1.isNone && p.2.2.1.isNone)
  let rs : List (Nat × BitVec 128 × BitVec 128 × Fpx) := now.map fun p =>
    let v := c.env p.1
    (p.1.1, v.val c.f.a, op.eval (v.val c.f.a) (v.val c.f.b) (c.third p.1))
  let (free, s0) := s.freeWord
  let s1 := (if c.inChain then s0 else s).advanceWalkers c
  let s2 : State := match c.f.dstP with
    | some p => s1.writePreds c p (rs.map fun r => (r.1, r.2.2.1 != 0))
    | none => s1.writeResults c c.f.dst (rs.map fun r => (r.1, r.2.2.1))
  let fl : Fpx := rs.foldl (fun f r => f ||| r.2.2.2) 0
  let s3 := if later.isEmpty then s2.orFpx c.gid fl else s2
  let s4 := s3.latchAll c (rs.map fun r => (r.1, lo r.2.1 0 32, latchWord c.f r.2.2.1 free))
  let s5 := if later.isEmpty then s4
    else (s4.launch c (later.map fun p => mkMember c p.1 p.2.1 p.2.2.1) c.f.dst.names c.f.dstP
      (if later.any fun p => (c.execPlace p.1.2).1 != .lane then .far else .lane) 0 fl).2
  s5.next_ c

/-- ISSUE OF A LANE-SET FORM. -/
def State.issueLane (s : State) (i : Instr) (op : LaneOp) : State :=
  s.issue i op.form fun c s => s.runLane op c

/-- EFFECT OF A GROUP-SET FORM (R82, R128): one result from the leader's sources, written to every
member of the path; one write when the destination is CLUSTER (R116), made by its first member. -/
def State.runGroup (s : State) (op : LaneOp) (c : Ctx) : State :=
  let v := c.lead
  let r := op.eval (v.val c.f.a) (v.val c.f.b) (c.third c.leader)
  let far := c.threads.filter fun e => (c.execPlace e.2).1 != .lane
  if c.f.dstP.isSome then
    (s.writePreds c (c.f.dstP.getD 0) (c.threads.map fun e => (e.1, r.1 != 0))).next_ c
  else if far.isEmpty then
    ((s.writeResults c c.f.dst (c.threads.map fun e => (e.1, r.1))).orFpx c.gid r.2).next_ c
  else
    let e := c.leader
    let ms := c.threads.map fun t =>
      let (pl, u) := c.execPlace t.2
      ({ rank := t.1, tid := t.2.tid, place := pl, unit := u, slot := t.2.farSlot,
         a := lo (v.val c.f.a) 0 64, b := lo (v.val c.f.b) 0 64, d := lo (c.third e) 0 64 } : Member)
    (s.launch c ms c.f.dst.names none .far 0).2.next_ c

/-- ISSUE OF A GROUP-SET FORM. -/
def State.issueGroup (s : State) (i : Instr) (op : LaneOp) : State :=
  s.issue i op.form fun c s => s.runGroup op c

end Sys2Proof.Machine

namespace Sys2Proof

open Machine

/-- Forms of fields: lane set, 32-bit destination and sources (R117). -/
def L3.form (f : L3) (cls : Nat) (far : Bool) (useD : Bool := false) : Form :=
  { cls, a := .w f.a, b := .w f.b, d := if useD then .w f.d else .none, dst := .w f.d, x := f.x,
    h := f.h, n := f.n, chain := true, cluster := far, far }

/-- `L3R` as `L3.form`. -/
def L3R.form (f : L3R) (cls : Nat) (far : Bool) (useD : Bool := false) : Form :=
  { cls, a := .w f.a, b := .w f.b, d := if useD then .w f.d else .none, dst := .w f.d, x := f.x,
    h := f.h, n := f.n, chain := true, cluster := far, far }

/-- Unary lane form. -/
def L2.form (f : L2) (cls : Nat) (far : Bool) : Form :=
  { cls, a := .w f.a, dst := .w f.d, h := f.h, n := f.n, chain := true, cluster := far, far }

/-- Unary lane form with a rounding mode. -/
def L2R.form (f : L2R) (cls : Nat) : Form :=
  { cls, a := .w f.a, dst := .w f.d, h := f.h, n := f.n, chain := true }

/-- 64-bit lane form (R127). -/
def N3.form64 (f : N3) : Form :=
  { cls := 1, a := .pair f.a, b := .pair f.b, dst := .pair f.d, x := f.x, chain := true }

/-- Binary64 form (R138). -/
def N3R.form (f : N3R) (useD : Bool := false) : Form :=
  { cls := 3, a := .pair f.a, b := .pair f.b, d := if useD then .pair f.d else .none,
    dst := .pair f.d, chain := true }

/-- Group-set form with three names (R128). -/
def N3.formG (f : N3) (cls : Nat) (cl : Bool) (useD : Bool := false) : Form :=
  { cls, a := .w f.a, b := .w f.b, d := if useD then .w f.d else .none, dst := .w f.d, x := f.x,
    group := true, cluster := cl }

/-- Group-set 64-bit form (R128). -/
def N3.formG64 (f : N3) : Form :=
  { cls := 1, a := .pair f.a, b := .pair f.b, dst := .pair f.d, x := f.x, group := true }

/-- Group-set unary form. -/
def N2.formG (f : N2) (cls : Nat) : Form :=
  { cls, a := .w f.a, dst := .w f.d, group := true }

end Sys2Proof
end

