-- ==== Sys2Proof/Machine/Spill.lean ====
section
/-! DEFINITION. Residency of groups and the register spill area (R112). -/

namespace Sys2Proof.Machine

/-- Words per lane that a group occupies (R112). -/
def State.groupWords (s : State) (g : Group) : Nat := 8 * (s.wgOf g).nb

/-- Groups of a core's stage. -/
def State.stageGroups (s : State) (loc st : Nat) : Tab Group :=
  s.groups.filter fun e => e.2.loc == loc && !e.2.steward && stageOf e.2.slot == st

/-- Words per lane that the resident groups of a stage occupy (R112). -/
def State.stageWords (s : State) (loc st : Nat) : Nat :=
  ((s.stageGroups loc st).map fun e => if e.2.stored then 0 else s.groupWords e.2).sum

/-- Bytes of one group slot's image in a spill area (R112). -/
def spillImage : Nat := 24576

/-- The spill area of a slot meets an error response: it is not in the HBM of the core's die (R112). -/
def State.spillBad (s : State) (loc slot : Nat) : Bool :=
  let a := (Tab.getD (s.die (locDie loc)).spill (locCoreOfDie loc) 0).toNat + spillImage * slot
  hbmDie a != some (locDie loc) || hbmDie (a + (spillImage - 1)) != some (locDie loc) || isCwPa a || isCwPa (a + (spillImage - 1))

/-- Free words for the names from `n` up (assumption log 8): what the restore routine reloads, or what a loss leaves. -/
def freeNames (k : Nat) : Nat → Nat → Tab Word
  | _, 0 => []
  | n, c + 1 => (n, Config.freeWord (k + n)) :: freeNames k (n + 1) c

/-- A walker from its 32 bytes (R354, R356). -/
def Walker.ofBytes (bs : List Byte) : Walker :=
  let f := leAt bs 24 1
  { bound := f % 2 == 1, base := BitVec.ofNat 64 (leAt bs 0 8), e := BitVec.ofNat 2 (f / 2),
    c0 := BitVec.ofNat 16 (leAt bs 8 2), c1 := BitVec.ofNat 16 (leAt bs 10 2),
    s0 := BitVec.ofNat 32 (leAt bs 12 4), s1 := BitVec.ofNat 32 (leAt bs 16 4),
    i0 := BitVec.ofNat 16 (leAt bs 20 2), i1 := BitVec.ofNat 16 (leAt bs 22 2), fin := f / 8 % 2 == 1 }

/-- Registers lost (R112): names, predicates and walkers hold free values (assumption log 8). -/
def lostThread (nb k r : Nat) (t : Thread) : Thread :=
  let b := fun i => Config.freeByte (k + 512 * r + i)
  { t with
    lane := freeNames (k + 512 * r) 0 (8 * nb), preds := b 0
    walkers := (List.range 8).map fun w =>
      (w, Walker.ofBytes ((List.range 32).map fun i => b (1 + 32 * w + i))) }

/-- The spill area's error: logged, the group's registers lost, its workgroup reported with VIOL (R112,
R345). -/
def State.spillError (s : State) (gid : Nat) (g : Group) : State :=
  let d := locDie g.loc
  let a := (Tab.getD (s.die d).spill (locCoreOfDie g.loc) 0).toNat + spillImage * g.slot
  let w := s.wgOf g
  let (id, s1) := (s.logViolation d a 6 0 g.loc).newId
  let s2 := { s1 with fresh := s1.fresh + 512 * 32 }.modGroup gid fun g =>
    { g with threads := Tab.mapV g.threads fun r t => lostThread w.nb s1.fresh r t }
  s2.writeTrap d id
    { code := .viol, src := 8, region := some w.region, loc := g.loc, paddr := a, windex := w.index,
      gindex := g.gindex } (some (.wg g.wg))

/-- A group's image written to its spill slot (R112); the layout is the device's own (assumption log 8). -/
def State.storeGroup (s : State) (gid : Nat) (g : Group) : State :=
  let s1 := s.modGroup gid fun g => { g with stored := true }
  if s.spillBad g.loc g.slot then s1.spillError gid g
  else
    let (bs, s2) := s1.freeBytes spillImage
    s2.writePaN ((Tab.getD (s.die (locDie g.loc)).spill (locCoreOfDie g.loc) 0).toNat + spillImage * g.slot) bs

/-- A stored group becomes resident (R112). -/
def State.bringBack (s : State) (gid : Nat) (g : Group) : State :=
  let s1 := s.modGroup gid fun g => { g with stored := false }
  if s.spillBad g.loc g.slot then s1.spillError gid g else s1

/-- A group fits beside the resident groups of its stage (R112). -/
def State.fits (s : State) (g : Group) : Bool :=
  decide (s.stageWords g.loc (stageOf g.slot) + s.groupWords g ≤ 2048)

/-- A new group, made as one that is stored: resident where it fits, else its image is in the spill area
(R112). -/
def State.seatGroup (s : State) (gid : Nat) : State :=
  match s.group? gid with
  | none => s
  | some g => if s.fits g then s.modGroup gid fun g => { g with stored := false } else s.storeGroup gid g

/-- Stored groups of a core that fit become resident: in ascending order of their names, every one that then
fits (R112; the order is this model's, assumption log 105). -/
def State.refit (s : State) (loc : Nat) : State :=
  (s.groups.filter fun e => e.2.loc == loc && e.2.stored).foldl (fun s e =>
    if s.fits e.2 then s.bringBack e.1 e.2 else s) s

end Sys2Proof.Machine
end

