-- ==== Sys2Proof/Machine/Paths.lean ====
section
/-! DEFINITION. Splitting, casting and ending paths (R26 to R32), barriers (R179 to R181), and the
spawn memory that cast and spawn items enter (R29 to R32, R325). -/

namespace Sys2Proof.Machine

/-! ### Spawn memory -/

/-- Bytes of an item (R29, R31, R325). -/
def Item.size (nb : Nat) : Item → Nat
  | .spawn _ _ _ => 16
  | .cast _ _ => 320 + 32 * nb

/-- Bytes of a list of items. -/
def itemBytes (nb : Nat) (l : List (Nat × Item)) : Nat := (l.map fun e => e.2.size nb).sum

/-- Bytes of a region's overflow area in use on a die (R325). -/
def State.ovfUsed (s : State) (d r : Nat) : Nat :=
  let use := fun w : Workgroup => if locDie w.loc == d && w.region == r then itemBytes w.nb w.overflow else 0
  (s.wgs.map fun w => use w.2).sum + (s.saved.map fun v => use v.wg).sum

/-- Why an item finds no place. -/
inductive NoRoom where
  /-- SPAWNX: the area is full, code 0, or a fault met in writing it (R325, R346). -/
  | full (code : Nat)
  /-- The write stalls: the area's frame is in transition or has read duplicates (R209, R242). -/
  | stall

/-- The checks of a write of `n` bytes of a region's overflow area (R325): by the core `loc`, on RC frames. -/
def State.ovfCheck (s : State) (d loc va n : Nat) : Except NoRoom State :=
  let one := fun (s : State) (va : Nat) => match s.check d loc .write (fun t => t == 0) none va with
    | (.ok _ _, s1) => (.ok s1 : Except NoRoom State)
    | (.fault c _, _) => .error (.full c.num)
    | (.stall, _) => .error .stall
  match one s va with
  | .error e => .error e
  | .ok s1 => if frameOf (va + n - 1) == frameOf va then .ok s1 else one s1 (va + n - 1)

/-- An item put into spawn memory, or into the region's overflow area when spawn memory is full (R32). -/
def State.putItem (s : State) (wg : Nat) (it : Item) : Except NoRoom State :=
  match s.wg? wg with
  | none => .error (.full 0)
  | some w =>
    let (n, s0) := s.newId
    let sz := it.size w.nb
    if itemBytes w.nb w.items + sz ≤ (w.spw + 1) * 4096 then
      .ok (s0.modWg wg fun w => { w with items := w.items ++ [(n, it)] })
    else
      let d := locDie w.loc
      match s.rgn? d w.region with
      | none => .error (.full 0)
      | some b =>
        if s.ovfUsed d w.region + sz > b.ovfSize then .error (.full 0)
        else match s0.ovfCheck d w.loc (b.ovfBase.toNat + s.ovfUsed d w.region) sz with
          | .ok s1 => .ok (s1.modWg wg fun w => { w with overflow := w.overflow ++ [(n, it)] })
          | .error e => .error e

/-- An operation in flight still has a member of the thread to do. -/
def State.busy (s : State) (tid : Nat) : Bool :=
  s.ops.any fun o => (o.2.pends tid).isSome

/-! ### Barriers -/

/-- Live threads of a workgroup (R179). While its groups are being saved the threads already saved
count, and their marks stay: the saved marks are those of the moment (R356; assumption log 13). -/
def State.live (s : State) (wg : Nat) : Nat :=
  (s.groups.map fun g => if g.2.wg == wg && !g.2.steward then g.2.threads.length else 0).sum
    + (match s.wg? wg with
      | some w => w.items.length + w.overflow.length + (w.savedGroups.map fun e => e.2.threads.length).sum
      | none => 0)

/-- A path no longer waits at barrier `b`. -/
def Path.unbar (b : Nat) (p : Path) : Path := p.clear (.bar b)

/-- Every path of a group that waits at `b` is ready (R180). -/
def Group.unbar (b : Nat) (g : Group) : Group :=
  ({ g with paths := g.paths.map (Path.unbar b)
            parked := g.parked.map (Path.unbar b)
            casting := g.casting.map fun k => if k.wait == .bar b then { k with wait := .none } else k
            waits := g.waits.filter fun x => x.2 != .bar b } : Group).settle

/-- Release of barrier `b` (R180): marks cleared, phase toggled, the exchange swap if an arrival of
the phase was `bar.swap` (R181), every path that waits made ready. -/
def State.release (s : State) (wg b : Nat) : State :=
  let s1 := s.modWg wg fun w =>
    let x := Tab.getD w.barriers b {}
    let w1 := { w with barriers := Tab.put w.barriers b { marks := [], phase := !x.phase, swap := false } }
    if x.swap then { w1 with live := w.shadow, shadow := w.live } else w1
  { s1 with groups := Tab.mapV s1.groups fun _ g =>
      if g.wg == wg && !g.steward then g.unbar b else g }

/-- Barriers from `b` up that release now (R180). -/
def State.checkBarriersFrom (s : State) (wg : Nat) : Nat → State
  | 0 => s
  | n + 1 =>
    let s1 := State.checkBarriersFrom s wg n
    match s1.wg? wg with
    | none => s1
    | some w =>
      let a := (Tab.getD w.barriers n {}).marks.length
      if a > 0 && a == s1.live wg then s1.release wg n else s1

/-- Every barrier of a workgroup that releases now (R180). -/
def State.checkBarriers (s : State) (wg : Nat) : State := s.checkBarriersFrom wg 16

/-! ### Ending members -/

/-- Members of a path set removed from a group's paths. -/
def Group.drop (g : Group) (m : Word) : Group :=
  { g with
    paths := g.paths.map (Path.cut m)
    parked := (g.parked.map (Path.cut m)).bind fun p => if p.mask == 0 then none else some p
    casting := (g.casting.map fun c => { c with mask := c.mask &&& ~~~m }).filter fun c => c.mask != 0
    waits := (g.waits.map fun x => (x.1 &&& ~~~m, x.2)).filter fun x => x.1 != 0
    threads := g.threads.filter fun t => !m.getLsbD t.1 }

/-- A group without members releases its slot (R163). -/
def State.tidyGroup (s : State) (gid : Nat) : State :=
  match s.group? gid with
  | none => s
  | some g => if g.threads.isEmpty then ({ s with groups := Tab.del s.groups gid }).refit g.loc else s

/-- Members ended as by `exit` (R163, R179): their arrival marks go, the live count falls, barriers
that this releases release, a group without members releases its slot. -/
def State.endMembers (s : State) (gid : Nat) (m : Word) : State :=
  match s.group? gid with
  | none => s
  | some g =>
    let tids := (g.threads.filter fun t => m.getLsbD t.1).map fun t => t.2.tid
    let s1 := s.setGroup gid (g.drop m).settle
    let s2 := s1.modWg g.wg fun w =>
      { w with barriers := Tab.mapV w.barriers fun _ b =>
          { b with marks := b.marks.filter fun t => !tids.contains t } }
    (s2.tidyGroup gid).checkBarriers g.wg

/-! ### Casting -/

/-- One thread cast out (R29): its item enters spawn memory and its membership ends. -/
def State.castOne (s : State) (gid : Nat) (g : Group) (rank : Nat) (t : Thread) (pc : DWord) :
    Except NoRoom State :=
  match s.putItem g.wg (.cast pc { t.dropLatches with }) with
  | .error e => .error e
  | .ok s1 =>
    .ok ((s1.modGroup gid fun g =>
      ({ g.drop ((1 : Word) <<< rank) with perf := bump g.perf 2 1 } : Group).settle))

/-- A waiting cast tried again, rank by rank: the state and the ranks that found no room with the
code of the fault that the area met. R29 does not speak of a victim that waits at a barrier, for an operation or
on a trap record: its cast is put off until that wait ends (DESIGN CHOICE, assumption log 119). -/
def State.castTry (s : State) (gid : Nat) (k : Casting) : List Nat → State × Word × Nat
  | [] => (s, 0, 0)
  | r :: rs =>
    let skip := State.castTry s gid k rs
    match s.group? gid with
    | none => (s, 0, 0)
    | some g => match Tab.find? g.threads r with
      | none => skip
      | some t =>
        if s.busy t.tid || k.wait != .none then skip
        else match s.castOne gid g r t k.pc with
          | .ok s1 => State.castTry s1 gid k rs
          | .error .stall => skip
          | .error (.full e) => let (s2, m, _) := skip; (s2, m ||| ((1 : Word) <<< r), e)

/-- Threads cast as far as they can be; those that find no room raise SPAWNX, which names the branch,
and stay in their group (R32). -/
def State.castAll (s : State) (gid : Nat) (k : Casting) : State :=
  let (s1, m, e) := s.castTry gid k (ranksOf k.mask)
  if m == 0 then s1.tidyGroup gid
  else match s1.group? gid with
    | none => s1
    | some g =>
      let (id, s2) := s1.newId
      let t : TrapInfo := { s2.trapInfo g .spawnx k.branch m with detail := BitVec.ofNat 64 e }
      let mark := fun c : Casting =>
        if c.mask &&& m != 0 && c.pc == k.pc then { c with party := some id } else c
      (s2.modGroup gid fun g => { g with casting := g.casting.map mark }).writeTrap
        (coreDie g.loc) id t (some (.cast gid))

/-! ### Splits -/

/-- The victim of R28: fewest members, the highest PC on a tie. -/
def victim (ps : List Path) : Option Path :=
  ps.foldl (fun v p => match v with
    | none => some p
    | some q =>
      if countMask p.mask < countMask q.mask
        || (countMask p.mask == countMask q.mask && q.pc < p.pc) then some p else some q) none

/-- A path merged into a list of paths (R26). -/
def mergeInto (ps : List Path) (p : Path) : List Path :=
  match ps with
  | [] => [p]
  | q :: r => if q.pc == p.pc && q.mergeable && p.mergeable then mergePair q p :: r
    else q :: mergeInto r p

/-- The loop of R28: paths, parked path and the paths cast. -/
def resolve (park : Bool) : Nat → List Path → Option Path → List Path →
    List Path × Option Path × List Path
  | 0, ps, k, out => (ps, k, out)
  | n + 1, ps, k, out =>
    if ps.length ≤ 2 then (ps, k, out)
    else match victim ps with
      | none => (ps, k, out)
      | some v =>
        let r := ps.filter fun p => p != v
        if park && k.isNone then resolve park n r (some { v with hold := none }) out
        else resolve park n r k (out ++ [v])

/-- A path that took a forward transfer from `a` is held while the other active path stands in
between (R27). -/
def holdAt (a : DWord) (p other : Path) : Path :=
  if a < other.pc && other.pc < p.pc then { p with hold := some a } else p

/-- The casts of a victim, by what its members wait for (R29): those that wait for nothing come last. -/
def castsOf (branch : DWord) (v : Path) : List Casting :=
  let idle := v.waits.foldl (fun m x => m &&& ~~~x.1) v.mask
  (v.waits ++ (if idle == 0 then [] else [(idle, Wait.none)])).map fun x =>
    { pc := v.pc, mask := x.1, branch, wait := x.2 }

/-- Holds of the paths that took a transfer from `a`: `moved` are their PCs (R27). -/
def holdMoved (a : DWord) (moved : List DWord) (ps : List Path) : List Path :=
  match ps with
  | [p, q] =>
    let h := fun x y : Path => if moved.contains x.pc && x.hold.isNone then holdAt a x y else x
    [h p q, h q p]
  | ps => ps

/-- The issuing path replaced by `parts` (mask, PC, by a transfer), resolved with the other active
path and the parked one (R26 to R28); the casts follow. -/
def State.retireSplit (s : State) (c : Ctx) (parts : List (Word × DWord × Bool)) (park : Bool) :
    State :=
  let new := parts.filterMap fun x =>
    if x.1 == 0 then none
    else some ({ c.p with pc := x.2.1, mask := x.1, hold := none, chain := none, xfer := x.2.2,
                          joined := [], lumBlocked := false, lumWait := 0, syncAt := none } : Path)
  let others := (c.g.paths.mapIdx fun k p => (k, p)).filterMap fun e =>
    if e.1 == c.pi then none else some e.2
  let (ps, parked, out) := resolve park 64 (new.foldl mergeInto others) c.g.parked []
  let moved := (parts.filter fun x => x.2.2 && x.1 != 0).map fun x => x.2.1
  let casts := out.flatMap (castsOf c.p.pc)
  let s1 := s.retire c fun g =>
    { g with paths := orderPaths (holdMoved c.p.pc moved ps), parked,
             casting := g.casting ++ casts }
  casts.foldl (fun s k => s.castAll c.gid k) s1

/-- A transfer of the whole path to `t` (R27, R158). -/
def State.retireTo (s : State) (c : Ctx) (t : DWord) : State :=
  s.retireSplit c [(c.p.mask, t, true)] false

/-- The address after an instruction. -/
def Ctx.after (c : Ctx) : DWord := c.p.pc + c.len

/-- A relative target (R158). -/
def Ctx.target (c : Ctx) (off : BitVec 19) : DWord := c.p.pc + 4 * off.signExtend 64

/-- The mask of the threads that satisfy a test. -/
def Ctx.maskWhere (c : Ctx) (p : Nat × Thread → Bool) : Word :=
  (c.threads.filter p).foldl (fun m e => m ||| ((1 : Word) <<< e.1)) 0

end Sys2Proof.Machine
end

