-- ==== Sys2Proof/Machine/Memory.lean ====
section
/-! DEFINITION. What every access form shares: fragments (R241), the checks of R209 and their order
(R246), scratchpad rights (R233), order between operations (R243, R270 to R272), the owner's L1 on IP
frames (R235, R240), and messages between dies (R283, R284). -/

namespace Sys2Proof.Machine

/-! ### Sizes and fragments -/

/-- Bytes of a size code (R86). -/
def szBytes (sz : BitVec 3) : Nat :=
  match sz.toNat with
  | 0 | 5 => 1
  | 1 | 6 => 2
  | 2 => 4
  | 3 => 8
  | _ => 16

/-- A loaded value as its size code extends it (R86, R247). -/
def szExtend (sz : BitVec 3) (v : Nat) : BitVec 128 :=
  match sz.toNat with
  | 5 => ((BitVec.ofNat 8 v).signExtend 32).zeroExtend 128
  | 6 => ((BitVec.ofNat 16 v).signExtend 32).zeroExtend 128
  | _ => BitVec.ofNat 128 v

/-- Parts of an access: offset, size and address. A misaligned access splits at every 16-byte boundary
(R241). -/
def splits (va n : Nat) : List (Nat × Nat × Nat) :=
  if va % n == 0 then [(0, n, va)]
  else
    let k := min n (16 - va % 16)
    (0, k, va) :: (if k < n then [(k, n - k, va + k)] else [])

/-- How a form accesses memory. -/
structure AccSpec where
  acc : Acc
  size : Nat
  /-- Natural alignment is required (R241). -/
  natural : Bool := false
  /-- A store that obeys the WS rules (R239). -/
  write : Bool := false
  /-- `ld.probe`: a misaligned address on a WS frame raises ALIGN (R251). -/
  probe : Bool := false
  /-- The block must be homed on the issuing die (R183). -/
  own : Bool := false
  /-- Frame types allowed (R236). -/
  attr : BitVec 2 → Bool := fun _ => true

/-- Every type but WS. -/
def notWs (t : BitVec 2) : Bool := t != 2

/-- RC and SC. -/
def rcSc (t : BitVec 2) : Bool := t == 0 || t == 1

/-- A walker element (R149, R236). -/
def walkSpec (e : BitVec 2) : AccSpec := { acc := .read, size := elemSize e, natural := true }

/-- The access of an access form (R236, R245, R256, R263, R264, R183). -/
def accSpec? (i : Instr) : Option AccSpec :=
  match i with
  | .ld f | .ldNc f | .ldByp f | .ldAcq f => some { acc := .read, size := szBytes f.sz }
  | .ldProbe f => some { acc := .read, size := szBytes f.sz, probe := true }
  | .gather f => some { acc := .read, size := szBytes f.sz }
  | .st f | .stNc f | .stByp f | .stRel f => some { acc := .write, size := szBytes f.sz, write := true }
  | .scatter f => some { acc := .write, size := szBytes f.sz, write := true }
  | .scatterAdd f => some { acc := .atomic, size := szBytes f.sz, natural := true, attr := notWs }
  | .atom f => some { acc := .atomic, size := szBytes f.sz, natural := true, attr := notWs }
  | .atomFaddOrd _ => some { acc := .atomic, size := 4, natural := true, attr := rcSc }
  | .waitaEq f | .waitaNe f => some { acc := .read, size := szBytes f.sz, natural := true }
  | .spb _ | .fla _ | .wb _ | .pref _ => some { acc := .read, size := 1 }
  | .inv _ => some { acc := .write, size := 1 }
  | .wsClear _ => some { acc := .writeAt, size := 16, natural := true, attr := fun t => t == 2 }
  | .join _ => some { acc := .writeAt, size := 64, natural := true, own := true, attr := rcSc }
  | .redecl _ => some { acc := .locate, size := 1 }
  | .patSet _ => some { acc := .read, size := 64, natural := true }
  | .rgnMake _ => some { acc := .readWrite, size := 128, natural := true }
  | .peerMap _ => some { acc := .readWrite, size := 32, natural := true }
  | .contPush _ => some { acc := .read, size := 32, natural := true }
  | .ttask _ => some { acc := .read, size := 64, natural := true }
  | _ => none

/-- Accesses of a member: offset of their data, address, form. -/
def Op.accesses (o : Op) (m : Member) : List (Nat × Nat × AccSpec) :=
  match o.instr, accSpec? o.instr with
  | .seqLoad _, _ => (List.range 8).map fun k =>
      (64 * k, m.addr.toNat + 64 * k, { acc := .read, size := 64, natural := true })
  | _, some sp => [(0, m.addr.toNat, sp)]
  | _, none =>
    (match m.wa with
      | some (a, e) => [(0, a.toNat, walkSpec e)]
      | none => [])
    ++ (match m.wb with
      | some (a, e) => [(16, a.toNat, walkSpec e)]
      | none => [])

/-- The operation reads or writes memory. -/
def Op.isAccess (o : Op) : Bool :=
  match o.instr with
  | .redecl _ => false
  | .lds _ | .sts _ | .xst _ => true
  | _ => o.members.any fun m => !(o.accesses m).isEmpty

/-- A member that executes at SLICE or MEMORY. -/
def Member.far (m : Member) : Bool := m.place == .slice || m.place == .memory

/-- The member's access goes by the FAR path (R87): a load by a far unit. A walker read is a LANE access,
wherever the instruction executes (R149, R236). -/
def Op.far (o : Op) (m : Member) : Bool := (accSpec? o.instr).isSome && m.far

/-! ### The checks of an operation (R209, R246) -/

/-- Width in bytes of the control-window register at an offset (R367, R377); none: no register. -/
def cwWidth (o : Nat) : Option Nat :=
  if o < 0x38 then (if o % 8 == 0 then some 8 else none)
  else if o == 0x38 || o == 0x3C || o == 0x40 then some 4
  else if o == 0x48 then some 8
  else if o == 0x50 || o == 0x58 then some 4
  else if o == 0x60 then some 8
  else if o == 0x68 then some 4
  else if o == 0x70 then some 8
  else if o == 0x78 then some 4
  else if 0x100 ≤ o && o < 0x180 then
    (if o % 16 == 0 then some 8 else if o % 16 == 8 then some 1 else none)
  else if o == 0x200 || o == 0x208 then some 8
  else if o == 0x210 then some 4
  else if 0x400 ≤ o && o < 0x800 then (if o % 8 == 0 then some 8 else none)
  else if 0x800 ≤ o && o < 0x880 then (if o % 4 == 0 then some 4 else none)
  else if 0x10000 ≤ o && o < 0x16000 then
    (let b := o % 0x100
     if b < 0x80 then (if b % 4 == 0 then some 4 else none)
     else if b == 0x80 || b == 0x90 then some 8
     else if b == 0x88 || b == 0x98 then some 4
     else none)
  else none

/-- A register is accessed at its own width (R367), by a plain load or store on the LANE path (R230). -/
def cwAllows (o n : Nat) (plain : Bool) : Bool := plain && cwWidth o == some n

/-- A fault of one fragment: its priority (R246), code, member and addresses. -/
structure Hit where
  prio : Nat
  code : FCode
  rank : Nat
  va : Nat
  pa : Nat
  deriving DecidableEq, Repr

/-- The checks so far: fragments, faults, whether a frame is in transition. -/
structure Checked where
  frags : List Frag := []
  hits : List Hit := []
  stall : Bool := false
  s : State

/-- The page of an address has just met PAGE: a miss to it joins that walk (R211). -/
def pageMissed (hs : List Hit) (va : Nat) : Bool :=
  hs.any fun h => h.code == .page && h.va / Config.frameBytes == va / Config.frameBytes

/-- A probe at a misaligned address on a WS frame (R246, R251): ALIGN comes before every check of R209. -/
def State.probeAlign (s : State) (d holder va : Nat) : Option State :=
  match s.lookup d holder va with
  | (some t, s1) => if (s1.frame (t.frame + (va - t.base))).typ == 2 then some s1 else none
  | (none, _) => none

/-- A far load of host memory meets an error response (R230: host memory has no FAR path). -/
def hostFar (far : Bool) (c : Chk) : Option Nat :=
  match c with
  | .ok pa _ | .fault .alias_ pa => if far && isHostPa pa then some pa else none
  | _ => none

/-- The fault of an access whose check of R209 gave `c`: a misaligned SC access raises ALIGN where ATTR
stands (R246), and a block of another die raises ATTR before what follows it (R183). -/
def State.faultAs (s : State) (d : Nat) (sp : AccSpec) (misal : Bool) (c : FCode) (pa : Nat) : Nat × FCode :=
  if sp.own && hbmDie pa != some d && 4 < c.rank then (4, .attr)
  else if c == .attr && misal && (s.frame pa).typ == 1 && sp.attr 1 then (4, .align)
  else (c.rank, c)

/-- The parts that a block's bytes are read in: an access wider than 16 bytes is several of 16 (R241). -/
def blockParts (sp : AccSpec) (x : Nat × Nat × Nat) : List (Nat × Nat × Nat) :=
  if x.2.1 ≤ 16 || sp.acc == .writeAt then [x]
  else (List.range (x.2.1 / 16)).map fun k => (x.1 + 16 * k, 16, x.2.2 + 16 * k)

/-- The outcome of one fragment's checks (R239, R246, R251); `seen`: the faults of the operation so far. An anchor is
located and not accessed: it meets no error response (R154, R156). -/
def State.checkFrag (s : State) (seen : List Hit) (loc rank : Nat) (far : Bool) (sp : AccSpec) (base : Nat)
    (misal : Bool) (x : Nat × Nat × Nat) : Checked :=
  let hit := fun p c pa (s1 : State) =>
    ({ hits := [⟨p, c, rank, x.2.2, pa⟩], s := s1 } : Checked)
  let d := coreDie loc
  if pageMissed seen x.2.2 then hit FCode.page.rank .page 0 s
  else match (if misal && sp.probe then s.probeAlign d loc x.2.2 else none) with
  | some s1 => hit 1 .align 0 s1
  | none =>
    let r := s.check d loc sp.acc (fun t => sp.attr t && !(far && t == 3) && !(misal && t == 1))
      (if far then none else some (locCoreOfDie loc)) x.2.2
    match hostFar (far && sp.acc != .locate) r.1, r with
    | some pa, (_, s1) => hit 10 .viol pa s1
    | none, (.stall, s1) => { stall := true, s := s1 }
    | none, (.fault c pa, s1) =>
      let e := s1.faultAs d sp misal c pa
      hit e.1 e.2 pa s1
    | none, (.ok pa ty, s1) =>
      if sp.own && hbmDie pa != some d then hit 4 .attr pa s1
      else if isCwPa pa && sp.acc != .locate && !(cwAllows (cwOff pa) x.2.1 (!far && (sp.acc == .read || sp.acc == .write)
          && !misal)) then hit 10 .viol pa s1
      else if ty == 2 && sp.write && (x.2.1 != 16 || pa % 16 != 0) then hit 8 .wsa pa s1
      else if ty == 2 && sp.write && s1.wsBit pa then hit 9 .ws2 pa s1
      else
        { frags := (blockParts sp x).map fun y =>
            { off := base + y.1, size := y.2.1, va := y.2.2, pa := pa + (y.2.2 - x.2.2), typ := ty }, s := s1 }

/-- Fragments checked one after another. -/
def Checked.more (c : Checked) (k : State → Checked) : Checked :=
  let d := k c.s
  { frags := c.frags ++ d.frags, hits := c.hits ++ d.hits, stall := c.stall || d.stall, s := d.s }

/-- The checks of one access of a member (R241, R246). -/
def State.checkAccess (s : State) (seen : List Hit) (loc rank : Nat) (far : Bool) (x : Nat × Nat × AccSpec) : Checked :=
  let (base, va, sp) := x
  let n := sp.size
  if sp.natural && va % n != 0 then { hits := [⟨1, .align, rank, va, 0⟩], s }
  else
    (if sp.size ≤ 16 then splits va n else [(0, n, va)]).foldl
      (fun c y => c.more fun s1 => s1.checkFrag (seen ++ c.hits) loc rank far sp base (va % n != 0) y) { s }

/-- Faults of a form's own rule: the range of `ws.clear` (R264), a join block of another die (R183), an
anchor outside this die's HBM (R156). -/
def ownHits (o : Op) (m : Member) (fs : List Frag) : List Hit :=
  let a := m.addr.toNat
  match o.instr with
  | .wsClear _ =>
    let n := m.b.toNat
    if n == 0 || n % 16 != 0 || frameOf (a + n - 1) != frameOf a then [⟨1, .align, m.rank, a, 0⟩] else []
  | .join _ => (fs.filter fun f => hbmDie f.pa != some (coreDie o.loc)).map fun f =>
      ⟨4, .attr, m.rank, f.va, f.pa⟩
  | .redecl _ => (fs.filter fun f => hbmDie f.pa != some (coreDie o.loc)).map fun f =>
      ⟨7, .place, m.rank, f.va, f.pa⟩
  | _ => []

/-- The checks of one member. -/
def State.checkMember (s : State) (seen : List Hit) (o : Op) (m : Member) : Checked :=
  let c := (o.accesses m).foldl (fun c x => c.more fun s1 => s1.checkAccess (seen ++ c.hits) o.loc m.rank (o.far m) x)
    ({ s } : Checked)
  { c with hits := c.hits ++ ownHits o m c.frags }

/-- WS parts that two members of one store write: the later members meet a written part (R239). -/
def wsTwice (ms : List Member) : List Hit :=
  let rec go (seen : List Nat) : List Member → List Hit
    | [] => []
    | m :: r =>
      let ps := (m.frags.filter fun f => f.typ == 2).map fun f => f.pa / 16
      (match m.frags.find? fun f => f.typ == 2 && seen.contains (f.pa / 16) with
        | some f => [⟨9, .ws2, m.rank, f.va, f.pa⟩]
        | none => []) ++ go (seen ++ ps) r
  go [] ms

/-- The checks of all the members that are not done: members with their fragments, faults, stall. -/
def State.checkMembers (s : State) (o : Op) : List Member → List Member × Checked
  | [] => ([], { s })
  | m :: ms =>
    let (r, c) := State.checkMembers s o ms
    if m.done || !m.frags.isEmpty then (m :: r, c)
    else
      let d := c.s.checkMember c.hits o m
      ({ m with frags := d.frags } :: r,
        { hits := c.hits ++ d.hits, stall := c.stall || d.stall, s := d.s })

/-- The fault that is reported: highest priority, then lowest address; its code, the ranks that met it,
its addresses (R246, R347). -/
def worst (hs : List Hit) : Option (FCode × Word × Nat × Nat) :=
  match hs with
  | [] => none
  | h :: r =>
    let w := r.foldl (fun b x => if x.prio < b.prio || (x.prio == b.prio && x.va < b.va) then x else b) h
    some (w.code, (hs.filter fun x => x.code == w.code && x.prio == w.prio).foldl
      (fun m x => m ||| ((1 : Word) <<< x.rank)) 0, w.va, w.pa)

/-- Addresses of IPX, VIOL and STRAND faults go to the violation log (R240, R246, R375), each once for the
instruction (assumption log 47). -/
def State.logHits (s : State) (loc : Nat) (hs : List Hit) : State :=
  (hs.foldl (fun l h => if l.any fun x => x.code == h.code && x.pa == h.pa then l else l ++ [h]) []).foldl
    (fun s h => match h.code with
    | .ipx => s.logViolation (coreDie loc) h.pa 2 0 loc
    | .viol | .strand => s.logViolation (coreDie loc) h.pa 1 0 loc
    | _ => s) s

/-! ### Scratchpad rights (R233) -/

/-- The bytes from `o` to `e` start in the range from `a` to `b` and go on, past its end, in that from `c` to `d`. -/
def spans (a b c d o e : Nat) : Bool := decide (a ≤ o) && decide (o ≤ b) && decide (c ≤ b) && decide (e ≤ d)

/-- `n` bytes at a scratchpad offset lie within the workgroup's rights: each of them in its allocation or in its live
bank. -/
def scrOk (w : Workgroup) (o n : Nat) : Bool :=
  let b := w.scrBase + w.scrSize
  let d := w.live + w.xwin * 1024
  (decide (w.scrBase ≤ o) && decide (o + n ≤ b))
    || (w.xwin != 0 && ((decide (w.live ≤ o) && decide (o + n ≤ d))
      || spans w.scrBase b w.live d o (o + n) || spans w.live d w.scrBase b o (o + n)))

/-! ### Order (R243, R270 to R272) -/

/-- An acquire (R272). -/
def Op.acquires (o : Op) : Bool :=
  match o.instr with
  | .ldAcq _ | .waitaEq _ | .waitaNe _ => true
  | _ => !o.stores && o.members.any fun m => m.frags.any fun f => f.typ == 1 || f.typ == 2

/-- A release (R272). -/
def Op.releases (o : Op) : Bool :=
  match o.instr with
  | .stRel _ | .join _ => true
  | .atom _ => o.members.any fun m => m.frags.any fun f => f.typ == 1
  | _ => o.stores && o.members.any fun m => m.frags.any fun f => f.typ == 1 || f.typ == 2

/-- A release that agents outside its scope may see before the earlier accesses of its thread: it orders nothing for
them (R274). Agents within its scope await those accesses (`relHeld`). -/
def Op.narrowRel (o : Op) : Bool :=
  match o.instr with
  | .stRel _ => decide (o.scope < 6) && !(o.members.any fun m => m.frags.any fun f => f.typ == 1 || f.typ == 2)
  | _ => false

/-- A release at package scope or wider (R238, R239, R285). -/
def Op.relPackage (o : Op) : Bool :=
  o.releases && (decide (6 ≤ o.scope) || o.members.any fun m => m.frags.any fun f =>
    f.typ == 1 || f.typ == 2)

/-- Two fragments share a byte. -/
def Frag.meets (f g : Frag) : Bool :=
  f.cl == g.cl && decide (f.pa < g.pa + g.size) && decide (g.pa < f.pa + f.size)

/-- What a member's accesses touch: addresses and sizes; `ws.clear` its range (R264), a cache operation its
line (R263). -/
def Op.extents (o : Op) (m : Member) : List (Nat × Nat) :=
  match o.instr with
  | .wsClear _ => [(m.addr.toNat, m.b.toNat)]
  | .spb _ | .fla _ | .wb _ | .inv _ | .pref _ => [(m.addr.toNat / 128 * 128, 128)]
  | _ => (o.accesses m).flatMap fun x =>
      if x.2.2.size ≤ 16 then (splits x.2.1 x.2.2.size).map fun y => (y.2.2, y.2.1) else [(x.2.1, x.2.2.size)]

/-- The physical address that an address names now. -/
def State.peek (s : State) (d holder va : Nat) : Option Nat :=
  (s.lookup d holder va).1.map fun t => t.frame + (va - t.base)

/-- An access of a member whose fragments are not known shares a byte in memory with a fragment. -/
def State.mayMeet (s : State) (o : Op) (m : Member) (f : Frag) : Bool :=
  f.cl.isNone && (o.extents m).any fun x => match s.peek (coreDie o.loc) o.loc x.1 with
    | some pa => decide (pa < f.pa + f.size) && decide (f.pa < pa + x.2)
    | none => false

/-- A member's undone accesses share a byte with a fragment. -/
def State.conflicts (s : State) (o : Op) (m : Member) (f : Frag) : Bool :=
  match o.stage with
  | .confirmed => m.frags.any fun g => !g.done && g.meets f
  | .issued | .faulted => s.mayMeet o m f

/-- An earlier access of a thread that is an acquire, or may be one: a load that has faulted acquires if it finds an SC
or WS frame when it is replayed (R43, R271, R278; assumption log 131). -/
def State.acquiresYet (s : State) (e : Op) (k : Member) : Bool :=
  e.acquires || (e.stage == .faulted && !e.stores && e.isAccess && (e.extents k).any fun x =>
    match s.peek (coreDie e.loc) e.loc x.1 with
    | some pa => (s.frame pa).typ == 1 || (s.frame pa).typ == 2
    | none => true)

/-- An earlier access of the same thread on the same path that must come first (R271); for a byte of another
die also one whose write there still leaves an old copy of it somewhere (R277, R283). -/
def State.samePathFirst (s : State) (o : Op) (m : Member) (f : Frag) (e : Op) (k : Member) : Bool :=
  e.far k == o.far m
    && ((!k.done && (e.stage == .issued || s.acquiresYet e k || (o.releases && !o.narrowRel) || s.conflicts e k f))
      || (e.invs != 0 && (o.relPackage || (hbmDie f.pa != some (coreDie o.loc) && k.frags.any (·.meets f)))))

/-- An earlier access of the thread on any path that must come before an SC access: another SC access, or one
whose frame is not known yet (R238). -/
def scFirst (f : Frag) (e : Op) (k : Member) : Bool :=
  f.typ == 1 && f.cl.isNone && !k.done
    && (e.stage != .confirmed || k.frags.any fun g => g.typ == 1 && g.cl.isNone && !g.done)

/-- What `ws.clear` waits for (R264): every earlier access of the thread, performed at package scope. -/
def clearFirst (o : Op) (e : Op) (k : Member) : Bool :=
  match o.instr with
  | .wsClear _ => !k.done || e.invs != 0
  | _ => false

/-- An earlier access of the same thread that must come first. -/
def State.earlierFirst (s : State) (o : Op) (m : Member) (f : Frag) (e : Op) (k : Member) : Bool :=
  k.tid == m.tid && !e.aside && (s.samePathFirst o m f e k || scFirst f e k || clearFirst o e k)

/-- The operation changes no byte. -/
def Op.onlyReads (o : Op) : Bool := !o.stores && (match o.instr with
  | .atom _ => false
  | _ => true)

/-- The lowest rank of an operation. -/
def Op.lead (o : Op) : Nat := (o.members.map fun m => m.rank).foldl min 32

/-- Whose turn is first among members of one issue that reach the same bytes (R243): the lower rank. A store to
a WS part is performed with all its members at once: until it is confirmed, the operation with the lowest rank
of the two goes first (assumption log 96). -/
def rankBefore (o : Op) (m : Member) (f : Frag) (e : Op) (k : Member) : Bool :=
  if f.typ == 2 && (o.stage != .confirmed || e.stage != .confirmed) then decide (e.lead < o.lead)
  else decide (k.rank < m.rank)

/-- Members that reach the same bytes go in ascending rank, within an instruction and between the two
paths of one issue (R243), where one of them writes. A wait that goes on reading holds nothing back, nor a
load of a WS part a store of that part. -/
def State.lowerRankFirst (s : State) (o : Op) (m : Member) (f : Frag) (e : Op) (k : Member) : Bool :=
  e.gid == o.gid && e.cycle == o.cycle && rankBefore o m f e k && !k.done && !e.aside
    && !(e.onlyReads && (o.onlyReads || (f.typ == 2 && o.stores))) && (match e.instr with
      | .waitaEq _ | .waitaNe _ => false
      | _ => true)
    && s.conflicts e k f

/-- The secondary path of the issue that put the operation in flight has still to issue (R25, R243). -/
def State.issueOpen (s : State) (o : Op) : Bool := o.cycle == s.cycle && s.cursor == (o.gid, 1)

/-- The owner's L1 holds a fragment's line (R235): the access needs no channel. -/
def State.inL1 (s : State) (o : Op) (m : Member) (f : Frag) : Bool :=
  f.typ == 3 && !o.far m && (Tab.find? (s.core o.loc).l1 (f.pa / 128)).isSome

/-- A fragment must wait for another access (R243, R271), or for a channel (R377, R378). -/
def State.blocked (s : State) (id : Nat) (o : Op) (m : Member) (f : Frag) : Bool :=
  s.issueOpen o || (f.cl.isNone && s.channelHeld o.loc f.pa && !s.inL1 o m f) || s.ops.any fun e =>
    e.2.isAccess && e.2.members.any fun k =>
      (decide (e.1 < id) && s.earlierFirst o m f e.2 k) || s.lowerRankFirst o m f e.2 k

/-! ### Releases by scope (R272, R274) -/

/-- An agent lies within a scope of another (R273): member `m` of `o`, and the agent of a release. -/
def Rel.within (r : Rel) (scope : Nat) (o : Op) (m : Member) : Bool :=
  match scope with
  | 0 => m.tid == r.tid
  | 1 => o.gid == r.gid
  | 2 => o.wg == r.wg
  | 3 => o.loc == r.loc
  | 4 => locCluster o.loc == locCluster r.loc
  | 5 => coreDie o.loc == coreDie r.loc
  | _ => true

/-- An access of a release's thread that precedes it on its path is not performed yet. -/
def State.relOpen (s : State) (r : Rel) : Bool :=
  s.ops.any fun e => decide (e.1 < r.id) && e.2.isAccess && !e.2.aside && e.2.members.any fun k =>
    k.tid == r.tid && !k.done && e.2.far k == r.far

/-- The scope of an operation's acquire: its field for `ld.acq` and `waita`, otherwise one that admits every agent, as
a later fence may make it an acquire (R271). -/
def Op.acqScope (o : Op) : Nat :=
  match o.instr with
  | .ldAcq _ | .waitaEq _ | .waitaNe _ => o.scope
  | _ => 6

/-- A read of bytes that a release wrote waits for the earlier accesses of the releasing thread, where the scopes of
the two admit each other (R272, R274). -/
def State.relHeld (s : State) (o : Op) (m : Member) (f : Frag) : Bool :=
  f.cl.isNone && s.rels.any fun r => decide (f.pa < r.pa + r.size) && decide (r.pa < f.pa + f.size)
    && r.within r.scope o m && r.within o.acqScope o m && s.relOpen r

/-- A release noted when it is performed before earlier accesses of its thread. -/
def State.noteRel (s : State) (id : Nat) (o : Op) (m : Member) (f : Frag) : State :=
  let r : Rel := { id, far := o.far m, tid := m.tid, gid := o.gid, wg := o.wg, loc := o.loc, scope := o.scope,
                   pa := f.pa, size := f.size }
  if o.narrowRel && f.cl.isNone && s.relOpen r then { s with rels := s.rels.filter s.relOpen ++ [r] } else s

/-! ### Clocks and messages (R283, R284) -/

/-- M_d[e][f]; counts are kept as naturals, which compare as their serial numbers do (R200). -/
def State.clk (s : State) (d e f : Nat) : Nat := Tab.getD (s.clockOf d) (6 * e + f) 0

/-- M_d[e][f] set. -/
def State.setClk (s : State) (d e f v : Nat) : State :=
  if d < 4 then s.modDie d fun x => { x with clock := Tab.put x.clock (6 * e + f) v }
  else s.modXdie d fun x => { x with clock := Tab.put x.clock (6 * e + f) v }

/-- A cross-die write sent with row `e` of the sender's matrix (R284). -/
def State.sendWrite (s : State) (d e : Nat) (mk : List Nat → Msg) : State :=
  let s1 := s.setClk d e d (s.clk d e d + 1)
  (s1.beat d e).push d e (mk ((List.range 6).map fun f => s1.clk d e f))

/-- A beat merged at die `e` (R284). -/
def State.mergeBeat (s : State) (e : Nat) (b : Tab Nat) : State :=
  b.foldl (fun s x => if x.1 / 6 == e || x.2 ≤ s.clk e (x.1 / 6) (x.1 % 6) then s
    else s.setClk e (x.1 / 6) (x.1 % 6) x.2) s

/-- A write from `d` that carries `v` may be applied at `e` (R284). -/
def State.mayApply (s : State) (d e : Nat) (v : List Nat) : Bool :=
  (List.range 6).all fun f =>
    if f == d then s.clk e e d + 1 == v.getD d 0 else v.getD f 0 ≤ s.clk e e f

/-- A die in reset receives no writes (R370). -/
def State.linkClosed (s : State) (e : Nat) : Bool := decide (e < 4) && (s.die e).inReset

/-- Messages go from die `d` to die `e`: the link is trained (R374), and the die is out of reset (R370). -/
def State.linkOpen (s : State) (d e : Nat) : Bool := !s.linkClosed e && !s.linkDown.contains (8 * d + e)

/-- A write that leaves die `d` now would be applied at `e` at once: nothing that precedes it is on its
way. -/
def State.causalReady (s : State) (d e : Nat) : Bool :=
  s.linkOpen d e && (s.link d e).isEmpty && (List.range 6).all fun f => s.clk d e f ≤ s.clk e e f

/-- A cross-die write of a unit other than a thread, sent and applied in one step (log 19). -/
def State.countWrite (s : State) (d e : Nat) : State :=
  if d == e then s
  else
    let n := s.clk d e d + 1
    ((s.setClk d e d n).setClk e e d n).mergeBeat e (s.clockOf d)

/-- The die of an operation. -/
def State.opDie (s : State) (op : Option Nat) : Option Nat := (op.bind s.op?).map fun o => coreDie o.loc

/-- The copy of a line of `pa` that the writer's own die holds goes with the write: no agent of that die reads it once
the write is performed at die scope (R272, R273). -/
def State.dropCopy (s : State) (d pa : Nat) : State :=
  if d < 4 then s.modDie d fun x => { x with peerLines := Tab.del x.peerLines (pa / 128) } else s

/-- See `dropCopy`: the writer is an operation of a group. -/
def State.dropOwn (s : State) (pa : Nat) (op : Option Nat) : State := (s.opDie op).elim s fun d => s.dropCopy d pa

/-- An invalidation sent to every die that holds a copy of a line of `pa` (R283). -/
def State.sendInvs (s0 : State) (pa : Nat) (op : Option Nat) : State :=
  let s := s0.dropOwn pa op
  match hbmDie pa with
  | none => s
  | some h =>
    let xs := State.dies4.filter fun x => x != h && (Tab.find? (s.die x).peerLines (pa / 128)).isSome
    let s1 := xs.foldl (fun s x => s.sendWrite h x fun v => .inv (pa / 128) v op) s
    match op with
    | some id => { s1 with ops := Tab.upd s1.ops id fun o => { o with invs := o.invs + xs.length } }
    | none => s1

/-- An invalidation of a line is on its way: its latest write is not performed at package scope (R283). -/
def State.invPending (s : State) (line : Nat) : Bool :=
  (s.links.any fun l => l.2.any on) || s.dies.any fun d => d.2.held.any fun h => on h.2
where
  /-- The message invalidates the line. -/
  on : Msg → Bool
    | .inv l _ _ => l == line
    | _ => false

/-- The response of a read by die `e` at home `h`: the beat that precedes it (R284). -/
def State.readResponse (s : State) (h e : Nat) : State :=
  { s.mergeBeat e (s.clockOf h) with linkBeats := Tab.put s.linkBeats (8 * h + e) (s.clockOf h) }

/-! ### The owner's L1 (R235, R240) -/

/-- The 128 bytes of a line as the owner sees them. -/
def State.l1Line (s : State) (loc line : Nat) : List Byte :=
  match Tab.find? (s.core loc).l1 line with
  | some (bs, _) => bs
  | none => s.readPaN (128 * line) 128

/-- A line set in the L1. -/
def State.setL1 (s : State) (loc line : Nat) (bs : List Byte) (dirty : Bool) : State :=
  s.modCore loc fun c => { c with l1 := Tab.put c.l1 line (bs, dirty) }

/-- A line gone from the L1. -/
def State.dropL1 (s : State) (loc line : Nat) : State :=
  s.modCore loc fun c => { c with l1 := Tab.del c.l1 line }

/-- A dirty line written back and left clean (R263). -/
def State.cleanL1 (s : State) (loc line : Nat) : State :=
  match Tab.find? (s.core loc).l1 line with
  | some (bs, true) => (s.putPa (128 * line) bs).setL1 loc line bs false
  | _ => s

/-- Lines that the L1 of a core holds: 256 KiB (R8, R230). -/
def l1Lines : Nat := 2048

/-- A line put into the L1. When that is full, another line of it leaves, written back if it is dirty: the spec does
not say which, so it is a free one (assumption log 112). -/
def State.allocL1 (s : State) (loc line : Nat) (bs : List Byte) (dirty : Bool) : State :=
  let s1 := s.setL1 loc line bs dirty
  let l := (List.filter (fun e : Nat × List Byte × Bool => e.1 != line) (s1.core loc).l1).map fun e => e.1
  if l.length < l1Lines then s1
  else
    let (k, s2) := s1.freeWord
    let v := l.getD (k.toNat % l.length) line
    (s2.cleanL1 loc v).dropL1 loc v

/-- Bytes replaced in a list from `k` up. -/
def splice (bs : List Byte) (k : Nat) (new : List Byte) : List Byte :=
  bs.take k ++ new ++ bs.drop (k + new.length)

/-- A load by the owner; `alloc`: the line is filled (R247). -/
def State.ipRead (s : State) (loc pa n : Nat) (alloc : Bool) : List Byte × State :=
  let l := pa / 128
  let bs := s.l1Line loc l
  let v := (bs.drop (pa % 128)).take n
  if (Tab.find? (s.core loc).l1 l).isSome then (v, s)
  else if alloc then (v, (s.touchAll (128 * l) 128).allocL1 loc l bs false)
  else (v, s.touchAll pa n)

/-- How a store treats the owner's L1 (R249). -/
inductive IpMode where
  | alloc | noAlloc | bypass
  deriving DecidableEq, Repr

/-- A store by the owner (R249). A bypass writes a dirty line back before it invalidates the copy
(assumption log 21). -/
def State.ipWrite (s : State) (loc pa : Nat) (bs : List Byte) (m : IpMode) : State :=
  let l := pa / 128
  match m with
  | .bypass => ((s.cleanL1 loc l).dropL1 loc l).putPa pa bs
  | .noAlloc =>
    if (Tab.find? (s.core loc).l1 l).isNone then s.putPa pa bs
    else s.setL1 loc l (splice (s.l1Line loc l) (pa % 128) bs) true
  | .alloc =>
    let s1 := if (Tab.find? (s.core loc).l1 l).isNone then s.touchAll (128 * l) 128 else s
    s1.allocL1 loc l (splice (s.l1Line loc l) (pa % 128) bs) true

/-! ### Memory at its home -/

/-- A part number added to a rising list. -/
def addPart (l : List Nat) (p : Nat) : List Nat :=
  if l.contains p then l else l.filter (fun x => decide (x < p)) ++ p :: l.filter (fun x => decide (p < x))

/-- Written bits of the parts that bytes cover whole (R239). -/
def State.setWritten (s : State) (pa n : Nat) : State :=
  match hbmDie pa with
  | none => s
  | some d => s.modDie d fun x =>
      { x with wsWritten := (upFrom (pa / 16) (n / 16)).foldl addPart x.wsWritten }

/-- Bytes written at their home, copies of their line invalidated (R237, R283). -/
def State.homeWrite (s : State) (pa : Nat) (bs : List Byte) (op : Option Nat) : State :=
  (s.putPa pa bs).sendInvs pa op

end Sys2Proof.Machine
end

