-- ==== Sys2Proof/Machine/Access.lean ====
section
/-! DEFINITION. Issue of the access instructions (R245 to R264): each puts an operation in flight, whose
checks, data and effect come with INSTRUCTION_CONFIRM, LOAD_DATA_RETURN, STORE_PERFORMED, WAITA_SATISFIED
and XST_ACCEPTED (Complete.lean). -/

namespace Sys2Proof.Machine

/-- A member of an access: its address, data and operands. -/
def accMember (c : Ctx) (e : Nat × Thread) (addr : DWord) (data : BitVec 128) (a b : DWord) : Member :=
  let (pl, u) := c.execPlace e.2
  { rank := e.1, tid := e.2.tid, place := pl, unit := u, slot := e.2.farSlot, addr, a, b,
    d := lo data 0 64, dhi := lo data 64 64 }

/-- wrap64(pair(t, A) + OFF) (R247). -/
def Ctx.addr (c : Ctx) (e : Nat × Thread) (a : Name) (off : DWord) : DWord := (c.env e).pair a + off

/-- An operation launched and the path moved on. -/
def State.launchAccess (s : State) (c : Ctx) (ms : List Member) (pred : Option Nat) (scope : Nat) :
    State :=
  (s.launch c ms c.f.dst.names pred (if ms.any fun m => (accSpec? c.i).isSome && m.far then .far else .lane) scope).2.next_ c

/-- An operation that translates nothing: confirmed at issue (R41). -/
def State.launchConfirmed (s : State) (c : Ctx) (ms : List Member) : State :=
  let (id, s1) := s.launch c ms c.f.dst.names none .lane 0
  ({ s1 with ops := Tab.upd s1.ops id fun o => { o with stage := .confirmed } }).next_ c

/-! ### Loads and stores (R247 to R251) -/

/-- The form of a load (R245, R248). -/
def MemF_load (f : MemF) (far : Bool) : Form :=
  { cls := 4, dst := Fld.ofSz f.sz f.d, full := (Fld.pair f.a).names, log := true,
    far := far && f.sz != 3 && f.sz != 4, sb := f.sb.toNat }

/-- Issue of a load (R247). -/
def State.issueLoad (s : State) (i : Instr) (f : MemF) (far : Bool) : State :=
  s.issue i (MemF_load f far) fun c s =>
    s.launchAccess c (c.threads.map fun e => accMember c e (c.addr e f.a (f.off.signExtend 64)) 0 0 0)
      none f.scope.toNat

/-- The form of a store (R245). -/
def MemF_store (f : MemF) (cls : Nat) (log : Bool) : Form :=
  { cls, full := (Fld.pair f.a).names ++ (Fld.ofSz f.sz f.d).names, log, outside := true,
    sb := f.sb.toNat }

/-- Issue of a store (R249). -/
def State.issueStore (s : State) (i : Instr) (f : MemF) : State :=
  s.issue i (MemF_store f 4 true) fun c s =>
    s.launchAccess c (c.threads.map fun e =>
      accMember c e (c.addr e f.a (f.off.signExtend 64)) ((c.env e).val (Fld.ofSz f.sz f.d)) 0 0)
      none f.scope.toNat

/-- `ld` (R247). -/
def execLd (f : MemF) (s : State) : Out := .next (s.issueLoad (.ld f) f true)
/-- `ld.nc` (R247). -/
def execLdNc (f : MemF) (s : State) : Out := .next (s.issueLoad (.ldNc f) f true)
/-- `ld.byp` (R247). -/
def execLdByp (f : MemF) (s : State) : Out := .next (s.issueLoad (.ldByp f) f true)
/-- `ld.acq` (R250). -/
def execLdAcq (f : MemF) (s : State) : Out := .next (s.issueLoad (.ldAcq f) f false)
/-- `st` (R249). -/
def execSt (f : MemF) (s : State) : Out := .next (s.issueStore (.st f) f)
/-- `st.nc` (R249). -/
def execStNc (f : MemF) (s : State) : Out := .next (s.issueStore (.stNc f) f)
/-- `st.byp` (R249). -/
def execStByp (f : MemF) (s : State) : Out := .next (s.issueStore (.stByp f) f)
/-- `st.rel` (R250). -/
def execStRel (f : MemF) (s : State) : Out := .next (s.issueStore (.stRel f) f)

/-- `ld.probe` (R251). -/
def execLdProbe (f : ProbeF) (s : State) : Out :=
  .next (s.issue (.ldProbe f)
    { cls := 4, dst := Fld.ofSz f.sz f.d, full := (Fld.pair f.a).names, log := true,
      predW := [f.p.toNat], sb := f.sb.toNat } fun c s =>
    s.launchAccess c (c.threads.map fun e => accMember c e (c.addr e f.a (f.off.signExtend 64)) 0 0 0)
      (some f.p.toNat) f.scope.toNat)

/-! ### Gathers and scatters (R252 to R255) -/

/-- hash32 (R252). -/
def hash32 (i : Word) : Word :=
  let y := i * 0x9E3779B1
  y ^^^ (y >>> 16)

/-- ux(i) mod MODB, or ux(i) when MODB is 0 (R225). -/
def modB (w : Workgroup) (i : Word) : Word := if w.modb == 0 then i else BitVec.ofNat 32 (i.toNat % w.modb.toNat)

/-- The remapped index (R225, R252). -/
def State.remap (s : State) (w : Workgroup) (rmp : BitVec 2) (i : Word) : Word :=
  match rmp.toNat with
  | 0 => i
  | 1 => modB w i
  | 2 => modB w (hash32 i)
  | _ => BitVec.ofNat 32 (leNat (Memory.readN (s.cluster (locCluster w.loc)).spad
      (w.scrBase + w.tbase.getD 0 + 4 * (i.toNat % 4096)) 4))

/-- A table lookup with the table unbound (R225). -/
def remapIll (f : GatF) (_g : Group) (w : Workgroup) : Bool := f.rmp == 3 && w.tbase.isNone

/-- Element address of a gather or scatter (R253, R254). -/
def State.elemAddr (s : State) (c : Ctx) (f : GatF) (e : Nat × Thread) : DWord :=
  (c.env e).pair f.a
    + ((s.remap c.w f.rmp ((c.env e).word f.b)).zeroExtend 64) * BitVec.ofNat 64 (2 ^ f.sh.toNat)

/-- A scratchpad store of the path's threads is not performed: a table lookup waits for it (R253). -/
def State.stsPending (s : State) (c : Ctx) : Bool :=
  s.ops.any fun o => (match o.2.instr with
    | .sts _ => true
    | _ => false) && c.threads.any fun t => (o.2.pends t.2.tid).isSome

/-- `gather` (R253). -/
def execGather (f : GatF) (s : State) : Out :=
  .next (s.issueIf (.gather f)
    { cls := 4, dst := Fld.ofSz f.sz f.d, full := (Fld.pair f.a).names ++ (Fld.w f.b).names, log := true,
      illOn := remapIll f, sb := f.sb.toNat } (fun c s => f.rmp == 3 && s.stsPending c) fun c s =>
    s.launchAccess c (c.threads.map fun e => accMember c e (s.elemAddr c f e) 0 0 0) none
      f.scope.toNat)

/-- Issue of `scatter` and `scatter.add`. -/
def State.issueScatter (s : State) (i : Instr) (f : GatF) : State :=
  s.issueIf i
    { cls := 4, full := (Fld.pair f.a).names ++ (Fld.w f.b).names ++ (Fld.ofSz f.sz f.d).names,
      log := true, outside := true, illOn := remapIll f, sb := f.sb.toNat }
    (fun c s => f.rmp == 3 && s.stsPending c) fun c s =>
    s.launchAccess c (c.threads.map fun e =>
      accMember c e (s.elemAddr c f e) ((c.env e).val (Fld.ofSz f.sz f.d)) 0 0) none f.scope.toNat

/-- `scatter` (R254). -/
def execScatter (f : GatF) (s : State) : Out := .next (s.issueScatter (.scatter f) f)
/-- `scatter.add` (R255). -/
def execScatterAdd (f : GatF) (s : State) : Out := .next (s.issueScatter (.scatterAdd f) f)

/-! ### Atomics (R256, R257) -/

/-- B of an atomic: one operand, or compare and new value (R256). -/
def AtomF_b (f : AtomF) : Fld :=
  if f.aop == 9 then (if f.sz == 3 then .quad f.b else .pair f.b)
  else if f.sz == 3 then .pair f.b else .w f.b

/-- Operand or compare value, and the new value of `cas`. -/
def AtomF_ops (f : AtomF) (v : BitVec 128) : DWord × DWord :=
  if f.aop == 9 then
    (if f.sz == 3 then (lo v 0 64, lo v 64 64)
     else ((lo v 0 32).zeroExtend 64, (lo v 32 32).zeroExtend 64))
  else (lo v 0 64, 0)

/-- `atom` (R256). -/
def execAtom (f : AtomF) (s : State) : Out :=
  .next (s.issue (.atom f)
    { cls := 4, dst := Fld.ofSz f.sz f.d, full := (Fld.pair f.a).names ++ (AtomF_b f).names, log := true,
      outside := true, sb := f.sb.toNat } fun c s =>
    s.launchAccess c (c.threads.map fun e =>
      let v := AtomF_ops f ((c.env e).val (AtomF_b f))
      accMember c e (c.addr e f.a (f.off.signExtend 64)) 0 v.2 v.1) none f.scope.toNat)

/-- `atom.fadd.ord` (R257): the member's d is the thread's count of earlier ordered adds. -/
def execAtomFaddOrd (f : OrdF) (s : State) : Out :=
  .next (s.issue (.atomFaddOrd f)
    { cls := 4, full := (Fld.pair f.a).names ++ (Fld.w f.b).names, log := true, outside := true,
      sb := f.sb.toNat } fun c s =>
    (s.modGroup c.gid fun g => g.modThreads c.p.mask fun _ t => { t with ordAdds := t.ordAdds + 1 }).launchAccess
      c (c.threads.map fun e =>
        accMember c e (c.addr e f.a (f.off.signExtend 64)) (BitVec.ofNat 128 e.2.ordAdds) 0
          (((c.env e).word f.b).zeroExtend 64)) none 0)

/-! ### Scratchpad and exchange stores (R258, R259) -/

/-- Scratchpad address: wrap32(ux(A) + OFF) (R258). -/
def Ctx.scrAddr (c : Ctx) (e : Nat × Thread) (f : MemF) : Word := (c.env e).word f.a + f.off.signExtend 32

/-- The fragment of a scratchpad access. -/
def scrFrag (c : Ctx) (o n : Nat) : Frag :=
  { off := 0, size := n, va := 0, pa := o, cl := some (locCluster c.g.loc) }

/-- The precise faults of a scratchpad access: ALIGN, then PERM (R246, R258). -/
def State.scrChecked (s : State) (c : Ctx) (f : MemF) (k : State → State) : State :=
  let n := szBytes f.sz
  let bad := c.maskWhere fun e => (c.scrAddr e f).toNat % n != 0
  let perm := c.maskWhere fun e =>
    (c.scrAddr e f).toNat ≥ 2 ^ 21 || !scrOk c.w (c.scrAddr e f).toNat n
  if bad != 0 then s.trapMask c .align bad 0 0
  else if perm != 0 then s.trapMask c .perm perm 0 0
  else k s

/-- `lds` (R258). -/
def execLds (f : MemF) (s : State) : Out :=
  .next (s.issue (.lds f)
    { cls := 1, dst := Fld.ofSz f.sz f.d, full := (Fld.w f.a).names, sb := f.sb.toNat } fun c s =>
    s.scrChecked c f fun s => s.launchConfirmed c (c.threads.map fun e =>
      { accMember c e 0 0 0 0 with frags := [scrFrag c (c.scrAddr e f).toNat (szBytes f.sz)] }))

/-- `sts` (R258). -/
def execSts (f : MemF) (s : State) : Out :=
  .next (s.issue (.sts f)
    { cls := 1, full := (Fld.w f.a).names ++ (Fld.ofSz f.sz f.d).names, outside := true,
      sb := f.sb.toNat } fun c s =>
    s.scrChecked c f fun s => s.launchConfirmed c (c.threads.map fun e =>
      { accMember c e 0 ((c.env e).val (Fld.ofSz f.sz f.d)) 0 0 with
        frags := [scrFrag c (c.scrAddr e f).toNat (szBytes f.sz)] }))

/-- `xst` (R259). -/
def execXst (f : MemF) (s : State) : Out :=
  .next (s.issue (.xst f)
    { cls := 1, full := (Fld.w f.a).names ++ (Fld.ofSz f.sz f.d).names, outside := true, log := true,
      sb := f.sb.toNat } fun c s =>
    let bad := c.maskWhere fun e => (c.scrAddr e f).toNat % szBytes f.sz != 0
    if bad != 0 then s.trapMask c .align bad 0 0
    else s.launchAccess c (c.threads.map fun e =>
      accMember c e ((c.scrAddr e f).zeroExtend 64) ((c.env e).val (Fld.ofSz f.sz f.d)) 0 0) none 0)

/-! ### Waiting on an address (R260) -/

/-- The scratchpad alias: bits 63:56 are 0xFE. -/
def isAlias (a : DWord) : Bool := lo a 56 8 == 0xFE

/-- A field's value as an operand word: SZ 2 one word, SZ 3 a pair. -/
def Ctx.operand (c : Ctx) (e : Nat × Thread) (sz : BitVec 3) (n : Name) : DWord :=
  if sz == 3 then (c.env e).pair n else ((c.env e).word n).zeroExtend 64

/-- Issue of `waita` (R260). Members at the alias need no translation; with no other member the
operation takes no log entry. -/
def State.issueWaita (s : State) (i : Instr) (f : WaitaF) : State :=
  s.issue i
    { dst := Fld.ofSz f.sz f.d, full := (Fld.pair f.a).names
        ++ (if f.sz == 3 then Fld.pair f.b else Fld.w f.b).names, sb := f.sb.toNat } fun c s =>
    let n := szBytes f.sz
    let a := fun e : Nat × Thread => c.addr e f.a (f.off.signExtend 64)
    let al := c.maskWhere fun e => isAlias (a e) && (a e).toNat % n != 0
    let pg := c.maskWhere fun e => isAlias (a e) && (lo (a e) 21 35) != 0
    let pm := c.maskWhere fun e => isAlias (a e) && !scrOk c.w (lo (a e) 0 21).toNat n
    let va := fun m : Word => ((c.threads.filter fun e => m.getLsbD e.1).foldl
      (fun v e => if (a e).toNat < v then (a e).toNat else v) (2 ^ 64 - 1))
    if al != 0 then s.trapMask c .align al (BitVec.ofNat 64 (va al)) 0
    else if pg != 0 then s.trapMask c .page pg (BitVec.ofNat 64 (va pg)) 0
    else if pm != 0 then s.trapMask c .perm pm (BitVec.ofNat 64 (va pm)) 0
    else
      let all := c.threads.all fun e => isAlias (a e)
      let c1 := { c with f := { c.f with log := !all } }
      if c1.needsLog && (s.freeLog c.g.loc).isNone then s.turnOver
      else
        let ms := c.threads.map fun e =>
          let m := accMember c e (a e) 0 0 (c.operand e f.sz f.b)
          if isAlias (a e) then { m with frags := [scrFrag c (lo (a e) 0 21).toNat n] } else m
        let (id, s1) := s.launch c1 ms c.f.dst.names none .lane f.scope.toNat
        let s2 := if all then { s1 with ops := Tab.upd s1.ops id fun o => { o with stage := .confirmed } }
          else s1
        s2.retire c fun g => g.modPath c.pi fun p => { c.seqPath p with wait := .op id }

/-- `waita.eq` (R260). -/
def execWaitaEq (f : WaitaF) (s : State) : Out := .next (s.issueWaita (.waitaEq f) f)
/-- `waita.ne` (R260). -/
def execWaitaNe (f : WaitaF) (s : State) : Out := .next (s.issueWaita (.waitaNe f) f)

/-! ### Fences (R261, R262) -/

/-- An operation that only loads. -/
def Op.loads (o : Op) : Bool := o.isAccess && !o.stores && (match o.instr with
  | .atom _ => false
  | _ => true)

/-- A LANE-path access of a thread is not performed at a scope (R261, R273). -/
def State.lanePending (s : State) (tid scope : Nat) (loadsOnly : Bool) : Bool :=
  s.ops.any fun o => o.2.isAccess && !o.2.aside && (!loadsOnly || o.2.loads) && o.2.members.any fun m =>
    m.tid == tid && !o.2.far m && (!m.done || (decide (6 ≤ scope) && o.2.invs != 0))

/-- Some member of the path has a LANE-path access that is not performed at a scope. -/
def State.laneBusy (s : State) (c : Ctx) (scope : Nat) (loadsOnly : Bool) : Bool :=
  c.threads.any fun t => s.lanePending t.2.tid scope loadsOnly

/-- `fence` (R261): the path waits for the earlier accesses; later ones then issue after it. -/
def execFence (f : FenceF) (s : State) : Out :=
  .next (s.issue (.fence f) {} fun c s =>
    if s.laneBusy c f.scope.toNat (f.kind == 0) then s.turnOver else s.next_ c)

/-- A fragment on another die. -/
def Op.peerFrag (o : Op) (m : Member) : Bool :=
  m.frags.any fun f => f.cl.isNone && (match hbmDie f.pa with
    | some d => d != coreDie o.loc
    | none => false)

/-- A FAR-path instruction or LANE-path access of a thread is outstanding (R262): an access to a peer
address until it is performed at package scope (R285). -/
def State.pathPending (s : State) (tid : Nat) (far : Bool) : Bool :=
  s.ops.any fun o => !o.2.aside && o.2.members.any fun m =>
    m.tid == tid && (if far then m.far || o.2.isRedecl else !o.2.far m && o.2.isAccess)
      && (!m.done || (o.2.peerFrag m && o.2.invs != 0))

/-- A ladle, engine, task or runner command attributed to a thread is outstanding (R262). -/
def State.unitPending (s : State) (tid : Nat) (p : Nat) : Bool :=
  match p with
  | 2 => s.clusters.any fun c => c.2.ladles.any fun q => q.2.any fun x => x.tids.contains tid
  | 3 => (s.cores.any fun c => c.2.engine.queue.any fun x => x.tids.contains tid)
      || s.clusters.any fun c => c.2.tasks.any fun x => x.tids.contains tid
  | _ => s.xdies.any fun x => (x.2.queues.any fun q => q.2.any fun c => c.tids.contains tid)
      || x.2.active.any fun c => c.tids.contains tid

/-- `pfence` (R262). -/
def execPfence (f : PfenceF) (s : State) : Out :=
  .next (s.issue (.pfence f) {} fun c s =>
    let busy := c.threads.any fun t =>
      match f.f.toNat with
      | 0 => s.pathPending t.2.tid false
      | 1 => s.pathPending t.2.tid true
      | p => s.unitPending t.2.tid p
    if busy then s.turnOver else s.next_ c)

/-! ### Cache operations and `ws.clear` (R263, R264) -/

/-- Issue of a cache operation (R263). -/
def State.issueCache (s : State) (i : Instr) (f : CacheF) (cls : Nat) (outside : Bool) : State :=
  s.issue i { cls, full := (Fld.pair f.a).names, log := true, outside, sb := f.sb.toNat } fun c s =>
    s.launchAccess c (c.threads.map fun e => accMember c e (c.addr e f.a (f.off.signExtend 64)) 0 0 0)
      none 0

/-- `spb` (R263). -/
def execSpb (f : CacheF) (s : State) : Out := .next (s.issueCache (.spb f) f 4 false)
/-- `fla` (R263). -/
def execFla (f : CacheF) (s : State) : Out := .next (s.issueCache (.fla f) f 4 false)
/-- `wb` (R263). -/
def execWb (f : CacheF) (s : State) : Out := .next (s.issueCache (.wb f) f 1 true)
/-- `inv` (R263). -/
def execInv (f : CacheF) (s : State) : Out := .next (s.issueCache (.inv f) f 1 true)
/-- `pref` (R263). -/
def execPref (f : CacheF) (s : State) : Out := .next (s.issueCache (.pref f) f 1 false)

/-- `ws.clear` (R264). -/
def execWsClear (f : WsClrF) (s : State) : Out :=
  .next (s.issue (.wsClear f)
    { cls := 1, full := (Fld.pair f.a).names ++ (Fld.w f.b).names, log := true, outside := true,
      sb := f.sb.toNat } fun c s =>
    s.launchAccess c (c.threads.map fun e =>
      accMember c e (c.addr e f.a (f.off.signExtend 64)) 0 0 (((c.env e).word f.b).zeroExtend 64))
      none 6)

end Sys2Proof.Machine
end

