-- ==== Sys2Proof/Machine/Integer.lean ====
section
/-! DEFINITION. Integer instructions of the lane set and the group set (R118 to R128), each with its
own meaning over `issueLane` and `issueGroup`. -/

namespace Sys2Proof.Machine

/-! ### Results (R51, R118 to R127) -/

/-- Shift count: bits 4:0 (R51). -/
def cnt (b : Word) : Nat := b.toNat % 32

/-- The smaller by sx. -/
def minS (a b : Word) : Word := if a.toInt ≤ b.toInt then a else b
/-- The larger by sx. -/
def maxS (a b : Word) : Word := if b.toInt ≤ a.toInt then a else b
/-- The smaller by ux. -/
def minU (a b : Word) : Word := if a.toNat ≤ b.toNat then a else b
/-- The larger by ux. -/
def maxU (a b : Word) : Word := if b.toNat ≤ a.toNat then a else b

/-- Left rotation (R118). -/
def rotl (a b : Word) : Word := a.rotateLeft (cnt b)

/-- wrap32(floor(sx(a) × sx(b) ÷ 2^32)) (R119). -/
def mulhiS (a b : Word) : Word := BitVec.ofInt 32 (a.toInt * b.toInt / 2 ^ 32)
/-- floor(ux(a) × ux(b) ÷ 2^32) (R119). -/
def mulhiU (a b : Word) : Word := BitVec.ofNat 32 (a.toNat * b.toNat / 2 ^ 32)

/-- Signed quotient (R51, R120). -/
def divS (a b : Word) : Word :=
  if b = 0 then -1 else BitVec.ofInt 32 (Int.tdiv a.toInt b.toInt)
/-- Signed remainder: sign of the dividend (R51, R120). -/
def remS (a b : Word) : Word :=
  if b = 0 then a else BitVec.ofInt 32 (Int.tmod a.toInt b.toInt)
/-- Unsigned quotient (R51, R120). -/
def divU (a b : Word) : Word := if b = 0 then -1 else BitVec.ofNat 32 (a.toNat / b.toNat)
/-- Unsigned remainder (R51, R120). -/
def remU (a b : Word) : Word := if b = 0 then a else BitVec.ofNat 32 (a.toNat % b.toNat)

/-- Position of a field: bits 4:0 (R121). -/
def fldPos (b : Word) : Nat := b.toNat % 32
/-- Effective width: min(bits 13:8, 32 − pos) (R121). -/
def fldWidth (b : Word) : Nat := min (b.toNat / 256 % 64) (32 - fldPos b)

/-- Unsigned field (R121). -/
def bfxU (a b : Word) : Word := BitVec.ofNat 32 (a.toNat / 2 ^ fldPos b % 2 ^ fldWidth b)
/-- Sign-extended field (R121). -/
def bfxS (a b : Word) : Word :=
  let w := fldWidth b
  let v := a.toNat / 2 ^ fldPos b % 2 ^ w
  if w = 0 then 0
  else if v / 2 ^ (w - 1) % 2 = 1 then BitVec.ofInt 32 ((v : Int) - 2 ^ w) else BitVec.ofNat 32 v
/-- Field of d replaced by the low bits of a (R121). -/
def bfi (a b d : Word) : Word :=
  let m : Word := BitVec.ofNat 32 ((2 ^ fldWidth b - 1) * 2 ^ fldPos b)
  (d &&& ~~~m) ||| ((a <<< fldPos b) &&& m)

/-- Number of set bits (R122). -/
def popc (a : Word) : Word :=
  BitVec.ofNat 32 ((List.range 32).filter fun k => a.getLsbD k).length
/-- Leading zeros from bit `n - 1` down. -/
def clzGo (a : Word) : Nat → Nat
  | 0 => 0
  | n + 1 => if a.getLsbD n then 0 else clzGo a n + 1
/-- Leading zero bits, 32 for 0 (R122). -/
def clz (a : Word) : Word := BitVec.ofNat 32 (clzGo a 32)
/-- Trailing zeros from bit `k` up. -/
def ctzGo (a : Word) (k : Nat) : Nat → Nat
  | 0 => 0
  | n + 1 => if a.getLsbD k then 0 else ctzGo a (k + 1) n + 1
/-- Trailing zero bits, 32 for 0 (R122). -/
def ctz (a : Word) : Word := BitVec.ofNat 32 (ctzGo a 0 32)
/-- Bit k moved to bit 31 − k (R122). -/
def brev (a : Word) : Word := a.reverse
/-- wrap32(abs(sx(a))) (R118). -/
def absW (a : Word) : Word := if a.toInt < 0 then -a else a

/-- Conditions of `cmp` and `g.cmp` (R88, R123). -/
def icond (c : BitVec 4) (a b : Word) : Bool :=
  match c.toNat with
  | 0 => a == b
  | 1 => a != b
  | 2 => decide (a.toInt < b.toInt)
  | 3 => decide (a.toInt ≤ b.toInt)
  | 4 => decide (b.toInt < a.toInt)
  | 5 => decide (b.toInt ≤ a.toInt)
  | 6 => decide (a.toNat < b.toNat)
  | 7 => decide (a.toNat ≤ b.toNat)
  | 8 => decide (b.toNat < a.toNat)
  | _ => decide (b.toNat ≤ a.toNat)

/-- The result of a compare. -/
def evCmp (c : BitVec 4) (a b _d : BitVec 128) : BitVec 128 × Fpx :=
  (if icond c (lo a 0 32) (lo b 0 32) then 1 else 0, 0)

/-- The result of `sel`: the third source is the predicate (R124). -/
def evSel (a b d : BitVec 128) : BitVec 128 × Fpx := (if d != 0 then a else b, 0)

/-- The result of `lea64` with scale `s` (R127). -/
def evLea (s : BitVec 2) (a b _d : BitVec 128) : BitVec 128 × Fpx :=
  let r : DWord := lo a 0 64 + (lo b 0 32).signExtend 64 * BitVec.ofNat 64 (2 ^ s.toNat)
  (r.zeroExtend 128, 0)

/-- A constant result. -/
def evConst (v : Word) (_a _b _d : BitVec 128) : BitVec 128 × Fpx := (v.zeroExtend 128, 0)

/-! ### Forms of the compare, select and move rows -/

end Sys2Proof.Machine

namespace Sys2Proof

open Machine

/-- A compare (R123). -/
def LCmp.form (f : LCmp) : Form :=
  { cls := 1, a := .w f.a, b := .w f.b, x := f.x, h := f.h, chain := true,
    predW := [f.p.toNat], dstP := some f.p.toNat }

/-- A group-set compare (R128). -/
def GCmp.form (f : GCmp) : Form :=
  { cls := 1, a := .w f.a, b := .w f.b, x := f.x, group := true,
    predW := [f.p.toNat], dstP := some f.p.toNat }

/-- `sel` with predicate `p` (R124). -/
def LSel.form (f : LSel) (p : Nat) : Form :=
  { cls := 1, a := .w f.a, b := .w f.b, dst := .w f.d, x := f.x, h := f.h, n := f.n, chain := true,
    predR := [p], selP := some p }

end Sys2Proof

namespace Sys2Proof.Machine

/-- A register-to-register form per row. -/
def mkL3 (f : L3) (cls : Nat) (far : Bool) (g : Word → Word → Word) : LaneOp :=
  ⟨f.form cls far, ev32 fun a b _ => g a b⟩
/-- A form that reads D too (R119, R121). -/
def mkL3d (f : L3) (cls : Nat) (far : Bool) (g : Word → Word → Word → Word) : LaneOp :=
  ⟨f.form cls far true, ev32 g⟩
/-- A unary form. -/
def mkL2 (f : L2) (cls : Nat) (far : Bool) (g : Word → Word) : LaneOp :=
  ⟨f.form cls far, ev32 fun a _ _ => g a⟩
/-- A group-set form. -/
def mkG (f : N3) (cls : Nat) (cl : Bool) (g : Word → Word → Word) : LaneOp :=
  ⟨f.formG cls cl, ev32 fun a b _ => g a b⟩
/-- A group-set unary form. -/
def mkG1 (f : N2) (g : Word → Word) : LaneOp := ⟨f.formG 1, ev32 fun a _ _ => g a⟩

/-! ### Operations per row -/

/-- `add` (R118). -/
def opAdd (f : L3) : LaneOp := mkL3 f 1 true ((· + ·))

/-- `sub` (R118). -/
def opSub (f : L3) : LaneOp := mkL3 f 1 true ((· - ·))

/-- `mul` (R119). -/
def opMul (f : L3) : LaneOp := mkL3 f 2 true ((· * ·))

/-- `mulhiS` (R119). -/
def opMulhiS (f : L3) : LaneOp := mkL3 f 2 true mulhiS

/-- `mulhiU` (R119). -/
def opMulhiU (f : L3) : LaneOp := mkL3 f 2 true mulhiU

/-- `divS` (R120). -/
def opDivS (f : L3) : LaneOp := mkL3 f 3 false divS

/-- `divU` (R120). -/
def opDivU (f : L3) : LaneOp := mkL3 f 3 false divU

/-- `remS` (R120). -/
def opRemS (f : L3) : LaneOp := mkL3 f 3 false remS

/-- `remU` (R120). -/
def opRemU (f : L3) : LaneOp := mkL3 f 3 false remU

/-- `minS` (R118). -/
def opMinS (f : L3) : LaneOp := mkL3 f 1 true minS

/-- `minU` (R118). -/
def opMinU (f : L3) : LaneOp := mkL3 f 1 true minU

/-- `maxS` (R118). -/
def opMaxS (f : L3) : LaneOp := mkL3 f 1 true maxS

/-- `maxU` (R118). -/
def opMaxU (f : L3) : LaneOp := mkL3 f 1 true maxU

/-- `and` (R118). -/
def opAnd (f : L3) : LaneOp := mkL3 f 1 true ((· &&& ·))

/-- `or` (R118). -/
def opOr (f : L3) : LaneOp := mkL3 f 1 true ((· ||| ·))

/-- `xor` (R118). -/
def opXor (f : L3) : LaneOp := mkL3 f 1 true ((· ^^^ ·))

/-- `shl` (R118). -/
def opShl (f : L3) : LaneOp := mkL3 f 1 true (fun a b => a <<< cnt b)

/-- `shr` (R118). -/
def opShr (f : L3) : LaneOp := mkL3 f 1 true (fun a b => a >>> cnt b)

/-- `sar` (R118). -/
def opSar (f : L3) : LaneOp := mkL3 f 1 true (fun a b => a.sshiftRight (cnt b))

/-- `rot` (R118). -/
def opRot (f : L3) : LaneOp := mkL3 f 1 true rotl

/-- `bfxU` (R121). -/
def opBfxU (f : L3) : LaneOp := mkL3 f 1 false bfxU

/-- `bfxS` (R121). -/
def opBfxS (f : L3) : LaneOp := mkL3 f 1 false bfxS

/-- `mad` (R119). -/
def opMad (f : L3) : LaneOp := mkL3d f 2 true fun a b d => a * b + d

/-- `bfi` (R121). -/
def opBfi (f : L3) : LaneOp := mkL3d f 1 false bfi

/-- `popc` (R122). -/
def opPopc (f : L2) : LaneOp := mkL2 f 1 false popc

/-- `clz` (R122). -/
def opClz (f : L2) : LaneOp := mkL2 f 1 false clz

/-- `ctz` (R122). -/
def opCtz (f : L2) : LaneOp := mkL2 f 1 false ctz

/-- `brev` (R122). -/
def opBrev (f : L2) : LaneOp := mkL2 f 1 false brev

/-- `abs` (R118). -/
def opAbs (f : L2) : LaneOp := mkL2 f 1 true absW

/-- `add64` (R127). -/
def opAdd64 (f : N3) : LaneOp := ⟨f.form64, ev64 (· + ·)⟩

/-- `sub64` (R127). -/
def opSub64 (f : N3) : LaneOp := ⟨f.form64, ev64 (· - ·)⟩

/-- `lea64` (R127). -/
def opLea64 (f : N3S) : LaneOp :=
  { form :=
      { cls := 1, a := .pair f.a, b := .w f.b, dst := .pair f.d, x := f.x, chain := true }
    eval := evLea f.s }

/-- `cmp` (R123). -/
def opCmp (f : LCmp) : LaneOp := ⟨f.form, evCmp f.c⟩

/-- `selLo` (R124). -/
def opSelLo (f : LSel) : LaneOp := ⟨f.form f.p.toNat, evSel⟩

/-- `selHi` (R124). -/
def opSelHi (f : LSel) : LaneOp := ⟨f.form (4 + f.p.toNat), evSel⟩

/-- `mov` (R126). -/
def opMov (f : LMov) : LaneOp :=
  { form :=
      { a := .w f.a, dst := .w f.d, x := f.x, h := f.h, n := f.n, chain := true, cluster := true, far := true }
    eval := ev32 fun a _ _ => a }

/-- `movx` (R126). -/
def opMovx (f : LMovx) : LaneOp :=
  { form :=
      { a := .w z7, dst := .w f.d, h := f.h, n := f.n, chain := true, cluster := true, far := true }
    eval := evConst (extVal f.imm) }

/-- `movxW` (R126). -/
def opMovxW (f : LMovxW) : LaneOp :=
  { form :=
      { a := .w z7, dst := .w f.d, h := f.h, n := f.n, chain := true, cluster := true, far := true }
    eval := evConst f.imm }

/-- `gAdd` (R128). -/
def opGAdd (f : N3) : LaneOp := mkG f 1 true ((· + ·))

/-- `gSub` (R128). -/
def opGSub (f : N3) : LaneOp := mkG f 1 true ((· - ·))

/-- `gMul` (R128). -/
def opGMul (f : N3) : LaneOp := mkG f 1 false ((· * ·))

/-- `gMulhiS` (R128). -/
def opGMulhiS (f : N3) : LaneOp := mkG f 1 false mulhiS

/-- `gMulhiU` (R128). -/
def opGMulhiU (f : N3) : LaneOp := mkG f 1 false mulhiU

/-- `gAnd` (R128). -/
def opGAnd (f : N3) : LaneOp := mkG f 1 true ((· &&& ·))

/-- `gOr` (R128). -/
def opGOr (f : N3) : LaneOp := mkG f 1 true ((· ||| ·))

/-- `gXor` (R128). -/
def opGXor (f : N3) : LaneOp := mkG f 1 true ((· ^^^ ·))

/-- `gShl` (R128). -/
def opGShl (f : N3) : LaneOp := mkG f 1 true (fun a b => a <<< cnt b)

/-- `gShr` (R128). -/
def opGShr (f : N3) : LaneOp := mkG f 1 true (fun a b => a >>> cnt b)

/-- `gSar` (R128). -/
def opGSar (f : N3) : LaneOp := mkG f 1 true (fun a b => a.sshiftRight (cnt b))

/-- `gRot` (R128). -/
def opGRot (f : N3) : LaneOp := mkG f 1 true rotl

/-- `gMinS` (R128). -/
def opGMinS (f : N3) : LaneOp := mkG f 1 true minS

/-- `gMinU` (R128). -/
def opGMinU (f : N3) : LaneOp := mkG f 1 true minU

/-- `gMaxS` (R128). -/
def opGMaxS (f : N3) : LaneOp := mkG f 1 true maxS

/-- `gMaxU` (R128). -/
def opGMaxU (f : N3) : LaneOp := mkG f 1 true maxU

/-- `gBfxU` (R128). -/
def opGBfxU (f : N3) : LaneOp := mkG f 1 false bfxU

/-- `gBfxS` (R128). -/
def opGBfxS (f : N3) : LaneOp := mkG f 1 false bfxS

/-- `gDivS` (R128). -/
def opGDivS (f : N3) : LaneOp := mkG f 3 false divS

/-- `gDivU` (R128). -/
def opGDivU (f : N3) : LaneOp := mkG f 3 false divU

/-- `gRemS` (R128). -/
def opGRemS (f : N3) : LaneOp := mkG f 3 false remS

/-- `gRemU` (R128). -/
def opGRemU (f : N3) : LaneOp := mkG f 3 false remU

/-- `gBfi` (R128). -/
def opGBfi (f : N3) : LaneOp := ⟨f.formG 1 false true, ev32 bfi⟩

/-- `gAdd64` (R128). -/
def opGAdd64 (f : N3) : LaneOp := ⟨f.formG64, ev64 (· + ·)⟩

/-- `gSub64` (R128). -/
def opGSub64 (f : N3) : LaneOp := ⟨f.formG64, ev64 (· - ·)⟩

/-- `gCmp` (R128). -/
def opGCmp (f : GCmp) : LaneOp := ⟨f.form, evCmp f.c⟩

/-- `gSel` (R128). -/
def opGSel (f : N3P) : LaneOp :=
  { form :=
      { cls := 1, a := .w f.a, b := .w f.b, dst := .w f.d, x := f.x, group := true, predR := [f.p.toNat], selP := some f.p.toNat }
    eval := evSel }

/-- `gMov` (R128). -/
def opGMov (f : N2X) : LaneOp :=
  { form :=
      { a := .w f.a, dst := .w f.d, x := f.x, group := true, cluster := true }
    eval := ev32 fun a _ _ => a }

/-- `gMovx` (R128). -/
def opGMovx (f : GMovx) : LaneOp :=
  { form :=
      { dst := .w f.d, group := true, cluster := true }
    eval := evConst (extVal f.imm) }

/-- `gMovxW` (R128). -/
def opGMovxW (f : GMovxW) : LaneOp := ⟨{ dst := .w f.d, group := true, cluster := true }, evConst f.imm⟩

/-- `gLea64` (R128). -/
def opGLea64 (f : N3S) : LaneOp :=
  { form :=
      { cls := 1, a := .pair f.a, b := .w f.b, dst := .pair f.d, x := f.x, group := true }
    eval := evLea f.s }

/-- `gPopc` (R128). -/
def opGPopc (f : N2) : LaneOp := mkG1 f popc

/-- `gClz` (R128). -/
def opGClz (f : N2) : LaneOp := mkG1 f clz

/-- `gCtz` (R128). -/
def opGCtz (f : N2) : LaneOp := mkG1 f ctz

/-! ### Meanings -/

/-- `add` (R118). -/
def execAdd (f : L3) (s : State) : Out := .next (s.issueLane (.add f) (opAdd f))

/-- `sub` (R118). -/
def execSub (f : L3) (s : State) : Out := .next (s.issueLane (.sub f) (opSub f))

/-- `mul` (R119). -/
def execMul (f : L3) (s : State) : Out := .next (s.issueLane (.mul f) (opMul f))

/-- `mulhiS` (R119). -/
def execMulhiS (f : L3) (s : State) : Out := .next (s.issueLane (.mulhiS f) (opMulhiS f))

/-- `mulhiU` (R119). -/
def execMulhiU (f : L3) (s : State) : Out := .next (s.issueLane (.mulhiU f) (opMulhiU f))

/-- `divS` (R120). -/
def execDivS (f : L3) (s : State) : Out := .next (s.issueLane (.divS f) (opDivS f))

/-- `divU` (R120). -/
def execDivU (f : L3) (s : State) : Out := .next (s.issueLane (.divU f) (opDivU f))

/-- `remS` (R120). -/
def execRemS (f : L3) (s : State) : Out := .next (s.issueLane (.remS f) (opRemS f))

/-- `remU` (R120). -/
def execRemU (f : L3) (s : State) : Out := .next (s.issueLane (.remU f) (opRemU f))

/-- `minS` (R118). -/
def execMinS (f : L3) (s : State) : Out := .next (s.issueLane (.minS f) (opMinS f))

/-- `minU` (R118). -/
def execMinU (f : L3) (s : State) : Out := .next (s.issueLane (.minU f) (opMinU f))

/-- `maxS` (R118). -/
def execMaxS (f : L3) (s : State) : Out := .next (s.issueLane (.maxS f) (opMaxS f))

/-- `maxU` (R118). -/
def execMaxU (f : L3) (s : State) : Out := .next (s.issueLane (.maxU f) (opMaxU f))

/-- `and` (R118). -/
def execAnd (f : L3) (s : State) : Out := .next (s.issueLane (.and f) (opAnd f))

/-- `or` (R118). -/
def execOr (f : L3) (s : State) : Out := .next (s.issueLane (.or f) (opOr f))

/-- `xor` (R118). -/
def execXor (f : L3) (s : State) : Out := .next (s.issueLane (.xor f) (opXor f))

/-- `shl` (R118). -/
def execShl (f : L3) (s : State) : Out := .next (s.issueLane (.shl f) (opShl f))

/-- `shr` (R118). -/
def execShr (f : L3) (s : State) : Out := .next (s.issueLane (.shr f) (opShr f))

/-- `sar` (R118). -/
def execSar (f : L3) (s : State) : Out := .next (s.issueLane (.sar f) (opSar f))

/-- `rot` (R118). -/
def execRot (f : L3) (s : State) : Out := .next (s.issueLane (.rot f) (opRot f))

/-- `bfxU` (R121). -/
def execBfxU (f : L3) (s : State) : Out := .next (s.issueLane (.bfxU f) (opBfxU f))

/-- `bfxS` (R121). -/
def execBfxS (f : L3) (s : State) : Out := .next (s.issueLane (.bfxS f) (opBfxS f))

/-- `mad` (R119). -/
def execMad (f : L3) (s : State) : Out := .next (s.issueLane (.mad f) (opMad f))

/-- `bfi` (R121). -/
def execBfi (f : L3) (s : State) : Out := .next (s.issueLane (.bfi f) (opBfi f))

/-- `popc` (R122). -/
def execPopc (f : L2) (s : State) : Out := .next (s.issueLane (.popc f) (opPopc f))

/-- `clz` (R122). -/
def execClz (f : L2) (s : State) : Out := .next (s.issueLane (.clz f) (opClz f))

/-- `ctz` (R122). -/
def execCtz (f : L2) (s : State) : Out := .next (s.issueLane (.ctz f) (opCtz f))

/-- `brev` (R122). -/
def execBrev (f : L2) (s : State) : Out := .next (s.issueLane (.brev f) (opBrev f))

/-- `abs` (R118). -/
def execAbs (f : L2) (s : State) : Out := .next (s.issueLane (.abs f) (opAbs f))

/-- `add64` (R127). -/
def execAdd64 (f : N3) (s : State) : Out := .next (s.issueLane (.add64 f) (opAdd64 f))

/-- `sub64` (R127). -/
def execSub64 (f : N3) (s : State) : Out := .next (s.issueLane (.sub64 f) (opSub64 f))

/-- `lea64` (R127). -/
def execLea64 (f : N3S) (s : State) : Out := .next (s.issueLane (.lea64 f) (opLea64 f))

/-- `cmp` (R123). -/
def execCmp (f : LCmp) (s : State) : Out := .next (s.issueLane (.cmp f) (opCmp f))

/-- `selLo` (R124). -/
def execSelLo (f : LSel) (s : State) : Out := .next (s.issueLane (.selLo f) (opSelLo f))

/-- `selHi` (R124). -/
def execSelHi (f : LSel) (s : State) : Out := .next (s.issueLane (.selHi f) (opSelHi f))

/-- `mov` (R126). -/
def execMov (f : LMov) (s : State) : Out := .next (s.issueLane (.mov f) (opMov f))

/-- `movx` (R126). -/
def execMovx (f : LMovx) (s : State) : Out := .next (s.issueLane (.movx f) (opMovx f))

/-- `movxW` (R126). -/
def execMovxW (f : LMovxW) (s : State) : Out := .next (s.issueLane (.movxW f) (opMovxW f))

/-- `gAdd` (R128). -/
def execGAdd (f : N3) (s : State) : Out := .next (s.issueGroup (.gAdd f) (opGAdd f))

/-- `gSub` (R128). -/
def execGSub (f : N3) (s : State) : Out := .next (s.issueGroup (.gSub f) (opGSub f))

/-- `gMul` (R128). -/
def execGMul (f : N3) (s : State) : Out := .next (s.issueGroup (.gMul f) (opGMul f))

/-- `gMulhiS` (R128). -/
def execGMulhiS (f : N3) (s : State) : Out := .next (s.issueGroup (.gMulhiS f) (opGMulhiS f))

/-- `gMulhiU` (R128). -/
def execGMulhiU (f : N3) (s : State) : Out := .next (s.issueGroup (.gMulhiU f) (opGMulhiU f))

/-- `gAnd` (R128). -/
def execGAnd (f : N3) (s : State) : Out := .next (s.issueGroup (.gAnd f) (opGAnd f))

/-- `gOr` (R128). -/
def execGOr (f : N3) (s : State) : Out := .next (s.issueGroup (.gOr f) (opGOr f))

/-- `gXor` (R128). -/
def execGXor (f : N3) (s : State) : Out := .next (s.issueGroup (.gXor f) (opGXor f))

/-- `gShl` (R128). -/
def execGShl (f : N3) (s : State) : Out := .next (s.issueGroup (.gShl f) (opGShl f))

/-- `gShr` (R128). -/
def execGShr (f : N3) (s : State) : Out := .next (s.issueGroup (.gShr f) (opGShr f))

/-- `gSar` (R128). -/
def execGSar (f : N3) (s : State) : Out := .next (s.issueGroup (.gSar f) (opGSar f))

/-- `gRot` (R128). -/
def execGRot (f : N3) (s : State) : Out := .next (s.issueGroup (.gRot f) (opGRot f))

/-- `gMinS` (R128). -/
def execGMinS (f : N3) (s : State) : Out := .next (s.issueGroup (.gMinS f) (opGMinS f))

/-- `gMinU` (R128). -/
def execGMinU (f : N3) (s : State) : Out := .next (s.issueGroup (.gMinU f) (opGMinU f))

/-- `gMaxS` (R128). -/
def execGMaxS (f : N3) (s : State) : Out := .next (s.issueGroup (.gMaxS f) (opGMaxS f))

/-- `gMaxU` (R128). -/
def execGMaxU (f : N3) (s : State) : Out := .next (s.issueGroup (.gMaxU f) (opGMaxU f))

/-- `gBfxU` (R128). -/
def execGBfxU (f : N3) (s : State) : Out := .next (s.issueGroup (.gBfxU f) (opGBfxU f))

/-- `gBfxS` (R128). -/
def execGBfxS (f : N3) (s : State) : Out := .next (s.issueGroup (.gBfxS f) (opGBfxS f))

/-- `gDivS` (R128). -/
def execGDivS (f : N3) (s : State) : Out := .next (s.issueGroup (.gDivS f) (opGDivS f))

/-- `gDivU` (R128). -/
def execGDivU (f : N3) (s : State) : Out := .next (s.issueGroup (.gDivU f) (opGDivU f))

/-- `gRemS` (R128). -/
def execGRemS (f : N3) (s : State) : Out := .next (s.issueGroup (.gRemS f) (opGRemS f))

/-- `gRemU` (R128). -/
def execGRemU (f : N3) (s : State) : Out := .next (s.issueGroup (.gRemU f) (opGRemU f))

/-- `gBfi` (R128). -/
def execGBfi (f : N3) (s : State) : Out := .next (s.issueGroup (.gBfi f) (opGBfi f))

/-- `gAdd64` (R128). -/
def execGAdd64 (f : N3) (s : State) : Out := .next (s.issueGroup (.gAdd64 f) (opGAdd64 f))

/-- `gSub64` (R128). -/
def execGSub64 (f : N3) (s : State) : Out := .next (s.issueGroup (.gSub64 f) (opGSub64 f))

/-- `gCmp` (R128). -/
def execGCmp (f : GCmp) (s : State) : Out := .next (s.issueGroup (.gCmp f) (opGCmp f))

/-- `gSel` (R128). -/
def execGSel (f : N3P) (s : State) : Out := .next (s.issueGroup (.gSel f) (opGSel f))

/-- `gMov` (R128). -/
def execGMov (f : N2X) (s : State) : Out := .next (s.issueGroup (.gMov f) (opGMov f))

/-- `gMovx` (R128). -/
def execGMovx (f : GMovx) (s : State) : Out := .next (s.issueGroup (.gMovx f) (opGMovx f))

/-- `gMovxW` (R128). -/
def execGMovxW (f : GMovxW) (s : State) : Out := .next (s.issueGroup (.gMovxW f) (opGMovxW f))

/-- `gLea64` (R128). -/
def execGLea64 (f : N3S) (s : State) : Out := .next (s.issueGroup (.gLea64 f) (opGLea64 f))

/-- `gPopc` (R128). -/
def execGPopc (f : N2) (s : State) : Out := .next (s.issueGroup (.gPopc f) (opGPopc f))

/-- `gClz` (R128). -/
def execGClz (f : N2) (s : State) : Out := .next (s.issueGroup (.gClz f) (opGClz f))

/-- `gCtz` (R128). -/
def execGCtz (f : N2) (s : State) : Out := .next (s.issueGroup (.gCtz f) (opGCtz f))

/-- Predicate logic at LANE (R125): one predicate of each member from two of its own. -/
def State.issuePred (s : State) (i : Instr) (p q r : Nat) (g : Bool → Bool → Bool) : State :=
  s.issue i { predR := [q, r], predW := [p], chain := true } fun c s =>
    let rs := c.threads.map fun e => (e.1, g (predOf e.2 q) (predOf e.2 r))
    let s1 := s.writePreds c p rs
    (s1.latchAll c (rs.map fun x => (x.1, 0, if x.2 then 1 else 0))).next_ c

/-- `pand` (R125). -/
def execPand (f : P3) (s : State) : Out :=
  .next (s.issuePred (.pand f) f.p.toNat f.q.toNat f.r.toNat ((· && ·)))

/-- `por` (R125). -/
def execPor (f : P3) (s : State) : Out :=
  .next (s.issuePred (.por f) f.p.toNat f.q.toNat f.r.toNat ((· || ·)))

/-- `pnot` (R125). -/
def execPnot (f : P2) (s : State) : Out :=
  .next (s.issuePred (.pnot f) f.p.toNat f.q.toNat f.q.toNat fun a _ => !a)

/-- `pmov` (R125). -/
def execPmov (f : P2) (s : State) : Out :=
  .next (s.issuePred (.pmov f) f.p.toNat f.q.toNat f.q.toNat fun a _ => a)

end Sys2Proof.Machine
end

