-- ==== Sys2Proof/Machine/Number.lean ====
section
/-! DEFINITION. D8 (R57 to R62), conversions (R140, R141) and packed half precision (R137). -/

namespace Sys2Proof.Machine

/-- Leading zeros of the 7-bit p of a D8 byte (R57): the decade z. -/
def d8Z (p : Nat) : Nat := 6 - p.log2

/-- Integer image of a magnitude code p (R59): I in units of 2^−6 × 10^−6. -/
def d8Mag (p : Nat) : Nat :=
  if p == 0 then 0
  else
    let r := p.log2
    (2 ^ r + 9 * (p - 2 ^ r)) * 2 ^ (6 - r) * 10 ^ (6 - d8Z p)

/-- Image of a D8 byte; none for NaN (R57, R59). -/
def d8Image (b : Nat) : Option Int :=
  if b % 256 == 0x80 then none
  else some (sInt (b / 128 % 2 == 1) (d8Mag (b % 128)))

/-- Denominator of an image: 2^6 × 10^6. -/
def d8Den : Nat := 64000000

/-- The codes of the largest magnitude not above `n / d` and the smallest not below, searched down
from `p`. -/
def d8Below (n d : Nat) : Nat → Nat
  | 0 => 0
  | p + 1 => if d8Mag (p + 1) * d ≤ n * d8Den then p + 1 else d8Below n d p

/-- d8_from of a real `(−1)^neg × n / d` (R60). -/
def d8From (neg : Bool) (n d : Nat) : Res :=
  let sg := fun p : Nat => if neg && p != 0 then 128 + p else p
  if n * d8Den > 631000000 * d then ((if neg then 128 else 0) + 0x7F, flOF ||| flNX)
  else
    let lo := d8Below n d 127
    if d8Mag lo * d == n * d8Den then (sg lo, 0)
    else
      let hi := lo + 1
      -- twice the value against the sum of the neighbours
      let v := 2 * n * d8Den
      let m := (d8Mag lo + d8Mag hi) * d
      let p := if v < m then lo else if v > m then hi else if lo % 2 == 0 then lo else hi
      (sg p, flNX ||| flag (n * 1000000 < d && n != 0) flUF)

/-- d8_from of a value read from a binary format (R60). -/
def d8FromV (a : FVal) : Res :=
  match a with
  | .nan s => (0x80, flag s flNV)
  | .inf neg => ((if neg then 128 else 0) + 0x7F, flOF ||| flNX)
  | .num neg m e => let (n, d) := scale2 m 1 e; d8From neg n d

/-- A D8 byte in a binary format (R61). -/
def d8ToFmt (f : Fmt) (md : RMode) (b : Nat) : Res :=
  match d8Image b with
  | none => (f.qnan, 0)
  | some i => if i == 0 then (0, 0) else roundTo f md (i < 0) i.natAbs d8Den

/-- round_to_integer of a rational, clamped to [lo, hi]; NV out of range, else NX when inexact (R140). -/
def roundInt (md : RMode) (lo hi : Int) (neg : Bool) (n d : Nat) : Int × Fpx :=
  let (q, nx) := roundDiv md neg n d
  let v := sInt neg q
  if v < lo then (lo, flNV) else if v > hi then (hi, flNV) else (v, flag nx flNX)

/-- The value of a conversion source (R140). -/
inductive CVal where
  | nan (signalling : Bool)
  | inf (neg : Bool)
  /-- `(−1)^neg × n / d`; whether the source is an integer format. -/
  | real (neg : Bool) (n d : Nat) (int : Bool)
  deriving DecidableEq, Repr

/-- A value of a binary format. -/
def FVal.toC : FVal → CVal
  | .nan s => .nan s
  | .inf n => .inf n
  | .num neg m e => let (n, d) := scale2 m 1 e; .real neg n d false

/-- An integer as a conversion source. -/
def intC (i : Int) : CVal := .real (i < 0) i.natAbs 1 true

/-- The exact value of a source in format code `c` (R86, R139). -/
def cvtRead (c : Nat) (v : Nat) : CVal :=
  match c with
  | 0 => intC (BitVec.ofNat 32 v).toInt
  | 1 => intC (v % 2 ^ 32 : Nat)
  | 2 => (fmt16b.read (v % 2 ^ 16)).toC
  | 3 => (fmtBf16.read (v % 2 ^ 16)).toC
  | 4 => (fmt32b.read (v % 2 ^ 32)).toC
  | 5 => (fmt64b.read (v % 2 ^ 64)).toC
  | 6 => match d8Image (v % 256) with
    | none => .nan false
    | some i => .real (i < 0) i.natAbs d8Den false
  | 7 => intC (BitVec.ofNat 8 v).toInt
  | 8 => intC (BitVec.ofNat 64 v).toInt
  | _ => intC (v % 2 ^ 64 : Nat)

/-- The binary format of a format code. -/
def cvtFmt (c : Nat) : Option Fmt :=
  match c with
  | 2 => some fmt16b
  | 3 => some fmtBf16
  | 4 => some fmt32b
  | 5 => some fmt64b
  | _ => none

/-- Range of an integer format code (R140). -/
def cvtRange (c : Nat) : Int × Int :=
  match c with
  | 0 => (-2 ^ 31, 2 ^ 31 - 1)
  | 1 => (0, 2 ^ 32 - 1)
  | 7 => (-128, 127)
  | 8 => (-2 ^ 63, 2 ^ 63 - 1)
  | _ => (0, 2 ^ 64 - 1)

/-- Bits of an integer result: INT8 is sign-extended to 32 bits (R139). -/
def intBits (c : Nat) (i : Int) : Nat :=
  if c == 8 || c == 9 then (BitVec.ofInt 64 i).toNat else (BitVec.ofInt 32 i).toNat

/-- The first matching row of R140. -/
def cvtTo (c : Nat) (md : RMode) (v : CVal) : Res :=
  match cvtFmt c with
  | some f =>
    match v with
    | .nan s => (f.qnan, flag s flNV)
    | .inf neg => (f.signed neg f.infBits, 0)
    | .real neg n d _ => if n == 0 then (f.signed neg 0, 0) else roundTo f md neg n d
  | none =>
    if c == 6 then
      match v with
      | .nan s => (0x80, flag s flNV)
      | .inf neg => ((if neg then 128 else 0) + 0x7F, flOF ||| flNX)
      | .real neg n d _ => d8From neg n d
    else
      let (lo, hi) := cvtRange c
      match v with
      | .nan _ => (0, flNV)
      | .inf neg => (intBits c (if neg then lo else hi), flNV)
      | .real neg n d int =>
        if int then
          let i := sInt neg n
          (intBits c (if i < lo then lo else if i > hi then hi else i), 0)
        else let (i, fl) := roundInt md lo hi neg n d; (intBits c i, fl)

/-- `cvt` (R139, R140). -/
def cvtV (src dst : Nat) (md : RMode) (v : Nat) : Res := cvtTo dst md (cvtRead src v)

/-- Four binary32 words packed as D8 bytes (R141). -/
def packD8 (v : BitVec 128) : Res :=
  let r := fun k => d8FromV (fmt32b.read (v.toNat / 2 ^ (32 * k) % 2 ^ 32))
  ((r 0).1 + (r 1).1 * 2 ^ 8 + (r 2).1 * 2 ^ 16 + (r 3).1 * 2 ^ 24,
    (r 0).2 ||| (r 1).2 ||| (r 2).2 ||| (r 3).2)

/-- Four D8 bytes as binary32 words (R141). -/
def unpackD8 (v : Nat) : Res :=
  let r := fun k => d8ToFmt fmt32b .rne (v / 2 ^ (8 * k) % 256)
  ((r 0).1 + (r 1).1 * 2 ^ 32 + (r 2).1 * 2 ^ 64 + (r 3).1 * 2 ^ 96,
    (r 0).2 ||| (r 1).2 ||| (r 2).2 ||| (r 3).2)

/-- A packed operation: elements 0 and 1 by themselves, flags ORed (R137). -/
def packed2 (f : Nat → Nat → Nat → Res) (a b d : Nat) : Res :=
  let r0 := f (a % 2 ^ 16) (b % 2 ^ 16) (d % 2 ^ 16)
  let r1 := f (a / 2 ^ 16 % 2 ^ 16) (b / 2 ^ 16 % 2 ^ 16) (d / 2 ^ 16 % 2 ^ 16)
  (r0.1 + r1.1 * 2 ^ 16, r0.2 ||| r1.2)

/-- a + b of a format's bits. -/
def fAddB (f : Fmt) (md : RMode) (a b _d : Nat) : Res := fAddV f md (f.read a) (f.read b)
/-- a − b. -/
def fSubB (f : Fmt) (md : RMode) (a b _d : Nat) : Res := fAddV f md (f.read a) (f.read b).negate
/-- a × b. -/
def fMulB (f : Fmt) (md : RMode) (a b _d : Nat) : Res := fMulV f md (f.read a) (f.read b)
/-- a × b + d. -/
def fFmaB (f : Fmt) (md : RMode) (a b d : Nat) : Res :=
  fFmaV f md (f.read a) (f.read b) (f.read d)

end Sys2Proof.Machine
end

