-- ==== Sys2Proof/Machine/Float.lean ====
section
/-! DEFINITION. Floating-point and conversion instructions (R132 to R141), each with its own meaning
over `issueLane`. -/

namespace Sys2Proof

open Machine

/-- `cvt`: a 64-bit source or target takes a pair (R139). -/
def CvtF.form (f : CvtF) : Form :=
  { cls := 1, a := if fmt64 f.src then .pair f.a else .w f.a
    dst := if fmt64 f.dst then .pair f.d else .w f.d, h := f.h, n := f.n, chain := true }

end Sys2Proof

namespace Sys2Proof.Machine

/-- The result and flags of `fcmp` (R135). -/
def evFcmp (c : BitVec 4) (a b _d : BitVec 128) : BitVec 128 × Fpx :=
  let r := fCond c (fmt32b.read (lo a 0 32).toNat) (fmt32b.read (lo b 0 32).toNat)
  (if r.1 then 1 else 0, r.2)

/-- `fadd` (R133). -/
def opFadd (f : L3R) : LaneOp :=
  ⟨f.form 2 true, evF (fAddB fmt32b (.ofCode f.r))⟩

/-- `fsub` (R133). -/
def opFsub (f : L3R) : LaneOp :=
  ⟨f.form 2 true, evF (fSubB fmt32b (.ofCode f.r))⟩

/-- `fmul` (R133). -/
def opFmul (f : L3R) : LaneOp :=
  ⟨f.form 2 false, evF (fMulB fmt32b (.ofCode f.r))⟩

/-- `ffma` (R133). -/
def opFfma (f : L3R) : LaneOp :=
  ⟨f.form 2 false true, evF (fFmaB fmt32b (.ofCode f.r))⟩

/-- `fmin` (R134). -/
def opFmin (f : L3) : LaneOp :=
  ⟨f.form 1 true, evF fun a b _ => fMinMax fmt32b false a b⟩

/-- `fmax` (R134). -/
def opFmax (f : L3) : LaneOp :=
  ⟨f.form 1 true, evF fun a b _ => fMinMax fmt32b true a b⟩

/-- `fcmp` (R135). -/
def opFcmp (f : LCmp) : LaneOp :=
  ⟨f.form, evFcmp f.c⟩

/-- `frcp` (R136). -/
def opFrcp (f : L2R) : LaneOp :=
  ⟨f.form 3, evF fun a _ _ => fUnary .rcp fmt32b (.ofCode f.r) (fmt32b.read a)⟩

/-- `frsq` (R136). -/
def opFrsq (f : L2R) : LaneOp :=
  ⟨f.form 3, evF fun a _ _ => fUnary .rsq fmt32b (.ofCode f.r) (fmt32b.read a)⟩

/-- `fsqrt` (R136). -/
def opFsqrt (f : L2R) : LaneOp :=
  ⟨f.form 3, evF fun a _ _ => fUnary .sqrt fmt32b (.ofCode f.r) (fmt32b.read a)⟩

/-- `fexp2` (R136). -/
def opFexp2 (f : L2R) : LaneOp :=
  ⟨f.form 3, evF fun a _ _ => fUnary .exp2 fmt32b (.ofCode f.r) (fmt32b.read a)⟩

/-- `flog2` (R136). -/
def opFlog2 (f : L2R) : LaneOp :=
  ⟨f.form 3, evF fun a _ _ => fUnary .log2 fmt32b (.ofCode f.r) (fmt32b.read a)⟩

/-- `hadd2F16` (R137). -/
def opHadd2F16 (f : L3) : LaneOp :=
  ⟨f.form 2 false, evF (packed2 (fAddB fmt16b .rne))⟩

/-- `hmul2F16` (R137). -/
def opHmul2F16 (f : L3) : LaneOp :=
  ⟨f.form 2 false, evF (packed2 (fMulB fmt16b .rne))⟩

/-- `hfma2F16` (R137). -/
def opHfma2F16 (f : L3) : LaneOp :=
  ⟨f.form 2 false true, evF (packed2 (fFmaB fmt16b .rne))⟩

/-- `hadd2Bf16` (R137). -/
def opHadd2Bf16 (f : L3) : LaneOp :=
  ⟨f.form 2 false, evF (packed2 (fAddB fmtBf16 .rne))⟩

/-- `hmul2Bf16` (R137). -/
def opHmul2Bf16 (f : L3) : LaneOp :=
  ⟨f.form 2 false, evF (packed2 (fMulB fmtBf16 .rne))⟩

/-- `hfma2Bf16` (R137). -/
def opHfma2Bf16 (f : L3) : LaneOp :=
  ⟨f.form 2 false true, evF (packed2 (fFmaB fmtBf16 .rne))⟩

/-- `dadd` (R138). -/
def opDadd (f : N3R) : LaneOp :=
  ⟨f.form, evD (fAddB fmt64b (.ofCode f.r))⟩

/-- `dmul` (R138). -/
def opDmul (f : N3R) : LaneOp :=
  ⟨f.form, evD (fMulB fmt64b (.ofCode f.r))⟩

/-- `dfma` (R138). -/
def opDfma (f : N3R) : LaneOp :=
  ⟨f.form true, evD (fFmaB fmt64b (.ofCode f.r))⟩

/-- `cvt` (R139, R140). -/
def opCvt (f : CvtF) : LaneOp :=
  ⟨f.form, evD fun a _ _ => cvtV f.src.toNat f.dst.toNat (.ofCode f.rm) a⟩

/-- `cvtD8x4` (R141). -/
def opCvtD8x4 (f : N2) : LaneOp :=
  ⟨{ cls := 1, a := .quad f.a, dst := .w f.d, chain := true }, fun a _ _ => let r := packD8 a; (BitVec.ofNat 128 r.1, r.2)⟩

/-- `cvtF32x4` (R141). -/
def opCvtF32x4 (f : N2) : LaneOp :=
  ⟨{ cls := 1, a := .w f.a, dst := .quad f.d, chain := true }, fun a _ _ => let r := unpackD8 (lo a 0 32).toNat; (BitVec.ofNat 128 r.1, r.2)⟩

/-- `fadd` (R133). -/
def execFadd (f : L3R) (s : State) : Out := .next (s.issueLane (.fadd f) (opFadd f))

/-- `fsub` (R133). -/
def execFsub (f : L3R) (s : State) : Out := .next (s.issueLane (.fsub f) (opFsub f))

/-- `fmul` (R133). -/
def execFmul (f : L3R) (s : State) : Out := .next (s.issueLane (.fmul f) (opFmul f))

/-- `ffma` (R133). -/
def execFfma (f : L3R) (s : State) : Out := .next (s.issueLane (.ffma f) (opFfma f))

/-- `fmin` (R134). -/
def execFmin (f : L3) (s : State) : Out := .next (s.issueLane (.fmin f) (opFmin f))

/-- `fmax` (R134). -/
def execFmax (f : L3) (s : State) : Out := .next (s.issueLane (.fmax f) (opFmax f))

/-- `fcmp` (R135). -/
def execFcmp (f : LCmp) (s : State) : Out := .next (s.issueLane (.fcmp f) (opFcmp f))

/-- `frcp` (R136). -/
def execFrcp (f : L2R) (s : State) : Out := .next (s.issueLane (.frcp f) (opFrcp f))

/-- `frsq` (R136). -/
def execFrsq (f : L2R) (s : State) : Out := .next (s.issueLane (.frsq f) (opFrsq f))

/-- `fsqrt` (R136). -/
def execFsqrt (f : L2R) (s : State) : Out := .next (s.issueLane (.fsqrt f) (opFsqrt f))

/-- `fexp2` (R136). -/
def execFexp2 (f : L2R) (s : State) : Out := .next (s.issueLane (.fexp2 f) (opFexp2 f))

/-- `flog2` (R136). -/
def execFlog2 (f : L2R) (s : State) : Out := .next (s.issueLane (.flog2 f) (opFlog2 f))

/-- `hadd2F16` (R137). -/
def execHadd2F16 (f : L3) (s : State) : Out := .next (s.issueLane (.hadd2F16 f) (opHadd2F16 f))

/-- `hmul2F16` (R137). -/
def execHmul2F16 (f : L3) (s : State) : Out := .next (s.issueLane (.hmul2F16 f) (opHmul2F16 f))

/-- `hfma2F16` (R137). -/
def execHfma2F16 (f : L3) (s : State) : Out := .next (s.issueLane (.hfma2F16 f) (opHfma2F16 f))

/-- `hadd2Bf16` (R137). -/
def execHadd2Bf16 (f : L3) (s : State) : Out := .next (s.issueLane (.hadd2Bf16 f) (opHadd2Bf16 f))

/-- `hmul2Bf16` (R137). -/
def execHmul2Bf16 (f : L3) (s : State) : Out := .next (s.issueLane (.hmul2Bf16 f) (opHmul2Bf16 f))

/-- `hfma2Bf16` (R137). -/
def execHfma2Bf16 (f : L3) (s : State) : Out := .next (s.issueLane (.hfma2Bf16 f) (opHfma2Bf16 f))

/-- `dadd` (R138). -/
def execDadd (f : N3R) (s : State) : Out := .next (s.issueLane (.dadd f) (opDadd f))

/-- `dmul` (R138). -/
def execDmul (f : N3R) (s : State) : Out := .next (s.issueLane (.dmul f) (opDmul f))

/-- `dfma` (R138). -/
def execDfma (f : N3R) (s : State) : Out := .next (s.issueLane (.dfma f) (opDfma f))

/-- `cvt` (R139, R140). -/
def execCvt (f : CvtF) (s : State) : Out := .next (s.issueLane (.cvt f) (opCvt f))

/-- `cvtD8x4` (R141). -/
def execCvtD8x4 (f : N2) (s : State) : Out := .next (s.issueLane (.cvtD8x4 f) (opCvtD8x4 f))

/-- `cvtF32x4` (R141). -/
def execCvtF32x4 (f : N2) (s : State) : Out := .next (s.issueLane (.cvtF32x4 f) (opCvtF32x4 f))

end Sys2Proof.Machine
end

