-- ==== Sys2Proof/Machine/CrossLane.lean ====
section
/-! DEFINITION. Cross-lane and walker instructions (R142 to R150). -/

namespace Sys2Proof.Machine

/-- A member's source values of a cross-lane form: rank, A, B, FILL. -/
abbrev Srcs := Nat × Word × Word × Word

/-- A cross-lane form: every member's result from every member's sources (R142). -/
structure CrossOp where
  form : Form
  eval : List Srcs → List (Nat × Word)

/-- A member's A value by rank. -/
def srcAOf (ss : List Srcs) (r : Nat) : Option Word :=
  match ss.find? fun x => x.1 == r with
  | some x => some x.2.1
  | none => none

/-- `shfl` with the index rule `j` of a rank and a count (R143). -/
def evShfl (j : Nat → Nat → Option Nat) (ss : List Srcs) : List (Nat × Word) :=
  ss.map fun x =>
    (x.1, (((j x.1 (x.2.2.1.toNat % 32)).bind (srcAOf ss)).getD x.2.2.2))

/-- Index of `shfl.idx`. -/
def shIdx (_t c : Nat) : Option Nat := some c
/-- Index of `shfl.up`. -/
def shUp (t c : Nat) : Option Nat := if c ≤ t then some (t - c) else none
/-- Index of `shfl.down`. -/
def shDown (t c : Nat) : Option Nat := if t + c ≤ 31 then some (t + c) else none
/-- Index of `shfl.xor`. -/
def shXor (t c : Nat) : Option Nat := some (t ^^^ c)

/-- The same value for every member. -/
def toAll (ss : List Srcs) (v : Word) : List (Nat × Word) := ss.map fun x => (x.1, v)

/-- `redux.add` (R145). -/
def evReduxAdd (ss : List Srcs) : List (Nat × Word) :=
  toAll ss (ss.foldl (fun v x => v + x.2.1) 0)
/-- `redux.min` or `redux.max`: the first member's value, bettered by the others (R145). -/
def evReduxBy (f : Word → Word → Word) (ss : List Srcs) : List (Nat × Word) :=
  match ss with
  | [] => []
  | x :: r => toAll ss (r.foldl (fun v y => f v y.2.1) x.2.1)
/-- The mask of members that satisfy a test. -/
def maskOf (ss : List Srcs) (p : Srcs → Bool) : Word :=
  ss.foldl (fun m x => if p x then m ||| ((1 : Word) <<< x.1) else m) 0
/-- `match` (R146). -/
def evMatch (ss : List Srcs) : List (Nat × Word) :=
  ss.map fun x => (x.1, maskOf ss fun y => y.2.1 == x.2.1)

/-- Results of a cross-lane form written to its members. -/
def State.putCross (s : State) (c : Ctx) (op : CrossOp) (ss : List Srcs) : State :=
  let rs := op.eval ss
  let s1 := s.writeResults c c.f.dst (rs.map fun r => (r.1, r.2.zeroExtend 128))
  s1.latchAll c (rs.map fun r => (r.1, (srcAOf ss r.1).getD 0, r.2))

/-- EFFECT OF A CROSS-LANE FORM (R142): every source is read before any member is written. A bound
walker source puts the whole instruction in flight (R149). -/
def State.runCross (s : State) (op : CrossOp) (c : Ctx) : State :=
  let s1 := s.advanceWalkers c
  if c.walks then
    (s1.launch c (c.threads.map fun e =>
      let w := walkReads c.f e.2
      { mkMember c e w.1 w.2.1 with d := lo ((c.env e).val c.f.fill) 0 64 })
      c.f.dst.names none .lane 0).2.next_ c
  else
    (s1.putCross c op (c.threads.map fun e =>
      let v := c.env e
      (e.1, lo (v.val c.f.a) 0 32, lo (v.val c.f.b) 0 32, lo (v.val c.f.fill) 0 32))).next_ c

/-- ISSUE OF A CROSS-LANE FORM. -/
def State.issueCross (s : State) (i : Instr) (op : CrossOp) : State :=
  s.issue i op.form fun c s => s.runCross op c

end Sys2Proof.Machine

namespace Sys2Proof

open Machine

/-- `shfl` (R143). -/
def ShflF.form (f : ShflF) : Form :=
  { cls := 1, a := .w f.a, b := .w f.b, fill := .w f.fill, dst := .w f.d, h := f.h, n := f.n,
    chain := true }

end Sys2Proof

namespace Sys2Proof.Machine

/-- `shflIdx` (R143). -/
def opShflIdx (f : ShflF) : CrossOp := ⟨f.form, evShfl shIdx⟩

/-- `shflUp` (R143). -/
def opShflUp (f : ShflF) : CrossOp := ⟨f.form, evShfl shUp⟩

/-- `shflDown` (R143). -/
def opShflDown (f : ShflF) : CrossOp := ⟨f.form, evShfl shDown⟩

/-- `shflXor` (R143). -/
def opShflXor (f : ShflF) : CrossOp := ⟨f.form, evShfl shXor⟩

/-- `reduxAdd` (R145). -/
def opReduxAdd (f : L2) : CrossOp := ⟨f.form 1 false, evReduxAdd⟩

/-- `reduxMin` (R145). -/
def opReduxMin (f : L2) : CrossOp := ⟨f.form 1 false, evReduxBy minS⟩

/-- `reduxMax` (R145). -/
def opReduxMax (f : L2) : CrossOp := ⟨f.form 1 false, evReduxBy maxS⟩

/-- `match_` (R146). -/
def opMatch (f : L2) : CrossOp := ⟨f.form 1 false, evMatch⟩

/-- `shflIdx` (R143). -/
def execShflIdx (f : ShflF) (s : State) : Out := .next (s.issueCross (.shflIdx f) (opShflIdx f))

/-- `shflUp` (R143). -/
def execShflUp (f : ShflF) (s : State) : Out := .next (s.issueCross (.shflUp f) (opShflUp f))

/-- `shflDown` (R143). -/
def execShflDown (f : ShflF) (s : State) : Out := .next (s.issueCross (.shflDown f) (opShflDown f))

/-- `shflXor` (R143). -/
def execShflXor (f : ShflF) (s : State) : Out := .next (s.issueCross (.shflXor f) (opShflXor f))

/-- `reduxAdd` (R145). -/
def execReduxAdd (f : L2) (s : State) : Out := .next (s.issueCross (.reduxAdd f) (opReduxAdd f))

/-- `reduxMin` (R145). -/
def execReduxMin (f : L2) (s : State) : Out := .next (s.issueCross (.reduxMin f) (opReduxMin f))

/-- `reduxMax` (R145). -/
def execReduxMax (f : L2) (s : State) : Out := .next (s.issueCross (.reduxMax f) (opReduxMax f))

/-- `match_` (R146). -/
def execMatch (f : L2) (s : State) : Out := .next (s.issueCross (.match_ f) (opMatch f))

/-- A vote on a predicate (R144): the members' predicate values. -/
def Ctx.ballot (c : Ctx) (q : Nat) : List (Nat × Bool) := c.threads.map fun e => (e.1, predOf e.2 q)

/-- Latches after a vote: with H = 1 what enters o0 is open, for A is a predicate and R83 gives it no value (assumption
log 116). `r` is the result. -/
def State.latchVote (s : State) (c : Ctx) (r : Word) : State :=
  let (v, s1) := s.freeWord
  (if c.f.h then s1 else s).latchAll c (c.threads.map fun e => (e.1, v, r))

/-- A vote into a predicate of every member (R144). -/
def State.issueVote (s : State) (i : Instr) (f : VoteP) (g : List Bool → Bool) : State :=
  s.issue i { predR := [f.q.toNat], predW := [f.p.toNat], h := f.h, chain := true } fun c s =>
    let v := g ((c.ballot f.q.toNat).map (·.2))
    let s1 := s.writePreds c f.p.toNat (c.threads.map fun e => (e.1, v))
    (s1.latchVote c (if v then 1 else 0)).next_ c

/-- `vote.any` (R144). -/
def execVoteAny (f : VoteP) (s : State) : Out :=
  .next (s.issueVote (.voteAny f) f fun l => l.any id)

/-- `vote.all` (R144). -/
def execVoteAll (f : VoteP) (s : State) : Out :=
  .next (s.issueVote (.voteAll f) f fun l => l.all id)

/-- `vote.ballot` (R144). -/
def execVoteBallot (f : VoteB) (s : State) : Out :=
  .next (s.issue (.voteBallot f)
    { predR := [f.q.toNat], dst := .w f.d, h := f.h, n := f.n, chain := true } fun c s =>
      let m := maskOf (c.threads.map fun e => (e.1, 0, 0, 0)) fun x =>
        (c.ballot f.q.toNat).any fun b => b.1 == x.1 && b.2
      let s1 := s.writeResults c (.w f.d) (c.threads.map fun e => (e.1, m.zeroExtend 128))
      (s1.latchVote c m).next_ c)

/-- Walkers of every member changed. -/
def State.modWalkers (s : State) (c : Ctx) (k : Nat) (f : Nat × Thread → Walker → Walker) : State :=
  s.modGroup c.gid fun g => g.modThreads c.p.mask fun r t =>
    { t with walkers := Tab.put t.walkers k (f (r, t) (Tab.getD t.walkers k {})) }

/-- Latches after a chain instruction without a 32-bit result (R83, log 8). -/
def State.latchFree (s : State) (c : Ctx) : State :=
  if c.inChain then
    let (v, s1) := s.freeWord
    s1.latchAll c (c.threads.map fun e => (e.1, 0, v))
  else s

/-- `w.bind` (R148): the walker's state from the pair A and the quad B. -/
def execWBind (f : WBindF) (s : State) : Out :=
  .next (s.issue (.wBind f) { a := .pair f.a, b := .quad f.b, chain := true, wDst := [112 + f.k.toNat] } fun c s =>
    let s1 := s.modWalkers c f.k.toNat fun e _ =>
      let v := c.env e
      let q := v.val (.quad f.b)
      { bound := true, base := v.pair f.a, e := lo q 0 2, c0 := lo q 32 16, c1 := lo q 48 16,
        s0 := lo q 64 32, s1 := lo q 96 32, i0 := 0, i1 := 0, fin := false }
    (s1.latchFree c).next_ c)

/-- `w.skip` (R150). -/
def execWSkip (f : WSkipF) (s : State) : Out :=
  .next (s.issue (.wSkip f) { a := .w f.a, chain := true, wDst := [112 + f.k.toNat] } fun c s =>
    let s1 := s.modWalkers c f.k.toNat fun e k => k.skip ((c.env e).word f.a).toNat
    (s1.latchFree c).next_ c)

end Sys2Proof.Machine
end

