-- ==== Sys2Proof/Machine/Control.lean ====
section
/-! DEFINITION. Control flow, places and system registers (R151, R153 to R173; `eret.save` stands in
Save.lean). -/

namespace Sys2Proof.Machine

/-! ### Transfers (R151, R158 to R164) -/

/-- A split of the issuing path by a flag of each member (R28): members that satisfy it go to the
target, the others to the next instruction. -/
def State.branchOn (s : State) (c : Ctx) (f : BrF) (taken : Nat × Thread → Bool) : State :=
  let m := c.maskWhere taken
  s.retireSplit c [(m, c.target f.off, true), (c.p.mask &&& ~~~m, c.after, false)] (f.cp == 1)

/-- `bra` (R159). -/
def execBra (f : BrF) (s : State) : Out :=
  .next (s.issue (.bra f) { predR := [f.p.toNat] } fun c s =>
    s.branchOn c f fun e => predOf e.2 f.p.toNat == f.ps)

/-- `bw` (R151): END of the walker in place of the predicate. -/
def execBw (f : BrF) (s : State) : Out :=
  .next (s.issue (.bw f) {} fun c s =>
    s.branchOn c f fun e => walkerEnd e.2 f.p.toNat == f.ps)

/-- `jmp` (R160). -/
def execJmp (off : BitVec 19) (s : State) : Out :=
  .next (s.issue (.jmp off) { group := true } fun c s => s.retireTo c (c.target off))

/-- `gbra` (R160): the leader's predicate. -/
def execGbra (f : GBrF) (s : State) : Out :=
  .next (s.issue (.gbra f) { group := true, predR := [f.p.toNat] } fun c s =>
    if predOf c.leader.2 f.p.toNat == f.ps then s.retireTo c (c.target f.off) else s.next_ c)

/-- The link written to a pair of every member (R161). -/
def State.writeLink (s : State) (c : Ctx) : State :=
  s.writeResults c c.f.dst (c.threads.map fun e => (e.1, (c.p.pc + 4).zeroExtend 128))

/-- `call` (R161). -/
def execCall (f : CallF) (s : State) : Out :=
  .next (s.issue (.call f) { group := true, dst := .pair (BitVec.ofNat 7 (2 * f.l.toNat)) } fun c s =>
    (s.writeLink c).retireTo c (c.target f.off))

/-- `callr` (R161). -/
def execCallr (f : N2) (s : State) : Out :=
  .next (s.issue (.callr f) { group := true, a := .pair f.a, dst := .pair f.d } fun c s =>
    let t := c.lead.pair f.a
    if t == 0 then s.trapCode c .nullret
    else if t.extractLsb' 0 2 != 0 then s.trapMask c .align c.p.mask t 0
    else (s.writeLink c).retireTo c t)

/-- Distinct values of a list, in order of first appearance. -/
def distinct {α : Type} [BEq α] (l : List α) : List α :=
  l.foldl (fun r v => if r.contains v then r else r ++ [v]) []

/-- The lowest of a list of addresses (R347). -/
def lowest (l : List DWord) : DWord :=
  match l with
  | [] => 0
  | a :: r => r.foldl (fun m v => if v < m then v else m) a

/-- `ret` (R162). -/
def execRet (a : Name) (s : State) : Out :=
  .next (s.issue (.ret a) { a := .pair a } fun c s =>
    let t := fun e : Nat × Thread => (c.env e).pair a
    let nul := c.maskWhere fun e => t e == 0
    let bad := c.maskWhere fun e => (t e).extractLsb' 0 2 != 0
    if nul != 0 then s.trapMask c .nullret nul 0 0
    else if bad != 0 then s.trapMask c .align bad (lowest ((c.threads.map t).filter fun v =>
      v.extractLsb' 0 2 != 0)) 0
    else s.retireSplit c
      ((distinct (c.threads.map t)).map fun v => (c.maskWhere (fun e => t e == v), v, true)) false)

/-- `exit` (R163). -/
def execExit (s : State) : Out :=
  .next (s.issue .exit {} fun c s => (s.retire c id).endMembers c.gid c.p.mask)

/-- `nop` (R164). -/
def execNop (s : State) : Out := .next (s.issue .nop {} fun c s => s.next_ c)

/-- `yield` (R164): the other ready groups' turns come before this group's next, as they do after
every issue (assumption log 2). -/
def execYield (s : State) : Out := .next (s.issue .yield {} fun c s => s.next_ c)

/-! ### Places (R153 to R157) -/

/-- Place code of `plc` (R33). -/
def Place.code : Place → BitVec 2
  | .lane => 0
  | .cluster => 1
  | .slice => 2
  | .memory => 3

/-- The 64-bit value that `plc` writes for a name of a thread (R157). -/
def plcWord (w : Workgroup) (t : Thread) (n : Nat) : DWord :=
  let (pl, u) := placeOf w t n
  let anchor : DWord := match Tab.find? t.far n with
    | some f => f.anchor
    | none => 0
  BitVec.ofNat 6 u ++ pl.code ++ anchor.extractLsb' 0 56

/-- `plc` (R157). -/
def execPlc (f : N2) (s : State) : Out :=
  .next (s.issue (.plc f) { dst := .pair f.d, see := (Fld.w f.a).names } fun c s =>
    (s.writeResults c (.pair f.d)
      (c.threads.map fun e => (e.1, (plcWord c.w e.2 f.a.toNat).zeroExtend 128))).next_ c)

/-- Where a name of a thread stands once the moves in flight are done. -/
def finalPlace (ops : Tab Op) (w : Workgroup) (t : Thread) (n : Nat) : Place :=
  (inFlightPlace ops t.tid n).getD (placeOf w t n).1

/-- PLACE at issue of a `redecl` (R34, R153): a CLUSTER name or target, or a ninth name at a far place. -/
def redeclPlace (f : RedeclF) (ops : Tab Op) (w : Workgroup) (t : Thread) : Bool :=
  f.f == 1 || (f.d.isV && w.clusterMap.getLsbD f.d.toNat)
    || (f.f != 0 && finalPlace ops w t f.d.toNat != placeTo f
      && decide (8 ≤ ((List.range 112).filter fun n => finalPlace ops w t n == placeTo f).length))

/-- A name moved to LANE (R154). -/
def Thread.toLane (t : Thread) (n : Nat) (v : Word) : Thread :=
  { t with far := Tab.del t.far n, lane := Tab.put t.lane n v }

/-- A name moved to a far place with its anchor (R154). -/
def Thread.toFar (t : Thread) (n : Nat) (p : Place) (unit : Nat) (anchor : DWord) (v : Word) : Thread :=
  { t with lane := Tab.del t.lane n,
           far := Tab.put t.far n { place := p, unit, anchor := anchor &&& 0x00FFFFFFFFFFFFFF, value := v } }

/-- What issue must know of `redecl` (R153). With F = 1 no field has a limit, and the form raises PLACE. -/
def RedeclF_form (f : RedeclF) : Form :=
  { dst := if f.f == 1 then .none else .w f.d, far := true, outside := true, log := f.f != 0,
    full := if f.f == 1 then [] else (Fld.pair f.a).names, placeOn := redeclPlace f }

/-- `redecl` (R153 to R156): it goes in flight, but for members whose name is at LANE already when
LANE is the target. A target LANE is confirmed at issue (R155). -/
def execRedecl (f : RedeclF) (s : State) : Out :=
  .next (s.issue (.redecl f) (RedeclF_form f) fun c s =>
    let ms := (c.threads.filter fun e => f.f != 0 || (c.execPlace e.2).1 != .lane).map fun e =>
      { mkMember c e none none with
        addr := (c.env e).pair f.a, d := (readV c.w e.2 f.d.toNat).zeroExtend 64 }
    let s1 := s.modGroup c.gid fun g => g.untag f.d.toNat
    if ms.isEmpty then s1.next_ c
    else
      let (id, s2) := s1.launch c ms [f.d.toNat] none .far 0
      (if f.f == 0 then { s2 with ops := Tab.upd s2.ops id fun o => { o with stage := .confirmed } }
       else s2).next_ c)

/-! ### System registers (R165 to R168) -/

/-- Access to a system register. -/
inductive RegKind where
  | none | read | readWrite | handlerRead | handler | priv
  deriving DecidableEq, Repr

/-- The registers of R165. -/
def sysKind (n : Nat) : RegKind :=
  if n == 0 then .readWrite
  else if n ≤ 0x0B then .read
  else if n == 0x10 || n == 0x11 then .read
  else if n == 0x100 then .handlerRead
  else if 0x101 ≤ n && n ≤ 0x10B then .handler
  else if 0x2000 ≤ n && n ≤ 0x2002 then .priv
  else .none

/-- ILL of an access (R166 checks 1 to 3). -/
def sysIll (write : Bool) (n : Nat) (g : Group) (_w : Workgroup) : Bool :=
  match sysKind n with
  | .none => true
  | .read => write
  | .readWrite | .priv => false
  | .handlerRead => !g.handler || write
  | .handler => !g.handler

/-- A 32-bit half of a 64-bit register. -/
def half (v : DWord) (hi : Bool) : Word := if hi then lo v 32 32 else lo v 0 32

/-- A half of a 64-bit register replaced. -/
def setHalf (v : DWord) (hi : Bool) (x : Word) : DWord :=
  if hi then x ++ lo v 0 32 else lo v 32 32 ++ x

/-- PRIVST (R165). -/
def privst (g : Group) (w : Workgroup) : Word :=
  (if w.priv || g.steward then 1 else 0) ||| (if g.handler then 2 else 0) ||| (if g.steward then 4 else 0)

/-- The live bank's offset as XWLIVE reads (R165). -/
def xwlive (w : Workgroup) : Word := if w.xwin == 0 then 0xFFFFFFFF else BitVec.ofNat 32 w.live

/-- Path record register `n` from 0x0101 up (R165): record and part. -/
def recRead (g : Group) (n : Nat) : Word :=
  let k := (n - 0x101) / 3
  match (n - 0x101) % 3 with
  | 0 => half (g.epcOf k) false
  | 1 => half (g.epcOf k) true
  | _ => g.emskOf k

/-- Reference ticks of the die of a group; an X-die keeps C-die 0's count. -/
def State.ticksOf (s : State) (g : Group) : Nat :=
  (s.die (if g.steward then 0 else locDie g.loc)).ticks

/-- SID register of a group's die (R165). -/
def State.sidOf (s : State) (g : Group) : Nat := (s.space (coreDie g.loc)).2

/-- SPILLBASE of a group's core (R165, R367). -/
def State.spillOf (s : State) (g : Group) : DWord :=
  Tab.getD (s.die (coreDie g.loc)).spill (locCoreOfDie g.loc) 0

/-- Value of a system register for the issuing path (R165, R167). -/
def State.sysRead (s : State) (c : Ctx) (n : Nat) : Word :=
  match n with
  | 0x0 => c.g.fpx.zeroExtend 32
  | 0x1 => c.p.mask
  | 0x2 => c.g.members
  | 0x3 => c.w.index.zeroExtend 32
  | 0x4 => BitVec.ofNat 32 c.g.gindex
  | 0x5 => BitVec.ofNat 32 c.w.region
  | 0x6 => if c.g.steward then Config.stewardLocWord c.g.loc &&& 0x3FF else BitVec.ofNat 32 c.g.loc
  | 0x7 => BitVec.ofNat 32 c.w.nb
  | 0x8 => BitVec.ofNat 32 c.w.scrBase
  | 0x9 => BitVec.ofNat 32 c.w.scrSize
  | 0xA => xwlive c.w
  | 0xB => privst c.g c.w
  | 0x10 => BitVec.ofNat 32 (s.ticksOf c.g)
  | 0x11 => c.g.timeHi
  | 0x100 => c.g.hcause.zeroExtend 32
  | 0x10A => half c.g.ctx false
  | 0x10B => half c.g.ctx true
  | 0x2000 => BitVec.ofNat 32 (s.sidOf c.g)
  | 0x2001 => half (s.spillOf c.g) false
  | 0x2002 => half (s.spillOf c.g) true
  | n => recRead c.g n

/-- A far result of the group is outstanding (R56). -/
def State.farOutstanding (s : State) (gid : Nat) : Bool :=
  s.ops.any fun o => o.2.gid == gid && !o.2.aside && o.2.members.any fun m => !m.done && (m.place != .lane || o.2.isRedecl)

/-- Flags of the group's earlier instructions are outstanding (R168): far results and results that
wait for walker elements. -/
def State.flagsOutstanding (s : State) (gid : Nat) : Bool :=
  s.ops.any fun o => o.2.gid == gid && !o.2.aside && o.2.members.any fun m =>
    !m.done && (m.place != .lane || m.wa.isSome || m.wb.isSome)

/-- `sysr` (R167). -/
def execSysr (f : NumF) (s : State) : Out :=
  .next (s.issue (.sysr f)
    { group := true, dst := .w f.d, illOn := sysIll false f.num.toNat,
      priv := sysKind f.num.toNat == .priv } fun c s =>
    let n := f.num.toNat
    if n == 0 && s.farOutstanding c.gid then s.turnOver
    else
      let v := s.sysRead c n
      let s1 := if n == 0x10 then s.modGroup c.gid fun g =>
          { g with timeHi := BitVec.ofNat 32 (s.ticksOf c.g / 2 ^ 32) } else s
      (s1.writeResults c (.w f.d) (c.threads.map fun e => (e.1, v.zeroExtend 128))).next_ c)

/-- A group register written (R168). -/
def Group.sysWrite (g : Group) (n : Nat) (v : Word) : Group :=
  if n == 0 then { g with fpx := lo v 0 5 }
  else if n == 0x10A then { g with ctx := setHalf g.ctx false v }
  else if n == 0x10B then { g with ctx := setHalf g.ctx true v }
  else
    let k := (n - 0x101) / 3
    match (n - 0x101) % 3 with
    | 0 => { g with epc := Tab.put g.epc k (setHalf (g.epcOf k) false v) }
    | 1 => { g with epc := Tab.put g.epc k (setHalf (g.epcOf k) true v) }
    | _ => { g with emsk := Tab.put g.emsk k v }

/-- The SPILLBASE register of a core written: the images of its stored groups are copied to the new
area before it takes effect (R168). The images' layout is the device's own (R112): `stored` groups keep
their registers in `Group` too (assumption log 15). -/
def State.setSpill (s : State) (d core : Nat) (v : DWord) : State :=
  let stored := s.groups.filter fun e => e.2.stored && coreDie e.2.loc == d && locCoreOfDie e.2.loc == core
  let old := (Tab.getD (s.die d).spill core 0).toNat
  let s1 := stored.foldl (fun t e =>
    t.writePaN (v.toNat + spillImage * e.2.slot) (s.readPaN (old + spillImage * e.2.slot) spillImage)) s
  s1.modDie d fun x => { x with spill := Tab.put x.spill core v }

/-- A system register written with the leader's value (R168). -/
def State.sysWrite (s : State) (c : Ctx) (n : Nat) (v : Word) : State :=
  if n < 0x2000 then s.modGroup c.gid fun g => g.sysWrite n v
  else if n == 0x2000 then
    let d := coreDie c.g.loc
    if d < 4 then s.modDie d fun x => { x with sid := v.toNat % 4096 }
    else s.modXdie d fun x => { x with sid := v.toNat % 4096 }
  else s.setSpill (coreDie c.g.loc) (locCoreOfDie c.g.loc) (setHalf (s.spillOf c.g) (n == 0x2002) v)

/-- `sysw` (R168). D is a source, which LANE reads wherever it stands (R39): no PLACE is raised (R168 does not
say so in words; assumption log 100). -/
def execSysw (f : NumF) (s : State) : Out :=
  .next (s.issue (.sysw f)
    { group := true, d := .w f.d, illOn := sysIll true f.num.toNat,
      priv := sysKind f.num.toNat == .priv } fun c s =>
    if f.num.toNat == 0 && s.flagsOutstanding c.gid then s.turnOver
    else (s.sysWrite c f.num.toNat (c.lead.word f.d)).next_ c)

/-! ### Traps and return (R169 to R173) -/

/-- A local trap in handler state or on a steward core (R169). -/
def trapIll (code : BitVec 21) (g : Group) (_w : Workgroup) : Bool :=
  code.getLsbD 20 && (g.handler || g.steward)

/-- The logged operations of a group set aside while it is in handler state for a pre-emption (R353). -/
def State.setAside (s : State) (gid : Nat) : State :=
  { s with ops := Tab.mapV s.ops fun _ o =>
      if o.gid == gid && s.logged o then { o with aside := true } else o }

/-- An engine suspended for a pre-emption goes on once no group of its workgroup is in handler state for it
(R314). -/
def State.wakeEngine (s : State) (gid : Nat) : State :=
  match s.group? gid with
  | none => s
  | some g =>
    if s.groups.any fun x => x.2.wg == g.wg && !x.2.steward && x.2.handler && x.2.hcause.toNat % 16 == 1 then s
    else s.modEngine g.loc fun e => if e.owner == .wg g.wg then { e with halted := false } else e

/-- The operations set aside go on after the group's `eret` (R353). -/
def State.takeUp (s : State) (gid : Nat) : State :=
  ({ s with ops := Tab.mapV s.ops fun _ o =>
      if o.gid == gid then { o with aside := false } else o }).wakeEngine gid

/-- A `cont.push` or `ttask` that no queue has accepted and no fault has stopped: it has not issued (R319). -/
def Op.waitsForRoom (o : Op) : Bool :=
  o.stage != .faulted && (o.members.all fun m => m.frags.all fun f => !f.sent) && match o.instr with
  | .contPush _ | .ttask _ => true
  | _ => false

/-- A group whose path goes back before an instruction that has not issued. -/
def Group.unissue (id : Nat) (o : Op) (g : Group) : Group :=
  let back := fun p : Path => if p.wait == .enq id then { p with wait := .none, pc := o.pc } else p
  { g with paths := g.paths.map back, parked := g.parked.map back,
           sb := Tab.mapV g.sb fun _ l => l.filter fun e => e.1 != id }

/-- The enqueues of a group that wait for room are taken back: a PREEMPT request may be taken before
them (R46, R319). -/
def State.unissue (s : State) (gid : Nat) : State :=
  (List.filter (fun o : Nat × Op => o.2.gid == gid && o.2.waitsForRoom) s.ops).foldl
    (fun s o => (s.modGroup gid (Group.unissue o.1 o.2)).delOp o.1) s

/-- Handler entry, if its conditions hold (R170). -/
def State.tryEnter (s : State) (gid : Nat) : State :=
  if s.entryReady gid then
    match (s.group? gid).bind (·.localTrap) with
    | some (code, _) => (s.unissue gid).enterHandler gid 2 code
    | none => ((s.unissue gid).enterHandler gid 1 0).setAside gid
  else s

/-- `trap` (R169): SWTRAP stops the issuing path with the next instruction as its resume point; a
local trap enters handler state, now or at the first boundary that allows it. -/
def execTrap (code : BitVec 21) (s : State) : Out :=
  .next (s.issue (.trap code) { group := true, outside := true, illOn := trapIll code } fun c s =>
    if code.getLsbD 20 then
      (s.retire c fun g =>
        { g.modPath c.pi c.seqPath with localTrap := some (code, c.p.mask) }).tryEnter c.gid
    else if c.g.steward && s.stewardFull (coreDie c.g.loc) then s.turnOver
    else
      (s.takeTrap c.gid c.pi
        { s.trapInfo c.g .swtrap c.p.pc c.p.mask with detail := code.zeroExtend 64 }
        (some c.after)).retire c id)

/-- Nonzero masks of the path records overlap (R171). -/
def recordsOverlap (g : Group) : Bool :=
  (g.emskOf 0 &&& g.emskOf 1) != 0 || (g.emskOf 0 &&& g.emskOf 2) != 0
    || (g.emskOf 1 &&& g.emskOf 2) != 0

/-- Ranks of the group's paths without those that wait to be cast (R29). -/
def Group.pathMask (g : Group) : Word :=
  (g.paths.foldl (fun m p => m ||| p.mask) 0) ||| (g.parked.elim 0 (·.mask))

/-- The path conditions of `eret` and `eret.save` (R171, R172). Threads that wait to be cast stand in no
path (R29; assumption log 17). -/
def eretIll (g : Group) (_w : Workgroup) : Bool :=
  let u := g.emskOf 0 ||| g.emskOf 1 ||| g.emskOf 2
  !g.handler || g.paths.length != 1 || g.parked.isSome
    || (g.paths.head?.map fun p => p.mask) != some u
    || recordsOverlap g || u != g.pathMask

/-- A nonzero record's PC is not a multiple of 4 (R171). -/
def eretAlign (g : Group) : Bool :=
  [0, 1, 2].any fun k => g.emskOf k != 0 && (g.epcOf k).extractLsb' 0 2 != 0

/-- `eret` (R171). -/
def execEret (s : State) : Out :=
  .next (s.issue .eret { group := true, illOn := eretIll } fun c s =>
    if eretAlign c.g then s.trapCode c .align
    else (s.retire c fun g => g.leaveHandler c.w).takeUp c.gid)

/-- An earlier store or atomic of a member of the group is not performed (R173). -/
def State.storesPending (s : State) (c : Ctx) : Bool :=
  s.ops.any fun o => (o.2.stores || (match o.2.instr with
    | .atom _ => true
    | _ => false))
    && !o.2.aside && c.g.threads.any fun t => (o.2.pends t.2.tid).isSome

/-- The instruction caches of the cores of a core's die invalidated; a steward core invalidates its own (R173). -/
def State.dropCode (s : State) (loc : Nat) : State :=
  { s with cores := Tab.mapV s.cores fun l c =>
      if l == loc || (loc < stewardLoc && l < stewardLoc && locDie l == locDie loc) then { c with icache := [] } else c }

/-- `ifence` (R173): it waits for the members' earlier stores and atomics, then invalidates the instruction caches. -/
def execIfence (s : State) : Out :=
  .next (s.issue .ifence { group := true } fun c s =>
    if s.storesPending c then s.turnOver else (s.dropCode c.g.loc).next_ c)

end Sys2Proof.Machine
end

