-- ==== Sys2Proof/Machine/Units.lean ====
section
/-! DEFINITION. What queues, tasks, engines, ladles and runners share: counts of the issuing group
(R176, R177), continuation queues (R320), tasks that end (R311, R312, R333), claims (R296). -/

namespace Sys2Proof.Machine

/-- A counted command is complete for its group (R176, R177). -/
def State.sbComplete (s : State) (gid k id : Nat) : State := s.modGroup gid fun g => g.sbDone k id

/-! ### Continuation queues (R320) -/

/-- Records of a level, oldest first. -/
def Die.level (d : Die) (l : Nat) : List QRec := Tab.getD d.queues l []

/-- Records that a level's ring holds: 2^k (R318, R367). -/
def Die.ringSize (d : Die) (l : Nat) : Nat := 2 ^ Tab.getD d.cqK l 8

/-- The level a record enters on a die: its region's PRIO, or 0 (R320). -/
def State.levelOf (s : State) (d : Nat) (r : Record) : Nat :=
  match s.rgn? d r.region with
  | some b => b.prio
  | none => 0

/-- The ring of a record's level has room (R320). -/
def State.ringRoom (s : State) (d : Nat) (r : Record) : Bool :=
  ((s.die d).level (s.levelOf d r)).length < (s.die d).ringSize (s.levelOf d r)

/-- A record in age order among a level's records (R321, R322). -/
def insertAge (l : List QRec) (x : QRec) : List QRec :=
  l.filter (fun y => y.since ≤ x.since) ++ x :: l.filter fun y => x.since < y.since

/-- A launch begins at an enqueue into a region, and into each ancestor, whose counts are all zero (R187). -/
def State.launchOn (s : State) (d r : Nat) : State :=
  (s.lineage d 65536 r).foldl (fun s a => if (s.run a).active then s
    else s.modRun a fun x => { x with active := true, faults := 0, killed := false, party := none }) s

/-- A record put into a die's queue. -/
def State.enqueue (s : State) (d id : Nat) (r : Record) : State :=
  let l := s.levelOf d r
  (s.launchOn d r.region).modDie d fun x =>
    { x with queues := Tab.put x.queues l (insertAge (x.level l) { id, record := r, level := l, since := x.ticks }) }

/-- A record pushed, or held at the pushing point while the ring is full (R320). -/
def State.pushRecord (s : State) (d id : Nat) (r : Record) : State :=
  if s.ringRoom d r then s.enqueue d id r
  else (s.launchOn d r.region).modDie d fun x => { x with heldPush := x.heldPush ++ [(id, { id, record := r, since := x.ticks })] }

/-- A record from its 32 bytes (R18). -/
def Record.ofBytes (bs : List Byte) : Record :=
  let q := fun k => BitVec.ofNat 64 (leNat ((bs.drop (8 * k)).take 8))
  { w0 := q 0, w1 := q 1, w2 := q 2, w3 := q 3 }

/-! ### Tasks -/

/-- A task by name: its cluster and entry. -/
def State.task? (s : State) (id : Nat) : Option (Nat × Task) :=
  s.clusters.findSome? fun c => (c.2.tasks.find? fun t => t.id == id).map fun t => (c.1, t)

/-- A task changed where it is queued. -/
def State.modTask (s : State) (id : Nat) (f : Task → Task) : State :=
  { s with clusters := Tab.mapV s.clusters fun _ c =>
      { c with tasks := c.tasks.map fun t => if t.id == id then f t else t } }

/-- A task taken off the queue of its cluster. -/
def State.dropTask (s : State) (id : Nat) : State :=
  { s with clusters := Tab.mapV s.clusters fun _ c => { c with tasks := c.tasks.filter fun t => t.id != id } }

/-- The feeds of a task discarded from the ladle queues (R312). -/
def State.dropFeeds (s : State) (id : Nat) : State :=
  { s with clusters := Tab.mapV s.clusters fun _ c =>
      { c with ladles := Tab.mapV c.ladles fun _ q => q.filter fun x => x.task != some id } }

/-- The engines of a task scrubbed and released (R296, R311). -/
def State.freeEngines (s : State) (id : Nat) : State :=
  { s with cores := Tab.mapV s.cores fun _ c =>
      if c.engine.owner == .task id then { c with engine := c.engine.release } else c }

/-- Records whose party waits no longer are out of the queue (R349). -/
def State.dropRecs (s : State) (gone : Party → Bool) : State :=
  { s with pending := s.pending.filter fun p => !gone p.party
           heldRecs := s.heldRecs.filter fun h => match h.party with
             | some p => !gone p
             | none => true }

/-- A party is a command of an engine that `own` picks, or a ladle command that `mine` picks. -/
def State.partyCmd (s : State) (own : Owner → Bool) (mine : LadleCmd → Bool) (p : Party) : Bool :=
  match p with
  | .engine loc _ => own (s.core loc).engine.owner
  | .ladle ck l id => (Tab.getD (s.cluster ck).ladles l []).any fun x => x.id == id && mine x
  | _ => false

/-- Its work stopped: commands and feeds discarded, with the records that they wait for, engines scrubbed (R311, R312,
R349). -/
def State.stopTask (s : State) (id : Nat) : State :=
  ((s.dropRecs (s.partyCmd (· == .task id) fun x => x.task == some id)).dropFeeds id).freeEngines id

/-- A task ended by a fault: its completion gate does not rise (R311, R333). -/
def State.failTask (s : State) (id : Nat) : State := (s.stopTask id).dropTask id

/-- A task stopped under KILL: it keeps its place by age until its record is answered (R312, R331). -/
def State.killTask (s : State) (id party : Nat) : State :=
  (s.stopTask id).modTask id fun t =>
    { t with cores := [], ended := [], failed := true, party := some party, images := [], suspended := false }

/-- A task whose record has been answered with RESUME is queued again (R312, R331). -/
def State.relaunchTask (s : State) (id : Nat) : State :=
  s.modTask id fun t => { t with failed := false, party := none, relaunch := true }

/-- Fault mode of a task: 1 KILL, 2 STALL (R312). A store state with EPI 3, in the table of any of its cores (R332),
forces STALL. -/
def State.taskMode (s : State) (t : Task) : Nat :=
  let m := (t.words.headD 0).toNat / 2 ^ 34 % 4
  let r := match s.rgn? t.die t.region with
    | some b => b.fmode
    | none => 0
  let epi3 := t.cores.any fun c =>
    (s.core c).engine.table.any fun e => e.2.toNat % 16 == 5 && e.2.toNat / 16 % 16 == 3
  if epi3 then 2 else if m != 0 then m else if t.mode != 0 then t.mode else r

/-! ### Patterns (R218) -/

/-- Element size of a format code (R86, R218). -/
def fmtSize (f : Nat) : Nat := if f == 0 || f == 4 then 4 else if f == 2 || f == 3 then 2 else 1

/-- FMT of a pattern. -/
def patFmt (p : List Byte) : Nat := leAt p 0x30 1
/-- SPN of a pattern. -/
def patSpn (p : List Byte) : Nat := leAt p 0x32 1
/-- SFMT of a pattern. -/
def patSfmt (p : List Byte) : Nat := leAt p 0x33 1
/-- TROWS of a pattern. -/
def patRows (p : List Byte) : Nat := leAt p 0x36 2
/-- TCOLS of a pattern. -/
def patCols (p : List Byte) : Nat := leAt p 0x38 2
/-- OFMT of a pattern. -/
def patOfmt (p : List Byte) : Nat := leAt p 0x3A 1
/-- Q of a pattern, signed. -/
def patQ (p : List Byte) : Int := (BitVec.ofNat 8 (leAt p 0x34 1)).toInt
/-- EXTi of a pattern. -/
def patExt (p : List Byte) (i : Nat) : Nat := leAt p (0x10 + 4 * i) 4
/-- STRi of a pattern, signed. -/
def patStr (p : List Byte) (i : Nat) : Int := (BitVec.ofNat 32 (leAt p (0x20 + 4 * i) 4)).toInt

/-! ### Blocks of an accumulator (R293, R294, R302) -/

/-- FAULT bit. -/
def stFAULT : BitVec 8 := 32

/-- Status of a block. -/
def Engine.block (e : Engine) (k : Nat) : BlockStatus := Tab.getD e.blocks k {}

/-- Bits set in the status of a block. -/
def Engine.mark (e : Engine) (k : Nat) (v : BitVec 8) : Engine :=
  { e with blocks := Tab.put e.blocks k { e.block k with bits := (e.block k).bits ||| v } }

/-- Column blocks of a rectangle (R302). -/
def blocksOf (cb w : Nat) : List Nat := (List.range 3).filter fun k => cb ≤ k && 64 * k < 64 * cb + w

/-- Row and column of a tile command's rectangle. -/
def EngCmd.corner (c : EngCmd) : Nat × Nat :=
  match c.instr with
  | .mxLoad f => (f.row0.toNat, f.cb.toNat)
  | .mxStore f => (f.row0.toNat, f.cb.toNat)
  | _ => (0, 0)

/-- Column blocks that a tile command touches. -/
def EngCmd.blocks (c : EngCmd) : List Nat :=
  match c.instr with
  | .mxZero f => [f.cb.toNat]
  | _ => blocksOf c.corner.2 (patCols c.pcEnt)

/-- Column blocks that a command touches (R294). -/
def EngCmd.allBlocks (c : EngCmd) : List Nat :=
  match c.instr with
  | .mxMma f | .mxSmma f => [f.cb.toNat]
  | .mxZero _ | .mxLoad _ | .mxStore _ => c.blocks
  | _ => []

/-! ### Claims (R296) -/

/-- The engine admits a direct command of a workgroup: free and not reserved for a gang, or its own. -/
def State.engineFree (s : State) (loc wg : Nat) : Bool :=
  match (s.core loc).engine.owner with
  | .free => !s.clusters.any fun c => match c.2.gangRes with
    | some t => match s.task? t with
      | some (_, x) => x.cores.isEmpty && gangMember c.1 x loc
      | none => false
    | none => false
  | .wg w => w == wg
  | .task _ => false
where
  /-- The core is a member of the gang that a task reserves (R332). -/
  gangMember (ck : Nat) (t : Task) (loc : Nat) : Bool :=
    let ctl := (t.words.headD 0).toNat / 2 ^ 32 % 256
    let gh := ctl / 16 % 4 + 1
    let gw := ctl / 64 + 1
    locDie loc == ck / 32 && decide (locCore loc < gh)
      && decide ((locCluster loc % 32 + 32 - ck % 32) % 32 < gw)

/-- The claim of a workgroup: a free engine scrubs itself (R296). -/
def State.claim (s : State) (loc wg : Nat) : State :=
  s.modEngine loc fun e =>
    if e.owner == .free then { e.release with owner := .wg wg, gang := 0x00 } else e

end Sys2Proof.Machine
end

