-- ==== Sys2Proof/Machine/Traps.lean ====
section
/-! DEFINITION. Events of traps and pre-emption (R170, R348 to R352), and the end of operations in
flight (R42, R163, R176). -/

namespace Sys2Proof.Machine

/-- An event takes place: its effect on a state without it. -/
def State.onEvent (s : State) (k : Ev → State → State) : Out :=
  match s.event with
  | some e => .next (k e { s with event := none })
  | none => .next s

/-! ### Operations that end -/

/-- Every member is done. -/
def Op.over (o : Op) : Bool := o.members.all (·.done)

/-- A path no longer waits for operation `id`. -/
def Path.unOp (id : Nat) (p : Path) : Path := (p.clear (.op id)).clear (.enq id)

/-- The path that waits for operation `id` is ready (R205, R260). -/
def Group.unOp (id : Nat) (g : Group) : Group :=
  let free := fun k : Casting => if k.wait == .op id || k.wait == .enq id then { k with wait := .none } else k
  ({ g with
     paths := g.paths.map (Path.unOp id)
     parked := g.parked.map (Path.unOp id)
     casting := g.casting.map free
     waits := g.waits.filter fun x => x.2 != .op id && x.2 != .enq id } : Group).settle

/-- A chain whose last instruction has waited for its walker elements ends with them (R83, R149). -/
def Group.endChain (mask : Word) (g : Group) : Group :=
  let spent := fun p : Path => p.mask &&& mask != 0 && (match p.chain with
    | some k => k.left == 0
    | none => false)
  let m := (g.paths.filter spent).foldl (fun m p => m ||| p.mask) 0
  if m == 0 then g
  else
    let g1 := g.modThreads m fun _ t => t.dropLatches
    ({ g1 with paths := g1.paths.map fun p => if spent p then { p with chain := none } else p } : Group).settle

/-- An operation with no member left to do is complete for its scoreboard counter and for the path that
waits for it; at package scope only when the copies on other dies are gone (R176, R177, R273). Its flags
enter FPX (R56). It is gone when nothing waits on it. -/
def State.settleOp (s : State) (id : Nat) : State :=
  match s.op? id with
  | none => s
  | some o =>
    if !o.over then s
    else
      let s1 := if o.scope < 6 || o.invs == 0 then
          (s.sbComplete o.gid o.sb id).modGroup o.gid (Group.unOp id) else s
      let s2 := if o.inChain then s1.modGroup o.gid (Group.endChain o.mask) else s1
      let s3 := s2.modGroup o.gid fun g => { g with fpx := g.fpx ||| o.flags }
      if o.invs == 0 then s3.delOp id else s3

/-- The logged instructions of ended threads are never performed (R349): their members go. -/
def State.dropLogged (s : State) (tids : List Nat) : State :=
  let cut := fun o : Op => if o.stage == .faulted
    then { o with members := o.members.filter fun m => !tids.contains m.tid } else o
  let s1 := { s with ops := Tab.mapV s.ops fun _ o => cut o }
  let gone := (s1.ops.filter fun o => o.2.over).map fun o => o.1
  let s2 := { s1 with
    pending := s1.pending.filter fun p => match p.party with
      | .op id => !gone.contains id
      | _ => true
    heldRecs := s1.heldRecs.filter fun p => match p.party with
      | some (.op id) => !gone.contains id
      | _ => true }
  gone.foldl (fun s id => s.settleOp id) s2

/-- Members ended by a disposition END (R349): as by `exit`, their logged instructions never
performed. -/
def State.endBy (s : State) (gid : Nat) (m : Word) : State :=
  match s.group? gid with
  | none => s
  | some g =>
    let tids := (g.threads.filter fun t => m.getLsbD t.1).map fun t => t.2.tid
    (s.endMembers gid m).dropLogged tids

/-! ### Dispositions (R349) -/

/-- A path that waits on a record waits no longer. -/
def Path.unTrap (id : Nat) (p : Path) : Path := p.clear (.trap id)

/-- A group's stopped path goes on (R349). -/
def Group.unTrap (id : Nat) (g : Group) : Group :=
  ({ g with
     paths := g.paths.map (Path.unTrap id)
     parked := g.parked.map (Path.unTrap id)
     casting := g.casting.map fun c => if c.wait == .trap id then { c with wait := .none } else c
     waits := g.waits.filter fun x => x.2 != .trap id } : Group).settle

/-- Members of the path that waits on a record: standing, cast, or recorded at handler entry. -/
def Group.trapMask (id : Nat) (g : Group) : Word :=
  (((g.paths ++ g.parked.toList).flatMap Path.waits).foldl (fun m x => if x.2 == .trap id then m ||| x.1 else m) 0)
    ||| (g.casting.foldl (fun m c => if c.wait == .trap id then m ||| c.mask else m) 0)
    ||| (g.waits.foldl (fun m x => if x.2 == .trap id then m ||| x.1 else m) 0)

/-- Casts that a record holds are tried again (R32, R349). -/
def State.recast_ (s : State) (gid id : Nat) : State :=
  match s.group? gid with
  | none => s
  | some g =>
    let ks := g.casting.filter fun k => k.party == some id
    let free := fun k : Casting => if k.party == some id then { k with party := none } else k
    let s1 := s.modGroup gid fun g => { g with casting := g.casting.map free }
    ks.foldl (fun s k => s.castAll gid { k with party := none }) s1

/-- A command of an engine's queue. -/
def State.engCmd? (s : State) (loc id : Nat) : Option EngCmd :=
  (s.core loc).engine.queue.find? fun c => c.id == id

/-- A command of a ladle's queue. -/
def State.ladleCmd? (s : State) (ck l id : Nat) : Option LadleCmd :=
  (Tab.getD (s.cluster ck).ladles l []).find? fun c => c.id == id

/-- A ladle's queue changed. -/
def State.modLadle (s : State) (ck l : Nat) (f : List LadleCmd → List LadleCmd) : State :=
  s.modCluster ck fun c => { c with ladles := Tab.put c.ladles l (f (Tab.getD c.ladles l [])) }

/-- A ladle command changed. -/
def State.modLadleCmd (s : State) (ck l id : Nat) (f : LadleCmd → LadleCmd) : State :=
  s.modLadle ck l fun q => q.map fun c => if c.id == id then f c else c

/-- An engine command changed. -/
def State.modEngCmd (s : State) (loc id : Nat) (f : EngCmd → EngCmd) : State :=
  s.modEngine loc fun e => { e with queue := e.queue.map fun c => if c.id == id then f c else c }

/-- A runner command in progress changed. -/
def State.modRunCmd (s : State) (x id : Nat) (f : RunCmd → RunCmd) : State :=
  s.modXdie x fun d => { d with active := d.active.map fun c => if c.id == id then f c else c }

/-- An engine command discarded after a memory fault: its task ends as on a data fault; a direct command sets FAULT
in its blocks and its count completes (R294, R311). -/
def State.discardEng (s : State) (loc id : Nat) : State :=
  match s.engCmd? loc id with
  | none => s
  | some c => match c.task with
    | some t => s.failTask t
    | none => (s.modEngine loc fun e =>
        { c.allBlocks.foldl (fun e k => e.mark k stFAULT) e with queue := e.queue.filter fun x => x.id != id }).sbComplete
          c.gid c.sb id

/-- A ladle command discarded (R336). -/
def State.discardLadle (s : State) (ck l id : Nat) : State :=
  match s.ladleCmd? ck l id with
  | none => s
  | some c => match c.task with
    | some t => s.failTask t
    | none => (s.modLadle ck l fun q => q.filter fun x => x.id != id).sbComplete c.gid c.sb id

/-- A runner command discarded (R340). -/
def State.discardRun (s : State) (x id : Nat) : State :=
  match (s.xdie x).active.find? fun c => c.id == id with
  | none => s
  | some c => (s.modXdie x fun d => { d with active := d.active.filter fun y => y.id != id }).sbComplete
      c.gid c.sb id

/-- RESUME (R349). -/
def State.resumeParty (s : State) (rec_ : Nat) : Party → State
  | .op id => { s with ops := Tab.upd s.ops id fun o => { o with stage := .issued } }
  | .path gid => s.modGroup gid (Group.unTrap rec_)
  | .cast gid => s.recast_ gid rec_
  | .task id => s.relaunchTask id
  | .engine loc id => s.modEngCmd loc id fun c => { c with party := none }
  | .ladle ck l id => s.modLadleCmd ck l id fun c => { c with party := none }
  | .runner x id => s.modRunCmd x id fun c => { c with party := none }
  | .wg id => s.modWg id fun w => if w.finishing == some rec_ then { w with finishing := none } else w
  | .tree r => s.modRun r fun x => { x with party := none }

/-- END (R349). -/
def State.endParty (s : State) (rec_ : Nat) : Party → State
  | .op id => match s.op? id with
    | some o => s.endBy o.gid (o.members.foldl (fun m k => m ||| ((1 : Word) <<< k.rank)) 0)
    | none => s
  | .path gid => match s.group? gid with
    | some g => s.endBy gid (g.trapMask rec_)
    | none => s
  | .cast gid => match s.group? gid with
    | some g => s.endBy gid (g.casting.foldl
        (fun m c => if c.party == some rec_ then m ||| c.mask else m) 0)
    | none => s
  | .task id => s.failTask id
  | .engine loc id => s.discardEng loc id
  | .ladle ck l id => s.discardLadle ck l id
  | .runner x id => s.discardRun x id
  | .wg id =>
    let s1 := s.modWg id fun w => if w.finishing == some rec_ then { w with join := 0, finishing := none } else w
    (s1.groups.filter fun g => g.2.wg == id && !g.2.steward).foldl (fun s g => s.endBy g.1 (-1)) s1
  | .tree r => s.dropReport r

/-- KILL (R349, R350); without a region the party alone ends. A completion record that failed is
dropped (R383). -/
def State.killParty (s : State) (p : Pending) : State :=
  match p.region with
  | none => s.endParty p.id p.party
  | some r => match p.party with
    | .tree t => (s.endParty p.id (.tree t)).killSubtree r
    | _ => s.killSubtree r

/-- The workgroup of a party that is a group. -/
def State.partyWg (s : State) (p : Party) : Option Nat :=
  match p with
  | .op id => (s.op? id).map (·.wg)
  | .path gid | .cast gid => (s.group? gid).map (·.wg)
  | _ => none

/-- A workgroup that the fault of a handler group stopped goes on once its record is answered (R348; assumption
log 103). -/
def State.wakeKernel (s : State) (p : Party) : State :=
  match s.partyWg p with
  | some w => s.modWg w fun w => { w with stopped := false }
  | none => s

/-- A TRAPACK of an address on a die (R349): the newest record there that a party waits on. -/
def State.trapack (s : State) (d : Nat) (addr : DWord) : State :=
  match s.pending.reverse.find? fun p => p.die == d && p.addr == addr with
  | none => s
  | some p =>
    let s1 := { s with pending := s.pending.filter fun q => q != p }.wakeKernel p.party
    match (s.readPa (p.pa + 2)).toNat with
    | 1 => s1.resumeParty p.id p.party
    | 2 => s1.killParty p
    | 3 => s1.endParty p.id p.party
    | _ => s

/-- TRAPACK (R349). -/
def execTrapack (s : State) : Out := s.onEvent fun e s => match e with
  | .trapack d a => s.trapack d a
  | _ => s

/-- HELD_TRAP_RECORD (R348): a held record is written when its queue has room. -/
def State.retryRecord (s : State) (id : Nat) : State :=
  match s.heldRecs.find? fun h => h.id == id with
  | none => s
  | some h => match s.queueSlot h.die h.trap.queue with
    | (.room tail rpa ack rd, s1) =>
      ({ s1 with heldRecs := s1.heldRecs.filter fun x => x.id != id }).putRecord h.die id h.trap h.party
        tail rpa ack rd
    | (.full, s1) => s1

/-- HELD_TRAP_RECORD (R348). -/
def execHeldTrapRecord (s : State) : Out := s.onEvent fun e s => match e with
  | .heldTrapRecord id => s.retryRecord id
  | _ => s

/-- HANDLER_ENTRY (R170). -/
def execHandlerEntry (s : State) : Out := s.onEvent fun e s => match e with
  | .handlerEntry g => s.tryEnter g
  | _ => s

/-! ### Pre-emption (R352) -/

/-- A PREQ value names a workgroup on its die. -/
def State.preqWg (s : State) (d : Nat) (v : Word) (w : Workgroup) : Bool :=
  let r := v.toNat % 65536
  locDie w.loc == d && (w.region == r || (v.getLsbD 16 && s.under d r w.region))
    && (!v.getLsbD 28 || w.loc == v.toNat / 2 ^ 18 % 1024)

/-- A PREQ value names a task's region, and tasks are included. -/
def State.preqTask (s : State) (d : Nat) (v : Word) (loc : Nat) (t : Task) : Bool :=
  let r := v.toNat % 65536
  v.getLsbD 17 && t.die == d && (t.region == r || (v.getLsbD 16 && s.under d r t.region))
    && (!v.getLsbD 28 || loc == v.toNat / 2 ^ 18 % 1024)

/-- PREQ (R352): the groups of matching workgroups receive PREEMPT, matching engines are to suspend. -/
def State.preq (s : State) (d : Nat) (v : Word) : State :=
  if (s.rgn? d (v.toNat % 65536)).isNone then s
  else
    let hitWg := fun id => match s.wg? id with
      | some w => s.preqWg d v w
      | none => false
    let hitEng := fun loc (e : Engine) => match e.owner with
      | .free => false
      | .wg w => hitWg w
      | .task t => match s.task? t with
        | some (_, x) => s.preqTask d v loc x
        | none => false
    { s with
      groups := Tab.mapV s.groups fun _ g =>
        if !g.steward && hitWg g.wg then { g with preempt := true } else g
      cores := Tab.mapV s.cores fun loc c =>
        if hitEng loc c.engine then { c with engine := { c.engine with suspend := true } } else c }

/-- PREQ (R352). -/
def execPreq (s : State) : Out := s.onEvent fun e s => match e with
  | .preq d v => s.preq d v
  | _ => s

end Sys2Proof.Machine
end

