-- ==== Sys2Proof/Machine/Window.lean ====
section
/-! DEFINITION. The control window (R367 to R369, R377 to R379): what a read returns and what a write
does, and the events that stand for a write of one register. -/

namespace Sys2Proof.Machine

/-! ### Registers with behaviour of their own -/

/-- A write of BUDGET (R367): clamped into 60 to 420. It counts for the budget in force from the next 1 ms interval on
(assumption log 101). -/
def State.setBudget (s : State) (d v : Nat) : State :=
  s.modDie d fun x => { x with budget := max 60 (min 420 v) }

/-- A write of QEN (R367): bit 0. -/
def State.setQen (s : State) (d : Nat) (v : Word) : State := s.modDie d fun x => { x with qen := v &&& 1 }

/-- A write of RINGF (R369): it takes effect at the next revolution boundary. -/
def State.setRingf (s : State) (d v : Nat) : State :=
  let f := v % 2048
  if f < 300 || 1500 < f then s else s.modDie d fun x => { x with ringfPend := some f }

/-- A write of CLK_n (R369). -/
def State.setClkReg (s : State) (d n : Nat) (v : Word) : State :=
  let f := v.toNat % 2048
  if f < 300 || 1500 < f then s else s.modCluster (32 * d + n) fun c => { c with clkPend := some v }

/-- A pending clock request applied at a point that allows it (R10, R369): the cluster holds no group,
or all its groups are in handler state after a PREEMPT. -/
def State.clkApply (s : State) (ck : Nat) : State :=
  match (s.cluster ck).clkPend with
  | none => s
  | some v =>
    if s.groups.all fun g => g.2.steward || locCluster g.2.loc != ck
        || (g.2.handler && g.2.hcause.toNat % 16 == 1) then
      s.modCluster ck fun c =>
        { c with freq := v.toNat % 2048, clkPend := none,
                 lr := if v.toNat / 2 ^ 12 % 4 == 3 then c.lr else v.toNat / 2 ^ 12 % 4 }
    else s

/-- A read of CLK_n (R369). -/
def Cluster.clkWord (c : Cluster) : Nat :=
  c.freq + 2 ^ 12 * c.lr + (if c.clkPend.isSome then 2 ^ 31 else 0)

/-- The holder die and the copy's address of DUPCOPY (R367). -/
def Die.dupArgs (x : Die) : Nat × Nat := (x.dupCopy.toNat / 2 ^ 48 % 4, x.dupCopy.toNat % 2 ^ 48)

/-- DUPCMD is refused where the frame is not RC, not the die's own, the holder is offline, or holder equals home
(R367). -/
def State.dupRefused (s : State) (d : Nat) : Bool :=
  let pa := (s.die d).dupFrame.toNat % 2 ^ 31 * Config.frameBytes
  let h := (s.die d).dupArgs.1
  hbmDie pa != some d || (s.frame pa).typ != 0 || h == d || (s.die h).offline

/-- DUPCMD 1 (R242, R367). -/
def State.dupRegister (s : State) (d : Nat) : State :=
  let x := s.die d
  let n := x.dupFrame.toNat % 2 ^ 31
  let pa := n * Config.frameBytes
  let (h, copy) := x.dupArgs
  if s.dupRefused d then
    s.modDie d fun x => { x with dupStatus := 2 }
  else
    (s.modFrame pa fun f => { f with hold := f.hold ||| ((1 : BitVec 4) <<< h) }).modDie d fun x =>
      { x with dups := Tab.put x.dups n (Tab.getD x.dups n [] ++ [{ holder := h, copy }]), dupStatus := 0 }

/-- DUPCMD 2 (R242, R368): busy until the holder has acknowledged. -/
def State.dupWithdraw (s : State) (d : Nat) : State :=
  let x := s.die d
  let n := x.dupFrame.toNat % 2 ^ 31
  let (h, copy) := x.dupArgs
  if s.dupRefused d then s.modDie d fun x => { x with dupStatus := 2 }
  else if (Tab.getD x.dups n []).any fun u => u.holder == h && u.copy == copy then
    (s.dupSend d n fun u => u.holder == h && u.copy == copy).modDie d fun x => { x with dupStatus := 1 }
  else s.modDie d fun x => { x with dupStatus := 0 }

/-! ### Reads and writes by offset (R367) -/

/-- Value of a register of the control window, and the state after the read. -/
def State.cwRead (s : State) (d o : Nat) : Nat × State :=
  let x := s.die d
  if 0x10000 ≤ o then s.portRead d ((o - 0x10000) / 0x100) (o % 0x100)
  else if 0x800 ≤ o then ((s.cluster (32 * d + (o - 0x800) / 4)).clkWord, s)
  else if 0x400 ≤ o then ((Tab.getD x.spill ((o - 0x400) / 8) 0).toNat, s)
  else if 0x100 ≤ o && o < 0x180 then
    (let l := (o - 0x100) / 16
     if o % 16 == 0 then (Tab.getD x.cqBase l 0).toNat else Tab.getD x.cqK l 8, s)
  else
    (match o with
     | 0x00 => x.rootBase.toNat
     | 0x08 => x.ftBase.toNat
     | 0x10 => x.ftFirst
     | 0x18 => x.expBase.toNat
     | 0x20 => x.rgnBase.toNat
     | 0x28 => x.dfqBase.toNat
     | 0x30 => x.vlBase.toNat
     | 0x38 => x.vlTail.toNat
     | 0x3C => x.vlOver.toNat
     | 0x40 => x.fqWake.toNat
     | 0x58 => x.budget
     | 0x60 => x.hotBase.toNat
     | 0x68 => x.qen.toNat
     | 0x70 => x.fabBase.toNat
     | 0x78 => x.ringf
     | 0x200 => x.dupFrame.toNat
     | 0x208 => x.dupCopy.toNat
     | 0x210 => x.dupStatus.toNat
     | _ => 0, s)

/-- A base register marked Q takes a write only while QEN bit 0 is clear (R367). -/
def State.setQ (s : State) (d : Nat) (f : Die → Die) : State :=
  if (s.die d).qen.getLsbD 0 then s else s.modDie d f

/-- CQBASE_l and CQK_l (R367): Q; CQK outside 8 to 20 is ignored (assumption log 24). -/
def State.cqWrite (s : State) (d o : Nat) (v : DWord) : State :=
  let l := (o - 0x100) / 16
  if o % 16 == 0 then s.setQ d fun x => { x with cqBase := Tab.put x.cqBase l v }
  else
    let k := v.toNat % 256
    if 8 ≤ k && k ≤ 20 then s.setQ d fun x => { x with cqK := Tab.put x.cqK l k } else s

/-- A write of a register of the control window (R367). -/
def State.cwWrite (s : State) (d o : Nat) (v : DWord) : State :=
  if 0x10000 ≤ o then s.portWrite d ((o - 0x10000) / 0x100) (o % 0x100) v
  else if 0x800 ≤ o then s.setClkReg d ((o - 0x800) / 4) (lo v 0 32)
  else if 0x400 ≤ o then s.setSpill d ((o - 0x400) / 8) v
  else if 0x100 ≤ o && o < 0x180 then s.cqWrite d o v
  else match o with
    | 0x00 => s.setQ d fun x => { x with rootBase := v &&& 0xFFFFFFFFFFFF0000 }
    | 0x08 => s.setQ d fun x => { x with ftBase := v }
    | 0x18 => s.setQ d fun x => { x with expBase := v }
    | 0x20 => s.setQ d fun x => { x with rgnBase := v }
    | 0x28 => s.setQ d fun x => { x with dfqBase := v }
    | 0x30 => s.setQ d fun x => { x with vlBase := v }
    | 0x48 => s.trapack d v
    | 0x50 => s.preq d (lo v 0 32)
    | 0x58 => s.setBudget d (v.toNat % 2 ^ 32)
    | 0x60 => s.modDie d fun x => { x with hotBase := v }
    | 0x68 => s.setQen d (lo v 0 32)
    | 0x70 => s.modDie d fun x => { x with fabBase := v }
    | 0x78 => s.setRingf d (v.toNat % 2 ^ 32)
    | 0x200 => s.modDie d fun x => { x with dupFrame := v &&& 0x7FFFFFFF }
    | 0x208 => s.modDie d fun x => { x with dupCopy := v &&& 0x0003FFFFFFFFFFFF }
    | 0x210 => if v.toNat % 2 ^ 32 == 1 then s.dupRegister d
        else if v.toNat % 2 ^ 32 == 2 then s.dupWithdraw d else s
    | _ => s

/-! ### Events of one register -/

/-- BUDGET (R367). -/
def execBudget (s : State) : Out := s.onEvent fun e s => match e with
  | .budget d v => s.setBudget d v.toNat
  | _ => s
/-- QEN (R367). -/
def execQen (s : State) : Out := s.onEvent fun e s => match e with
  | .qen d v => s.setQen d v
  | _ => s
/-- RINGF (R369). -/
def execRingf (s : State) : Out := s.onEvent fun e s => match e with
  | .ringf d v => s.setRingf d v.toNat
  | _ => s
/-- CLK (R369). -/
def execClk (s : State) : Out := s.onEvent fun e s => match e with
  | .clk d n v => s.setClkReg d n v
  | _ => s
/-- CLK_APPLY (R369). -/
def execClkApply (s : State) : Out := s.onEvent fun e s => match e with
  | .clkApply c => s.clkApply c
  | _ => s
/-- DUPCMD_REGISTER (R242). -/
def execDupcmdRegister (s : State) : Out := s.onEvent fun e s => match e with
  | .dupcmdRegister d => s.dupRegister d
  | _ => s
/-- DUPCMD_WITHDRAW (R368). -/
def execDupcmdWithdraw (s : State) : Out := s.onEvent fun e s => match e with
  | .dupcmdWithdraw d => s.dupWithdraw d
  | _ => s
/-- SPILLBASE (R168). -/
def execSpillbase (s : State) : Out := s.onEvent fun e s => match e with
  | .spillbase d c v => s.setSpill d c v
  | _ => s
/-- CONTROL_WINDOW_WRITE (R367): a write of another register, at its own width. -/
def execControlWindowWrite (s : State) : Out := s.onEvent fun e s => match e with
  | .controlWindowWrite d o n v => if cwWidth o == some n then s.cwWrite d o v else s
  | _ => s
/-- HEAT (R379). -/
def execHeat (s : State) : Out := s.onEvent fun e s => match e with
  | .heat d k i v => s.setHeat d k i v.toNat
  | _ => s
/-- WMAP (R377). -/
def execWmap (s : State) : Out := s.onEvent fun e s => match e with
  | .wmap d k v => s.setWmap d k v
  | _ => s
/-- WACTIVE (R377). -/
def execWactive (s : State) : Out := s.onEvent fun e s => match e with
  | .wactive d k v => s.setWactive d k v.toNat
  | _ => s
/-- GLINT_RELEASE (R377). -/
def execGlintRelease (s : State) : Out := s.onEvent fun e s => match e with
  | .glintRelease d k => s.modPort d k fun p => { p with glint := false }
  | _ => s
/-- PSTAT_READ (R377). -/
def execPstatRead (s : State) : Out := s.onEvent fun e s => match e with
  | .pstatRead d k => (s.readPstat d k).2
  | _ => s

/-- WAVELENGTH_DEGRADE (R378). -/
def execWavelengthDegrade (s : State) : Out := s.onEvent fun e s => match e with
  | .wavelengthDegrade d k w => s.degrade d k w
  | _ => s

/-- FLIT_RETRANSMIT (R378). -/
def execFlitRetransmit (s : State) : Out := s.onEvent fun e s => match e with
  | .flitRetransmit d k w => s.retransmit d k w
  | _ => s

/-- LOSS_OF_LOCK (R373). -/
def execLossOfLock (s : State) : Out := s.onEvent fun e s => match e with
  | .lossOfLock d k t => s.loseLock d k t
  | _ => s

end Sys2Proof.Machine
end

