-- ==== Sys2Proof/Machine/Complete.lean ====
section
/-! DEFINITION. Operations in flight move on: their checks are confirmed (R41, R43), far units
execute them (R35, R40, R45, R154). -/

namespace Sys2Proof.Machine

/-- The register-to-register form of an instruction. -/
def laneOpOf (i : Instr) : Option LaneOp :=
  match i with
  | .add f => some (opAdd f)
  | .sub f => some (opSub f)
  | .mul f => some (opMul f)
  | .mulhiS f => some (opMulhiS f)
  | .mulhiU f => some (opMulhiU f)
  | .divS f => some (opDivS f)
  | .divU f => some (opDivU f)
  | .remS f => some (opRemS f)
  | .remU f => some (opRemU f)
  | .minS f => some (opMinS f)
  | .minU f => some (opMinU f)
  | .maxS f => some (opMaxS f)
  | .maxU f => some (opMaxU f)
  | .and f => some (opAnd f)
  | .or f => some (opOr f)
  | .xor f => some (opXor f)
  | .shl f => some (opShl f)
  | .shr f => some (opShr f)
  | .sar f => some (opSar f)
  | .rot f => some (opRot f)
  | .bfxU f => some (opBfxU f)
  | .bfxS f => some (opBfxS f)
  | .mad f => some (opMad f)
  | .bfi f => some (opBfi f)
  | .popc f => some (opPopc f)
  | .clz f => some (opClz f)
  | .ctz f => some (opCtz f)
  | .brev f => some (opBrev f)
  | .abs f => some (opAbs f)
  | .add64 f => some (opAdd64 f)
  | .sub64 f => some (opSub64 f)
  | .lea64 f => some (opLea64 f)
  | .cmp f => some (opCmp f)
  | .selLo f => some (opSelLo f)
  | .selHi f => some (opSelHi f)
  | .mov f => some (opMov f)
  | .movx f => some (opMovx f)
  | .movxW f => some (opMovxW f)
  | .gAdd f => some (opGAdd f)
  | .gSub f => some (opGSub f)
  | .gMul f => some (opGMul f)
  | .gMulhiS f => some (opGMulhiS f)
  | .gMulhiU f => some (opGMulhiU f)
  | .gAnd f => some (opGAnd f)
  | .gOr f => some (opGOr f)
  | .gXor f => some (opGXor f)
  | .gShl f => some (opGShl f)
  | .gShr f => some (opGShr f)
  | .gSar f => some (opGSar f)
  | .gRot f => some (opGRot f)
  | .gMinS f => some (opGMinS f)
  | .gMinU f => some (opGMinU f)
  | .gMaxS f => some (opGMaxS f)
  | .gMaxU f => some (opGMaxU f)
  | .gBfxU f => some (opGBfxU f)
  | .gBfxS f => some (opGBfxS f)
  | .gDivS f => some (opGDivS f)
  | .gDivU f => some (opGDivU f)
  | .gRemS f => some (opGRemS f)
  | .gRemU f => some (opGRemU f)
  | .gBfi f => some (opGBfi f)
  | .gAdd64 f => some (opGAdd64 f)
  | .gSub64 f => some (opGSub64 f)
  | .gCmp f => some (opGCmp f)
  | .gSel f => some (opGSel f)
  | .gMov f => some (opGMov f)
  | .gMovx f => some (opGMovx f)
  | .gMovxW f => some (opGMovxW f)
  | .gLea64 f => some (opGLea64 f)
  | .gPopc f => some (opGPopc f)
  | .gClz f => some (opGClz f)
  | .gCtz f => some (opGCtz f)
  | .fadd f => some (opFadd f)
  | .fsub f => some (opFsub f)
  | .fmul f => some (opFmul f)
  | .ffma f => some (opFfma f)
  | .fmin f => some (opFmin f)
  | .fmax f => some (opFmax f)
  | .fcmp f => some (opFcmp f)
  | .frcp f => some (opFrcp f)
  | .frsq f => some (opFrsq f)
  | .fsqrt f => some (opFsqrt f)
  | .fexp2 f => some (opFexp2 f)
  | .flog2 f => some (opFlog2 f)
  | .hadd2F16 f => some (opHadd2F16 f)
  | .hmul2F16 f => some (opHmul2F16 f)
  | .hfma2F16 f => some (opHfma2F16 f)
  | .hadd2Bf16 f => some (opHadd2Bf16 f)
  | .hmul2Bf16 f => some (opHmul2Bf16 f)
  | .hfma2Bf16 f => some (opHfma2Bf16 f)
  | .dadd f => some (opDadd f)
  | .dmul f => some (opDmul f)
  | .dfma f => some (opDfma f)
  | .cvt f => some (opCvt f)
  | .cvtD8x4 f => some (opCvtD8x4 f)
  | .cvtF32x4 f => some (opCvtF32x4 f)
  | _ => none

/-- The cross-lane form of an instruction. -/
def crossOpOf (i : Instr) : Option CrossOp :=
  match i with
  | .shflIdx f => some (opShflIdx f)
  | .shflUp f => some (opShflUp f)
  | .shflDown f => some (opShflDown f)
  | .shflXor f => some (opShflXor f)
  | .reduxAdd f => some (opReduxAdd f)
  | .reduxMin f => some (opReduxMin f)
  | .reduxMax f => some (opReduxMax f)
  | .match_ f => some (opMatch f)
  | _ => none

/-! ### Parts of an operation -/

/-- An operation changed. -/
def State.modOp (s : State) (id : Nat) (f : Op → Op) : State := { s with ops := Tab.upd s.ops id f }

/-- A member changed. -/
def State.modMember (s : State) (id rank : Nat) (f : Member → Member) : State :=
  s.modOp id fun o => { o with members := o.members.map fun m => if m.rank == rank then f m else m }

/-- A fragment changed. -/
def State.modFrag (s : State) (id rank k : Nat) (f : Frag → Frag) : State :=
  s.modMember id rank fun m => { m with frags := m.frags.mapIdx fun i x => if i == k then f x else x }

/-- A member is done (R177). -/
def State.doneMember (s : State) (id rank : Nat) : State :=
  (s.modMember id rank fun m => { m with done := true }).settleOp id

/-- A member of an operation by rank. -/
def Op.member? (o : Op) (rank : Nat) : Option Member := o.members.find? fun m => m.rank == rank

/-- The thread of a member, while it is in its group. -/
def State.memberThread (s : State) (o : Op) (m : Member) : Option Thread :=
  match s.group? o.gid with
  | none => none
  | some g => match Tab.find? g.threads m.rank with
    | some t => if t.tid == m.tid then some t else none
    | none => none

/-- The workgroup of an operation. -/
def State.opWg (s : State) (o : Op) : Workgroup := (s.wg? o.wg).getD { loc := o.loc }

/-- A source as the unit reads it: a name at the unit now, any other as logged (R40, R42), and one that a write
which the member must not see has frozen (R43, R119). -/
def State.farSrc (s : State) (o : Op) (m : Member) (f : Fld) (logged : BitVec 128) : BitVec 128 :=
  match f.names with
  | [n] =>
    let t := (s.memberThread o m).getD {}
    if m.place != .lane && !m.frozen.contains n && placeOf (s.opWg o) t n == (m.place, m.unit) then
      (readV (s.opWg o) t n).zeroExtend 128
    else logged
  | _ => logged

/-- Name `n` of a member's sources logged by value (R42). -/
def State.freezeMember (s : State) (e : Op) (f : Form) (n : Nat) (k : Member) : Member :=
  let old := fun (g : Fld) (v : BitVec 128) => if g.names.contains n then s.farSrc e k g v else v
  { k with a := lo (old f.a (k.a.zeroExtend 128)) 0 64, b := lo (old f.b (k.b.zeroExtend 128)) 0 64,
           d := if f.selP.isSome then k.d else lo (old f.d (k.dhi ++ k.d)) 0 64, frozen := n :: k.frozen }

/-- An earlier instruction of the thread has still to write name `n`: the source follows that write (R38). -/
def State.writeAhead (s : State) (id : Nat) (tid n : Nat) : Bool :=
  s.ops.any fun e => decide (e.1 < id) && e.2.dests.contains n && (e.2.pends tid).isSome

/-- A write of name `n` for member `m` of `o` must not reach source `n` of member `k` of `e`: a later write of the
thread's own (R38); any write of a CLUSTER name once the instruction is logged (R43) or by the same instruction,
whose members read their sources before it writes (R119; for A and B assumption log 120). -/
def Op.shields (e : Op) (k : Member) (o : Op) (m : Member) : Bool :=
  !k.done && k.place == m.place && k.unit == m.unit
    && (if k.tid == m.tid then decide (e.cycle < o.cycle)
      else m.place == .cluster && e.wg == o.wg && (e.stage == .faulted || e.aside
        || (e.gid == o.gid && e.cycle == o.cycle && e.mask == o.mask)))

/-- Before a unit writes name `n` for a member, the instructions that read the name and must not see the write log
its value (R38, R43, R119). -/
def State.freeze (s : State) (o : Op) (m : Member) (n : Nat) : State :=
  if m.place == .lane then s
  else { s with ops := Tab.mapV s.ops fun id e => match laneOpOf e.instr with
    | some op => if op.form.reads.contains n
        then { e with members := e.members.map fun k =>
          if e.shields k o m && !k.frozen.contains n && !s.writeAhead id k.tid n then s.freezeMember e op.form n k else k }
        else e
    | none => e }

/-- A name written for a member at its place (R35); a CLUSTER name also after the thread's end. -/
def State.putName (s : State) (o : Op) (m : Member) (n : Nat) (v : Word) : State :=
  let s1 := s.freeze o m n
  match s.memberThread o m with
  | some _ => s1.writeName o.gid m.rank n v
  | none =>
    if (s.opWg o).clusterMap.getLsbD n then
      s1.modWg o.wg fun w => { w with clusterRegs := Tab.put w.clusterRegs n v }
    else s1

/-- Consecutive names written for a member. -/
def State.putNames (s : State) (o : Op) (m : Member) (n : Nat) : List Word → State
  | [] => s
  | v :: vs => State.putNames (s.putName o m n v) o m (n + 1) vs

/-- A field's destination written for a member, with the tags of its names (R113). -/
def State.putFld (s : State) (o : Op) (m : Member) (f : Fld) (v : BitVec 128) : State :=
  match f.names with
  | [] => s
  | n :: _ => (s.putNames o m n (wordsOf v f)).modGroup o.gid fun g =>
      g.tags (s.opWg o) o.cycle m.rank n (wordsOf v f)

/-- A member's thread changed. -/
def State.modMemberThread (s : State) (o : Op) (m : Member) (f : Thread → Thread) : State :=
  match s.memberThread o m with
  | some _ => s.modThread o.gid m.rank f
  | none => s

/-! ### Faults of operations in flight (R43, R343, R345) -/

/-- A record of an operation (R343). A `join` reports as SRC 7 and names its block (R345). -/
def Op.trap (o : Op) (wg : Workgroup) (code : FCode) (mask : Word) (va pa : Nat) (detail : DWord) :
    TrapInfo :=
  let j := match o.instr with
    | .join _ => true
    | _ => false
  { code, src := if j then 7 else 0, defer := o.logix.isSome, region := some o.region, loc := o.loc,
    pc := o.pc, vaddr := BitVec.ofNat 64 va, paddr := pa, mask := if j then 0 else mask,
    windex := wg.index, gindex := o.gindex,
    obj := if j then ((o.members.head?.map fun m => m.addr).getD 0) else 0, detail, logix := o.logix
    kernel := if j then none else kernelFault wg o.wg code }

/-- A form that reads a block once for its path, and may fault on what it has read (R205, R324, R330). -/
def Op.readsBlock (o : Op) : Bool :=
  match o.instr with
  | .patSet _ | .seqLoad _ | .rgnMake _ | .peerMap _ | .contPush _ | .ttask _ => true
  | _ => false

/-- MASK of a record (R343, R347): a form that acts once per path met the fault for its whole path
(assumption log 30). -/
def Op.trapRanks (o : Op) (m : Word) : Word := if o.readsBlock then o.mask else m

/-- A path that waits for an operation stops: a steward core that met a fault (assumption log 14). -/
def Group.stopOp (id : Nat) (g : Group) : Group :=
  { g with paths := g.paths.map fun p =>
      if p.wait == .op id || p.wait == .enq id then { p with wait := .trap id } else p }

/-- An operation that a group issued before it entered handler state for a pre-emption or a resumption, and that
is logged since: it is set aside like those logged then (R353). -/
def State.lateAside (s : State) (id : Nat) (o : Op) : Bool :=
  match s.group? o.gid with
  | some g => g.preempted && decide (id < g.entryId) && s.logged o
  | none => false

/-- The path whose open chain holds an operation. -/
def Group.chainOf (g : Group) (o : Op) : Option Nat :=
  if o.inChain then g.paths.findIdx? fun p => p.chain.isSome && p.mask &&& o.mask != 0 else none

/-- A FAULT OF A CHAIN INSTRUCTION IN FLIGHT (R85, R149): the whole chain is to be executed again. The operation
goes, the path stops at the chain's first instruction with its walkers as they stood before it. -/
def State.faultChain (s : State) (id : Nat) (o : Op) (pi : Nat) (t : TrapInfo) : State :=
  let (rec_, s1) := (s.delOp id).newId
  (s1.modGroup o.gid fun g => (g.rewindChain pi).modPath pi fun p => { p with wait := .trap rec_, hold := none }).writeTrap
    (coreDie o.loc) rec_ { t with defer := false, logix := none } (some (.path o.gid))

/-- DEFERRED FAULT (R43): the operation stays logged, its writes pending, and a trap record names it. What another
die has performed already is not performed again: the replay delivers its response. -/
def State.faultLogged (s : State) (id : Nat) (o : Op) (t : TrapInfo) : State :=
  let clear := fun m : Member => if m.done then m else
    { m with frags := m.frags.filter fun f => f.sent || (f.cl.isSome && m.addr.toNat / 2 ^ 56 == 0xFE) }
  let o1 : Op := { o with stage := .faulted, recasts := 0, suspect := none, farError := false, stalledOn := [],
                          restored := false, members := o.members.map clear }
  let s1 := s.setOp id { o1 with aside := o.aside || s.lateAside id o1 }
  let (rec_, s2) := s1.newId
  s2.writeTrap (coreDie o.loc) rec_ t (some (.op id))

/-- The fault of an operation in flight: of a chain instruction, of a steward core, which waits with it while its ring is
full (R368; assumption log 14), or of a logged instruction. -/
def State.faultOp (s : State) (id : Nat) (o : Op) (t : TrapInfo) : State :=
  if stewardLoc ≤ o.loc then
    if s.stewardFull (coreDie o.loc) then s
    else ((s.modGroup o.gid (Group.stopOp id)).delOp id).stewardTrap (coreDie o.loc) t
  else match (s.group? o.gid).bind fun g => g.chainOf o with
    | some pi => s.faultChain id o pi t
    | none => s.faultLogged id o t

/-! ### Confirmation (R41, R239, R246) -/

/-- The window bank that holds a scratchpad offset on a cluster: its offset, its size, the shadow bank's
offset (R234, R259). -/
def State.windowAt (s : State) (ck off n : Nat) : Option (Nat × Nat) :=
  (List.filterMap (fun e : Nat × Workgroup =>
    let w := e.2
    if locCluster w.loc != ck || w.xwin == 0 then none
    else
      let sz := w.xwin * 1024
      if w.live ≤ off && off < w.live + sz then
        (if off + n ≤ w.live + sz then some (w.shadow, off - w.live) else none)
      else if w.shadow ≤ off && off < w.shadow + sz then
        (if off + n ≤ w.shadow + sz then some (w.shadow, off - w.shadow) else none)
      else none) s.wgs).head?

/-- Target cluster of an exchange address (R259). -/
def xstCluster (o : Op) (m : Member) : Nat := 32 * coreDie o.loc + m.addr.toNat / 2 ^ 27 % 32

/-- Bytes of an `xst`. -/
def xstSize (i : Instr) : Nat :=
  match i with
  | .xst f => szBytes f.sz
  | _ => 1

/-- VIOL of an `xst` (R259). -/
def State.xstHits (s : State) (o : Op) (m : Member) : List Hit :=
  let e := m.addr.toNat
  if e / 2 ^ 21 % 64 != 0 || (s.windowAt (xstCluster o m) (e % 2 ^ 21) (xstSize o.instr)).isNone then
    [⟨10, .viol, m.rank, 0, e⟩] else []

/-- Members of an `xst` with their fragment in the target scratchpad. -/
def xstMember (o : Op) (m : Member) : Member :=
  { m with frags := [{ off := 0, size := xstSize o.instr, va := 0, pa := m.addr.toNat % 2 ^ 21,
                       cl := some (xstCluster o m) }] }

/-- A fragment of a WS store (R239). -/
def Frag.ws (f : Frag) : Bool := f.typ == 2 && f.cl.isNone

/-- The form stores data under the WS rules. -/
def Op.wsStore (o : Op) : Bool :=
  match accSpec? o.instr with
  | some sp => sp.write
  | none => false

/-- Bytes of a member's data. -/
def Member.bytes (m : Member) : List Byte := leBytes 16 (m.d.toNat + 2 ^ 64 * m.dhi.toNat)

/-- Bytes of one fragment of a store. -/
def Member.slice (m : Member) (f : Frag) : List Byte := (m.bytes.drop f.off).take f.size

/-- A WS store may be performed now: nothing must come before it, and its home sees it at once. `o` holds the
fragments that the checks have found: on a WS frame it is a release (R239, R272). -/
def State.wsReady (s : State) (id : Nat) (o : Op) : Bool :=
  let others := { s with ops := Tab.del s.ops id }
  o.members.all fun m => m.frags.all fun f => !f.ws || f.done ||
    (!others.blocked id o m f && (match hbmDie f.pa with
      | some h => h == coreDie o.loc || s.causalReady (coreDie o.loc) h
      | none => true))

/-- One WS fragment written and its written bits set, in one step (R239). -/
def State.wsPut (s : State) (id : Nat) (o : Op) (m : Member) (f : Frag) : State :=
  if !f.ws || f.done then s
  else
    let s1 := match hbmDie f.pa with
      | some h => if h == coreDie o.loc then s else s.countWrite (coreDie o.loc) h
      | none => s
    (s1.homeWrite f.pa (m.slice f) (some id)).setWritten f.pa f.size

/-- A member with its WS fragments done. -/
def Member.wsDone (m : Member) : Member :=
  let fs := m.frags.map fun f => if f.ws then { f with done := true } else f
  { m with frags := fs, done := m.done || fs.all (·.done) }

/-- The WS fragments of a confirmed store are performed in the same step (R239). -/
def State.wsPerform (s : State) (id : Nat) (o : Op) (ms : List Member) : State :=
  if !o.wsStore then s
  else
    let s1 := ms.foldl (fun s m => m.frags.foldl (fun s f => s.wsPut id o m f) s) s
    (s1.modOp id fun o => { o with members := o.members.map Member.wsDone }).settleOp id

/-- A `pref` that would fault is dropped for that member (R263). -/
def dropHits (o : Op) (hs : List Hit) (ms : List Member) : List Member :=
  match o.instr with
  | .pref _ => ms.map fun m => if hs.any fun h => h.rank == m.rank then { m with done := true } else m
  | _ => ms

/-- A fragment widened to its 128-byte line (R263). -/
def Frag.line (f : Frag) : Frag :=
  { f with pa := f.pa / 128 * 128, va := f.va / 128 * 128, size := 128 }

/-- Fragments after the checks: those of a `redecl` are located, not accessed (R154); a cache operation acts
on the whole line (R263), `ws.clear` on its range (R264). -/
def located (o : Op) (ms : List Member) : List Member :=
  let each := fun (g : Member → Frag → Frag) => ms.map fun m => { m with frags := m.frags.map (g m) }
  match o.instr with
  | .redecl _ => each fun _ f => { f with done := true }
  | .spb _ | .fla _ | .wb _ | .inv _ | .pref _ => each fun _ f => f.line
  | .wsClear _ => each fun m f => { f with size := m.b.toNat }
  | _ => ms

/-- The checks of an operation: members with fragments, faults, stall. -/
def State.checkOp (s : State) (o : Op) : List Member × Checked :=
  match o.instr with
  | .xst _ => (o.members.map fun m => if m.done then m else xstMember o m,
      { hits := (o.members.filter fun m => !m.done).flatMap (s.xstHits o), s })
  | _ =>
    let (ms, c) := s.checkMembers o o.members
    (ms, { c with hits := c.hits ++ (if o.wsStore then wsTwice ms else []) })

/-- A `pref` faults never. -/
def Op.faults (o : Op) : Bool :=
  match o.instr with
  | .pref _ => false
  | _ => true

/-- An `xst` keeps its log entry until the target accepts it (R259). -/
def Op.isXst (o : Op) : Bool :=
  match o.instr with
  | .xst _ => true
  | _ => false

/-- The frames in transition that an operation's accesses reach (R213, R280). -/
def State.transFrames (s : State) (o : Op) : List Nat :=
  let at_ := fun x : Nat × Nat => match s.peek (coreDie o.loc) o.loc x.1 with
    | some pa => if (s.frame pa).trans then some (frameOf pa) else none
    | none => none
  (o.members.filter fun m => !m.done).flatMap fun m => (o.extents m).filterMap at_

/-- Restored log entries replay in program order (R356). -/
def State.replayLater (s : State) (id : Nat) (o : Op) : Bool :=
  o.restored && s.ops.any fun e => decide (e.1 < id) && e.2.gid == o.gid && e.2.restored && e.2.stage == .issued

/-- A confirmed operation that is logged now is set aside where R353 asks it. -/
def State.asideNow (s : State) (id : Nat) : State :=
  match s.op? id with
  | some o => if s.lateAside id o then s.modOp id fun o => { o with aside := true } else s
  | none => s

/-- INSTRUCTION_CONFIRM (R41 to R43): every check passes and the operation is confirmed, or the fault that
ranks first is reported. While a frame is in transition it stalls (R209). -/
def State.confirm (s : State) (id : Nat) : State :=
  match s.op? id with
  | none => s
  | some o =>
    if o.stage != .issued || o.aside || s.replayLater id o then s
    else
      let (ms, c) := s.checkOp o
      if c.stall then s.modOp id fun o => { o with stalledOn := s.transFrames o }
      else match (if o.faults then worst c.hits else none) with
        | some (code, mask, va, pa) =>
          (c.s.logHits o.loc c.hits).faultOp id o
            (o.trap (s.opWg o) code (o.trapRanks mask) va (match o.instr with
              | .xst _ => 0
              | _ => pa) 0)
        | none =>
          let ms1 := located o (dropHits o c.hits ms)
          if o.wsStore && !c.s.wsReady id { o with members := ms1 } then s
          else
            let keep := !o.dests.isEmpty || o.predDest.isSome || o.isXst || o.readsBlock
            let s1 := c.s.modOp id fun o =>
              { o with stage := .confirmed, members := ms1, logix := if keep then o.logix else none }
            ((s1.wsPerform id o ms1).settleOp id).asideNow id

/-! ### Far execution (R35, R40, R45, R116, R154) -/

/-- Names that an operation reads or writes. -/
def Op.touches (o : Op) : List Nat :=
  o.dests ++ (match laneOpOf o.instr, crossOpOf o.instr with
    | some op, _ => op.form.reads
    | none, some op => op.form.reads
    | none, none => [])

/-- Two lists share a name. -/
def shareName (a b : List Nat) : Bool := a.any fun n => b.contains n

/-- A far member must wait: an earlier instruction of the thread at its unit (R40), a move of a name that it uses
to that unit (R155), a lower rank that writes the same CLUSTER name in the same issue (R116). A logged
instruction holds back only those that use its destination (R43). The single CLUSTER write of a group-set form
counts at the rank of its path's first member where the other path of the issue writes the name by a lane-set form
(R116 does not say; DESIGN CHOICE, assumption log 121). -/
def State.farBlocked (s : State) (id : Nat) (o : Op) (m : Member) : Bool :=
  (m.place == .cluster && s.issueOpen o) || s.ops.any fun e => e.2.members.any fun k =>
    !k.done && !e.2.aside &&
      ((decide (e.1 < id) && k.tid == m.tid && (shareName e.2.dests o.touches || e.2.stage != .faulted)
          && ((k.place != .lane && k.place == m.place && k.unit == m.unit)
            || (e.2.isRedecl && shareName e.2.dests o.touches)))
        || (m.place == .cluster && k.place == .cluster && e.2.gid == o.gid && e.2.cycle == o.cycle
          && decide (k.rank < m.rank) && shareName e.2.dests o.dests))

/-- The element that a walker source read: fragment at data offset `k` (R149). -/
def Member.elem (m : Member) (w : Option (DWord × BitVec 2)) (k : Nat) : Option (BitVec 128) :=
  match w with
  | some (_, e) => some ((elemValue e (match m.frags.find? fun f => f.off == k with
      | some f => leNat f.data
      | none => 0)).zeroExtend 128)
  | none => none

/-- Source A of a member. -/
def State.memberA (s : State) (o : Op) (m : Member) (f : Form) : BitVec 128 :=
  (m.elem m.wa 0).getD (s.farSrc o m f.a (m.a.zeroExtend 128))
/-- Source B of a member. -/
def State.memberB (s : State) (o : Op) (m : Member) (f : Form) : BitVec 128 :=
  (m.elem m.wb 16).getD (s.farSrc o m f.b (m.b.zeroExtend 128))
/-- Third source of a member. -/
def State.memberD (s : State) (o : Op) (m : Member) (f : Form) : BitVec 128 :=
  if f.selP.isSome then m.d.zeroExtend 128 else s.farSrc o m f.d (m.dhi ++ m.d)

/-- The result of a chain instruction reaches the thread's latches, if its path's chain is open (R83). -/
def State.latchLate (s : State) (o : Op) (m : Member) (f : Form) (a : BitVec 128) (v : BitVec 128) :
    State :=
  let open_ := match s.group? o.gid with
    | some g => g.paths.any fun p => p.mask.getLsbD m.rank && p.chain.isSome
    | none => false
  if o.inChain && open_ then
    let (free, s1) := s.freeWord
    s1.modMemberThread o m (latch f (lo a 0 32) (latchWord f v free))
  else s

/-- One member's result of a register-to-register form written; its flags stay with the operation until that is
complete (R35, R56). -/
def State.putResult (s : State) (id : Nat) (o : Op) (m : Member) (op : LaneOp) : State :=
  let a := s.memberA o m op.form
  let r := op.eval a (s.memberB o m op.form) (s.memberD o m op.form)
  let s1 := match op.form.dstP with
    | some p => s.modMemberThread o m fun t => setPred t p (r.1 != 0)
    | none => s.putFld o m op.form.dst r.1
  (s1.modOp id fun o => { o with flags := o.flags ||| r.2 }).latchLate o m op.form a r.1

/-- A `redecl` of one member (R154): the value read out of the old place is written at the new one. -/
def State.moveName (s : State) (o : Op) (m : Member) (f : RedeclF) : State :=
  let n := f.d.toNat
  let w := s.opWg o
  (s.freeze o m n).modMemberThread o m fun t =>
    let v := readV w t n
    match f.f.toNat, m.frags.head? with
    | 0, _ => t.toLane n v
    | 2, some x => t.toFar n .slice (homeSlice x.pa) m.addr v
    | _, some x => t.toFar n .memory (memUnit x.pa) m.addr v
    | _, none => t

/-- Ranks of the members that are not done. -/
def Op.undone (o : Op) : Word := (o.members.filter fun k => !k.done).foldl (fun m k => m ||| ((1 : Word) <<< k.rank)) 0

/-- A suspect result of a logged instruction is recast from its log entry; a second failure raises RECAST, whose
DETAIL names the check (R45, R346). -/
def State.recastOp (s : State) (id : Nat) (o : Op) (kind : Nat) : State :=
  if o.recasts == 0 then
    (s.modCore o.loc fun c => { c with perf := bump c.perf 0x107 1 }).modOp id fun o =>
      { o with suspect := none, recasts := 1 }
  else s.faultOp id o (o.trap (s.opWg o) .recast o.undone 0 0 (BitVec.ofNat 64 kind))

/-- The faults of a result that executes now (R117, R156, R45): an error response from a far entry comes before a
second failure of a recast. None: the result passes. -/
def State.resultFault (s : State) (id : Nat) (o : Op) : Option State :=
  if o.farError then some (s.faultOp id o (o.trap (s.opWg o) .viol o.undone 0 0 0))
  else o.suspect.map (s.recastOp id o)

/-- The form is of the group set: one write serves every member (R116). -/
def Op.groupSet (o : Op) : Bool :=
  match laneOpOf o.instr with
  | some op => op.form.group
  | none => false

/-- Every member is done. -/
def State.doneAll (s : State) (id : Nat) : State :=
  (s.modOp id fun o => { o with members := o.members.map fun m => { m with done := true } }).settleOp id

/-- FAR_RESULT (R40): a member's instruction executes at its unit and its result returns. -/
def State.farResult (s : State) (id rank : Nat) : State :=
  match s.op? id with
  | none => s
  | some o => match o.member? rank with
    | none => s
    | some m =>
      if m.done || o.aside || o.stage != .confirmed || !(m.frags.all (·.done)) || s.farBlocked id o m then s
      else match s.resultFault id o with
        | some s1 => s1
        | none => match o.instr, laneOpOf o.instr with
          | .redecl f, _ => (s.moveName o m f).doneMember id rank
          | _, some op =>
            if o.groupSet then (s.putResult id o m op).doneAll id
            else (s.putResult id o m op).doneMember id rank
          | _, none => s

/-- The result of a logged instruction fails its residue check (R45). -/
def State.residueOp (s : State) (id : Nat) : State :=
  s.modOp id fun o => if o.logix.isSome && o.stage == .confirmed && o.suspect.isNone then { o with suspect := some 0 } else o

/-- Where the far entries stand that a member reads or writes (R117, R156): at its own unit, at the unit that a
`redecl` moves to, at that of any source. -/
def State.unitsOf (s : State) (o : Op) (m : Member) : List (Place × Nat) :=
  (m.place, m.unit) :: (o.movesTo m).toList ++ (match s.memberThread o m with
    | some t => o.touches.map (placeOf (s.opWg o) t)
    | none => [])

/-- A far entry that an operation reads or writes stands in backing store and meets an error response (R117,
R156). -/
def State.farOpError (s : State) (id : Nat) : State :=
  match s.op? id with
  | none => s
  | some o =>
    let at_ := fun m : Member => !m.done && (s.unitsOf o m).any (s.backed (coreDie o.loc))
    if o.logix.isSome && o.members.any at_ then s.modOp id fun o => { o with farError := true } else s

/-- A residue check that the next result at LANE of a core fails (R45): a second one is of its recast. -/
def Core.failNext (c : Core) : Core := { c with laneFails := (c.laneFails ++ [0]).take 2 }

/-- FAR_RESULT (R40); a failed residue check (R45); an error response of a far entry (R117). -/
def execFarResult (s : State) : Out := s.onEvent fun e s => match e with
  | .farResult o r => s.farResult o r
  | .residueFailure o => s.residueOp o
  | .farEntryError o => s.farOpError o
  | .laneResidue loc => s.modCore loc Core.failNext
  | .laneFarError loc => s.modCore loc fun c => { c with farError := true }
  | _ => s

end Sys2Proof.Machine
end

