-- ==== Sys2Proof/Machine/Fetch.lean ====
section
/-! DEFINITION. Fetch and decode at a path's PC (R73 to R75, R93), and placing an instruction where
the next step fetches it. -/

namespace Sys2Proof.Machine

/-- A line of code put into a core's instruction cache, through its home slice (R199). -/
def State.fillCode (s : State) (loc line : Nat) : State :=
  (s.touchAll (128 * line) 128).modCore loc fun c => { c with icache := Tab.put c.icache line (s.readPaN (128 * line) 128) }

/-- The word of code at an address: from the instruction cache, or from memory with its line filled. Where a line that
the cache holds is older than memory, the cache may still hold it or not: that is open until `ifence` (R173; assumption
log 16). -/
def State.codeWord (s : State) (loc pa : Nat) : Word × State :=
  let now : Word := BitVec.ofNat 32 (s.readPaLe pa 4)
  match Tab.find? (s.core loc).icache (pa / 128) with
  | none => (now, s.fillCode loc (pa / 128))
  | some bs =>
    let old : Word := BitVec.ofNat 32 (leAt bs (pa % 128) 4)
    if old == now then (now, s)
    else
      let (k, s1) := s.freeWord
      if k.getLsbD 0 then (old, s1) else (now, s1.fillCode loc (pa / 128))

/-- A word of the firmware (R371): a steward core finds it where the file's sections of code stand (assumption log
127). -/
def State.firmWord (s : State) (va : Nat) : Option Word :=
  (s.firmware.find? fun x => decide (x.1 ≤ va) && decide (va + 4 ≤ x.1 + x.2.length)).map fun x =>
    BitVec.ofNat 32 (leAt x.2 (va - x.1) 4)

/-- One word fetched: execute permission is required (R93 check 1). -/
def State.fetchWord (s : State) (g : Group) (va : Nat) : Except FCode Word × State :=
  match (if g.steward then s.firmWord va else none) with
  | some w => (.ok w, s)
  | none => match s.check (coreDie g.loc) g.loc .fetch (fun _ => true)
      (some (locCoreOfDie g.loc)) va with
  | (.ok pa _, s1) => let (w, s2) := s1.codeWord g.loc pa; (.ok w, s2)
  | (.fault c _, s1) => (.error c, s1)
  | (.stall, s1) => (.error .preempt, s1)

/-- Further words of an instruction. -/
def State.fetchMore (s : State) (g : Group) (va : Nat) : Nat → Except FCode (List Word) × State
  | 0 => (.ok [], s)
  | n + 1 =>
    match s.fetchWord g va with
    | (.error c, s1) => (.error c, s1)
    | (.ok w, s1) => match State.fetchMore s1 g (va + 4) n with
      | (.ok ws, s2) => (.ok (w :: ws), s2)
      | (.error c, s2) => (.error c, s2)

/-- What a fetch finds. `wait`: the frame is in transition (R209). -/
inductive Fetched where
  | instr (i : Instr)
  | fault (c : FCode)
  | wait
  deriving DecidableEq, Repr

/-- The instruction at a path's PC, or the fault of R93 checks 1 to 3 that its words give. -/
def State.fetch (s : State) (g : Group) (p : Path) : Fetched × State :=
  match s.fetchWord g p.pc.toNat with
  | (.error .preempt, s1) => (.wait, s1)
  | (.error c, s1) => (.fault c, s1)
  | (.ok w, s1) =>
    if isExtWord w then (.fault (if p.xfer then .xland else .ill), s1)
    else match s1.fetchMore g (p.pc.toNat + 4) (Prim.unpack w).extCount with
      | (.error .preempt, s2) => (.wait, s2)
      | (.error c, s2) => (.fault c, s2)
      | (.ok ws, s2) => match decodeWords (w :: ws) with
        | .ok (i, _) => (.instr i, s2)
        | .error _ => (.fault .ill, s2)

/-- Thread names of a group that is formed: they are never used again. -/
def newTid (gid rank : Nat) : Nat := gid * 32 + rank

/-- Bytes of the page tables and code of `withFetchWord`: root entry, one table per level, a leaf for
the page at 0x2_0000 (R W X, ACC), and the code. -/
def fetchImage (code : List Byte) (m : Memory) : Memory :=
  let m1 := Memory.writeN m 0x00000 (leBytes 8 0x20001)
  let m2 := Memory.writeN m1 0x20000 (leBytes 8 0x30001)
  let m3 := Memory.writeN m2 0x30000 (leBytes 8 0x40001)
  let m4 := Memory.writeN m3 0x40008 (leBytes 8 0x60873)
  Memory.writeN m4 0x60000 code

/-- `s` with one workgroup of one full group on core 0 of die 0 about to fetch the instruction whose
bits are `w`: what a launch and the kernel's page tables set up (assumption log 1). -/
def State.placeWord (s : State) (nbits w : Nat) : State :=
  let gid := s.nextId
  let code := (tableWords nbits w).flatMap wordBytes
  let g : Group :=
    { wg := gid, loc := 0,
      threads := (List.range 32).map fun r => (r, { tid := newTid gid r, farSlot := r }),
      paths := [{ pc := 0x20000, mask := -1 }] }
  let s1 := s.modDie 0 fun d =>
    { d with rootBase := 0, sid := 0, tlb := [], walkPtrs := [], peers := [], mem := fetchImage code d.mem }
  let s2 := s1.modCore 0 fun c => { c with purse := 8192, starveQ := [], icache := [] }
  { (s2.setGroup gid g).setWg gid { loc := 0, nb := 14, priv := true } with
    agenda := [], event := none, cursor := (gid, 0), nextId := gid + 1, power := .running }

end Sys2Proof.Machine
end

