-- ==== Sys2Proof/Machine/Data.lean ====
section
/-! DEFINITION. Bytes of one fragment read and written where they live (R235 to R242, R249, R258, R283,
R367). -/

namespace Sys2Proof.Machine

/-- Bytes of a control-window register read (R367). -/
def State.cwBytes (s : State) (pa n : Nat) : List Byte × State :=
  match hbmDie pa with
  | some h => let (v, s1) := s.cwRead h (cwOff pa); (leBytes n v, s1)
  | none => (leBytes n 0, s)

/-- The load fills the L1 on an IP frame (R247, R253). -/
def allocates (i : Instr) : Bool :=
  match i with
  | .ldNc _ | .ldByp _ => false
  | _ => true

/-- A read at the home of a line on another die (R283, R284): it waits until every message of the home
die that precedes its response has arrived, and for the links (R374); an RC line leaves a copy. -/
def State.peerRead (s : State) (d h : Nat) (f : Frag) : Option (List Byte × State) :=
  if !(s.link h d).isEmpty || !s.linkOpen d h || !s.linkOpen h d then none
  else
    let s1 := s.readResponse h d
    if isCwPa f.pa then some (s1.cwBytes f.pa f.size)
    else
      let s2 := s1.hotTouch f.pa
      let bs := s2.readPaN (f.pa / 128 * 128) 128
      let s3 := if f.typ == 0 && d < 4 then
          s2.modDie d fun x => { x with peerLines := Tab.put x.peerLines (f.pa / 128) bs }
        else s2
      some (s3.readPaN f.pa f.size, s3)

/-- The load reads a peer line at its home slice, whatever its scope (R247). -/
def Op.bypasses (o : Op) : Bool :=
  match o.instr with
  | .ldByp _ => true
  | _ => false

/-- A read copy of a peer line that a load may use: RC, at die scope or narrower (R283), by a form that reads
copies (R247). That every read at the home leaves a copy, that a copy is used where there is one, and that it goes only
by invalidation, is a DESIGN CHOICE where R283 says 'may' (assumption log 128). -/
def State.copyOf (s : State) (o : Op) (d : Nat) (f : Frag) : Option (List Byte) :=
  if f.typ == 0 && o.scope < 6 && !o.bypasses then
    match Tab.find? (s.die d).peerLines (f.pa / 128) with
    | some bs => some ((bs.drop (f.pa % 128)).take f.size)
    | none => none
  else none

/-- An acquire at package scope reads a write performed at that scope (R273): it waits while copies of the line's
latest write are still to go. -/
def State.acqWaits (s : State) (o : Op) (f : Frag) : Bool :=
  o.acquires && decide (6 ≤ o.scope) && f.cl.isNone && s.invPending (f.pa / 128)

/-- Bytes of a fragment as a load of the operation reads them; none: it must wait. -/
def State.readFrag (s : State) (o : Op) (m : Member) (f : Frag) : Option (List Byte × State) :=
  let d := coreDie o.loc
  match f.cl with
  | some c => some (Memory.readN (s.cluster c).spad f.pa f.size, s)
  | none => if s.acqWaits o f then none else match hbmDie f.pa with
    | none => some (s.readPaN f.pa f.size, s)
    | some h =>
      if h == d then
        if isCwPa f.pa then some (s.cwBytes f.pa f.size)
        else if f.typ == 3 && !o.far m then some (s.ipRead o.loc f.pa f.size (allocates o.instr))
        else some (s.readPaN f.pa f.size, s.hotTouch f.pa)
      else match s.copyOf o d f with
        | some bs => some (bs, s)
        | none => s.peerRead d h f

/-- How a store treats the owner's L1 (R249). -/
def ipMode (i : Instr) : IpMode :=
  match i with
  | .stNc _ => .noAlloc
  | .stByp _ => .bypass
  | _ => .alloc

/-- The write of one fragment at its home now: `ok`, or `wait` with the state meanwhile. A write that
updates memory from another die is sent and applied in one step, when nothing that precedes it is on its
way (R284). -/
inductive Put where
  | ok (s : State)
  | wait (s : State)

/-- Bytes of a fragment written. -/
def State.writeFrag (s : State) (id : Nat) (o : Op) (m : Member) (f : Frag) (bs : List Byte) : Put :=
  let d := coreDie o.loc
  match f.cl with
  | some c => .ok (s.modCluster c fun x => { x with spad := Memory.writeN x.spad f.pa bs })
  | none => match hbmDie f.pa with
    | none => .ok (s.writePaN f.pa bs)
    | some h =>
      match s.dupStall f.pa with
      | some s1 => .wait s1
      | none =>
        if h == d then
          if isCwPa f.pa then .ok (s.cwWrite h (cwOff f.pa) (BitVec.ofNat 64 (leNat bs)))
          else if f.typ == 3 && !o.far m then .ok (s.ipWrite o.loc f.pa bs (ipMode o.instr))
          else .ok (s.homeWrite f.pa bs (some id))
        else if !s.causalReady d h then .wait s
        else
          let s1 := s.countWrite d h
          if isCwPa f.pa then .ok (s1.cwWrite h (cwOff f.pa) (BitVec.ofNat 64 (leNat bs)))
          else .ok (s1.homeWrite f.pa bs (some id))

/-- Bytes of a member read so far, in order. -/
def Member.data (m : Member) : List Byte := m.frags.flatMap fun f => f.data

end Sys2Proof.Machine
end

