-- ==== Sys2Proof/Machine/Tables.lean ====
section
/-! DEFINITION. Instructions on tables (R205, R213, R214, R217 to R228): patterns, tags, sequencer states,
remaps, invalidation, retyping, prices, regions, peer slots. Those that read memory put an operation in
flight that ends here, in `tableDone`. -/

namespace Sys2Proof.Machine

/-- The die whose tables and gates a core's instructions act on; a steward core's act on C-die 0
(assumption log 27). -/
def tabDie (loc : Nat) : Nat := if loc < stewardLoc then locDie loc else 0

/-- What a path waits for in a form that acts once for it: an enqueue has not issued before it is accepted
(R319). -/
def waitFor (i : Instr) (id : Nat) : Wait :=
  match i with
  | .contPush _ | .ttask _ => .enq id
  | _ => .op id

/-- An operation whose path waits until it is complete (R205). -/
def State.launchWait (s : State) (c : Ctx) (ms : List Member) (path : APath) (scope : Nat) : State :=
  let (id, s1) := s.launch c ms [] none path scope
  s1.retire c fun g => g.modPath c.pi fun p => { c.seqPath p with wait := waitFor c.i id }

/-- The members of a form that acts once per path (R82, R205, R319): the leader makes the access; the
other threads of the path have nothing of their own to do. -/
def Ctx.one (c : Ctx) (addr a b : DWord) : List Member :=
  c.threads.map fun e =>
    if e.1 == c.leader.1 then accMember c e addr 0 a b else { accMember c e 0 0 0 0 with done := true }

/-- Earlier stores and atomics of the path's threads are not performed at a scope. -/
def State.storesBusy (s : State) (c : Ctx) (scope : Nat) : Bool :=
  s.ops.any fun o => (o.2.stores || (match o.2.instr with
    | .atom _ => true
    | _ => false))
    && !o.2.aside && c.threads.any fun t => o.2.members.any fun m =>
      m.tid == t.2.tid && (!m.done || (decide (6 ≤ scope) && o.2.invs != 0))

/-! ### Patterns (R218 to R220) -/

/-- A descriptor is valid (R219). -/
def patValid (p : List Byte) : Bool :=
  let fmt := patFmt p
  let rank := leAt p 0x31 1
  let align := if patSpn p != 0 then 4 else fmtSize fmt
  decide (leAt p 0 8 < 2 ^ 56) && decide (leAt p 8 8 < 2 ^ 56) && leAt p 0x3B 5 == 0
    && [2, 3, 4, 6, 7].contains fmt && 1 ≤ rank && rank ≤ 4 && patSpn p ≤ 3 && patSfmt p ≤ 1
    && leAt p 0x35 1 ≤ 1 && [0, 2, 3, 4, 6, 7].contains (patOfmt p)
    && ([0, 1, 2, 3].all fun i =>
      if i < rank then patExt p i != 0 else patExt p i == 0 && leAt p (0x20 + 4 * i) 4 == 0)
    && leAt p 0x20 4 == 0
    && !(patSpn p != 0 && fmt == 4) && !(patSfmt p == 1 && fmt != 6 && fmt != 7)
    && 1 ≤ patRows p && patRows p ≤ 4096 && 1 ≤ patCols p && patCols p ≤ 4096
    && leAt p 0 8 % align == 0

/-- `pat.set` (R220). -/
def execPatSet (f : AB) (s : State) : Out :=
  .next (s.issue (.patSet f)
    { group := true, a := .w f.a, b := .pair f.b, outside := true, log := true } fun c s =>
    s.launchWait c (c.one (c.lead.pair f.b) ((c.lead.word f.a).zeroExtend 64) 0) .lane 0)

/-- The form puts an operation of this chapter in flight. -/
def Op.isTable (o : Op) : Bool :=
  match o.instr with
  | .patSet _ | .seqLoad _ | .rgnMake _ | .peerMap _ | .retype _ => true
  | _ => false

/-- A form of this chapter that the group's other path has issued is not performed yet (R205). -/
def State.tableBusy (s : State) (c : Ctx) : Bool :=
  s.ops.any fun e => e.2.gid == c.gid && e.2.isTable && e.2.stage != .faulted && !e.2.aside && !e.2.over

/-- `pat.inv` (R220). -/
def execPatInv (a : Name) (s : State) : Out :=
  .next (s.issue (.patInv a) { group := true, a := .w a, outside := true } fun c s =>
    if s.tableBusy c then s.turnOver else
    (s.modDie (tabDie c.g.loc) fun x =>
      { x with patterns := Tab.del x.patterns ((c.lead.word a).toNat % 256) }).next_ c)

/-! ### Tags (R221) -/

/-- The cluster of a group. -/
def Ctx.cluster (c : Ctx) : Nat := locCluster c.g.loc

/-- A word written to every member's D. -/
def State.writeAll (s : State) (c : Ctx) (d : Name) (v : Word) : State :=
  s.writeResults c (.w d) (c.threads.map fun e => (e.1, v.zeroExtend 128))

/-- `tlook` (R221). -/
def execTlook (f : N2) (s : State) : Out :=
  .next (s.issue (.tlook f) { group := true, a := .w f.a, dst := .w f.d } fun c s =>
    let key := c.lead.word f.a
    let hit := List.find? (fun e : Nat × BitVec 16 × Word =>
      e.2.1.toNat == c.w.region && e.2.2 == key) (s.cluster c.cluster).tags
    let v : Word := match hit with
      | some e => if c.g.steward then -1 else BitVec.ofNat 32 e.1
      | none => -1
    (s.writeAll c f.d v).next_ c)

/-- Old KEY of a slot, or 0xFFFF_FFFF (R221). -/
def Cluster.oldKey (k : Cluster) (slot : Nat) : Word :=
  match Tab.find? k.tags slot with
  | some e => e.2
  | none => -1

/-- The slot belongs to another region (R221). -/
def Cluster.foreign (k : Cluster) (slot r : Nat) : Bool :=
  match Tab.find? k.tags slot with
  | some e => e.1.toNat != r
  | none => false

/-- Effect of `tset` and `tclr` on a slot: `key` none clears (R221). They are releases at cluster scope. A form of this
chapter that the group's other path issued is performed first (R205). -/
def State.setTag (s : State) (c : Ctx) (d : Name) (slot : Nat) (key : Option Word) : State :=
  if s.tableBusy c then s.turnOver
  else if c.g.steward then (s.writeAll c d (-1)).next_ c
  else
    let k := s.cluster c.cluster
    if k.foreign slot c.w.region && !c.privileged then s.trapCode c .perm
    else if s.laneBusy c 4 false then s.turnOver
    else
      let s1 := s.modCluster c.cluster fun k => match key with
        | some v => { k with tags := Tab.put k.tags slot (BitVec.ofNat 16 c.w.region, v) }
        | none => { k with tags := Tab.del k.tags slot }
      (s1.writeAll c d (k.oldKey slot)).next_ c

/-- `tset` (R221). -/
def execTset (f : DAB) (s : State) : Out :=
  .next (s.issue (.tset f)
    { group := true, a := .w f.a, b := .w f.b, dst := .w f.d, outside := true } fun c s =>
    let key := c.lead.word f.a
    s.setTag c f.d ((c.lead.word f.b).toNat % 2048) (if key == -1 then none else some key))

/-- `tclr` (R221). -/
def execTclr (f : N2) (s : State) : Out :=
  .next (s.issue (.tclr f) { group := true, a := .w f.a, dst := .w f.d, outside := true } fun c s =>
    s.setTag c f.d ((c.lead.word f.a).toNat % 2048) none)

/-! ### Sequencer states (R222, R223) -/

/-- A word of a state table is valid (R222). -/
def seqValid (w : Nat) : Bool :=
  w / 2 ^ 41 == 0 && decide (w / 2 ^ 34 % 16 ≤ 6) && decide (w / 16 % 16 ≤ 3) && decide (w % 16 ≤ 9)

/-- The words of a table. -/
def seqWords (bs : List Byte) : List Nat := (List.range 64).map fun k => leAt bs (8 * k) 8

/-- `seq.load` (R223). On a steward core it has no effect (R205). -/
def execSeqLoad (a : Name) (s : State) : Out :=
  .next (s.issue (.seqLoad a) { group := true, a := .pair a, outside := true, log := true } fun c s =>
    if c.g.steward then s.next_ c else s.launchWait c (c.one (c.lead.pair a) 0 0) .lane 0)

/-- No engine of a cluster runs a task or a direct command (R223). -/
def State.enginesIdle (s : State) (ck : Nat) : Bool :=
  [0, 1, 2, 3].all fun k =>
    let e := (s.core (clusterLoc ck k)).engine
    e.queue.isEmpty && (match e.owner with
      | .task _ => false
      | _ => true)

/-- A `seq.load` runs on the cluster: the tile scheduler starts no task (R223). -/
def State.seqLoading (s : State) (ck : Nat) : Bool :=
  s.ops.any fun o => (match o.2.instr with
    | .seqLoad _ => true
    | _ => false) && locCluster o.2.loc == ck && o.2.stage != .faulted

/-! ### Remaps (R225) -/

/-- `remap.set` (R225). -/
def execRemapSet (f : AB) (s : State) : Out :=
  .next (s.issue (.remapSet f) { group := true, a := .w f.a, b := .w f.b, outside := true } fun c s =>
    let a := (c.lead.word f.a).toNat
    let b := c.lead.word f.b
    if c.g.steward then s.next_ c
    else if a == 0xFFFFFFFF then (s.modWg c.g.wg fun w => { w with tbase := none, modb := b }).next_ c
    else if a % 64 != 0 || a + 16384 > c.w.scrSize then s.trapCode c .ill
    else (s.modWg c.g.wg fun w => { w with tbase := some a, modb := b }).next_ c)

/-! ### Invalidation (R214) -/

/-- An undone access has used a cached translation of a holder die (R214). -/
def State.transUsed (s : State) (d : Nat) (t : Trans) : Bool :=
  s.ops.any fun o => coreDie o.2.loc == d && o.2.stage == .confirmed && !s.logged o.2
    && o.2.members.any fun m => !m.done && m.frags.any fun f =>
      !f.done && f.cl.isNone && decide (t.base ≤ f.va) && decide (f.va < t.base + t.size)

/-- The entries that a `tlb.inv` covers (R214), of a die `x`. -/
def invCovers (d kind a sid x : Nat) (t : Trans) : Bool :=
  match kind with
  | 0 => x == d && t.slot.isNone && t.sid == sid && decide (t.base ≤ a) && decide (a < t.base + t.size)
  | 1 => x == d && t.sid == sid
  | 2 => x == d
  | 3 => x == d && t.slot == some (a % 256)
  | _ => t.export_ == some (d * 1024 + a % 1024)

/-- The pointer entries that a `tlb.inv` covers (R214), of a die `x`. -/
def invPtrs (d kind a sid x : Nat) (w : WalkPtr) : Bool :=
  x == d && match kind with
    | 0 => w.sid == sid && decide (w.base ≤ a) && decide (a < w.base + w.size)
    | 1 => w.sid == sid
    | 2 => true
    | _ => false

/-- Pointer entries removed (R214). -/
def State.dropPtrs (s : State) (p : Nat → WalkPtr → Bool) : State :=
  { s with dies := Tab.mapV s.dies fun x d => { d with walkPtrs := d.walkPtrs.filter fun w => !p x w } }

/-- Covered entries removed on every die (R214). Logged waits translate afresh. -/
def State.dropTrans (s : State) (p : Nat → Trans → Bool) : State :=
  let dies := Tab.mapV s.dies fun x d => { d with tlb := d.tlb.filter fun t => !p x t }
  let hit := fun (o : Op) => o.stage == .confirmed && s.logged o && o.members.any fun m => !m.done
    && m.frags.any fun f => !f.done && f.cl.isNone && (s.die (coreDie o.loc)).tlb.any fun t =>
      p (coreDie o.loc) t && decide (t.base ≤ f.va) && decide (f.va < t.base + t.size)
  let fresh := fun m : Member => if m.done then m else { m with frags := m.frags.filter fun f => f.cl.isSome }
  { s with
    dies
    ops := Tab.mapV s.ops fun _ o =>
      if hit o then { o with stage := .issued, members := o.members.map fresh } else o }

/-- Some access under way used a covered entry. -/
def State.invBusy (s : State) (p : Nat → Trans → Bool) : Bool :=
  s.dies.any fun x => x.2.tlb.any fun t => p x.1 t && s.transUsed x.1 t

/-- `tlb.inv` (R214). -/
def execTlbInv (f : AB) (s : State) : Out :=
  .next (s.issue (.tlbInv f)
    { group := true, a := .pair f.a, b := .w f.b, outside := true, priv := true } fun c s =>
    let b := (c.lead.word f.b).toNat
    let kind := b % 16
    let p := invCovers (coreDie c.g.loc) kind (c.lead.pair f.a).toNat (b / 2 ^ 16 % 4096)
    if kind > 4 then s.trapCode c .ill
    else if s.tableBusy c || s.storesBusy c (if kind == 4 then 6 else 5) || s.invBusy p then s.turnOver
    else ((s.dropTrans p).dropPtrs
      (invPtrs (coreDie c.g.loc) kind (c.lead.pair f.a).toNat (b / 2 ^ 16 % 4096))).next_ c)

/-! ### Retyping (R213) -/

/-- A physical address is in the frames of a die (R212). -/
def ownFrame (d pa : Nat) : Bool := hbmDie pa == some d

/-- Accesses that passed check 2 before the mark are not performed yet (R213): accesses in flight other
than a `waita`, which translates afresh, ordered-atomic entries, writes on links and held. -/
def State.frameBusy (s : State) (n : Nat) : Bool :=
  (s.ops.any fun o => o.2.stage == .confirmed && (match o.2.instr with
      | .waitaEq _ | .waitaNe _ => false
      | _ => true)
    && !o.2.isRedecl
    && o.2.members.any fun m => !m.done && m.frags.any fun f =>
      !f.done && f.cl.isNone && frameOf f.pa == n)
    || (s.dies.any fun d => d.2.ordq.any fun x => frameOf x.pa == n)
    || (s.links.any fun l => l.2.any msgOn)
    || (s.dies.any fun d => d.2.held.any fun h => msgOn h.2)
where
  /-- A message that writes the frame. -/
  msgOn : Msg → Bool
    | .write pa _ _ _ => frameOf pa == n
    | _ => false

/-- Copies of a frame's lines written back and invalidated: owners' L1s, home slices and peer copies (R213). -/
def State.cleanFrame (s : State) (n : Nat) : State :=
  let s1 := s.cores.foldl (fun s c => c.2.l1.foldl (fun s l =>
      if frameOf (128 * l.1) == n then (s.cleanL1 c.1 l.1).dropL1 c.1 l.1 else s) s) s
  { s1 with dies := Tab.mapV s1.dies fun _ d =>
      { d.sliceDrop n with peerLines := d.peerLines.filter fun l => frameOf (128 * l.1) != n } }

/-- The new type takes force (R213). -/
def State.retypeFinish (s : State) (n b : Nat) : State :=
  let pa := n * Config.frameBytes
  let new := b % 4
  let old := s.frame pa
  let s1 := if new == 2 && old.typ != 2 then match hbmDie pa with
      | some d => s.modDie d fun x =>
          { x with wsWritten := x.wsWritten.filter fun p => frameOf (16 * p) != n }
      | none => s
    else s
  let s2 := s1.modFrame pa fun f =>
    { f with typ := BitVec.ofNat 2 new, trans := b / 2 ^ 16 % 2 == 1,
             owner := if new == 3 then BitVec.ofNat 7 (b / 4) else 0 }
  s2.dropTrans fun _ t => decide (t.frame ≤ pa) && decide (pa < t.frame + t.size)

/-- `retype` (R213): the checks and the mark; the drain and the new type come with STORE_PERFORMED. A
`retype` that finds TRANS set skips the drain. -/
def execRetype (f : AB) (s : State) : Out :=
  .next (s.issue (.retype f)
    { group := true, a := .pair f.a, b := .w f.b, outside := true, priv := true } fun c s =>
    let a := (c.lead.pair f.a).toNat
    let b := (c.lead.word f.b).toNat
    let fr := s.frame a
    if a % Config.frameBytes != 0 then s.trapCode c .align
    else if !ownFrame (tabDie c.g.loc) a then
      (s.logViolation (tabDie c.g.loc) a 1 0 c.g.loc).trapCode c .viol
    else if fr.res || fr.dev then s.trapCode c .perm
    else if fr.strand then s.trapCode c .strand
    else if s.tableBusy c || s.laneBusy c 5 false || c.threads.any fun t => s.pathPending t.2.tid true then s.turnOver
    else
      let s1 := if fr.trans then s else s.modFrame a fun x => { x with newType := BitVec.ofNat 2 b, trans := true }
      s1.launchWait c ((c.one (BitVec.ofNat 64 a) (if fr.trans then 1 else 0) (BitVec.ofNat 64 b)).map fun m =>
        { m with frags := [] }) .lane 0)

/-- An access that stalled on a frame in transition is not performed yet (R280). -/
def State.stalledLeft (s : State) (n : Nat) : Bool :=
  (s.ops.any fun o => o.2.stalledOn.contains n && !o.2.over && !o.2.aside)
    || (s.clusters.any fun c => c.2.ladles.any fun q => q.2.any fun x => x.stalledOn.contains n)
    || (s.cores.any fun c => c.2.engine.queue.any fun x => x.stalledOn.contains n)
    || s.xdies.any fun x => x.2.active.any fun c => c.stalledOn.contains n

/-- The new type is in force; the issuer waits on until the accesses that stalled on the frame are performed (R280).
With HOLD they stay stalled, and nothing is awaited (assumption log 104). -/
def State.retypeForce (s : State) (id : Nat) (m : Member) : State :=
  let n := frameOf m.addr.toNat
  let s1 := s.retypeFinish n m.b.toNat
  if (s1.frame m.addr.toNat).trans then s1.doneAll id
  else s1.modMember id m.rank fun k => { k with frags := [{ off := 0, size := 0, va := 0, pa := 0, done := true }] }

/-- The drain of a `retype` is over: its read duplicates are withdrawn first (R213, R242). A `retype` that found
TRANS set has none. -/
def State.retypeDrain (s : State) (id : Nat) (m : Member) : State :=
  let n := frameOf m.addr.toNat
  if !m.frags.isEmpty then (if s.stalledLeft n then s else s.doneAll id)
  else if m.a != 0 then s.retypeForce id m
  else if s.frameBusy n then s
  else match s.dupStall m.addr.toNat with
    | some s1 => s1
    | none => (s.cleanFrame n).retypeForce id m

/-! ### Prices (R224) -/

/-- `price.set` (R224). -/
def execPriceSet (f : AB) (s : State) : Out :=
  .next (s.issue (.priceSet f)
    { group := true, a := .w f.a, b := .w f.b, outside := true, priv := true } fun c s =>
    let k := (c.lead.word f.a).toNat % 16
    let v := (c.lead.word f.b).toNat % 65536
    if k == 0 || 13 ≤ k then s.next_ c
    else (s.modDie (tabDie c.g.loc) fun x => { x with pricePend := Tab.put x.pricePend k v }).next_ c)

/-! ### Regions (R226 to R228) -/

/-- A push to another die that its target has not acknowledged counts on the pushing die (R17, R324). -/
def pushCount (o : Op) : Option (Nat × Nat) :=
  match o.instr, o.members.find? fun m => m.frags.any fun f => f.sent with
  | .contPush _, some m => if o.loc < stewardLoc then
      some (locDie o.loc, (Record.ofBytes (m.frags.flatMap fun f => f.data)).region) else none
  | _, _ => none

/-- A record that has come over a link and is on no queue yet counts where it is, unless the operation that
pushes it still does, or a steward core pushes it (R324). -/
def State.pushCounts (s : State) (d id r : Nat) : Option (Nat × Nat) :=
  match s.op? id with
  | some o => if o.loc < stewardLoc && locDie o.loc == d then some (d, r) else none
  | none => some (d, r)

/-- Items counted at die level, as die and region (R17, R186): records queued, held and staged, records on their
way, workgroups live and saved, runner commands. -/
def State.dieItems (s : State) : List (Nat × Nat) :=
  (s.dies.flatMap fun d =>
      (d.2.queues.flatMap fun q => q.2.map fun x => (d.1, x.record.region))
        ++ (d.2.heldPush.filterMap fun x => s.pushCounts d.1 x.1 x.2.record.region)
        ++ (d.2.held.filterMap fun h => match h.2 with
          | .push q _ => if (s.op? q.id).isSome then none else some (d.1, q.record.region)
          | _ => none)
        ++ d.2.staging.map fun x => (d.1, x.region))
    ++ (s.links.flatMap fun l => l.2.filterMap fun m => match m with
      | .push q _ => if l.1 / 8 < 4 && (s.op? q.id).isNone then some (l.1 / 8, q.record.region) else none
      | _ => none)
    ++ (s.ops.filterMap fun o => pushCount o.2)
    ++ (s.wgs.map fun w => (locDie w.2.loc, w.2.region))
    ++ (s.saved.map fun v => (v.die, v.wg.region))
    ++ s.xdies.flatMap fun x => (x.2.queues.flatMap fun q => q.2.map fun y => (y.die, y.region))
      ++ x.2.active.map fun y => (y.die, y.region)

/-- Items counted at cluster level, as cluster and region (R186): tile tasks and ladle commands. -/
def State.clusterItems (s : State) : List (Nat × Nat) :=
  s.clusters.flatMap fun c => (c.2.tasks.map fun t => (c.1, t.region))
    ++ c.2.ladles.flatMap fun q => q.2.map fun y => (c.1, y.region)

/-- All the items, as die and region. -/
def State.items (s : State) : List (Nat × Nat) :=
  s.dieItems ++ s.clusterItems.map fun x => (x.1 / 32, x.2)

/-- The completion count of a region at a die, its clusters included (R17, R186). -/
def State.regionItems (s : State) (d r : Nat) : Nat := (s.items.filter fun x => x == (d, r)).length

/-- An enqueue does not take a count past 0xFFFF_FFFF (R186): `l` holds the items of its level. -/
def countRoom (l : List (Nat × Nat)) (k r : Nat) : Bool :=
  decide ((l.filter fun x => x == (k, r)).length < 0xFFFFFFFF)

/-- `rgn.make` (R228). -/
def execRgnMake (a : Name) (s : State) : Out :=
  .next (s.issue (.rgnMake a) { group := true, a := .pair a, outside := true, log := true } fun c s =>
    s.launchWait c (c.one (c.lead.pair a) 0 0) .lane 0)

/-- Dies that are online. -/
def State.online (s : State) : List Nat := State.dies4.filter fun d => !(s.die d).offline

/-- The lowest region number from `n` up that is free on every online die (R228). -/
def State.freeRegion (s : State) (n : Nat) : Nat → Option Nat
  | 0 => none
  | k + 1 => if s.online.all fun d => (s.rgn? d n).isNone then some n else State.freeRegion s (n + 1) k

/-- Bits of a value at a byte offset of a block. -/
def at8 (off v : Nat) : Nat := v * 2 ^ (8 * off)

/-- The resolved block of a new region (R227). -/
def resolve_ (b p : RgnBlock) (num parent home : Nat) : RgnBlock :=
  let ovr := b.field 0 4
  let pick := fun bit off n => if ovr / 2 ^ bit % 2 == 1 then b.field off n else p.field off n
  let m := b.field 9 1
  let mp := p.field 9 1
  let bit := fun k j => if ovr / 2 ^ k % 2 == 1 then m / 2 ^ j % 2 else mp / 2 ^ j % 2
  let fm := if ovr / 4 % 2 == 1 then m / 4 % 4 else mp / 4 % 4
  let modeb := (if m % 2 == 1 && mp % 2 == 1 then 1 else 0) + 2 * bit 10 1 + 4 * fm + 16 * bit 1 4
  let w := fun v => BitVec.ofNat 64 v
  { home,
    words := [
      w (ovr + at8 4 num + at8 6 parent),
      w (pick 0 8 1 + at8 1 modeb + at8 2 (pick 3 0x0A 2) + at8 4 (pick 4 0x0C 4)),
      w (pick 5 0x10 8), w (pick 6 0x18 8), w (pick 7 0x20 8),
      w (pick 7 0x28 4 + at8 4 (pick 8 0x2C 4)), w (b.field 0x30 8), w (pick 9 0x38 8),
      w (pick 9 0x40 4 + at8 4 (pick 10 0x44 4)), 0, 0, 0, 0, 0, 0, 0] }

/-- Reserved fields and OP of a block are legal (R226, R228). -/
def rgnRsvOk (b : RgnBlock) : Bool :=
  decide (b.field 0 4 < 2 ^ 11) && decide (b.field 8 1 < 8) && decide (b.field 9 1 < 32)
    && decide (b.field 0x48 1 ≤ 1) && (List.range 6).all (fun k => (b.words.getD (10 + k) 0) == 0)
    && b.field 0x4A 6 == 0

/-- FMODE and CORES of a block are legal where they override (assumption log 28). -/
def rgnFieldsOk (b : RgnBlock) : Bool :=
  let ovr := b.field 0 4
  let fm := b.field 9 1 / 4 % 4
  (ovr / 4 % 2 == 0 || fm == 1 || fm == 2)
    && (ovr / 8 % 2 == 0 || (1 ≤ b.field 0x0A 2 && b.field 0x0A 2 ≤ 128))

/-- A create (R228): STATUS, NUM and the state with the block in every online directory. -/
def State.rgnCreate (s : State) (o : Op) (b : RgnBlock) : Nat × Nat × State :=
  let d := tabDie o.loc
  let parent := o.region
  let p := (s.rgn? d parent).getD rgnZero
  let r := resolve_ b p 0 parent d
  if !rgnFieldsOk b then (1, b.field 4 2, s)
  else if r.prio > p.prio || r.cores > p.cores then (2, b.field 4 2, s)
  else match s.freeRegion 1 65535 with
    | none => (3, b.field 4 2, s)
    | some n =>
      let blk := resolve_ b p n parent d
      (0, n, (s.online.foldl (fun s d =>
        s.modDie d fun x => { x with regions := Tab.put x.regions n blk }) s).modRun n fun _ => {})

/-- A retire (R228): STATUS and the state. -/
def State.rgnRetire (s : State) (o : Op) (priv : Bool) (n : Nat) : Nat × State :=
  let d := tabDie o.loc
  if n == 0 then (4, s)
  else if (s.rgn? d n).isNone then (5, s)
  else
    let kids := s.online.any fun d => (s.die d).regions.any fun e => e.1 != n && e.2.parent == n
    let busy := State.dies4.any fun d => s.regionItems d n != 0
    if !(priv || (o.region != n && s.under d o.region n)) || kids || busy || (s.run n).active then (4, s)
    else
      (0, { s with
        dies := Tab.mapV s.dies fun _ x => { x with regions := Tab.del x.regions n }
        clusters := Tab.mapV s.clusters fun _ c =>
          { c with tags := c.tags.filter fun t => t.2.1.toNat != n }
        regionRuns := Tab.del s.regionRuns n })

/-- The block at an address, answered (R228): STATUS is written last. -/
def State.rgnAnswer (s : State) (o : Op) (priv : Bool) (b : RgnBlock) : Nat × Nat × Nat × State :=
  if !rgnRsvOk b then (1, b.field 4 2, b.parent, s)
  else if b.field 0x48 1 == 1 then
    let (st, s1) := s.rgnRetire o priv (b.field 4 2)
    (st, b.field 4 2, b.parent, s1)
  else
    let (st, n, s1) := s.rgnCreate o b
    (st, n, if st == 0 then o.region else b.parent, s1)

/-! ### Peer slots (R217) -/

/-- `peer.map` (R217). -/
def execPeerMap (a : Name) (s : State) : Out :=
  .next (s.issue (.peerMap a)
    { group := true, a := .pair a, outside := true, log := true, priv := true } fun c s =>
    s.launchWait c (c.one (c.lead.pair a) 0 0) .lane 0)

/-- Two ranges share an address. -/
def rangesMeet (a n b k : Nat) : Bool := decide (a < b + k) && decide (b < a + n)

/-- STATUS of a map (R217). The slots that the new range may overlap are the others: where it meets the mapping that the
slot itself holds, STATUS is 4 and not 3 (R217 does not say; DESIGN CHOICE, assumption log 124). -/
def State.mapStatus (s : State) (d h vbase len slot : Nat) : Nat :=
  let ex := h / 2 ^ 62
  if ex == d || (s.die ex).offline then 2
  else match s.export? ex (h / 2 ^ 52 % 1024) (h % 2 ^ 52) with
    | none => 2
    | some (_, _, elen, _) =>
      let old := Tab.getD (s.die d).peers slot {}
      if decide (len > elen) || (s.die d).peers.any fun e => e.1 != slot && e.2.valid
          && rangesMeet vbase (len * 2 ^ 23) e.2.word1.toNat (e.2.word2.toNat % 2 ^ 32 * 2 ^ 23) then 3
      else if old.valid then 4 else 0

/-- A descriptor is valid (R217). -/
def peerDescOk (bs : List Byte) : Bool :=
  let op := leAt bs 0x16 1
  leAt bs 0x15 1 < 8 && leAt bs 0x18 8 == 0 && op ≤ 1
    && 1 ≤ leAt bs 0x10 4 && leAt bs 0x10 4 ≤ 2 ^ 24 && leAt bs 8 8 % 2 ^ 23 == 0

/-- `peer.map` performed (R217): STATUS and the state; no STATUS while an unmap, its slot cleared once, waits as
`tlb.inv` of kind PEER does. `cleared`: the slot has been cleared by it. -/
def State.peerAnswer (s : State) (d : Nat) (bs : List Byte) (cleared : Bool) : Option Nat × State :=
  let slot := leAt bs 0x14 1
  if !peerDescOk bs then (some 1, s)
  else if leAt bs 0x16 1 == 1 then
    let p := invCovers d 3 slot 0
    let s1 := if cleared then s else s.modDie d fun x => { x with peers := Tab.del x.peers slot }
    if s1.invBusy p then (none, s1) else (some 0, s1.dropTrans p)
  else
    let st := s.mapStatus d (leAt bs 0 8) (leAt bs 8 8) (leAt bs 0x10 4) slot
    let w := fun k => BitVec.ofNat 64 (leAt bs (8 * k) 8)
    let e : PeerSlot := { valid := true, word0 := w 0, word1 := w 1, word2 := w 2, word3 := w 3 }
    if st != 0 then (some st, s)
    else (some 0, s.modDie d fun x => { x with peers := Tab.put x.peers slot e })

/-! ### The end of a form that has read memory -/

/-- A fault of the form's own rule, deferred-precise (R205). -/
def State.tableFault (s : State) (id : Nat) (o : Op) (m : Member) (code : FCode) : State :=
  s.faultOp id o (o.trap (s.opWg o) code (o.trapRanks ((1 : Word) <<< m.rank)) 0 0 0)

/-- A form of the other path of the same issue comes first (R205). -/
def State.tableWaits (s : State) (id : Nat) (o : Op) : Bool :=
  s.issueOpen o || s.ops.any fun e => decide (e.1 < id) && e.2.gid == o.gid && e.2.cycle == o.cycle
    && e.2.stage != .faulted && !e.2.aside && !e.2.over

/-- Bytes of an answer written to the block, part after part; or the state while one must wait. -/
def State.answer (s : State) (id : Nat) (o : Op) (m : Member) (f : Frag) : List (Nat × List Byte) → Put
  | [] => .ok s
  | (off, bs) :: r =>
    match s.writeFrag id o m { f with pa := f.pa + off, size := bs.length } bs with
    | .ok s1 => State.answer s1 id o m f r
    | .wait s1 => .wait s1

/-- The bytes that answer a block are written and the form is complete, or it waits with nothing done. -/
def State.answered (s : State) (id : Nat) (p : Put) : State :=
  match p with
  | .ok s1 => s1.doneAll id
  | .wait _ => match s.op? id with
    | some o => (match (o.members.head?.bind fun m => m.frags.head?) with
      | some f => (s.dupStall f.pa).getD s
      | none => s)
    | none => s

/-- THE EFFECT OF A TABLE FORM once its memory is read (R217, R220, R223, R228). `m` holds the bytes. Which die's
tables a steward core's form acts on, `peer.map` among them, the spec does not say: C-die 0's (DESIGN CHOICE, assumption
log 27). -/
def State.tableDone (s : State) (id : Nat) (o : Op) (m : Member) : State :=
  let bs := m.data
  let f := m.frags.headD default
  match o.instr with
  | .patSet _ =>
    if !patValid bs then s.tableFault id o m .pat
    else (s.modDie (tabDie o.loc) fun x =>
      { x with patterns := Tab.put x.patterns (m.a.toNat % 256) bs }).doneAll id
  | .seqLoad _ =>
    if !(seqWords bs).all seqValid then s.tableFault id o m .pat
    else
      let t : Tab DWord := (List.range 64).map fun k => (k, BitVec.ofNat 64 (leAt bs (8 * k) 8))
      let ck := locCluster o.loc
      ([0, 1, 2, 3].foldl (fun s k => s.modEngine (clusterLoc ck k) fun e => { e with table := t }) s).doneAll id
  | .rgnMake _ =>
    let b : RgnBlock := { words := (List.range 16).map fun k => BitVec.ofNat 64 (leAt bs (8 * k) 8) }
    let w := s.opWg o
    let (st, n, p, s1) := s.rgnAnswer o (w.priv || stewardLoc ≤ o.loc) b
    s.answered id (s1.answer id o m f [(4, leBytes 2 n), (6, leBytes 2 p), (0x49, leBytes 1 st)])
  | .peerMap _ =>
    (match s.peerAnswer (tabDie o.loc) bs (m.b != 0) with
      | (none, s1) => s1.modMember id m.rank fun k => { k with b := 1 }
      | (some st, s1) => s.answered id (s1.answer id o m f [(0x17, leBytes 1 st)]))
  | _ => s

/-- A table form may be performed: `seq.load` waits for the cluster's engines (R223). -/
def State.tableReady (s : State) (id : Nat) (o : Op) : Bool :=
  !s.tableWaits id o && (match o.instr with
    | .seqLoad _ => s.enginesIdle (locCluster o.loc)
    | _ => true)

end Sys2Proof.Machine
end

