-- ==== Sys2Proof/Machine/Queues.lean ====
section
/-! DEFINITION. The enqueue instructions (R319 to R340) and the caster (R30 to R32, R327). -/

namespace Sys2Proof.Machine

/-! ### Forming lists (R30) -/

/-- The target PC of an item. -/
def Item.pc : Item → DWord
  | .spawn pc _ _ => pc
  | .cast pc _ => pc

/-- A forming list: items in spawn memory, then those of the overflow area (R30, R32). -/
def Workgroup.listOf (w : Workgroup) (pc : DWord) : List (Nat × Item) :=
  (w.items.filter fun e => e.2.pc == pc) ++ w.overflow.filter fun e => e.2.pc == pc

/-- An item put in order of arrival. -/
def insertArrival (l : List (Nat × Item)) (x : Nat × Item) : List (Nat × Item) :=
  l.filter (fun y => decide (y.1 < x.1)) ++ x :: l.filter fun y => decide (x.1 < y.1)

/-- Target PCs of the forming lists in the order of each list's oldest item (R30, R327). -/
def Workgroup.lists (w : Workgroup) : List DWord :=
  distinct ((w.overflow.foldl insertArrival w.items).map fun e => e.2.pc)

/-- Every thread of the workgroup that is in a group waits at one barrier (R30). -/
def State.allAtBarrier (s : State) (wg : Nat) : Bool :=
  let gs := s.groups.filter fun g => g.2.wg == wg && !g.2.steward
  !gs.isEmpty && (List.range 16).any fun b => gs.all fun g =>
    (g.2.paths ++ g.2.parked.toList).all (Path.waitsAll (.bar b))
      && g.2.casting.all fun k => k.wait == .bar b

/-- A list is ready to form (R30): 32 items, a partial list told to form, every thread at one barrier. -/
def State.listReady (s : State) (wg : Nat) (w : Workgroup) (pc : DWord) : Bool :=
  32 ≤ (w.listOf pc).length || w.flush.contains pc || s.allAtBarrier wg

/-- Free group slots of a core, lowest first (R112). -/
def State.freeSlots (s : State) (loc : Nat) : List Nat :=
  (List.range 48).filter fun k => !s.groups.any fun g => g.2.loc == loc && !g.2.steward && g.2.slot == k

/-- The slot that a new group takes: the lowest of the stage with more free slots (R20), the first stage when
both have as many. -/
def State.nextSlot (s : State) (loc : Nat) : Nat :=
  let l := s.freeSlots loc
  let hi := l.filter fun k => stageOf k == 1
  let lo := l.filter fun k => stageOf k == 0
  if lo.length < hi.length then hi.headD 0 else lo.headD 0

/-- Far slots in use by a workgroup: its threads, its cast items, members of its operations (R31, R163). -/
def State.slotsUsed (s : State) (wg : Nat) : List Nat :=
  (s.groups.flatMap fun g => if g.2.wg == wg && !g.2.steward
      then g.2.threads.map fun t => t.2.farSlot else [])
    ++ (match s.wg? wg with
      | some w => (w.items ++ w.overflow).filterMap fun e => match e.2 with
        | .cast _ t => some t.farSlot
        | .spawn _ _ _ => none
      | none => [])
    ++ (s.ops.flatMap fun o => if o.2.wg == wg
      then (o.2.members.filter fun m => !m.done && (m.place != .lane || o.2.isRedecl)).map fun m => m.slot else [])

/-- Free far slots of a workgroup (R20, R31). -/
def State.freeFar (s : State) (wg : Nat) (w : Workgroup) : List Nat :=
  let used := s.slotsUsed wg
  (List.range (32 * (w.gmax + 1))).filter fun k => !used.contains k

/-- GINDEX values that no group of the workgroup has. -/
def State.freeGindex (s : State) (wg : Nat) : Nat :=
  ((List.range 32).find? fun k => !s.groups.any fun g =>
    g.2.wg == wg && !g.2.steward && g.2.gindex == k).getD 0

/-- Groups of a workgroup. -/
def State.groupCount (s : State) (wg : Nat) : Nat :=
  (s.groups.filter fun g => g.2.wg == wg && !g.2.steward).length

/-- A list can form now: a group slot within GMAX + 1, a far slot for each spawn item (R30). -/
def State.canForm (s : State) (wg : Nat) (w : Workgroup) (pc : DWord) : Bool :=
  let its := (w.listOf pc).take 32
  let need := (its.filter fun e => match e.2 with
    | .spawn _ _ _ => true
    | .cast _ _ => false).length
  !its.isEmpty && decide (s.groupCount wg ≤ w.gmax) && !(s.freeSlots w.loc).isEmpty
    && decide (need ≤ (s.freeFar wg w).length)

/-- Threads of the formed group, by rank: a cast thread as it was, a spawned thread with its arguments
(R29, R31). -/
def formThreads (gid rank : Nat) (far : List Nat) : List (Nat × Item) → Tab Thread
  | [] => []
  | (_, .cast _ t) :: r => (rank, t) :: formThreads gid (rank + 1) far r
  | (_, .spawn _ a b) :: r =>
    (rank, { tid := newTid gid rank, farSlot := far.headD 0, lane := [(0, a), (1, b)] })
      :: formThreads gid (rank + 1) far.tail r

/-- Performance counters of a cluster (R201): groups formed by the caster, partial ones of them. -/
def State.countForm (s : State) (loc n : Nat) : State :=
  s.modCluster (locCluster loc) fun c =>
    { c with perf := bump (bump c.perf 0x200 1) 0x201 (if n < 32 then 1 else 0) }

/-- The caster forms a group from the first items of a list (R30). -/
def State.formNow (s : State) (wg : Nat) (w : Workgroup) (pc : DWord) : State :=
  let its := (w.listOf pc).take 32
  let ns := its.map fun e => e.1
  let (gid, s1) := s.newId
  let th := formThreads gid 0 (s.freeFar wg w) its
  let g : Group :=
    { wg, loc := w.loc, gindex := s.freeGindex wg, slot := s.nextSlot w.loc, stored := true, threads := th,
      paths := [{ pc, mask := th.foldl (fun m t => m ||| ((1 : Word) <<< t.1)) 0 }] }
  let keep := fun (l : List (Nat × Item)) => l.filter fun e => !ns.contains e.1
  let s2 := (s1.setGroup gid g).modWg wg fun w =>
    let w1 := { w with items := keep w.items, overflow := keep w.overflow }
    if (w1.listOf pc).isEmpty then { w1 with flush := w1.flush.filter (· != pc) } else w1
  (s2.seatGroup gid).countForm w.loc its.length

/-- A ready list forms when it can, and no older ready list that can form comes first (R30). -/
def State.form (s : State) (wg : Nat) (pc : DWord) : State :=
  match s.wg? wg with
  | none => s
  | some w =>
    let ok := fun x => s.listReady wg w x && s.canForm wg w x
    if w.lists.find? ok == some pc then s.formNow wg w pc else s

/-- A partial list told to form (R30, R327). -/
def State.flushList (s : State) (wg : Nat) (pc : DWord) : State :=
  (s.modWg wg fun w => if w.flush.contains pc || (w.listOf pc).isEmpty then w
    else { w with flush := w.flush ++ [pc] }).form wg pc

/-- CASTER_FORM_GROUP (R30). -/
def execCasterFormGroup (s : State) : Out := s.onEvent fun e s => match e with
  | .casterFormGroup wg pc => s.form wg pc
  | _ => s

/-- CASTER_TIMEOUT (R30): 64 F-cycles without a new arrival on the list. -/
def execCasterTimeout (s : State) : Out := s.onEvent fun e s => match e with
  | .casterTimeout wg pc => s.flushList wg pc
  | _ => s

/-- `cast.flush` (R327). -/
def execCastFlush (s : State) : Out :=
  .next (s.issue .castFlush { group := true, noSteward := true } fun c s =>
    ((c.w.lists).foldl (fun s pc => s.flushList c.g.wg pc) s).next_ c)

/-- DEFERRED_CAST (R29, R32): a thread that waits to be cast is cast, if it can be. -/
def State.deferredCast (s : State) (gid rank : Nat) : State :=
  match s.group? gid with
  | none => s
  | some g => match g.casting.find? fun k => k.mask.getLsbD rank && k.party.isNone with
    | some k => s.castAll gid { k with mask := (1 : Word) <<< rank }
    | none => s

/-- DEFERRED_CAST (R29, R32). -/
def execDeferredCast (s : State) : Out := s.onEvent fun e s => match e with
  | .deferredCast g r => s.deferredCast g r
  | _ => s

/-- OVERFLOW_RETURN (R32): the oldest overflowed item returns to spawn memory when it has room. -/
def State.overflowReturn (s : State) (wg : Nat) : State :=
  s.modWg wg fun w => match w.overflow with
    | [] => w
    | x :: r =>
      if itemBytes w.nb w.items + x.2.size w.nb ≤ (w.spw + 1) * 4096 then
        { w with items := w.items ++ [x], overflow := r }
      else w

/-- OVERFLOW_RETURN (R32). -/
def execOverflowReturn (s : State) : Out := s.onEvent fun e s => match e with
  | .overflowReturn wg => s.overflowReturn wg
  | _ => s

/-! ### `spawn` (R326) -/

/-- The fault of a spawn target (R326). -/
def spawnFault (pc : DWord) : Option FCode :=
  if pc == 0 then some .nullret
  else if pc.extractLsb' 0 2 != 0 then some .align
  else if pc.toNat ≥ 2 ^ 56 then some .page
  else none

/-- Items reserved and pushed one by one: the state, or the rank that found no place and why (R32, R325). -/
def State.pushItems (s : State) (wg : Nat) : List (Nat × Item) → Except (Nat × NoRoom) State
  | [] => .ok s
  | (r, it) :: l => match s.putItem wg it with
    | .error e => .error (r, e)
    | .ok s1 => State.pushItems s1 wg l

/-- `spawn` (R326): operands are each member's own copies. -/
def execSpawn (f : N3) (s : State) : Out :=
  .next (s.issue (.spawn f)
    { a := .pair f.a, b := .w f.b, d := .w f.d, x := f.x, group := true, perMember := true,
      noSteward := true, outside := true } fun c s =>
    let pc := fun e : Nat × Thread => (c.env e).pair f.a
    match c.threads.find? fun e => (spawnFault (pc e)).isSome with
    | some e => s.trapMask c ((spawnFault (pc e)).getD .page) ((1 : Word) <<< e.1) (pc e) 0
    | none =>
      match s.pushItems c.g.wg (c.threads.map fun e =>
          (e.1, .spawn (pc e) ((c.env e).word f.b) ((c.env e).word f.d))) with
      | .ok s1 => s1.next_ c
      | .error (_, .stall) => s.turnOver
      | .error (r, .full e) => s.trapMask c .spawnx ((1 : Word) <<< r) 0 (BitVec.ofNat 64 e))

/-! ### `cont.push` and `ttask` (R324, R330) -/

/-- `cont.push` (R324): the record is read, then pushed by `pushDone`. -/
def execContPush (f : QF) (s : State) : Out :=
  .next (s.issue (.contPush f)
    { group := true, a := .pair f.a, b := .w f.b, outside := true, log := true, sb := f.sb.toNat } fun c s =>
    let a := c.lead.pair f.a
    if a.extractLsb' 0 5 != 0 then s.trapMask c .align c.p.mask a 0
    else s.launchWait c (c.one a 0 ((c.lead.word f.b).zeroExtend 64)) .lane (if c.g.steward then 6 else 5))

/-- `ttask` (R330): the record is read, then enqueued by `taskDone`. -/
def execTtask (f : TtaskF) (s : State) : Out :=
  .next (s.issue (.ttask f)
    { group := true, a := .pair f.a, outside := true, log := true, noSteward := true,
      sb := f.sb.toNat } fun c s =>
    let a := c.lead.pair f.a
    if a.extractLsb' 0 6 != 0 then s.trapMask c .align c.p.mask a 0
    else s.launchWait c (c.one a 0 0) .lane 0)

/-- Earlier LANE-path accesses of an operation's threads are not performed at a scope (R271, R273). -/
def State.opLaneBusy (s : State) (id : Nat) (o : Op) (scope : Nat) : Bool :=
  s.ops.any fun e => decide (e.1 < id) && e.2.isAccess && !e.2.aside && e.2.members.any fun k =>
    !e.2.far k && (o.members.any fun m => m.tid == k.tid)
      && (!k.done || (decide (6 ≤ scope) && e.2.invs != 0))

/-- The target die of a `cont.push` (R324). -/
def pushTarget (loc : Nat) (b : Nat) : Nat :=
  if stewardLoc ≤ loc || b / 2 ^ 31 % 2 == 1 then b % 4 else locDie loc

/-- The ring of a record's level has room, and so has its region's count on the die (R186, R320). -/
def State.pushRoom (s : State) (d : Nat) (r : Record) : Bool :=
  s.ringRoom d r && countRoom s.dieItems d r.region

/-- THE PUSH of a `cont.push` whose record has been read (R324): a release of the earlier LANE-path
accesses; to another die by a message that its acknowledgement completes. -/
def State.pushDone (s : State) (id : Nat) (o : Op) (m : Member) : State :=
  let r := Record.ofBytes m.data
  let t := pushTarget o.loc m.b.toNat
  let d := coreDie o.loc
  if s.opLaneBusy id o o.scope || s.tableWaits id o then s
  else if (s.die t).offline then s.faultOp id o (o.trap (s.opWg o) .viol o.mask 0 0 0)
  else if t == d then
    if s.pushRoom t r then (s.enqueue t id r).doneAll id else s
  else if (m.frags.any fun f => f.sent) || (d < 4 && !countRoom s.dieItems d r.region) then s
  else
    (s.modMember id m.rank fun k => { k with frags := k.frags.map fun f => { f with sent := true } }).sendWrite
      d t fun v => .push { id, record := r, since := 0 } v

/-- A record that has come from another die enters its ring, or is held there until the ring has room
(R320). -/
def State.receivePush (s : State) (d : Nat) (q : QRec) : State :=
  if s.pushRoom d q.record then (s.enqueue d q.id q.record).ackPush d q.id
  else s.pushRecord d q.id q.record

/-- CONT_RING_PUSH_RETRY (R320): a held push tried again. -/
def State.retryPush (s : State) (d id : Nat) : State :=
  match (s.die d).heldPush.find? fun x => x.1 == id with
  | none => s
  | some (_, q) =>
    if s.ringRoom d q.record
        && ((s.pushCounts d id q.record.region).isSome || countRoom s.dieItems d q.record.region) then
      ((s.modDie d fun x => { x with heldPush := x.heldPush.filter fun y => y.1 != id }).enqueue d id
        q.record).ackPush d id
    else s

/-- CONT_RING_PUSH_RETRY (R320). -/
def execContRingPushRetry (s : State) : Out := s.onEvent fun e s => match e with
  | .contRingPushRetry d id => s.retryPush d id
  | _ => s

/-- The first message of a link taken off it. -/
def State.popLink (s : State) (d e : Nat) : State :=
  { s with links := Tab.put s.links (8 * d + e) (s.link d e).tail }

/-- CONT_PUSH_ACK (R17): the acknowledgement that has come to a die completes the push; a link that retrains holds it
(R374). -/
def State.pushAck (s : State) (d id : Nat) : State :=
  match (List.range 6).find? fun e => (s.link e d).head? == some (.ack id) && s.linkOpen e d with
  | some e => (s.popLink e d).doneAll id
  | none => s

/-- CONT_PUSH_ACK (R17). -/
def execContPushAck (s : State) : Out := s.onEvent fun e s => match e with
  | .contPushAck d id => s.pushAck d id
  | _ => s

/-- Bytes of a task record. -/
def Task.at_ (t : Task) (off n : Nat) : Nat := leAt (t.words.flatMap fun w => leBytes 8 w.toNat) off n

/-- A task record is valid (R329). -/
def taskValid (bs : List Byte) : Bool :=
  decide (leAt bs 3 1 < 64) && leAt bs 5 1 == 0 && leAt bs 0x24 28 == 0
    && leAt bs 4 1 / 4 % 4 != 3 && decide (leAt bs 8 4 ≤ leAt bs 0xC 4)
    && leAt bs 6 2 ≤ 4096 && leAt bs 0x18 2 ≤ 4096 && leAt bs 0x1A 2 ≤ 4096

/-- A record names a gate below 256 (R330). -/
def taskLowGate (bs : List Byte) : Bool :=
  [6, 0x18, 0x1A].any fun o => decide (1 ≤ leAt bs o 2) && decide (leAt bs o 2 ≤ 256)

/-- A pattern entry of a die, empty where invalid. -/
def State.pattern (s : State) (d n : Nat) : List Byte := Tab.getD (s.die d).patterns n []

/-- Tasks of a cluster that wait in its queue: a start takes a task out of it (R318, R331, R342). -/
def State.queuedTasks (s : State) (ck : Nat) : List Task :=
  (s.cluster ck).tasks.filter fun t => t.cores.isEmpty

/-- THE ENQUEUE of a `ttask` whose record has been read (R330): with it the `ttask` is complete (R177). -/
def State.taskDone (s : State) (id : Nat) (o : Op) (m : Member) : State :=
  let bs := m.data
  let w := s.opWg o
  let ck := locCluster o.loc
  if s.tableWaits id o then s
  else if !taskValid bs then s.tableFault id o m .ill
  else if taskLowGate bs && !w.priv then s.tableFault id o m .priv
  else if 512 ≤ (s.queuedTasks ck).length || !countRoom s.clusterItems ck o.region then s
  else
    let d := locDie o.loc
    let t : Task :=
      { id, words := (List.range 8).map fun k => BitVec.ofNat 64 (leAt bs (8 * k) 8), addr := m.addr,
        region := o.region, die := d, cluster := ck, wg := o.wg, gid := o.gid, pc := o.pc,
        tids := o.members.map fun k => k.tid, mode := w.mode, since := (s.die d).ticks,
        pa := s.pattern d (leAt bs 0 1), pb := s.pattern d (leAt bs 1 1), pcEnt := s.pattern d (leAt bs 2 1) }
    ((s.launchOn d o.region).modCluster ck fun c => { c with tasks := c.tasks ++ [t] }).doneAll id

/-! ### Ladles (R335, R337) -/

/-- A 64-bit number from two words. -/
def pairNat (l h : Word) : Nat := l.toNat + 2 ^ 32 * h.toNat

/-- The lowest of the addresses that a test picks. -/
def lowestWhere (l : List (Nat × Bool)) : DWord :=
  lowest ((l.filter fun x => x.2).map fun x => BitVec.ofNat 64 x.1)

/-- A command enqueued by a path (R319), which may begin a launch of its region (R187): counted, and attributed to the path's threads (R262). -/
def State.enqueued (s : State) (c : Ctx) (put : Nat → List Nat → State → State) : State :=
  let (id, s1) := (s.launchOn (tabDie c.g.loc) c.w.region).newId
  ((put id (c.threads.map fun e => e.2.tid) s1).modGroup c.gid fun g => g.sbAdd c.f.sb id).next_ c

/-- A ladle of a cluster has room for a command of a region, and so has the region's count (R186, R318). -/
def State.ladleRoom (s : State) (ck l r : Nat) : Bool :=
  decide ((Tab.getD (s.cluster ck).ladles l []).length < 32) && countRoom s.clusterItems ck r

/-- The precise fault of a `ldl.copy`: code and address (R335). The done offset is checked for alignment
whether or not DV is set. -/
def copyFault (w : Workgroup) (a b : List Word) : Option (FCode × DWord) :=
  let src := pairNat (a.getD 0 0) (a.getD 1 0)
  let dst := pairNat (a.getD 2 0) (a.getD 3 0)
  let len := (b.getD 0 0).toNat
  let ctl := (b.getD 1 0).toNat
  let off := (b.getD 2 0).toNat
  let ssp := ctl / 4 % 2 == 1
  let dsp := ctl / 8 % 2 == 1
  let dv := ctl / 16 % 2 == 1
  let scr := fun o => o ≥ 2 ^ 21 || (len != 0 && !scrOk w o len)
  if len > 2 ^ 24 then some (.ill, 0)
  else if len % 16 != 0 || src % 16 != 0 || dst % 16 != 0 || off % 4 != 0 then
    some (.align, lowestWhere [(src, !ssp && src % 16 != 0), (dst, !dsp && dst % 16 != 0)])
  else if (ssp && scr src) || (dsp && scr dst) || (dv && (off ≥ 2 ^ 21 || !scrOk w off 4)) then some (.perm, 0)
  else if (!ssp && src ≥ 2 ^ 56) || (!dsp && dst ≥ 2 ^ 56) then
    some (.page, lowestWhere [(src, !ssp && src ≥ 2 ^ 56), (dst, !dsp && dst ≥ 2 ^ 56)])
  else none

/-- `ldl.copy` (R335). -/
def execLdlCopy (f : QF) (s : State) : Out :=
  .next (s.issueIf (.ldlCopy f)
    { cls := 5, group := true, a := .quad f.a, b := .quad f.b, outside := true, noSteward := true,
      sb := f.sb.toNat } (fun c s => (copyFault c.w (c.lead.quad f.a) (c.lead.quad f.b)).isNone
        && !s.ladleRoom c.cluster (((c.lead.quad f.b).getD 1 0).toNat % 4) c.w.region) fun c s =>
    let a := c.lead.quad f.a
    let b := c.lead.quad f.b
    let l := (b.getD 1 0).toNat % 4
    match copyFault c.w a b with
    | some (code, va) => s.trapMask c code c.p.mask va 0
    | none =>
      s.enqueued c fun id tids s => s.modLadle c.cluster l fun q => q ++
        [{ id, a, b, region := c.w.region, wg := c.g.wg, gid := c.gid, pc := c.p.pc, tids,
           sb := f.sb.toNat, core := c.g.loc }])

/-- The operands of a `ldl.feed` are illegal (R337). -/
def feedIll (a b : DWord) : Bool :=
  let n := b.toNat / 2 ^ 32
  n == 0 || n > 4096 || a.toNat / 2 ^ 16 % 4 == 3

/-- `ldl.feed` (R337): it claims the core's engine and uses the ladle of the core's number. A feed raises no
PAT (R338): what an invalid pattern gives shows when its entries are consumed (assumption log 32). -/
def execLdlFeed (f : FeedF) (s : State) : Out :=
  .next (s.issueIf (.ldlFeed f)
    { cls := 5, group := true, a := .pair f.a, b := .pair f.b, outside := true, noSteward := true,
      sb := f.sb.toNat } (fun c s => !feedIll (c.lead.pair f.a) (c.lead.pair f.b)
        && (!s.engineFree c.g.loc c.g.wg || !s.ladleRoom c.cluster (locCore c.g.loc) c.w.region)) fun c s =>
    let a := c.lead.pair f.a
    let b := c.lead.pair f.b
    let l := locCore c.g.loc
    let entry := s.pattern (locDie c.g.loc) f.pat.toNat
    if feedIll a b then s.trapCode c .ill
    else (s.claim c.g.loc c.g.wg).enqueued c fun id tids s => s.modLadle c.cluster l fun q => q ++
        [{ id, feed := true, a := [lo a 0 32, lo a 32 32], b := [lo b 0 32, lo b 32 32],
           pat := f.pat.toNat, fifo := f.fifo, entry, core := c.g.loc, region := c.w.region,
           wg := c.g.wg, gid := c.gid, pc := c.p.pc, tids, sb := f.sb.toNat }])

/-! ### Runners (R340, R366) -/

/-- The X-die and the queue of a `run.copy` (R339): a steward core uses its own X-die's steward queue. -/
def runQueue (loc ctl : Nat) : Nat × Nat :=
  if stewardLoc ≤ loc then (coreDie loc, 4) else (4 + ctl / 16 % 2, locDie loc)

/-- The precise fault of a `run.copy` (R340, R366). PORT names a port of the X-die, whatever the kinds are. -/
def runFault (priv : Bool) (x : Nat) (a b : List Word) : Option (FCode × DWord) :=
  let src := pairNat (a.getD 0 0) (a.getD 1 0)
  let dst := pairNat (a.getD 2 0) (a.getD 3 0)
  let len := (b.getD 0 0).toNat
  let ctl := (b.getD 1 0).toNat
  let sk := ctl % 4
  let dk := ctl / 4 % 4
  let port := ctl / 2 ^ 6 % 8
  let safe := fun k o => k == 2 && decide (o + len > 2 ^ 41)
  if (sk != 0 && dk != 0) || safe sk src || safe dk dst
      || port / 4 != x - 4 then some (.ill, 0)
  else if (sk != 0 || dk != 0) && !priv then some (.priv, 0)
  else if len % 16 != 0 || src % 16 != 0 || dst % 16 != 0 then
    some (.align, lowestWhere [(src, sk == 0 && src % 16 != 0), (dst, dk == 0 && dst % 16 != 0)])
  else if (sk == 0 && src ≥ 2 ^ 56) || (dk == 0 && dst ≥ 2 ^ 56) then
    some (.page, lowestWhere [(src, sk == 0 && src ≥ 2 ^ 56), (dst, dk == 0 && dst ≥ 2 ^ 56)])
  else none

/-- A queue of a runner, or the region's count, has no room (R186, R318). -/
def State.runWaits (s : State) (c : Ctx) (q : Nat × Nat) : Bool :=
  decide (128 ≤ (Tab.getD (s.xdie q.1).queues q.2 []).length) || !countRoom s.dieItems (coreDie c.g.loc) c.w.region

/-- `run.copy` (R340). -/
def execRunCopy (f : RunF) (s : State) : Out :=
  .next (s.issueIf (.runCopy f)
    { cls := 5, group := true, a := .quad f.a, b := .pair f.b, outside := true, sb := f.sb.toNat }
    (fun c s => let b := c.lead.pair f.b
      let q := runQueue c.g.loc (lo b 32 32).toNat
      (runFault c.privileged q.1 (c.lead.quad f.a) [lo b 0 32, lo b 32 32]).isNone && s.runWaits c q) fun c s =>
    let a := c.lead.quad f.a
    let b := c.lead.pair f.b
    let ctl := lo b 32 32
    let (x, q) := runQueue c.g.loc ctl.toNat
    match runFault c.privileged x a [lo b 0 32, ctl] with
    | some (code, va) => s.trapMask c code c.p.mask va 0
    | none =>
      s.enqueued c fun id tids s => s.modXdie x fun d =>
        { d with queues := Tab.put d.queues q (Tab.getD d.queues q [] ++
          [{ id, src := BitVec.ofNat 64 (pairNat (a.getD 0 0) (a.getD 1 0)),
             dst := BitVec.ofNat 64 (pairNat (a.getD 2 0) (a.getD 3 0)), len := (lo b 0 32).toNat, ctl,
             scope := f.scope.toNat, region := c.w.region, die := coreDie c.g.loc, gid := c.gid,
             wg := c.g.wg, pc := c.p.pc, tids, sb := f.sb.toNat }]) })

end Sys2Proof.Machine
end

