-- ==== Sys2Proof/Machine/Perform.lean ====
section
/-! DEFINITION. Accesses performed (R237 to R260): loads return, stores are performed, waits end, and
what comes over the links between dies (R242, R283, R284). -/

namespace Sys2Proof.Machine

/-! ### Loads -/

/-- Size code of an access form (R86). -/
def sizeCode (i : Instr) : BitVec 3 :=
  match i with
  | .ld f | .ldNc f | .ldByp f | .ldAcq f | .lds f => f.sz
  | .ldProbe f => f.sz
  | .gather f => f.sz
  | .atom f => f.sz
  | .waitaEq f | .waitaNe f => f.sz
  | _ => 2

/-- Destination name of an access form. -/
def destName (i : Instr) : Name :=
  match i with
  | .ld f | .ldNc f | .ldByp f | .ldAcq f | .lds f => f.d
  | .ldProbe f => f.d
  | .gather f => f.d
  | .atom f => f.d
  | .waitaEq f | .waitaNe f => f.d
  | _ => 120

/-- A loaded value written to a member's destination (R247). -/
def State.putLoaded (s : State) (o : Op) (m : Member) (bs : List Byte) : State :=
  s.putFld o m (Fld.ofSz (sizeCode o.instr) (destName o.instr)) (szExtend (sizeCode o.instr) (leNat bs))

/-- The predicate of `ld.probe` written (R251). -/
def State.putProbe (s : State) (o : Op) (m : Member) (v : Bool) : State :=
  match o.predDest with
  | some p => s.modMemberThread o m fun t => setPred t p v
  | none => s

/-- Results of a cross-lane form whose walkers have been read, written to every member (R142, R149). -/
def State.putCrossOp (s : State) (id : Nat) (o : Op) (op : CrossOp) : State :=
  let src := fun (m : Member) => (m.rank, lo (s.memberA o m op.form) 0 32,
    lo (s.memberB o m op.form) 0 32, lo m.d 0 32)
  let rs := op.eval (o.members.map src)
  (o.members.foldl (fun s m =>
    let v := match rs.find? fun r => r.1 == m.rank with
      | some r => r.2
      | none => 0
    (s.putFld o m op.form.dst (v.zeroExtend 128)).latchLate o m op.form (s.memberA o m op.form)
      (v.zeroExtend 128)) s).doneAll id

/-- The form reads a block of memory and then acts once for its path. -/
def isBlockForm (i : Instr) : Bool :=
  match i with
  | .patSet _ | .seqLoad _ | .rgnMake _ | .peerMap _ | .contPush _ | .ttask _ => true
  | _ => false

/-- The effect of a form whose block has been read. -/
def State.blockDone (s : State) (id : Nat) (o : Op) (m : Member) : State :=
  match o.instr with
  | .contPush _ => s.pushDone id o m
  | .ttask _ => s.taskDone id o m
  | _ => if s.tableReady id o then s.tableDone id o m else s

/-- What follows the data of a member: its result, or nothing while parts are missing. -/
def State.loaded (s : State) (id rank : Nat) : State :=
  match s.op? id with
  | none => s
  | some o => match o.member? rank with
    | none => s
    | some m =>
      if !m.frags.all (·.done) then s
      else match crossOpOf o.instr, laneOpOf o.instr with
        | some op, _ =>
          if o.members.all fun k => k.frags.all (·.done) then s.putCrossOp id o op else s
        | none, some op => if m.place == .lane then (s.putResult id o m op).doneMember id rank else s
        | none, none =>
          if isBlockForm o.instr then s.blockDone id o m
          else ((s.putLoaded o m m.data).putProbe o m true).doneMember id rank

/-- Die that homes a fragment when it is another C-die. -/
def peerHome (o : Op) (f : Frag) : Option Nat :=
  if f.cl.isSome then none
  else match hbmDie f.pa with
    | some h => if h == coreDie o.loc then none else some h
    | none => none

/-- Bytes of a fragment as an update at its home finds them. -/
def State.homeRead (s : State) (o : Op) (m : Member) (f : Frag) : Option (List Byte × State) :=
  match peerHome o f with
  | some _ => some (s.readPaN f.pa f.size, s.hotTouch f.pa)
  | none => s.readFrag o m f

/-- The new value of an atomic (R256): `m` in memory, `b` the operand or compare value, `n` the new value
of `cas`. -/
def atomNew (aop : BitVec 4) (wide : Bool) (m b n : DWord) : DWord :=
  let lt := if wide then m.slt b else (lo m 0 32).slt (lo b 0 32)
  let ult := if wide then m.ult b else (lo m 0 32).ult (lo b 0 32)
  let eq := if wide then m == b else lo m 0 32 == lo b 0 32
  match aop.toNat with
  | 0 => m + b
  | 1 => if lt then m else b
  | 2 => if ult then m else b
  | 3 => if lt then b else m
  | 4 => if ult then b else m
  | 5 => m &&& b
  | 6 => m ||| b
  | 7 => m ^^^ b
  | 8 => b
  | 9 => if eq then n else m
  | _ => BitVec.ofNat 64 (fAddB fmt32b .rne (lo m 0 32).toNat (lo b 0 32).toNat 0).1

/-- The state while a write waits: its read duplicates are being invalidated (R242). -/
def State.dupWait (s : State) (f : Frag) : State :=
  if f.cl.isSome then s else (s.dupStall f.pa).getD s

/-- The old value of an atomic reaches its member. -/
def State.atomicDone (s : State) (id : Nat) (o : Op) (m : Member) (bs : List Byte) : State :=
  ((s.modFrag id m.rank 0 fun g => { g with done := true, data := bs }).putLoaded o m bs).doneMember id m.rank

/-- An atomic performed for one member (R256). On another die it is performed at the home, and its response
returns by itself: it waits for every message of the home die that precedes it (R284). -/
def State.atomic (s : State) (id : Nat) (o : Op) (m : Member) (f : Frag) (a : AtomF) : State :=
  match peerHome o f, f.sent with
  | some h, true =>
    if !(s.link h (coreDie o.loc)).isEmpty || !s.linkOpen h (coreDie o.loc) then s
    else (s.readResponse h (coreDie o.loc)).atomicDone id o m f.data
  | peer, _ => match s.homeRead o m f with
    | none => s
    | some (bs, s1) =>
      let new := atomNew a.aop (a.sz == 3) (BitVec.ofNat 64 (leNat bs)) m.b m.a
      match s1.writeFrag id o m f (leBytes f.size new.toNat) with
      | .ok s2 =>
        if peer.isSome then s2.modFrag id m.rank 0 fun g => { g with sent := true, data := bs }
        else s2.atomicDone id o m bs
      | .wait _ => s.dupWait f

/-- LOAD_DATA_RETURN (R247, R256): a fragment of a member is read, an atomic is performed. A load that
touches an unwritten WS part waits, a probe of one answers 0 (R239, R251). A suspect result is recast, an error
response of a far entry comes first (R45, R117). -/
def State.loadReturn (s : State) (id rank k : Nat) : State :=
  match s.op? id with
  | none => s
  | some o => match o.member? rank with
    | none => s
    | some m =>
      if m.done || o.aside || o.stage != .confirmed || o.stores then s
      else match m.frags[k]? with
        | none => s
        | some f =>
          if f.done then s.loaded id rank
          else if s.blocked id o m f || s.relHeld o m f || (o.far m && s.farBlocked id o m) then s
          else if o.farError || o.suspect.isSome then (s.resultFault id o).getD s
          else match o.instr with
            | .waitaEq _ | .waitaNe _ | .retype _ | .redecl _ => s
            | .atom a => s.atomic id o m f a
            | .ldProbe _ =>
              if s.wsUnwritten f then
                ((s.putLoaded o m []).putProbe o m false).doneMember id rank
              else match s.readFrag o m f with
                | some (bs, s1) => (s1.modFrag id rank k fun g => { g with done := true, data := bs }).loaded id rank
                | none => s
            | _ =>
              if s.wsUnwritten f then s
              else match s.readFrag o m f with
                | some (bs, s1) => (s1.modFrag id rank k fun g => { g with done := true, data := bs }).loaded id rank
                | none => s

/-- LOAD_DATA_RETURN (R247). -/
def execLoadDataReturn (s : State) : Out := s.onEvent fun e s => match e with
  | .loadDataReturn o r k => s.loadReturn o r k
  | _ => s

/-- INSTRUCTION_CONFIRM (R41). -/
def execInstructionConfirm (s : State) : Out := s.onEvent fun e s => match e with
  | .instructionConfirm o => s.confirm o
  | _ => s

/-! ### Stores -/

/-- A member is done once its fragments are. -/
def State.fragsDone (s : State) (id rank : Nat) : State :=
  match (s.op? id).bind (·.member? rank) with
  | some m => if m.frags.all (·.done) then s.doneMember id rank else s
  | none => s

/-- A fragment of a store is done. -/
def State.stored (s : State) (id rank k : Nat) : State :=
  (s.modFrag id rank k fun g => { g with done := true }).fragsDone id rank

/-- A store's fragment performed at its home, or sent to it on another die (R237, R249, R283, R284). -/
def State.storeFrag (s : State) (id : Nat) (o : Op) (m : Member) (k : Nat) (f : Frag) : State :=
  match peerHome o f with
  | some h =>
    if f.sent then s
    else ((s.noteRel id o m f).modFrag id m.rank k fun g => { g with sent := true }).sendWrite (coreDie o.loc) h fun v =>
      .write f.pa (m.slice f) v (some (id, m.rank, k))
  | none => match s.writeFrag id o m f (m.slice f) with
    | .ok s1 => (s1.noteRel id o m f).stored id m.rank k
    | .wait s1 => s1

/-- Members of a `scatter.add` that address one element (R255). -/
def sameElement (o : Op) (f : Frag) : List Member :=
  o.members.filter fun k => !k.done && match k.frags.head? with
    | some g => g.pa == f.pa
    | none => false

/-- One element of a `scatter.add` updated with the sum of its members (R255); the lowest rank leads. -/
def State.addElement (s : State) (id : Nat) (o : Op) (m : Member) (f : Frag) : State :=
  let ms := sameElement o f
  let others := { s with ops := Tab.del s.ops id }
  if ms.any fun k => others.blocked id o k (k.frags.headD f) then s
  else
    match s.homeRead o m f with
    | none => s
    | some (bs, s1) =>
      let sum := ms.foldl (fun v k => v + k.d) (BitVec.ofNat 64 (leNat bs))
      match s1.writeFrag id o m f (leBytes f.size sum.toNat) with
      | .ok s2 => ms.foldl (fun s k => s.stored id k.rank 0) s2
      | .wait _ => s.dupWait f

/-- Items of an ordered-atomic queue of a slice (R341). -/
def State.ordCount (s : State) (d sl : Nat) : Nat :=
  ((s.die d).ordq.filter fun x => homeSlice x.pa == sl).length

/-- An ordered add enters its slice's queue, or waits while both parts of it are full (R257, R341). -/
def State.ordEnqueue (s : State) (id : Nat) (o : Op) (m : Member) (f : Frag) : State :=
  let d := coreDie o.loc
  match hbmDie f.pa with
  | none => s
  | some h =>
    if s.ordCount h (homeSlice f.pa) ≥ 1064960 || (h != d && !s.causalReady d h) then s
    else
      let it : OrdItem :=
        { region := o.region, pa := f.pa, windex := (s.opWg o).index.toNat, rank := m.rank,
          count := m.d.toNat, value := lo m.b 0 32, die := d }
      ((s.countWrite d h).modDie h fun x => { x with ordq := x.ordq ++ [it] }).stored id m.rank 0

/-- Written bits of a range cleared at its home (R264). -/
def State.clearParts (s : State) (id : Nat) (o : Op) (m : Member) (f : Frag) : State :=
  let d := coreDie o.loc
  match hbmDie f.pa with
  | none => s
  | some h =>
    if h != d && !s.causalReady d h then s
    else
      let out := fun p : Nat => decide (p < f.pa / 16) || decide ((f.pa + f.size) / 16 ≤ p)
      ((s.countWrite d h).modDie h fun x => { x with wsWritten := x.wsWritten.filter out }).stored id m.rank 0

/-- A cache operation on the line of a fragment (R263). RC, SC and WS lines hold nothing of their own. -/
def State.cacheOp (s : State) (o : Op) (f : Frag) : State :=
  let l := f.pa / 128
  let own := f.typ == 3 && hbmDie f.pa == some (coreDie o.loc)
  let s := match o.instr with
    | .wb _ => s.sliceClean l
    | _ => s
  if !own then s
  else match o.instr with
    | .spb _ | .wb _ => s.cleanL1 o.loc l
    | .fla _ | .pref _ => (s.ipRead o.loc f.pa 1 true).2
    | .inv _ => s.dropL1 o.loc l
    | _ => s

/-- ONE DECREMENT of a join block at `pa` on its die (R183), by operation `op` or the finish of a workgroup: an
invalid block is reported, at zero the continuation is pushed. -/
def State.joinAt (s : State) (d pa : Nat) (t : TrapInfo) (op : Option Nat) : Put :=
  let bs := s.readPaN pa 64
  let n := leAt bs 0 4
  if n == 0 || leAt bs 4 28 != 0 then
    let (id, s1) := s.newId
    .ok (s1.writeTrap d id { t with code := .ill, src := 7, info := true, paddr := pa, vaddr := 0 } none)
  else if n == 1 && !countRoom s.dieItems d (Record.ofBytes (bs.drop 32)).region then .wait s
  else match s.dupStall pa with
    | some s1 => .wait s1
    | none =>
      let s1 := s.homeWrite pa (leBytes 4 (n - 1)) op
      if n != 1 then .ok s1
      else
        let (id, s2) := s1.newId
        .ok (s2.pushRecord d id (Record.ofBytes (bs.drop 32)))

/-- The decrement of a `join` (R183). -/
def State.joinOp (s : State) (id : Nat) (o : Op) (f : Frag) : State :=
  match s.joinAt (coreDie o.loc) f.pa (o.trap (s.opWg o) .ill 0 0 f.pa 0) (some id) with
  | .ok s1 => s1.doneAll id
  | .wait s1 => s1

/-- A `fla` waits as a load would while the WS part that holds its address is unwritten (R239, R263; assumption
log 97). -/
def State.flaWaits (s : State) (o : Op) (m : Member) (f : Frag) : Bool :=
  match o.instr with
  | .fla _ => (s.frame f.pa).typ == 2 && !s.wsBit (f.pa + m.addr.toNat % 128)
  | _ => false

/-- STORE_PERFORMED (R237): a fragment of a store, or of another form that changes memory or caches, is
performed in the order of R243 and R271. -/
def State.storePerform (s : State) (id rank k : Nat) : State :=
  match s.op? id with
  | none => s
  | some o => match o.member? rank with
    | none => s
    | some m =>
      if m.done || o.aside || o.stage != .confirmed then s
      else match o.instr with
        | .retype _ => s.retypeDrain id m
        | _ => match m.frags[k]? with
          | none => s
          | some f =>
            if f.done || s.blocked id o m f || s.flaWaits o m f then s
            else match o.instr with
              | .st _ | .stNc _ | .stByp _ | .stRel _ | .scatter _ | .sts _ => s.storeFrag id o m k f
              | .scatterAdd _ => s.addElement id o m f
              | .atomFaddOrd _ => s.ordEnqueue id o m f
              | .wsClear _ => s.clearParts id o m f
              | .spb _ | .fla _ | .wb _ | .inv _ | .pref _ => (s.cacheOp o f).stored id rank k
              | .join _ => if s.tableWaits id o then s else s.joinOp id o f
              | _ => s

/-- STORE_PERFORMED (R237). -/
def execStorePerformed (s : State) : Out := s.onEvent fun e s => match e with
  | .storePerformed o r k => s.storePerform o r k
  | _ => s

/-- The form is a store whose bytes an error response can discard (R246). -/
def Op.plainStore (o : Op) : Bool :=
  match o.instr with
  | .st _ | .stNc _ | .stByp _ | .stRel _ | .scatter _ => true
  | _ => false

/-- STORE_ERROR_RESPONSE (R246): a confirmed store's bytes are discarded, the address is logged, and a
record of SRC 6 reports it; a steward core waits for room in its ring (R368). -/
def State.storeError (s : State) (id rank k : Nat) : State :=
  match s.op? id with
  | none => s
  | some o => match o.member? rank with
    | none => s
    | some m => match m.frags[k]? with
      | none => s
      | some f =>
        let d := coreDie o.loc
        if m.done || f.done || f.sent || o.stage != .confirmed || !o.plainStore || (decide (4 ≤ d) && s.stewardFull d) then s
        else
          let t : TrapInfo := { o.trap (s.opWg o) .viol 0 f.va f.pa 0 with src := 6, info := true }
          let (rec_, s1) := ((s.logViolation d f.pa 7 0 o.loc).stored id rank k).newId
          if d < 4 then s1.writeTrap d rec_ t none else s1.stewardTrap d t

/-- STORE_ERROR_RESPONSE (R246). -/
def execStoreErrorResponse (s : State) : Out := s.onEvent fun e s => match e with
  | .storeErrorResponse o r k => s.storeError o r k
  | _ => s

/-! ### Waits and exchange stores -/

/-- Bytes of every undone member of a wait, read at one moment; none: one of them cannot be read. -/
def State.readAll (s : State) (id : Nat) (o : Op) : List Member → Option (List (Member × List Byte) × State)
  | [] => some ([], s)
  | m :: ms =>
    match m.frags.head? with
    | none => none
    | some f =>
      if s.blocked id o m f || s.relHeld o m f || s.wsUnwritten f then none
      else match s.readFrag o m f with
        | none => none
        | some (bs, s1) => match State.readAll s1 id o ms with
          | none => none
          | some (r, s2) => some ((m, bs) :: r, s2)

/-- A wait's comparison (R260). -/
def waitHolds (i : Instr) (v : Nat) (b : DWord) : Bool :=
  match i with
  | .waitaEq _ => v == b.toNat
  | .waitaNe _ => v != b.toNat
  | _ => false

/-- WAITA_SATISFIED (R260): the comparison holds for every member; each receives its value, once that has passed its
check (R45). -/
def State.waitaDone (s : State) (id : Nat) : State :=
  match s.op? id with
  | none => s
  | some o =>
    if o.aside || o.stage != .confirmed then s
    else match s.readAll id o (o.members.filter fun m => !m.done) with
      | none => s
      | some (vs, s1) =>
        if !(vs.all fun v => waitHolds o.instr (leNat v.2) v.1.b) then s
        else match s.resultFault id o with
        | some s2 => s2
        | none => (vs.foldl (fun s v => s.putLoaded o v.1 v.2) s1).doneAll id

/-- WAITA_SATISFIED (R260). -/
def execWaitaSatisfied (s : State) : Out := s.onEvent fun e s => match e with
  | .waitaSatisfied o => s.waitaDone o
  | _ => s

/-- An earlier `xst` of the thread to the same cluster is not accepted yet (R259). -/
def State.xstBefore (s : State) (id : Nat) (o : Op) (m : Member) : Bool :=
  s.ops.any fun e => decide (e.1 < id) && e.2.isXst && e.2.members.any fun k =>
    k.tid == m.tid && !k.done && xstCluster e.2 k == xstCluster o m

/-- XST_ACCEPTED (R234, R259): the data lands in the window's current shadow bank. -/
def State.xstAccept (s : State) (id rank : Nat) : State :=
  match s.op? id with
  | none => s
  | some o => match o.member? rank with
    | none => s
    | some m => match m.frags.head? with
      | none => s
      | some f =>
        if m.done || o.aside || o.stage != .confirmed || !o.isXst || s.blocked id o m f || s.xstBefore id o m then s
        else
          let ck := xstCluster o m
          match s.windowAt ck f.pa f.size with
          | some (bank, pos) =>
            (s.modCluster ck fun x => { x with spad := Memory.writeN x.spad (bank + pos) (m.slice f) }).stored
              id rank 0
          | none =>
            (s.logViolation (coreDie o.loc) m.addr.toNat 1 0 o.loc).faultOp id o
              (o.trap (s.opWg o) .viol ((1 : Word) <<< rank) 0 0 0)

/-- XST_ACCEPTED (R259). -/
def execXstAccepted (s : State) : Out := s.onEvent fun e s => match e with
  | .xstAccepted o r => s.xstAccept o r
  | _ => s

/-! ### Translation ahead of use (R208, R216) -/

/-- TRANSLATION_WALK (R208): a walk that fills the holder's cache, where it holds no entry. -/
def State.walkAhead (s : State) (d holder va : Nat) : State :=
  if va ≥ 2 ^ 56 || (d < 4 && (s.peerOf d va).isSome) || (s.cached d holder (s.space d).2 va none).isSome then s
  else (s.walkFill d holder va).2

/-- TRANSLATION_WALK (R208). -/
def execTranslationWalk (s : State) : Out := s.onEvent fun e s => match e with
  | .translationWalk d h va => s.walkAhead d h va.toNat
  | _ => s

/-- PEER_TRANSLATION (R216): a translation through a peer slot that fills the holder's cache. -/
def State.peerAhead (s : State) (d holder va : Nat) : State :=
  if d < 4 then match s.peerOf d va with
    | some (k, p) =>
      if (s.cached d holder (s.die d).sid va (some k)).isSome then s else (s.peerFill d holder va k p).2
    | none => s
  else s

/-- PEER_TRANSLATION (R216). -/
def execPeerTranslation (s : State) : Out := s.onEvent fun e s => match e with
  | .peerTranslation d h va => s.peerAhead d h va.toNat
  | _ => s

/-! ### Read duplicates (R242) -/

/-- A read of a copy frame that a holder die has begun is not complete. -/
def State.copyBusy (s : State) (d n : Nat) : Bool :=
  s.ops.any fun o => coreDie o.2.loc == d && o.2.stage == .confirmed && o.2.members.any fun m =>
    !m.done && m.frags.any fun f => !f.done && f.cl.isNone && frameOf f.pa == n

/-- DUP_INVALIDATE (R242): the holder removes its translations to the copy, sets the copy frame's RES and
acknowledges, once its reads of the copy are complete. -/
def State.dupInvalidate (s : State) (d n : Nat) : State :=
  match hbmDie (n * Config.frameBytes) with
  | none => s
  | some h =>
    match (Tab.getD (s.die h).dups n []).find? fun u => u.holder == d && u.sent && !u.acked with
    | none => s
    | some u =>
      if s.copyBusy d (frameOf u.copy) then s
      else
        let s1 := s.dropTrans fun x t => x == d && t.leaf.getLsbD 9 && decide (t.frame ≤ u.copy)
          && decide (u.copy < t.frame + t.size)
        let s2 := s1.modFrame u.copy fun f => { f with res := true }
        let mark := fun v : Dup => if v == u then { v with acked := true } else v
        s2.modDie h fun x => { x with dups := Tab.upd x.dups n fun l => l.map mark }

/-- DUP_INVALIDATE (R242). -/
def execDupInvalidate (s : State) : Out := s.onEvent fun e s => match e with
  | .dupInvalidate d n => s.dupInvalidate d n
  | _ => s

/-- A write that has waited for read duplicates performed (R242). -/
def State.writeLate (s : State) (w : Late) : State :=
  match w with
  | .bytes pa bs => s.putPa pa bs
  | .acc epa old => (s.orEntry epa old 0x800).getD s

/-- The frame that a waiting write writes. -/
def Late.frame : Late → Nat
  | .bytes pa _ | .acc pa _ => frameOf pa

/-- The writes that waited for the read duplicates of a frame performed, in order (R242). -/
def State.applyLate (s : State) (d n : Nat) : State :=
  if (s.frame (n * Config.frameBytes)).hold != 0 then s
  else ((s.die d).late.filter fun w => w.frame == n).foldl State.writeLate
    (s.modDie d fun x => { x with late := x.late.filter fun w => w.frame != n })

/-- DUP_ACK (R242, R368): when every holder that was told has acknowledged, the home clears their HOLD
bits; the stalled write goes on, DUPCMD reads done. -/
def State.dupAck (s : State) (d n : Nat) : State :=
  let l := Tab.getD (s.die d).dups n []
  if l.isEmpty || l.any (fun u => u.sent && !u.acked) || !(l.any fun u => u.acked) then s
  else
    let keep := l.filter fun u => !u.acked
    let hold := keep.foldl (fun h u => h ||| ((1 : BitVec 4) <<< u.holder)) 0
    ((s.modFrame (n * Config.frameBytes) fun f => { f with hold }).modDie d fun x =>
      { x with dups := if keep.isEmpty then Tab.del x.dups n else Tab.put x.dups n keep,
               dupStatus := if x.dupFrame.toNat % 2 ^ 31 == n && x.dupStatus == 1 then 0 else x.dupStatus }).applyLate
      d n

/-- DUP_ACK (R242). -/
def execDupAck (s : State) : Out := s.onEvent fun e s => match e with
  | .dupAck d n => s.dupAck d n
  | _ => s

/-! ### Messages between dies (R283, R284) -/

/-- The clock of a cross-die write. -/
def Msg.clock? : Msg → Option (List Nat)
  | .write _ _ v _ | .inv _ v _ | .push _ v | .dropped _ v => some v
  | .ack _ | .beat _ => none

/-- A write that has come from die `d` is counted as applied at `e` (R284). -/
def State.applied (s : State) (d e : Nat) (v : List Nat) : State := s.setClk e e d (v.getD d 0)

/-- The copies that an operation's write left on other dies are one fewer (R283). -/
def State.invDone (s : State) (op : Option Nat) : State :=
  match op with
  | some id => (s.modOp id fun o => { o with invs := o.invs - 1 }).settleOp id
  | none => s

/-- A message applied at die `e` (R283, R284, R320), or the state while it must wait (R242). -/
def State.applyMsg (s : State) (d e : Nat) (m : Msg) : Put :=
  match m with
  | .write pa bs v op =>
    (match s.dupStall pa with
      | some s1 => .wait s1
      | none =>
        let s1 := if isCwPa pa then s.cwWrite e (cwOff pa) (BitVec.ofNat 64 (leNat bs))
          else s.homeWrite pa bs (op.map fun x => x.1)
        .ok ((match op with
          | some (id, rank, k) => s1.stored id rank k
          | none => s1).applied d e v))
  | .inv l v op =>
    .ok (((s.modDie e fun x => { x with peerLines := Tab.del x.peerLines l }).applied d e v).invDone op)
  | .push q v => .ok ((s.receivePush e q).applied d e v)
  | .dropped id v => .ok ((s.ackPush e id).applied d e v)
  | _ => .ok s

/-- A write held at die `e` can be applied now: what precedes it has been (R284), and its frame has no read
duplicates (R242). -/
def State.heldDue (s : State) (e : Nat) (x : Nat × Msg) : Bool :=
  (match x.2.clock? with
    | some v => s.mayApply x.1 e v
    | none => false)
    && (match x.2 with
      | .write pa _ _ _ => (s.dupStall pa).isNone
      | _ => true)

/-- CROSS_DIE_WRITE_RECEIVE (R284): the oldest write of a link is applied, or held until what precedes it
has been applied; it passes no held write that can be applied. -/
def State.receive (s : State) (d e : Nat) : State :=
  if 4 ≤ e || s.linkClosed e || s.linkDown.contains (8 * d + e) then s
  else match s.link d e with
    | m :: _ => match m.clock? with
      | none => s
      | some v =>
        let s1 := s.popLink d e
        if !s.mayApply d e v || (s.die e).held.any (s.heldDue e) then s1.modDie e fun x => { x with held := x.held ++ [(d, m)] }
        else match s1.applyMsg d e m with
          | .ok s2 => s2
          | .wait s2 => s2.modDie e fun x => { x with held := x.held ++ [(d, m)] }
    | [] => s

/-- CROSS_DIE_WRITE_RECEIVE (R284). -/
def execCrossDieWriteReceive (s : State) : Out := s.onEvent fun e s => match e with
  | .crossDieWriteReceive d f => s.receive d f
  | _ => s

/-- CLOCK_BEAT_RECEIVE (R284). -/
def State.receiveBeat (s : State) (d e : Nat) : State :=
  if s.linkDown.contains (8 * d + e) then s
  else match s.link d e with
    | .beat b :: _ => (s.popLink d e).mergeBeat e b
    | _ => s

/-- CLOCK_BEAT_RECEIVE (R284). -/
def execClockBeatReceive (s : State) : Out := s.onEvent fun e s => match e with
  | .clockBeatReceive d f => s.receiveBeat d f
  | _ => s

/-- HELD_WRITE_APPLY (R284): a held write whose turn has come is applied, the oldest arrival first. -/
def State.applyHeld (s : State) (e k : Nat) : State :=
  match (s.die e).held[k]? with
  | none => s
  | some (d, m) => match m.clock? with
    | none => s
    | some v =>
      if s.linkClosed e || !s.mayApply d e v || ((s.die e).held.take k).any (s.heldDue e) then s
      else match (s.modDie e fun x => { x with held := x.held.eraseIdx k }).applyMsg d e m with
        | .ok s1 => s1
        | .wait _ => match m with
          | .write pa _ _ _ => (s.dupStall pa).getD s
          | _ => s

/-- HELD_WRITE_APPLY (R284). -/
def execHeldWriteApply (s : State) : Out := s.onEvent fun e s => match e with
  | .heldWriteApply d k => s.applyHeld d k
  | _ => s

end Sys2Proof.Machine
end

