-- ==== Sys2Proof/Machine/Counters.lean ====
section
/-! DEFINITION. Instructions on counters (R176 to R185, R194, R198, R201): scoreboards, barriers, joins,
gates, purses, performance counters, watchdogs. A release of a form that makes no access of its own waits
at issue for the earlier LANE-path accesses of its threads (assumption log 34). -/

namespace Sys2Proof.Machine

/-! ### `wait` (R178) -/

/-- A ladle, engine or runner command that a group issued is not complete. -/
def State.unitBusy (s : State) (gid : Nat) : Bool :=
  (s.clusters.any fun c => c.2.ladles.any fun q => q.2.any fun x => x.gid == gid && x.task.isNone)
    || (s.cores.any fun c => c.2.engine.queue.any fun x => x.gid == gid && x.task.isNone)
    || s.xdies.any fun x => (x.2.queues.any fun q => q.2.any fun c => c.gid == gid)
      || x.2.active.any fun c => c.gid == gid

/-- An operation is not complete (R177). -/
def Op.open_ (o : Op) : Bool := !o.over || (decide (6 ≤ o.scope) && o.invs != 0)

/-- `wait` may go on (R178). -/
def State.waitOver (s : State) (c : Ctx) (f : WaitF) : Bool :=
  if f.k == 0 then !(s.ops.any fun o => o.2.gid == c.gid && o.2.open_) && !s.unitBusy c.gid
  else decide ((c.g.sbList f.k.toNat).length ≤ f.n.toNat)

/-- `wait` (R178). -/
def execWait (f : WaitF) (s : State) : Out :=
  .next (s.issue (.wait f) { group := true } fun c s =>
    if s.waitOver c f then s.next_ c else s.turnOver)

/-! ### Barriers (R179 to R181) -/

/-- Arrival of the path's members at barrier `b`. -/
def Workgroup.arrive (w : Workgroup) (b : Nat) (tids : List Nat) (swap : Bool) : Workgroup :=
  let x := Tab.getD w.barriers b {}
  { w with barriers := Tab.put w.barriers b { x with marks := x.marks ++ tids, swap := x.swap || swap } }

/-- One of the threads has a write to a CLUSTER name in flight: it is applied before the thread arrives, so that
every participant sees it after the release (R36). -/
def State.clusterBusy (s : State) (tids : List Nat) : Bool :=
  s.ops.any fun o => o.2.members.any fun m => m.place == .cluster && !m.done && tids.contains m.tid

/-- Issue of a barrier form: `waits` for `bar.sync` and `bar.swap` (R181). A member that holds a mark
stalls the path until the release (R180). -/
def State.issueBar (s : State) (i : Instr) (b : Nat) (waits swap : Bool) : State :=
  s.issue i
    { group := true, noSteward := true, outside := true, illOn := fun _ w => swap && w.xwin == 0 } fun c s =>
    let tids := c.threads.map fun e => e.2.tid
    let marks := (Tab.getD c.w.barriers b {}).marks
    if tids.any (fun t => marks.contains t) || s.laneBusy c 2 false || s.clusterBusy tids then s.turnOver
    else
      ((s.modWg c.g.wg fun w => w.arrive b tids swap).retire c fun g =>
        g.modPath c.pi fun p => { c.seqPath p with wait := if waits then .bar b else .none }).checkBarriers
          c.g.wg

/-- `bar.sync` (R181). -/
def execBarSync (b : BitVec 4) (s : State) : Out := .next (s.issueBar (.barSync b) b.toNat true false)
/-- `bar.arrive` (R181). -/
def execBarArrive (b : BitVec 4) (s : State) : Out := .next (s.issueBar (.barArrive b) b.toNat false false)
/-- `bar.swap` (R181). -/
def execBarSwap (b : BitVec 4) (s : State) : Out := .next (s.issueBar (.barSwap b) b.toNat true true)

/-! ### `join` (R183) -/

/-- `join` (R183): one decrement per issuing path, performed by `joinOp`. -/
def execJoin (a : Name) (s : State) : Out :=
  .next (s.issue (.join a) { group := true, a := .pair a, outside := true, log := true } fun c s =>
    s.launchAccess c (c.one (c.lead.pair a) 0 0) none 5)

/-! ### Gates (R184, R185) -/

/-- A gate of a die. -/
def State.gate (s : State) (d g : Nat) : Word := Tab.getD (s.die d).gates g 0

/-- A gate with a signed value added, clamped (R185). -/
def gateSum (v b : Word) : Word :=
  BitVec.ofNat 32 (max 0 (min 0xFFFFFFFF ((v.toNat : Int) + b.toInt))).toNat

/-- A gate changed. -/
def State.setGate (s : State) (d g : Nat) (v : Word) : State :=
  s.modDie d fun x => { x with gates := Tab.put x.gates g v }

/-- The gate number of a group-set form (R185). -/
def Ctx.gateNum (c : Ctx) (f : ABX) : Nat := (c.lead.word f.a).toNat % 4096

/-- `gate.add` (R185): a release at die scope. -/
def execGateAdd (f : ABX) (s : State) : Out :=
  .next (s.issue (.gateAdd f)
    { group := true, a := .w f.a, b := .w f.b, x := f.x, outside := true } fun c s =>
    let d := tabDie c.g.loc
    let g := c.gateNum f
    if g < 256 && !c.privileged then s.trapCode c .priv
    else if s.laneBusy c 5 false then s.turnOver
    else (s.setGate d g (gateSum (s.gate d g) (c.lead.word f.b))).next_ c)

/-- `gate.wait` (R185). -/
def execGateWait (f : ABX) (s : State) : Out :=
  .next (s.issue (.gateWait f) { group := true, a := .w f.a, b := .w f.b, x := f.x } fun c s =>
    let g := c.gateNum f
    if g < 256 && !c.privileged then s.trapCode c .priv
    else if (c.lead.word f.b).toNat ≤ (s.gate (tabDie c.g.loc) g).toNat then s.next_ c
    else s.turnOver)

/-! ### Purses, performance counters, watchdogs (R194, R198, R201, R202) -/

/-- `lum.purse` (R194). -/
def execLumPurse (d : Name) (s : State) : Out :=
  .next (s.issue (.lumPurse d) { group := true, dst := .w d } fun c s =>
    let k := s.core c.g.loc
    (s.writeAll c d (BitVec.ofNat 32 (k.purse % 2 ^ 14 + (if (s.starving c.g.loc).isEmpty then 0 else 2 ^ 31)))).next_ c)

/-- Scope of a performance counter (R201). -/
inductive PerfScope where
  | none | group | core | cluster | die
  deriving DecidableEq, Repr

/-- The counters of R201. -/
def perfScope (n : Nat) : PerfScope :=
  if n ≤ 2 then .group
  else if 0x100 ≤ n && n ≤ 0x109 then .core
  else if n == 0x200 || n == 0x201 then .cluster
  else if 0x1000 ≤ n && n ≤ 0x1003 then .die
  else .none

/-- A performance counter as `perf.read` samples it (R201, R202), the core's F-cycles counted up to now. -/
def State.perfValue (s : State) (c : Ctx) (n : Nat) : DWord × State :=
  let s1 := if n == 0x100 || n == 0x104 then s.runCycles c.g.loc else s
  (BitVec.ofNat 64 (match perfScope n with
    | .none => 0
    | .group => Tab.getD c.g.perf n 0
    | .core => Tab.getD (s1.core c.g.loc).perf n 0
    | .cluster => Tab.getD (s1.cluster c.cluster).perf n 0
    | .die => Tab.getD (s1.die (tabDie c.g.loc)).perf n 0), s1)

/-- `perf.read` (R202). -/
def execPerfRead (f : NumF) (s : State) : Out :=
  .next (s.issue (.perfRead f)
    { group := true, dst := .pair f.d, illOn := fun _ _ => perfScope f.num.toNat == .none,
      priv := perfScope f.num.toNat == .die } fun c s =>
    let (v, s1) := s.perfValue c f.num.toNat
    (s1.writeResults c (.pair f.d) (c.threads.map fun e => (e.1, v.zeroExtend 128))).next_ c)

/-- The watchdog of a workgroup reset (R197, R198). -/
def Workgroup.kick (w : Workgroup) : Workgroup := 
  { w with wdogAcc := 0, wdogHeld := 0, wdogSlow := 0, wdogFired := false }

/-- `wdog.kick` (R198). -/
def execWdogKick (s : State) : Out :=
  .next (s.issue .wdogKick { group := true } fun c s =>
    (if c.g.steward then
      s.modXdie (coreDie c.g.loc) fun x => { x with wdog := Tab.put x.wdog (c.g.loc % 4) 0 }
     else s.modWg c.g.wg Workgroup.kick).next_ c)

end Sys2Proof.Machine
end

