-- ==== Sys2Proof/Machine/Matrix.lean ====
section
/-! DEFINITION. Arithmetic of the matrix engine (R63 to R72), conversion of entries (R304, R307, R308)
and the sizes of FIFO entries (R298). -/

namespace Sys2Proof.Machine

/-! ### Accumulator entries (R67, R68) -/

/-- The A56 format (R68). -/
def fmtA56 : Fmt := ⟨9, 46⟩

/-- The fixed-mode NaN (R67). -/
def nanFixed : BitVec 56 := 0x80000000000000

/-- The canonical A56 NaN (R68). -/
def nanA56 : BitVec 56 := 0x7FE00000000000

/-- Largest finite fixed-mode entry (R67). -/
def maxFixed : Int := 2 ^ 55 - 1

/-- saturate56 (R67). -/
def saturate56 (x : Int) : Int := max (-maxFixed) (min maxFixed x)

/-- An integer quotient rounded to nearest, ties to even. -/
def rneDiv (n : Int) (d : Nat) : Int := sInt (n < 0) (roundDiv .rne (n < 0) n.natAbs d).1

/-- `n × 10^k` over a denominator. -/
def times10 (n : Int) (k : Int) : Int × Nat :=
  if 0 ≤ k then (n * 10 ^ k.toNat, 1) else (n, 10 ^ (-k).toNat)

/-- An entry of a fixed-mode sum; none is NaN. -/
def ofFixed (v : Option Int) : BitVec 56 :=
  match v with
  | some i => BitVec.ofInt 56 i
  | none => nanFixed

/-- add_fixed (R69): the new entry, whether it saturated. -/
def addFixed (e : BitVec 56) (g : Option Int) : BitVec 56 × Bool :=
  match g with
  | none => (nanFixed, false)
  | some x =>
    if e == nanFixed then (nanFixed, false)
    else
      let v := e.toInt + x
      (BitVec.ofInt 56 (saturate56 v), saturate56 v != v)

/-- add_a56 (R69): IEEE addition, exact 0 gives +0. -/
def addA56 (e g : BitVec 56) : BitVec 56 :=
  let r := (fAddV fmtA56 .rne (fmtA56.read e.toNat) (fmtA56.read g.toNat)).1
  if r == fmtA56.signBit then 0 else BitVec.ofNat 56 r

/-! ### K-group sums (R65, R66, R69, R71, R72) -/

/-- Value slots of a stored K-group by SPN; 32 is dense (R65, R218). -/
def spnSlots (spn : Nat) : Nat :=
  match spn with
  | 1 => 16
  | 2 => 8
  | 3 => 4
  | _ => 32

/-- Positions of a mask in ascending order from `k`, each with its slot; absent ones are +0. -/
def expandGo (mask : Word) : Nat → Nat → List Nat → List Nat
  | 0, _, _ => []
  | n + 1, k, sl =>
    if mask.getLsbD k then sl.headD 0 :: expandGo mask n (k + 1) sl.tail
    else 0 :: expandGo mask n (k + 1) sl

/-- The 32 elements of a line (R65). -/
def FifoLine.expand (l : FifoLine) : List Nat :=
  match l.smask with
  | some m => expandGo m 32 0 l.elems
  | none => l.elems

/-- Integer image of an element of D8 or INT8; none is NaN (R59, R64). -/
def fixImage (fmt v : Nat) : Option Int :=
  if fmt == 7 then some (BitVec.ofNat 8 v).toInt else d8Image v

/-- Images of a line, or none where one is NaN. -/
def fixImages (fmt : Nat) (l : List Nat) : Option (List Int) :=
  l.foldr (fun v r => match fixImage fmt v, r with
    | some i, some t => some (i :: t)
    | _, _ => none) (some [])

/-- Σ x × y. -/
def dotInt (a b : List Int) : Int := (List.zipWith (fun x y => x * y) a b).foldl (fun s v => s + v) 0

/-- kgroup_fixed (R69): the rounded sum; none is NaN. -/
def kgroupFixed (fa fb : Nat) (q : Int) (a b : FifoLine) : Option Int :=
  match fixImages fa a.expand, fixImages fb b.elems with
  | some xs, some ys =>
    if b.summary then none
    else
      -- each D8 image counts 2^-6 x 10^-6
      let nd : Nat := (if fa == 6 then 1 else 0) + (if fb == 6 then 1 else 0)
      let (n, d) := times10 (dotInt xs ys * 2 ^ (12 - 6 * nd)) (a.scale + b.scale - q - 6 * nd)
      some (rneDiv n d)
  | _, _ => none

/-- The product of two values, exact, by IEEE rules (R69). -/
def mulExact (a b : FVal) : FVal :=
  match a, b with
  | .nan _, _ | _, .nan _ => .nan false
  | .num na ma ea, .num nb mb eb => .num (na != nb) (ma * mb) (ea + eb)
  | x, y => if zeroTimesInf x y then .nan false else .inf (x.neg != y.neg)

/-- Exact sum of a list of values: NaN, ∞, or an integer in units of 2^e. -/
def sumExact (l : List FVal) : FVal :=
  if l.any FVal.isNan then .nan false
  else
    let infs := l.filter FVal.isInf
    if infs.any (fun v => v.neg) && infs.any (fun v => !v.neg) then .nan false
    else match infs with
      | v :: _ => .inf v.neg
      | [] =>
        let e := l.foldl (fun m v => match v with
          | .num _ k x => if k == 0 then m else min m x
          | _ => m) 0
        let s : Int := l.foldl (fun s v => match v with
          | .num n k x => if k == 0 then s else s + sInt n (k * 2 ^ (x - e).toNat)
          | _ => s) 0
        .num (s < 0) s.natAbs e

/-- round_a56_rne (R69). -/
def roundA56 (v : FVal) : BitVec 56 :=
  match v with
  | .nan _ => nanA56
  | .inf neg => BitVec.ofNat 56 (fmtA56.signed neg fmtA56.infBits)
  | .num neg m e => BitVec.ofNat 56 (roundDyadic fmtA56 .rne neg m e).1

/-- The binary format of a pattern code. -/
def elemFmt (c : Nat) : Fmt := (cvtFmt c).getD fmt32b

/-- trunc_bf16 (R71): toward zero, subnormals kept. -/
def truncBf16 (v : FVal) : FVal :=
  match v with
  | .num neg m e => fmtBf16.read (roundDyadic fmtBf16 .rtz neg m e).1
  | v => v

/-- The exact difference of a value and its truncation, of one sign. -/
def subTrunc (v t : FVal) : FVal :=
  match v, t with
  | .num n m e, .num _ k x =>
    let lo := min e x
    .num n (m * 2 ^ (e - lo).toNat - k * 2 ^ (x - lo).toNat) lo
  | _, _ => .num false 0 0

/-- The slices h, m, l of a binary32 value (R71). -/
def slices (v : FVal) : List FVal :=
  let h := truncBf16 v
  let r := subTrunc v h
  let m := truncBf16 r
  [h, m, truncBf16 (subTrunc r m)]

/-- Passes as slice numbers of A and B, 0 h, 1 m, 2 l, in issue order (R72). -/
def passesOf (exact : Bool) : List (Nat × Nat) :=
  (if exact then [(2, 2), (2, 1), (1, 2)] else []) ++ [(2, 0), (0, 2), (1, 1), (1, 0), (0, 1), (0, 0)]

/-- A finite value. -/
def FVal.finite (v : FVal) : Bool := !v.isNan && !v.isInf

/-- Products of one pass. -/
def passProducts (a b : List (List FVal)) (p : Nat × Nat) : List FVal :=
  List.zipWith (fun x y => mulExact (x.getD p.1 (.num false 0 0)) (y.getD p.2 (.num false 0 0))) a b

/-- kgroup_a56 (R69, R71, R72): `synth` gives the passes of synthesised FP32. -/
def kgroupA56 (fa fb : Nat) (synth : Option (List (Nat × Nat))) (a b : FifoLine) : BitVec 56 :=
  let xs := a.expand.map (elemFmt fa).read
  let ys := b.elems.map (elemFmt fb).read
  roundA56 (sumExact (match synth with
    | some ps =>
      if xs.all FVal.finite && ys.all FVal.finite then
        let sa := xs.map slices
        let sb := ys.map slices
        ps.flatMap (passProducts sa sb)
      else List.zipWith mulExact xs ys
    | none => List.zipWith mulExact xs ys))

/-! ### Entries and memory elements (R304, R307, R308) -/

/-- Fixed mode by FMT of the C pattern (R295). -/
def fixedMode (c : List Byte) : Bool := patFmt c == 6 || patFmt c == 7

/-- The exact value of an entry (R67, R68). -/
def entryVal (fixed : Bool) (q : Int) (e : BitVec 56) : CVal :=
  if fixed then
    if e == nanFixed then .nan false
    else
      let (n, d) := times10 e.toInt q
      .real (n < 0) n.natAbs (4096 * d) false
  else (fmtA56.read e.toNat).toC

/-- An element value converted to an entry, and whether it saturated (R304). -/
def intoEntry (fixed : Bool) (q : Int) (v : CVal) : BitVec 56 × Bool :=
  if fixed then
    match v with
    | .nan _ => (nanFixed, false)
    | .inf neg => (BitVec.ofInt 56 (if neg then -maxFixed else maxFixed), true)
    | .real neg n d _ =>
      let (a, b) := times10 (sInt neg (n * 4096)) (-q)
      let x := rneDiv a (b * d)
      (BitVec.ofInt 56 (saturate56 x), saturate56 x != x)
  else
    match v with
    | .nan _ => (nanA56, false)
    | .inf neg => (BitVec.ofNat 56 (fmtA56.signed neg fmtA56.infBits), false)
    | .real neg n d _ =>
      (BitVec.ofNat 56 (if n == 0 then fmtA56.signed neg 0 else (roundTo fmtA56 .rne neg n d).1), false)

/-- The entry holds NaN in its mode. -/
def isNanEntry (fixed : Bool) (e : BitVec 56) : Bool :=
  if fixed then e == nanFixed else (fmtA56.read e.toNat).isNan

/-- v + m of EPI 3 (R307): an exact zero sum is −0 only when both are −0. -/
def addC (v m : CVal) : CVal :=
  match v, m with
  | .nan _, _ | _, .nan _ => .nan false
  | .inf a, .inf b => if a == b then .inf a else .nan false
  | .inf a, _ => .inf a
  | _, .inf b => .inf b
  | .real na n d _, .real nb k e _ =>
    let s : Int := sInt na (n * e) + sInt nb (k * d)
    .real (s < 0 || (s == 0 && na && nb)) s.natAbs (d * e) false

/-- The epilogue of `mx.store` (R307); `m` is the element in memory. -/
def epilogue (epi : Nat) (v m : CVal) : CVal :=
  match epi, v with
  | 1, .inf true => .real false 0 1 false
  | 1, .real true _ _ _ => .real false 0 1 false
  | 2, .inf neg => .real neg 1 1 false
  | 2, .real neg n d i => if d < n then .real neg 1 1 false else .real neg n d i
  | 3, v => addC v m
  | _, v => v

/-- An integer clamped to a range: its bits, and whether it was clamped (R308). -/
def clampOut (lo hi : Int) (bits : Nat) (x : Int) : Nat × Bool :=
  let c := max lo (min hi x)
  ((BitVec.ofInt bits c).toNat, c != x)

/-- A value converted to OFMT, and whether OSAT is set (R308). -/
def outElem (ofmt : Nat) (v : CVal) : Nat × Bool :=
  match cvtFmt ofmt with
  | some f =>
    (match v with
      | .nan _ => (f.qnan, false)
      | .inf neg => (f.signed neg f.infBits, false)
      | .real neg n d _ =>
        if n == 0 then (f.signed neg 0, false)
        else
          let r := roundTo f .rne neg n d
          (r.1, r.2 &&& flOF != 0))
  | none =>
    if ofmt == 6 then
      match v with
      | .nan _ => (0x80, false)
      | .inf neg => ((if neg then 128 else 0) + 0x7F, true)
      | .real neg n d _ => let r := d8From neg n d; (r.1, r.2 &&& flOF != 0)
    else
      let b := if ofmt == 7 then 8 else 32
      match v with
      | .nan _ => (0, true)
      | .inf neg => (clampOut (-2 ^ (b - 1)) (2 ^ (b - 1) - 1) b (if neg then -2 ^ b else 2 ^ b))
      | .real neg n d _ => clampOut (-2 ^ (b - 1)) (2 ^ (b - 1) - 1) b (rneDiv (sInt neg n) d)

/-! ### FIFO entries (R298) -/

/-- Bytes of one line of an A entry without its scale (R298). -/
def storedBytes (fmt spn : Nat) : Nat :=
  if spn == 0 then 32 * fmtSize fmt else 4 + spnSlots spn * fmtSize fmt

/-- Bytes that an entry occupies (R298); `fifo` true is B. -/
def entryBytes (fifo : Bool) (fmt spn : Nat) : Nat :=
  if fifo then 64 * 32 * fmtSize fmt + (if fmtSize fmt == 1 then 64 else 0) + 64
  else 128 * storedBytes fmt spn + (if fmtSize fmt == 1 then 128 else 0)

/-- Bytes that a FIFO holds. -/
def fifoBytes (fifo : Bool) (l : List FifoEntry) : Nat :=
  (l.map fun e => entryBytes fifo e.fmt e.spn).sum

/-- The non-finite summary of a column (R66). -/
def nonFinite (fmt : Nat) (l : List Nat) : Bool :=
  match cvtFmt fmt with
  | some f => l.any fun v => !(f.read v).finite
  | none => fmt == 6 && l.contains 0x80

end Sys2Proof.Machine
end

