-- ==== Sys2Proof/Machine/Engine.lean ====
section
/-! DEFINITION. The matrix engines: direct commands (R300 to R310), K-group steps (R306), retirement of
commands (R303, R304, R307, R308), faults of commands (R311, R312); and accesses of units other than
threads (R304, R335, R340). -/

namespace Sys2Proof.Machine

/-! ### Accesses of engines, ladles and runners (R304) -/

/-- How a unit accesses memory. -/
structure UnitAcc where
  acc : Acc
  /-- A store under the WS rules (R239). -/
  write : Bool := false
  /-- WS frames raise ATTR (R307). -/
  noWs : Bool := false
  /-- Element size: a misaligned element on an SC frame raises ALIGN (R241). -/
  size : Nat := 1
  /-- The core whose access it is; none: a path that IPX does not bind (R240). -/
  core : Option Nat := none
  /-- On the MATRIX path, which does not reach host memory (R230). -/
  matrix : Bool := false

/-- Parts of a range cut at every 16-byte boundary: offset, size, address. -/
def cut16 (off va n : Nat) : Nat → List (Nat × Nat × Nat)
  | 0 => []
  | fuel + 1 =>
    if n == 0 then []
    else
      let k := min n (16 - va % 16)
      (off, k, va) :: cut16 (off + k) (va + k) (n - k) fuel

/-- All the parts of a range. -/
def parts16 (va n : Nat) : List (Nat × Nat × Nat) := cut16 0 va n (n / 16 + 2)

/-- The checks of one part for a unit of die `d` (R209, R239, R246, R304); it waits while a channel passes no flit (R378;
assumption log 130). -/
def State.unitPart (s : State) (d holder : Nat) (u : UnitAcc) (misal : Bool) (x : Nat × Nat × Nat) : Checked :=
  let hit := fun p c pa (s1 : State) => ({ hits := [⟨p, c, 0, x.2.2, pa⟩], s := s1 } : Checked)
  let r := s.check d holder u.acc (fun t => !(u.noWs && t == 2)) u.core x.2.2
  match hostFar u.matrix r.1, r with
  | some pa, (_, s1) => hit 10 .viol pa s1
  | none, (.stall, s1) => { stall := true, s := s1 }
  | none, (.fault c pa, s1) => hit c.rank c pa s1
  | none, (.ok pa ty, s1) =>
    if misal && ty == 1 then hit 4 .align pa s1
    else if isCwPa pa then hit 10 .viol pa s1
    else if s1.channelHeld holder pa then { stall := true, s := s1 }
    else if ty == 2 && u.write && (x.2.1 != 16 || pa % 16 != 0) then hit 8 .wsa pa s1
    else if ty == 2 && u.write && s1.wsBit pa then hit 9 .ws2 pa s1
    else { frags := [{ off := x.1, size := x.2.1, va := x.2.2, pa, typ := ty }], s := s1 }

/-- The checks of a range. -/
def State.unitRange (s : State) (d holder : Nat) (u : UnitAcc) (va n : Nat) : Checked :=
  (parts16 va n).foldl (fun c x => c.more fun s1 => s1.unitPart d holder u (va % u.size != 0) x) { s }

/-- Ranges checked one after another: the fragments of each, and the outcome. -/
def State.unitRanges (s : State) (d holder : Nat) (u : UnitAcc) : List (Nat × Nat) → List (List Frag) × Checked
  | [] => ([], { s })
  | (va, n) :: r =>
    let c := s.unitRange d holder u va n
    let (fs, t) := State.unitRanges c.s d holder u r
    (c.frags :: fs, { frags := c.frags ++ t.frags, hits := c.hits ++ t.hits, stall := c.stall || t.stall, s := t.s })

/-- The frames in transition that ranges reach (R213, R280). -/
def State.unitTrans (s : State) (d holder : Nat) (rs : List (Nat × Nat)) : List Nat :=
  distinct <| rs.flatMap fun r => (parts16 r.1 r.2).filterMap fun x => match s.peek d holder x.2.2 with
    | some pa => if (s.frame pa).trans then some (frameOf pa) else none
    | none => none

/-- WS parts that one store covers twice (R239). -/
def twicePart (l : List Frag) : List Hit :=
  let rec go (seen : List Nat) : List Frag → List Hit
    | [] => []
    | f :: r =>
      (if f.typ == 2 && seen.contains f.pa then [⟨9, .ws2, 0, f.va, f.pa⟩] else []) ++ go (f.pa :: seen) r
  go [] l

/-- A part read at its home by a unit of die `d`; none: it must wait (R239, R284). -/
def State.unitRead (s : State) (d : Nat) (f : Frag) : Option (List Byte × State) :=
  if s.wsUnwritten f then none
  else match hbmDie f.pa with
    | none => some (s.readPaN f.pa f.size, s)
    | some h =>
      if h == d then some (s.readPaN f.pa f.size, s.hotTouch f.pa)
      else if !(s.link h d).isEmpty || !s.linkOpen d h || !s.linkOpen h d then none
      else some (s.readPaN f.pa f.size, (s.readResponse h d).hotTouch f.pa)

/-- Parts read one after another, joined. -/
def State.unitReads (s : State) (d : Nat) : List Frag → Option (List Byte × State)
  | [] => some ([], s)
  | f :: r => match s.unitRead d f with
    | none => none
    | some (bs, s1) => match State.unitReads s1 d r with
      | none => none
      | some (cs, s2) => some (bs ++ cs, s2)

/-- Every range read. -/
def State.unitReadAll (s : State) (d : Nat) : List (List Frag) → Option (List (List Byte) × State)
  | [] => some ([], s)
  | fs :: r => match s.unitReads d fs with
    | none => none
    | some (bs, s1) => match State.unitReadAll s1 d r with
      | none => none
      | some (cs, s2) => some (bs :: cs, s2)

/-- The copies of a line on other dies are gone, for a write performed at package scope (R283; assumption
log 19); none: one of them must wait for messages on their way. -/
def State.dropCopies (s : State) (pa : Nat) : Option State :=
  match hbmDie pa with
  | none => some s
  | some h =>
    let xs := State.dies4.filter fun x => x != h && (Tab.find? (s.die x).peerLines (pa / 128)).isSome
    if xs.all fun x => s.causalReady h x then
      some (xs.foldl (fun s x => (s.countWrite h x).modDie x fun v =>
        { v with peerLines := Tab.del v.peerLines (pa / 128) }) s)
    else none

/-- A part written at its home by a unit of die `d` in one step, performed at package scope (R273, R285). -/
def State.unitPut (s : State) (d : Nat) (f : Frag) (bs : List Byte) : Put :=
  match hbmDie f.pa with
  | none => .ok (s.writePaN f.pa bs)
  | some h => match s.dupStall f.pa with
    | some s1 => .wait s1
    | none =>
      if h != d && !s.causalReady d h then .wait s
      else match s.dropCopies f.pa with
        | none => .wait s
        | some s1 =>
          let s2 := (s1.countWrite d h).homeWrite f.pa bs none
          .ok (if f.typ == 2 then s2.setWritten f.pa f.size else s2)

/-- Parts written one after another. -/
def State.unitPuts (s : State) (d : Nat) : List (Frag × List Byte) → Put
  | [] => .ok s
  | (f, bs) :: r => match s.unitPut d f bs with
    | .ok s1 => State.unitPuts s1 d r
    | .wait s1 => .wait s1

/-- The read duplicates of what a store is to write are invalidated while it waits (R242). -/
def State.unitDup (s : State) (l : List Frag) : State :=
  l.foldl (fun s f => (s.dupStall f.pa).getD s) s

/-- Addresses of a unit's IPX, VIOL and STRAND faults go to the violation log (R351). -/
def State.logUnit (s : State) (d kind unit : Nat) (c : FCode) (pa : Nat) : State :=
  if c == .viol || c == .strand then s.logViolation (if d < 4 then d else 0) pa 1 kind unit else s

/-- Index of the workgroup and of the group that issued a command, while they exist (R343; assumption log
36). -/
def State.issuer (s : State) (wg gid : Nat) : BitVec 24 × Nat :=
  ((match s.wg? wg with
    | some w => w.index
    | none => 0), (match s.group? gid with
    | some g => g.gindex
    | none => 0))

/-! ### Issue of direct commands (R300, R301) -/

/-- Patterns that a command uses are legal for it (R65, R301, R302, R305); `sparse` none: `mx.load` and
`mx.store`. -/
def tileOk (c : List Byte) (row0 cb : Nat) : Bool :=
  !c.isEmpty && patSfmt c == 0 && patSpn c == 0 && decide (row0 + patRows c ≤ 128)
    && decide (64 * cb + patCols c ≤ 192)

/-- The format combinations of R305. -/
def formatsOk (a b c : Nat) : Bool :=
  ([6, 7].contains a && [6, 7].contains b && [6, 7].contains c)
    || ([2, 3].contains a && [2, 3].contains b && [2, 3, 4].contains c)
    || (a == 4 && b == 4 && [2, 3, 4].contains c)

/-- The patterns of a product command are legal for it (R65, R301, R302, R305). -/
def productOk (a b c : List Byte) (sparse : Bool) (row0 : Nat) : Bool :=
  !a.isEmpty && !b.isEmpty && !c.isEmpty && formatsOk (patFmt a) (patFmt b) (patFmt c)
    && (patSpn a != 0) == sparse && patSpn b == 0 && patSfmt c == 0 && patSpn c == 0
    && decide (row0 + patRows a ≤ 128) && decide (patRows b ≤ 64)

/-- The patterns of a command are legal for it. -/
def EngCmd.patOk (c : EngCmd) : Bool :=
  match c.instr with
  | .mxLoad f => tileOk c.pcEnt f.row0.toNat f.cb.toNat
  | .mxStore f => tileOk c.pcEnt f.row0.toNat f.cb.toNat
  | .mxMma f => productOk c.pa c.pb c.pcEnt false f.row0.toNat
  | .mxSmma f => productOk c.pa c.pb c.pcEnt true f.row0.toNat
  | _ => true

/-- Room in an engine's command queue (R301). -/
def State.engRoom (s : State) (loc : Nat) : Bool := (s.core loc).engine.queue.length < 16

/-- The command of a path. -/
def Ctx.engCmd (c : Ctx) (id : Nat) : EngCmd :=
  { id, instr := c.i, wg := c.g.wg, gid := c.gid, region := c.w.region, pc := c.p.pc,
    tids := c.threads.map fun e => e.2.tid, sb := c.f.sb }

/-- A command put at the end of an engine's queue. -/
def State.engPush (s : State) (loc : Nat) (c : EngCmd) : State :=
  s.modEngine loc fun e => { e with queue := e.queue ++ [c] }

/-- Another owns the engine of a path, or its queue is full (R296, R301). -/
def mxWaits (c : Ctx) (s : State) : Bool := !s.engineFree c.g.loc c.g.wg || !s.engRoom c.g.loc

/-- Issue of a direct command other than `mx.sync` (R296, R301): the path is not ready while another owns the engine
or the queue is full; then PAT, the claim and the queue. -/
def State.issueMx (s : State) (i : Instr) (f : Form) (fill : Ctx → State → EngCmd → EngCmd) : State :=
  s.issueIf i { f with group := true, noSteward := true } mxWaits fun c s =>
    if !(fill c s (c.engCmd 0)).patOk then s.trapCode c .pat
    else (s.claim c.g.loc c.g.wg).enqueued c fun id tids s =>
      s.engPush c.g.loc { fill c s (c.engCmd id) with tids }

/-- The pattern entries of a command's cluster, copied when the engine accepts it (R220). -/
def Ctx.pat (c : Ctx) (s : State) (n : BitVec 8) : List Byte := s.pattern (locDie c.g.loc) n.toNat

/-- `mx.zero` (R303). -/
def execMxZero (f : MxZeroF) (s : State) : Out :=
  .next (s.issueMx (.mxZero f) { cls := 6, outside := true, sb := f.sb.toNat } fun _ _ k => k)

/-- `mx.load` (R304). -/
def execMxLoad (f : MxLoadF) (s : State) : Out :=
  .next (s.issueMx (.mxLoad f) { cls := 6, a := .pair f.a, outside := true, sb := f.sb.toNat } fun c s k =>
    { k with tile := c.lead.pair f.a, pcEnt := c.pat s f.pc })

/-- `mx.store` (R304, R307). -/
def execMxStore (f : MxStoreF) (s : State) : Out :=
  .next (s.issueMx (.mxStore f) { cls := 6, a := .pair f.a, outside := true, sb := f.sb.toNat } fun c s k =>
    { k with tile := c.lead.pair f.a, pcEnt := c.pat s f.pc })

/-- `mx.mma` (R306). -/
def execMxMma (f : MxMmaF) (s : State) : Out :=
  .next (s.issueMx (.mxMma f) { cls := 7, outside := true, sb := f.sb.toNat } fun c s k =>
    { k with pa := c.pat s f.pa, pb := c.pat s f.pb, pcEnt := c.pat s f.pc })

/-- `mx.smma` (R306). -/
def execMxSmma (f : MxMmaF) (s : State) : Out :=
  .next (s.issueMx (.mxSmma f) { cls := 7, outside := true, sb := f.sb.toNat } fun c s k =>
    { k with pa := c.pat s f.pa, pb := c.pat s f.pb, pcEnt := c.pat s f.pc })

/-- The gang word of `mx.gang` is out of range (R310). -/
def gangIll (v : Word) : Bool :=
  decide (v.toNat / 2 ^ 4 % 4 < v.toNat % 4) || decide (v.toNat / 2 ^ 6 % 4 < v.toNat / 4 % 4)

/-- `mx.gang` (R310): it takes effect in command order. -/
def execMxGang (a : Name) (s : State) : Out :=
  .next (s.issueIf (.mxGang a) { group := true, noSteward := true, a := .w a } mxWaits fun c s =>
    let v := c.lead.word a
    if gangIll v then s.trapCode c .ill
    else (s.claim c.g.loc c.g.wg).enqueued c fun id tids s =>
      s.engPush c.g.loc { c.engCmd id with tids, gang := lo v 0 8 })

/-! ### Block status (R294, R295) -/

/-- SAT bit of a status byte. -/
def stSAT : BitVec 8 := 4
/-- OSAT bit. -/
def stOSAT : BitVec 8 := 8
/-- NAN bit. -/
def stNAN : BitVec 8 := 16
/-- The status byte of a block (R294). -/
def BlockStatus.byte (b : BlockStatus) : BitVec 8 :=
  (b.bits &&& 0x3C) ||| (if b.mode == 2 then 2 else 0) ||| (if b.mode == 0 then 1 else 0)

/-- The word of `mx.sync` for an owner (R294): OWN in bit 30. -/
def Engine.syncWord (e : Engine) : Word :=
  (1 : BitVec 2) ++ (0 : BitVec 6) ++ (e.block 2).byte ++ (e.block 1).byte ++ (e.block 0).byte

/-- SAT, OSAT and FAULT cleared in all blocks (R309). -/
def Engine.clearSync (e : Engine) : Engine :=
  { e with blocks := Tab.mapV e.blocks fun _ b => { b with bits := b.bits &&& 0x10 } }

/-- A non-empty block has another mode, or another decade in fixed mode, than the C pattern (R295). -/
def BlockStatus.clash (b : BlockStatus) (c : List Byte) : Bool :=
  b.mode != 0 && (if fixedMode c then b.mode != 1 || b.q != patQ c else b.mode != 2)

/-- EMPTY blocks take the mode of the C pattern (R295). -/
def Engine.touch (e : Engine) (ks : List Nat) (c : List Byte) : Engine :=
  ks.foldl (fun e k =>
    let b := e.block k
    if b.mode != 0 then e
    else
      let b' : BlockStatus := if fixedMode c then { b with mode := 1, q := patQ c } else { b with mode := 2 }
      { e with blocks := Tab.put e.blocks k b' }) e

/-- An accumulator entry (R293). -/
def Engine.entry (e : Engine) (i j : Nat) : BitVec 56 := Tab.getD e.acc (192 * i + j) 0

/-- An accumulator entry set. -/
def Engine.setEntry (e : Engine) (i j : Nat) (v : BitVec 56) : Engine :=
  { e with acc := if v == 0 then Tab.del e.acc (192 * i + j) else Tab.put e.acc (192 * i + j) v }

/-! ### Faults of commands (R311, R312) -/

/-- The address of a task's record, or 0. -/
def State.taskAddr (s : State) (t : Option Nat) : DWord :=
  match t.bind s.task? with
  | some (_, x) => x.addr
  | none => 0

/-- DETAIL of a record of SRC 2 (R346). -/
def taskDetail (kg stream : Nat) (gang : BitVec 8) : DWord :=
  BitVec.ofNat 64 (kg % 2 ^ 32 + stream * 2 ^ 32 + gang.toNat % 16 * 2 ^ 36)

/-- The record of an engine command (R343, R345, R346). Streams: 2 load, 3 store, 4 product. -/
def State.engTrap (s : State) (loc : Nat) (c : EngCmd) (stream : Nat) (code : FCode) (va pa : Nat)
    (info : Bool) : TrapInfo :=
  let kg := if stream == 4 then c.k0 + c.done else 0
  let who := s.issuer c.wg c.gid
  { code, src := if c.task.isSome then 2 else 3, info, region := some c.region, loc, pc := c.pc,
    vaddr := BitVec.ofNat 64 va, paddr := pa, windex := who.1, gindex := who.2, obj := s.taskAddr c.task,
    detail := if c.task.isSome then taskDetail kg stream (s.core loc).engine.gang else 0 }

/-- A command leaves the queue: its count is complete (R177). -/
def State.engRetire (s : State) (loc : Nat) (c : EngCmd) : State :=
  (s.modEngine loc fun e => { e with queue := e.queue.filter fun x => x.id != c.id }).sbComplete c.gid c.sb c.id

/-- A DATA FAULT (R311): a task ends; a direct command stops and marks its blocks, then `after`. `det` is the DETAIL of
a direct command's record (R346). -/
def State.engData (s : State) (loc : Nat) (c : EngCmd) (stream : Nat) (code : FCode) (blocks : List Nat)
    (after : State → State) (det : DWord := 0) : State :=
  let t0 := s.engTrap loc c stream code 0 0 true
  let t := if c.task.isSome then t0 else { t0 with detail := det }
  let (id, s1) := s.newId
  match c.task with
  | some k => (s1.failTask k).writeTrap (locDie loc) id t none
  | none =>
    (after (s1.modEngine loc fun e => blocks.foldl (fun e k => e.mark k stFAULT) e)).writeTrap (locDie loc) id
      t none

/-- A MEMORY FAULT of a command (R312): STALL stops the stream; KILL ends the task until its record is
answered. -/
def State.engMem (s : State) (loc : Nat) (c : EngCmd) (stream : Nat) (code : FCode) (va pa : Nat) : State :=
  let s0 := s.logUnit (locDie loc) 4 loc code pa
  let t := s0.engTrap loc c stream code va pa false
  let (id, s1) := s0.newId
  let stall := (s1.modEngCmd loc c.id fun x => { x with party := some id, stalledOn := [] }).writeTrap (locDie loc) id t
    (some (.engine loc c.id))
  match c.task with
  | none => stall
  | some k => match s1.task? k with
    | some (_, x) =>
      if s1.taskMode x == 2 then stall
      else (s1.killTask k id).writeTrap (locDie loc) id t (some (.task k))
    | none => s1

/-! ### Suspect results (R45, R313) -/

/-- What the checks of an engine's result give: it passes, perhaps recomputed once, or fails twice. -/
def State.engCheck (s : State) (loc : Nat) : Option Nat × State :=
  match (s.core loc).engine.stepFails with
  | [] => (none, s)
  | l =>
    let s1 := s.modCore loc fun c =>
      { c with engine := { c.engine with stepFails := [] }, perf := bump c.perf 0x107 1 }
    (if 2 ≤ l.length then l.getLast? else none, s1)

/-! ### Lumens of steps (R191, R192, R306, R315) -/

/-- A debit of a price for the engine: `LUMEN`, a wait, or the state after it. -/
inductive Charge where
  | lumen
  | wait (s : State)
  | ok (s : State)

/-- The engine as a party is 0 in the starving queue. A step's start resets the engine's watchdog (R197, R306); a
class-6 command of a task is charged as one step (R315). -/
def State.charge (s : State) (loc region k : Nat) : Charge :=
  let p := (s.die (locDie loc)).price k
  if p > 8192 then .lumen
  else if !s.licensed loc 0 region p then .wait (s.modEngine loc fun e => { e with lumBlocked := true })
  else
    .ok ((s.debit loc region p).modEngine loc fun e =>
      { e with lumBlocked := false, lumWait := 0, stepped := true, wdogAcc := 0, wdogHeld := 0, wdogSlow := 0 })

/-! ### K-group steps (R306) -/

/-- The fields of a product command, and whether it is sparse. -/
def EngCmd.product? (c : EngCmd) : Option (MxMmaF × Bool) :=
  match c.instr with
  | .mxMma f => some (f, false)
  | .mxSmma f => some (f, true)
  | _ => none

/-- K-groups of a command: 4,096 for 0 (R306). -/
def kCount (k : BitVec 12) : Nat := if k == 0 then 4096 else k.toNat

/-- Passes of synthesised FP32 (R72, R305). -/
def EngCmd.synth (c : EngCmd) : Option (List (Nat × Nat)) :=
  if patFmt c.pa == 4 then some (passesOf (leAt c.pa 0x35 1 == 1)) else none

/-- Passes of one K-group. -/
def EngCmd.passes (c : EngCmd) : Nat :=
  match c.synth with
  | some l => l.length
  | none => 1

/-- The price entry of a step (R306). -/
def stepPrice (a : List Byte) : Nat :=
  if patFmt a == 6 || patFmt a == 7 then 8 + patSpn a else 12

/-- Set bits of a mask beyond N (R65). -/
def FifoEntry.tooMany (e : FifoEntry) : Bool :=
  e.lines.any fun l => match l.smask with
    | some m => spnSlots e.spn < countMask m
    | none => false

/-- A scale code outside −100 to +100 (R63). -/
def FifoEntry.badScale (e : FifoEntry) : Bool := e.lines.any fun l => l.scale < -100 || 100 < l.scale

/-- One K-group added into one entry, with SAT and NAN (R69). -/
def Engine.addEntry (e : Engine) (c : EngCmd) (i j k : Nat) (a b : FifoLine) : Engine :=
  let fa := patFmt c.pa
  let fb := patFmt c.pb
  let fixed := fixedMode c.pcEnt
  let (v, sat) := if fixed then addFixed (e.entry i j) (kgroupFixed fa fb (patQ c.pcEnt) a b)
    else (addA56 (e.entry i j) (kgroupA56 fa fb c.synth a b), false)
  let e1 := e.setEntry i j v
  let bits := (if sat then stSAT else 0) ||| (if isNanEntry fixed v then stNAN else 0)
  if bits == 0 then e1 else e1.mark k bits

/-- A K-group applied to the whole rectangle (R306). -/
def Engine.apply (e : Engine) (c : EngCmd) (f : MxMmaF) (a b : FifoEntry) : Engine :=
  let k := f.cb.toNat
  ((a.lines.take (patRows c.pa)).zipIdx.foldl (fun e x =>
    (b.lines.take (patRows c.pb)).zipIdx.foldl (fun e y =>
      e.addEntry c (f.row0.toNat + x.2) (64 * k + y.2) k x.1 y.1) e) (e.touch [k] c.pcEnt))

/-- Both head entries popped, the K-group done; `skip` from now on after a fault (R306, R311). -/
def State.popHeads (s : State) (loc : Nat) (c : EngCmd) (skip : Bool) : State :=
  (s.modEngine loc fun e => { e with fifoA := e.fifoA.tail, fifoB := e.fifoB.tail }).modEngCmd loc c.id fun x =>
    { x with done := x.done + 1, paid := 0, skip := x.skip || skip }

/-- A FIFO entry has the tag of a pattern (R299). An entry that a feed of an invalid pattern pushed has no lines and no
format: only the pattern's number counts (R220, R338; assumption log 32). -/
def FifoEntry.tagged (e : FifoEntry) (n : BitVec 8) (p : List Byte) : Bool :=
  e.pat == n.toNat && (e.lines.isEmpty || e.fmt == patFmt p)

/-- A K-group step of the head command with head entries `a` and `b` (R306, R311): one pass is debited; with
the last one the K-group is applied, when its sums have passed the checks of R313. -/
def State.kgroup (s : State) (loc : Nat) (c : EngCmd) (f : MxMmaF) (a b : FifoEntry) : State :=
  let k := f.cb.toNat
  let bad := fun (s : State) code => s.engData loc c 4 code [k] fun s => s.popHeads loc c true
  if c.skip then s.popHeads loc c true
  else if !(a.tagged f.pa c.pa && b.tagged f.pb c.pb) then bad s .fifo
  else if a.lines.isEmpty || b.lines.isEmpty then bad s .pat
  else if ((s.core loc).engine.block k).clash c.pcEnt then bad s .pat
  else match s.charge loc c.region (stepPrice c.pa) with
    | .lumen => bad s .lumen
    | .wait s1 => s1
    | .ok s0 =>
      let s1 := s0.modCore loc fun x => { x with perf := bump x.perf 0x109 1 }
      if c.paid + 1 < c.passes then s1.modEngCmd loc c.id fun x => { x with paid := x.paid + 1 }
      else if a.tooMany then bad s1 .sparse
      else if a.badScale || b.badScale then bad s1 .pat
      else match s1.engCheck loc with
        | (some w, s2) => s2.engData loc c 4 .recast [k] (fun s => s.popHeads loc c true) (BitVec.ofNat 64 w)
        | (none, s2) => (s2.modEngine loc fun e => e.apply c f a b).popHeads loc c false

/-- ENGINE_KGROUP_STEP (R306). -/
def State.kgroupStep (s : State) (loc : Nat) : State :=
  let e := (s.core loc).engine
  match e.queue with
  | [] => s
  | c :: _ => match c.product? with
    | none => s
    | some (f, _) =>
      if e.halted || c.party.isSome || kCount f.k ≤ c.done then s
      else if !c.patOk then s.engData loc c 4 .pat [f.cb.toNat] id
      else match e.fifoA, e.fifoB with
        | a :: _, b :: _ => s.kgroup loc c f a b
        | _, _ => s

/-- ENGINE_KGROUP_STEP (R306); a residue check that the engine's next result fails (R313). -/
def execEngineKgroupStep (s : State) : Out := s.onEvent fun e s => match e with
  | .engineKgroupStep loc => s.kgroupStep loc
  | .engineResidue loc => s.modEngine loc fun e => { e with stepFails := (e.stepFails ++ [0]).take 2 }
  | _ => s

/-! ### `mx.sync` (R299, R309) -/

/-- Feeds that target a FIFO of a core (R299), of a workgroup's direct feeds or of a task's. -/
def State.feedsFor (s : State) (loc : Nat) (fifo : Bool) (mine : LadleCmd → Bool) : Bool :=
  ((Tab.getD (s.cluster (locCluster loc)).ladles (locCore loc) []).any fun x =>
    x.feed && x.core == loc && x.fifo == fifo && mine x)

/-- The head command of an engine waits on an empty FIFO that no feed of the workgroup targets (R299). -/
def State.underflow (s : State) (loc wg : Nat) : Option (EngCmd × MxMmaF) :=
  let e := (s.core loc).engine
  match e.queue with
  | c :: _ => match c.product? with
    | some (f, _) =>
      let dry := fun b (l : List FifoEntry) =>
        l.isEmpty && !s.feedsFor loc b fun x => x.wg == wg && x.task.isNone
      if c.task.isNone && decide (c.done < kCount f.k) && (dry false e.fifoA || dry true e.fifoB) then some (c, f)
      else none
    | none => none
  | [] => none

/-- An engine that its workgroup releases is scrubbed (R296, R299); direct commands issued since the `mx.sync` came to
issue stay in the queue, which a release does not flush (R317), and claim the engine again (assumption log 129). -/
def Engine.giveUp (e : Engine) : Engine :=
  if e.queue.isEmpty then e.release else { e.release with owner := e.owner, queue := e.queue }

/-- The engine released by its workgroup (R296, R309). -/
def State.releaseEngine (s : State) (loc : Nat) : State := s.modEngine loc Engine.giveUp

/-- The command of a direct underflow retires (R299): the entries of its remaining K-groups are consumed and discarded
(R311). -/
def State.dropDry (s : State) (loc : Nat) (c : EngCmd) (n : Nat) : State :=
  (s.modEngine loc fun e => { e with fifoA := e.fifoA.drop n, fifoB := e.fifoB.drop n }).engRetire loc c

/-- The wait of a path at `mx.sync` (R309): the commands of its workgroup issued before it came to issue have not all
retired. A direct underflow is taken while it waits (R299). -/
def syncWaits (c : Ctx) (s : State) : Option State :=
  let e := (s.core c.g.loc).engine
  let n := c.p.syncAt.getD s.nextId
  if e.owner == .wg c.g.wg && e.queue.any fun k => decide (k.id < n) then
    let s1 := s.modGroup c.gid fun g => g.modPath c.pi fun p => { p with syncAt := some n }
    match s.underflow c.g.loc c.g.wg with
    | some (k, m) => some (s1.engData c.g.loc k 4 .fifo [m.cb.toNat] fun s => s.dropDry c.g.loc k (kCount m.k - k.done))
    | none => some s1
  else none

/-- `mx.sync` (R309). -/
def execMxSync (f : N2) (s : State) : Out :=
  .next (s.issueOr (.mxSync f) { group := true, noSteward := true, a := .w f.a, dst := .w f.d } syncWaits fun c s =>
    let e := (s.core c.g.loc).engine
    if e.owner != .wg c.g.wg then (s.writeAll c f.d 0).next_ c
    else
      let s1 := (s.writeAll c f.d e.syncWord).modEngine c.g.loc Engine.clearSync
      (if (c.lead.word f.a).getLsbD 0 then s1.releaseEngine c.g.loc else s1).next_ c)

/-! ### Tiles in memory (R304, R307, R308) -/

/-- Address of element (m, n) of a pattern with element size `sz` (R304, R338), and the dimension 2 and 3
indices. -/
def patAddr (p : List Byte) (m n sz i2 i3 : Nat) : Nat :=
  ((leAt p 0 8 : Int) + m * patStr p 1 + n * sz + i2 * patStr p 2 + i3 * patStr p 3).emod (2 ^ 64) |>.toNat

/-- Dimension 2 and 3 indices lie in the tensor; a dimension beyond RANK has no extent of its own. -/
def patInside (p : List Byte) (i2 i3 : Nat) : Bool :=
  let rank := leAt p 0x31 1
  (rank < 3 || i2 < patExt p 2) && (rank < 4 || i3 < patExt p 3)

/-- A row of the rectangle of `mx.load` or `mx.store`: row index, address of its first element, elements
inside the tensor (R304). -/
def EngCmd.rows (c : EngCmd) (gang : BitVec 8) : List (Nat × Nat × Nat) :=
  let p := c.pcEnt
  let t := c.tile.toNat
  let g := gang.toNat
  let m0 := (t % 2 ^ 16 * (g / 16 % 4 + 1) + g % 4) * patRows p
  let n0 := (t / 2 ^ 16 % 2 ^ 16 * (g / 64 + 1) + g / 4 % 4) * patCols p
  let i2 := t / 2 ^ 32 % 2 ^ 16
  let i3 := t / 2 ^ 48
  let w := if patInside p i2 i3 then min (patCols p) (patExt p 0 - n0) else 0
  (List.range (patRows p)).map fun i =>
    (i, patAddr p (m0 + i) n0 (fmtSize (patOfmt p)) i2 i3, if m0 + i < patExt p 1 then w else 0)

/-- Ranges of the rows in bytes. -/
def rowRanges (rows : List (Nat × Nat × Nat)) (sz : Nat) : List (Nat × Nat) :=
  rows.map fun r => (r.2.1, r.2.2 * sz)

/-- One element of an `mx.load` into its entry (R304). -/
def Engine.loadEntry (e : Engine) (c : EngCmd) (i j : Nat) (v : Option Nat) : Engine :=
  let (r, cb) := c.corner
  match v with
  | none => e.setEntry (r + i) (64 * cb + j) 0
  | some raw =>
    let fixed := fixedMode c.pcEnt
    let (x, sat) := intoEntry fixed (patQ c.pcEnt) (cvtRead (patOfmt c.pcEnt) raw)
    let e1 := e.setEntry (r + i) (64 * cb + j) x
    let bits := (if sat then stSAT else 0) ||| (if isNanEntry fixed x then stNAN else 0)
    if bits == 0 then e1 else e1.mark (cb + j / 64) bits

/-- NAN of a block as its entries give it (R294). -/
def Engine.recheck (e : Engine) (k : Nat) : Engine :=
  let b := e.block k
  let nan := e.acc.any fun x => x.1 % 192 / 64 == k && isNanEntry (b.mode != 2) x.2
  { e with blocks := Tab.put e.blocks k { b with bits := (b.bits &&& 0x2C) ||| (if nan then stNAN else 0) } }

/-- All the elements of an `mx.load` (R304). -/
def Engine.loadTile (e : Engine) (c : EngCmd) (rows : List (Nat × Nat × Nat)) (data : List (List Byte)) : Engine :=
  let sz := fmtSize (patOfmt c.pcEnt)
  let e1 := (rows.zip data).foldl (fun e x => (List.range (patCols c.pcEnt)).foldl (fun e j =>
    e.loadEntry c x.1.1 j (if j < x.1.2.2 then some (leAt x.2 (sz * j) sz) else none)) e)
    (e.touch c.blocks c.pcEnt)
  c.blocks.foldl Engine.recheck e1

/-- The element that an `mx.store` writes for an entry, and its block's OSAT (R307, R308). -/
def Engine.storeElem (e : Engine) (c : EngCmd) (epi i j : Nat) (old : Nat) : Nat × Option Nat :=
  let (r, cb) := c.corner
  let b := e.block (cb + j / 64)
  let v := entryVal (b.mode != 2) b.q (e.entry (r + i) (64 * cb + j))
  let x := outElem (patOfmt c.pcEnt) (epilogue epi v (cvtRead (patOfmt c.pcEnt) old))
  (x.1, if x.2 then some (cb + j / 64) else none)

/-- Bytes of a row of an `mx.store`, and the blocks whose OSAT it sets. -/
def Engine.storeRow (e : Engine) (c : EngCmd) (epi : Nat) (row : Nat × Nat × Nat) (old : List Byte) :
    List Byte × List Nat :=
  let sz := fmtSize (patOfmt c.pcEnt)
  let xs := (List.range row.2.2).map fun j => e.storeElem c epi row.1 j (leAt old (sz * j) sz)
  (xs.flatMap fun x => leBytes sz x.1, xs.filterMap fun x => x.2)

/-- The checks before a tile command runs (R295, R301, R311, R315): the task's patterns, the block status, the
class-6 charge of a task's command; then `k`. -/
def State.tileReady (s : State) (loc : Nat) (c : EngCmd) (stream : Nat) (k : State → State) : State :=
  let bad := fun code => s.engData loc c stream code c.blocks fun s => s.engRetire loc c
  let clash := match c.instr with
    | .mxZero _ => false
    | _ => c.blocks.any fun b => ((s.core loc).engine.block b).clash c.pcEnt
  if !c.patOk || clash then bad .pat
  else if c.task.isNone || c.started then k s
  else match s.charge loc c.region 6 with
    | .lumen => bad .lumen
    | .wait s1 => s1
    | .ok s1 => k (s1.modEngCmd loc c.id fun x => { x with started := true })

/-- `mx.zero` performed (R303). -/
def State.zeroTile (s : State) (loc : Nat) (c : EngCmd) (f : MxZeroF) : State :=
  s.tileReady loc c 4 fun s =>
    let r := f.row0.toNat
    let k := f.cb.toNat
    let keep := fun x : Nat × BitVec 56 => decide (x.1 / 192 < r) || x.1 % 192 / 64 != k
    (s.modEngine loc fun e =>
      { e with acc := e.acc.filter keep,
               blocks := if r == 0 then Tab.del e.blocks k else e.blocks }).engRetire loc c

/-- A tile command stalls on frames in transition (R213, R280). -/
def State.engStalls (s : State) (loc : Nat) (c : EngCmd) (rs : List (Nat × Nat)) : State :=
  s.modEngCmd loc c.id fun x => { x with stalledOn := s.unitTrans (locDie loc) loc rs }

/-! ### The sequencer's states, and the feeds before a store (R222, R288, R315) -/

/-- Fields of a state word (R222). -/
def stCmd (w : Nat) : Nat := w % 16
/-- EPI. -/
def stEpi (w : Nat) : Nat := w / 2 ^ 4 % 16
/-- CBSEL. -/
def stCbsel (w : Nat) : Nat := w / 2 ^ 8 % 4
/-- KCNT, 4,096 for 0. -/
def stKcnt (w : Nat) : Nat := if w / 2 ^ 10 % 4096 == 0 then 4096 else w / 2 ^ 10 % 4096
/-- NEXT1. -/
def stNext1 (w : Nat) : Nat := w / 2 ^ 22 % 64
/-- NEXT0. -/
def stNext0 (w : Nat) : Nat := w / 2 ^ 28 % 64
/-- COND. -/
def stCond (w : Nat) : Nat := w / 2 ^ 34 % 16
/-- Bit 38, 39 or 40 of CTR. -/
def stCtr (w k : Nat) : Bool := w / 2 ^ k % 2 == 1

/-- The state that an engine's sequencer stands at. -/
def Engine.stateWord (e : Engine) : Nat := (Tab.getD e.table e.seqS 0).toNat

/-- KEND of a task record (R328). -/
def Task.kEnd (t : Task) : Nat := t.at_ 0xC 4

/-- K-groups of the command of a state (R315). -/
def Engine.seqCount (e : Engine) (t : Task) : Nat := min (stKcnt e.stateWord) (t.kEnd - e.seqKC)

/-- The state that a sequencer stands at queues nothing (R315). -/
def Engine.seqIdle (e : Engine) (t : Task) : Bool :=
  let m := stCmd e.stateWord
  m == 0 || decide (9 < m) || (e.seqCount t == 0 && !([1, 2, 5, 8].contains m))

/-- The command of the state that a sequencer stands at can be queued. -/
def State.seqRoom (s : State) (loc : Nat) (t : Task) : Bool :=
  let e := (s.core loc).engine
  e.seqIdle t || (if [6, 7].contains (stCmd e.stateWord) then s.ladleRoom (locCluster loc) (locCore loc) t.region
    else s.engRoom loc)

/-- A `mx.sync` of the task is in the queue: the sequencer waits for it (R309). -/
def Engine.syncQueued (e : Engine) : Bool :=
  e.queue.any fun c => match c.instr with
    | .mxSync _ => true
    | _ => false

/-- The states that a sequencer may go to from state `n` with no command of its engine retired: `mx.sync` and COND 5 wait
for that, an A FIFO that holds entries keeps them, a full B FIFO stays full. -/
def Engine.seqNexts (e : Engine) (full : Bool) (n : Nat) : List Nat :=
  let w := (Tab.getD e.table n 0).toNat
  if [8, 9].contains (stCmd w) then []
  else match stCond w with
    | 5 => [stNext0 w]
    | 3 => if e.fifoA.isEmpty then [stNext0 w, stNext1 w] else [stNext0 w]
    | 4 => if full then [stNext1 w] else [stNext0 w, stNext1 w]
    | 1 | 2 | 6 => [stNext0 w, stNext1 w]
    | _ => [stNext1 w]

/-- States reached from `l` in at most the given number of rounds. -/
def seqReach (next : Nat → List Nat) : Nat → List Nat → List Nat
  | 0, l => l
  | n + 1, l => seqReach next n (distinct (l ++ l.flatMap next))

/-- A task's B FIFO has no room for an entry (R315). -/
def Engine.fullB (e : Engine) (t : Task) : Bool :=
  !t.pb.isEmpty && decide (65536 < fifoBytes true e.fifoB + entryBytes true (patFmt t.pb) 0)

/-- The sequencer may still queue a feed with no command of its engine retired. -/
def Engine.feedAhead (e : Engine) (t : Task) : Bool :=
  (seqReach (e.seqNexts (e.fullB t)) 64 [e.seqS]).any fun n => [6, 7].contains (stCmd (Tab.getD e.table n 0).toNat)

/-- A feed of a ladle can push its next entry now. -/
def State.feedCanPush (s : State) (x : LadleCmd) : Bool :=
  let e := (s.core x.core).engine
  decide (fifoBytes x.fifo (if x.fifo then e.fifoB else e.fifoA) + entryBytes x.fifo (patFmt x.entry) (patSpn x.entry) ≤ 65536)

/-- The engine's head command is an `mx.store`. -/
def Engine.storing (e : Engine) : Bool :=
  match e.queue with
  | c :: _ => (match c.instr with
    | .mxStore _ => true
    | _ => false)
  | [] => false

/-- A feed of task `t` at member `m` is still to be made (R288): queued, active, or yet to be queued by the sequencer.
While the member's engine stands at an `mx.store`, what only a later command of it lets go on is none: a feed that waits
for room, one behind it, and one behind a wait for that command (assumption log 107). -/
def State.feedAt (s : State) (t : Task) (m : Nat) : Bool :=
  let e := (s.core m).engine
  let stuck := fun x : LadleCmd => e.storing && x.task == some t.id && x.feed && x.core == m && !s.feedCanPush x
  (match Tab.getD (s.cluster (locCluster m)).ladles (locCore m) [] with
    | [] => false
    | x :: r => !stuck x && (x :: r).any fun y => y.task == some t.id && y.core == m)
    || (!t.ended.contains m && !(e.storing && (e.syncQueued || !s.seqRoom m t)) && e.feedAhead t)

/-- Feeds of a task that an `mx.store` of it waits for (R288): those of all its members. -/
def State.feedsBefore (s : State) (c : EngCmd) : Bool :=
  match c.task.bind s.task? with
  | none => false
  | some (_, t) => t.cores.any fun m => s.feedAt t m

/-- `mx.load` performed (R304), or its fault, or it waits. -/
def State.loadTile (s : State) (loc : Nat) (c : EngCmd) : State :=
  s.tileReady loc c 2 fun s =>
    let d := locDie loc
    let rows := c.rows (s.core loc).engine.gang
    let sz := fmtSize (patOfmt c.pcEnt)
    let (fs, k) := s.unitRanges d loc { acc := .read, size := sz, matrix := true } (rowRanges rows sz)
    if k.stall then s.engStalls loc c (rowRanges rows sz)
    else match worst k.hits with
      | some (code, _, va, pa) => k.s.engMem loc c 2 code va pa
      | none => match k.s.unitReadAll d fs with
        | none => s
        | some (data, s1) => (s1.modEngine loc fun e => e.loadTile c rows data).engRetire loc c

/-- Frames that are another die's: the store is performed there at package scope (R308). -/
def peerParts (d : Nat) (f : Frag) : Bool :=
  match hbmDie f.pa with
  | some h => h != d
  | none => false

/-- The bytes of each part of a row. -/
def rowParts (fs : List Frag) (bs : List Byte) : List (Frag × List Byte) :=
  fs.map fun f => (f, (bs.drop f.off).take f.size)

/-- The writes of an `mx.store`, all or none (R239). -/
def State.putTile (s : State) (loc : Nat) (c : EngCmd) (w : List (Frag × List Byte)) (osat : List Nat) : State :=
  let d := locDie loc
  match s.unitPuts d w with
  | .wait _ => s.unitDup (w.map fun x => x.1)
  | .ok s1 => (s1.modEngine loc fun e => osat.foldl (fun e k => e.mark k stOSAT) e).engRetire loc c

/-- `mx.store` performed (R304, R307, R308), or its fault, or it waits. -/
def State.storeTile (s : State) (loc : Nat) (c : EngCmd) (f : MxStoreF) : State :=
  s.tileReady loc c 3 fun s =>
    let d := locDie loc
    let e := (s.core loc).engine
    let rows := c.rows e.gang
    let sz := fmtSize (patOfmt c.pcEnt)
    let add := f.epi == 3
    let (fs, k) := s.unitRanges d loc
      { acc := if add then .readWrite else .write, write := true, noWs := add, size := sz, matrix := true }
      (rowRanges rows sz)
    if s.feedsBefore c then s
    else if k.stall then s.engStalls loc c (rowRanges rows sz)
    else match worst (k.hits ++ twicePart k.frags) with
      | some (code, _, va, pa) => k.s.engMem loc c 3 code va pa
      | none => match (if add then k.s.unitReadAll d fs else some (rows.map fun _ => [], k.s)) with
        | none => s
        | some (old, s1) =>
          let out := (rows.zip old).map fun x => e.storeRow c f.epi.toNat x.1 x.2
          match s1.engCheck loc with
          | (some w, s2) => s2.engData loc c 3 .recast c.blocks (fun s => s.engRetire loc c) (BitVec.ofNat 64 w)
          | (none, s2) =>
            s2.putTile loc c ((fs.zip out).flatMap fun x => rowParts x.1 x.2.1) (out.flatMap fun x => x.2)

/-- ENGINE_COMMAND_RETIRE (R301, R303, R304, R307, R310): the head command other than a product is performed
and retires; a product retires once its K-groups are done. -/
def State.engineRetire (s : State) (loc : Nat) : State :=
  let e := (s.core loc).engine
  match e.queue with
  | [] => s
  | c :: _ =>
    if e.halted || c.party.isSome then s
    else match c.instr with
      | .mxZero f => s.zeroTile loc c f
      | .mxLoad _ => s.loadTile loc c
      | .mxStore f => s.storeTile loc c f
      | .mxGang _ => (s.modEngine loc fun e => { e with gang := c.gang }).engRetire loc c
      | .mxSync _ => (s.modEngine loc Engine.clearSync).engRetire loc c
      | .mxMma f | .mxSmma f => if kCount f.k ≤ c.done then s.engRetire loc c else s
      | _ => s

/-- ENGINE_COMMAND_RETIRE (R301). -/
def execEngineCommandRetire (s : State) : Out := s.onEvent fun e s => match e with
  | .engineCommandRetire loc => s.engineRetire loc
  | _ => s

end Sys2Proof.Machine
end

