-- ==== Sys2Proof/Machine/Tiles.lean ====
section
/-! DEFINITION. Tile tasks and their scheduler (R328 to R333), the sequencer (R315, R316), suspension of
engines (R314). -/

namespace Sys2Proof.Machine

/-! ### Fields of a task record (R328) -/

/-- SG of a task (R314). -/
def Task.sg (t : Task) : Nat := t.at_ 4 1 % 4
/-- GH of a task. -/
def Task.gh (t : Task) : Nat := t.at_ 4 1 / 16 % 4 + 1
/-- GW of a task. -/
def Task.gw (t : Task) : Nat := t.at_ 4 1 / 64 + 1
/-- KSTART. -/
def Task.kStart (t : Task) : Nat := t.at_ 8 4

/-- Member number `k` of a gang as its GANG register (R297, R332). -/
def Task.gangOf (t : Task) (k : Nat) : BitVec 8 :=
  BitVec.ofNat 8 (k % t.gh + 4 * (k / t.gh) + 16 * (t.gh - 1) + 64 * (t.gw - 1))

/-- Core of a gang's member `k` (R332): the task's cluster is `ck`. -/
def Task.memberCore (t : Task) (ck k : Nat) : Nat :=
  256 * (ck / 32) + 4 * ((ck % 32 + k / t.gh) % 32) + k % t.gh

/-! ### The tile scheduler (R331, R332) -/

/-- A wait gate is satisfied (R184): `off` holds the gate plus 1. -/
def State.gateMet (s : State) (t : Task) (off voff : Nat) : Bool :=
  t.at_ off 2 == 0 || decide (t.at_ voff 4 ≤ (s.gate t.die (t.at_ off 2 - 1)).toNat)

/-- A task is ready (R331). -/
def State.taskReady (s : State) (t : Task) : Bool :=
  t.cores.isEmpty && !t.failed && t.party.isNone
    && (t.relaunch || (s.gateMet t 0x18 0x1C && s.gateMet t 0x1A 0x20))

/-- A core is kept for a gang other than task `id` (R332). -/
def State.keptFor (s : State) (id loc : Nat) : Bool :=
  s.clusters.any fun c => match c.2.gangRes with
    | some g => g != id && (match s.task? g with
      | some (_, x) => x.cores.isEmpty && State.engineFree.gangMember c.1 x loc
      | none => false)
    | none => false

/-- An engine can take a task. -/
def State.engineFor (s : State) (id loc : Nat) : Bool :=
  (s.core loc).engine.owner == .free && !s.keptFor id loc

/-- Where a task can be placed now (R331, R332): its cores by member number. -/
def State.place (s : State) (ck : Nat) (t : Task) : Option (List Nat) :=
  if t.gh * t.gw == 1 then
    (([0, 1, 2, 3].map (clusterLoc ck)).find? fun l => s.engineFor t.id l).map fun l => [l]
  else
    let ls := (List.range (t.gh * t.gw)).map fun k => t.memberCore ck k
    if ls.all fun l => s.engineFor t.id l && !s.seqLoading (locCluster l) then some ls else none

/-- Feeds put before those of a ladle's commands that have not started (R314, R334). -/
def feedsFirst (back : List LadleCmd) : List LadleCmd → List LadleCmd
  | [] => back
  | x :: r => if x.started then x :: (back ++ r) else back ++ x :: r

/-- The K-groups to be fed again are commands of their own (R338): a name that a later one bears is replaced. -/
def State.renamed (s : State) : List LadleCmd → List LadleCmd × State
  | [] => ([], s)
  | x :: r =>
    let (l, s1) := s.renamed r
    if l.any fun y => y.id == x.id then
      let (id, s2) := s1.newId
      ({ x with id } :: l, s2)
    else (x :: l, s1)

/-- What a resumed engine's FIFOs held is fed again by the ladle of its core (R314). -/
def State.refeed (s : State) (loc : Nat) (l : List LadleCmd) : State :=
  let (back, s1) := s.renamed (l.map fun x => { x with core := loc })
  s1.modLadle (locCluster loc) (locCore loc) (feedsFirst back)

/-- The engine of a task's member at its start (R315, R331, R332): claimed, or restored from its image
(R314). -/
def State.startEngine (s : State) (t : Task) (k loc : Nat) : State :=
  match (t.images.find? fun x => x.1 == k) with
  | some (_, img) =>
    (s.modEngine loc fun e =>
      { img with table := e.table, owner := .task t.id, suspend := false, halted := false, refeeds := [] }).refeed
        loc img.refeeds
  | none => s.modEngine loc fun e =>
      { e.release with owner := .task t.id, gang := t.gangOf k, seqS := t.at_ 3 1 % 64,
                       seqKC := t.kStart, seqCBC := 0 }

/-- A task started on its cores. -/
def State.startTask (s : State) (t : Task) (ls : List Nat) : State :=
  let s1 := ls.zipIdx.foldl (fun s x => s.startEngine t x.2 x.1) s
  let s2 := s1.modTask t.id fun t => { t with cores := ls, ended := [], suspended := false, images := [] }
  { s2 with clusters := Tab.mapV s2.clusters fun _ c =>
      if c.gangRes == some t.id then { c with gangRes := none } else c }

/-- TASK_START (R331, R332): the oldest ready task that can be placed starts. -/
def State.taskStart (s : State) (ck : Nat) : State :=
  if s.seqLoading ck then s
  else
    match (s.cluster ck).tasks.findSome? fun t =>
      if s.taskReady t then (s.place ck t).map fun ls => (t, ls) else none with
    | some (t, ls) => s.startTask t ls
    | none => s

/-- TASK_START (R331). -/
def execTaskStart (s : State) : Out := s.onEvent fun e s => match e with
  | .taskStart c => s.taskStart c
  | _ => s

/-- The oldest ready task of a cluster. -/
def State.oldestReady (s : State) (ck : Nat) : Option Task := (s.cluster ck).tasks.find? s.taskReady

/-- The oldest ready task of each cluster of a die noted at a tick (R332). -/
def State.noteOldest (s : State) (d : Nat) : State :=
  { s with clusters := Tab.mapV s.clusters fun ck c =>
      if ck / 32 != d then c
      else match s.oldestReady ck with
        | none => { c with oldest := none }
        | some t => match c.oldest with
          | some (i, _) => if i == t.id then c else { c with oldest := some (t.id, (s.die d).ticks) }
          | none => { c with oldest := some (t.id, (s.die d).ticks) } }

/-- GANG_RESERVE (R332): a gang task that has been the oldest ready one for 800 ticks keeps its members. -/
def State.gangReserve (s : State) (ck : Nat) : State :=
  match s.oldestReady ck, (s.cluster ck).oldest with
  | some t, some (i, since) =>
    if t.id == i && t.gh * t.gw != 1 && since + 800 ≤ (s.die (ck / 32)).ticks then
      s.modCluster ck fun c => { c with gangRes := some t.id }
    else s
  | _, _ => s

/-- GANG_RESERVE (R332). -/
def execGangReserve (s : State) : Out := s.onEvent fun e s => match e with
  | .gangReserve c => s.gangReserve c
  | _ => s

/-- TASK_END (R184, R333): every member has ended; the completion gate rises, then the engines are free. -/
def State.taskEnd (s : State) (id : Nat) : State :=
  match s.task? id with
  | none => s
  | some (_, t) =>
    if t.cores.isEmpty || !(t.cores.all fun l => t.ended.contains l) then s
    else
      let g := t.at_ 6 2
      let s1 := if g == 0 then s else s.setGate t.die (g - 1) (gateSum (s.gate t.die (g - 1)) 1)
      (s1.freeEngines id).dropTask id

/-- TASK_END (R333). -/
def execTaskEnd (s : State) : Out := s.onEvent fun e s => match e with
  | .taskEnd id => s.taskEnd id
  | _ => s

/-! ### The sequencer (R222, R315) -/

/-- The engine form of a state's command (R222). -/
def seqInstr (t : Task) (cmd cb k epi : Nat) : Instr :=
  let b := BitVec.ofNat 2 cb
  let p := fun off => BitVec.ofNat 8 (t.at_ off 1)
  let sg := BitVec.ofNat 2 t.sg
  let m : MxMmaF := { pa := p 0, pb := p 1, pc := p 2, sg, sb := 0, row0 := 0, cb := b, k := BitVec.ofNat 12 k }
  match cmd with
  | 1 => .mxZero { sb := 0, row0 := 0, cb := b }
  | 2 => .mxLoad { a := 120, pc := p 2, sg, sb := 0, row0 := 0, cb := b }
  | 3 => .mxMma m
  | 4 => .mxSmma m
  | 5 => .mxStore { a := 120, pc := p 2, sg, sb := 0, row0 := 0, cb := b, epi := BitVec.ofNat 4 epi }
  | _ => .mxSync { d := 120, a := 120 }

/-- A command of a task queued at its member's engine. -/
def State.seqCommand (s : State) (loc : Nat) (t : Task) (cmd cb k epi : Nat) : State :=
  let (id, s1) := s.newId
  s1.engPush loc
    { id, instr := seqInstr t cmd cb k epi, tile := BitVec.ofNat 64 (t.at_ 0x10 8), wg := t.wg, gid := t.gid,
      region := t.region, pc := t.pc, tids := t.tids, task := some t.id, pa := t.pa, pb := t.pb,
      pcEnt := t.pcEnt, k0 := (s.core loc).engine.seqKC }

/-- A feed of a task queued at the ladle of its member's core (R334, R338). -/
def State.seqFeed (s : State) (loc : Nat) (t : Task) (fifo : Bool) (cb k : Nat) : State :=
  let (id, s1) := s.newId
  let tile := if fifo then t.at_ 0x12 2 else t.at_ 0x10 2
  s1.modLadle (locCluster loc) (locCore loc) fun q => q ++
    [{ id, feed := true, a := [BitVec.ofNat 32 (tile + cb * 2 ^ 16), BitVec.ofNat 32 (t.at_ 0x14 4)],
       b := [BitVec.ofNat 32 (s.core loc).engine.seqKC, BitVec.ofNat 32 k],
       pat := t.at_ (if fifo then 1 else 0) 1, fifo, entry := if fifo then t.pb else t.pa, core := loc,
       region := t.region, wg := t.wg, gid := t.gid, pc := t.pc, tids := t.tids, task := some t.id }]

/-- Feeds of a task at a core are queued or active. -/
def State.feedsLeft (s : State) (loc id : Nat) : Bool :=
  (Tab.getD (s.cluster (locCluster loc)).ladles (locCore loc) []).any fun x => x.task == some id && x.core == loc

/-- COND of a state (R315, R316), read as it stands. -/
def State.seqCond (s : State) (loc : Nat) (t : Task) (cond : Nat) (wrapped : Bool) : Bool :=
  let e := (s.core loc).engine
  match cond with
  | 1 => decide (t.kEnd ≤ e.seqKC)
  | 2 => wrapped
  | 3 => e.fifoA.isEmpty
  | 4 => e.fullB t
  | 5 => e.queue.isEmpty
  | 6 => !t.pa.isEmpty && decide ((s.die t.die).price (stepPrice t.pa) ≤ (s.core loc).purse)
  | _ => true

/-- The counters and the next state after a state's command (R315). -/
def State.seqNext (s : State) (loc : Nat) (t : Task) (w : Nat) : State :=
  let e := (s.core loc).engine
  let kc0 := if stCtr w 40 then t.kStart else e.seqKC
  let kc := if stCtr w 38 then kc0 + stKcnt w else kc0
  let cbc := if stCtr w 39 then (e.seqCBC + 1) % 3 else e.seqCBC
  let s1 := s.modEngine loc fun e => { e with seqKC := kc, seqCBC := cbc }
  let c := s1.seqCond loc t (stCond w) (stCtr w 39 && cbc == 0)
  s1.modEngine loc fun e => { e with seqS := if c then stNext1 w else stNext0 w }

/-- FIFO of a task at CMD 9 (R299), with no command of it in the queue: an overflow. -/
def State.seqOverflow (s : State) (loc : Nat) (t : Task) : State :=
  s.engData loc
    { id := 0, instr := .mxSync { d := 120, a := 120 }, wg := t.wg, gid := t.gid, region := t.region,
      pc := t.pc, task := some t.id, k0 := (s.core loc).engine.seqKC } 4 .fifo [] id

/-- CMD 9 (R299, R315, R333): underflow, overflow, the member's end, or a wait. -/
def State.seqDone (s : State) (loc : Nat) (t : Task) : State :=
  let e := (s.core loc).engine
  let feeds := s.feedsLeft loc t.id
  match e.queue with
  | c :: _ =>
    let dry := (e.fifoA.isEmpty || e.fifoB.isEmpty) && (match c.product? with
      | some (f, _) => decide (c.done < kCount f.k)
      | none => false)
    if dry && !feeds then s.engData loc c 4 .fifo [] id else s
  | [] =>
    if !e.fifoA.isEmpty || !e.fifoB.isEmpty then s.seqOverflow loc t
    else if feeds then s
    else s.modTask t.id fun t => { t with ended := t.ended ++ [loc] }

/-- ONE STATE of a task's sequencer (R315): it waits while the state's command cannot be queued. -/
def State.seqStep (s : State) (loc : Nat) (t : Task) : State :=
  let e := (s.core loc).engine
  let w := e.stateWord
  let cmd := stCmd w
  let cb := if stCbsel w == 0 then e.seqCBC else stCbsel w - 1
  let k := e.seqCount t
  if cmd == 9 then s.seqDone loc t
  else if e.seqIdle t then s.seqNext loc t w
  else if !s.seqRoom loc t then s
  else if cmd == 6 || cmd == 7 then (s.seqFeed loc t (cmd == 7) cb k).seqNext loc t w
  else (s.seqCommand loc t cmd cb k (stEpi w)).seqNext loc t w

/-- SEQUENCER_STEP (R315). -/
def State.sequencerStep (s : State) (loc : Nat) : State :=
  let e := (s.core loc).engine
  match e.owner with
  | .task id => match s.task? id with
    | some (_, t) => if t.ended.contains loc || e.syncQueued then s else s.seqStep loc t
    | none => s
  | _ => s

/-- SEQUENCER_STEP (R315). -/
def execSequencerStep (s : State) : Out := s.onEvent fun e s => match e with
  | .sequencerStep loc => s.sequencerStep loc
  | _ => s

/-! ### Suspension (R314, R352) -/

/-- SG of a direct command (R86, R314). -/
def EngCmd.sg (c : EngCmd) : Nat :=
  match c.instr with
  | .mxMma f | .mxSmma f => f.sg.toNat
  | .mxLoad f => f.sg.toNat
  | .mxStore f => f.sg.toNat
  | _ => 0

/-- A command has begun. -/
def EngCmd.begun (c : EngCmd) : Bool := c.started || c.done != 0 || c.paid != 0 || c.party.isSome

/-- A workgroup's engine may stop now (R314): between commands, or after a K-group of a product of SG 1. -/
def Engine.mayHalt (e : Engine) : Bool :=
  match e.queue with
  | [] => true
  | c :: _ => !c.begun || (c.product?.isSome && c.sg == 1 && c.paid == 0 && c.party.isNone)

/-- A task's engine may stop now (R314). -/
def Engine.mayPause (e : Engine) (sg : Nat) : Bool :=
  match sg with
  | 1 => (match e.queue with
    | [] => true
    | c :: _ => c.product?.isSome && c.paid == 0 && c.party.isNone)
  | 2 => e.queue.isEmpty && stCtr e.stateWord 39
  | 3 => true
  | _ => false

/-- What is left of a feed: it is fed again from its position, and waits on no record. -/
def LadleCmd.rest (x : LadleCmd) : LadleCmd :=
  { x with b := [x.b.getD 0 0 + BitVec.ofNat 32 x.done, x.b.getD 1 0 - BitVec.ofNat 32 x.done], done := 0,
           started := false, party := none, stalledOn := [] }

/-- Feeds to run again when a suspended engine resumes (R314): those of its unconsumed entries, then those
still in the ladle's queue that `mine` picks. -/
def State.refeedsOf (s : State) (loc : Nat) (mine : LadleCmd → Bool) : List LadleCmd :=
  let e := (s.core loc).engine
  (e.fifoA ++ e.fifoB).map (fun x => x.feed)
    ++ ((Tab.getD (s.cluster (locCluster loc)).ladles (locCore loc) []).filter fun x =>
      x.feed && x.core == loc && mine x).map LadleCmd.rest

/-- The image of an engine (R314): its FIFOs are empty, what they held is fed again. -/
def State.imageOf (s : State) (loc : Nat) (mine : LadleCmd → Bool) : Engine :=
  { (s.core loc).engine with fifoA := [], fifoB := [], refeeds := s.refeedsOf loc mine }

/-- A task suspended on all its engines (R314, R352): the images go to the die's pool, the task keeps its
place by age. -/
def State.pauseTask (s : State) (t : Task) : State :=
  let imgs := t.cores.zipIdx.map fun x => (x.2, s.imageOf x.1 fun y => y.task == some t.id)
  (s.stopTask t.id).modTask t.id fun t =>
    { t with cores := [], suspended := true, relaunch := true, images := imgs }

/-- ENGINE_SUSPEND (R314): at a point that the split granule allows; a member of a gang that has ended has none to
reach, and ends again when the gang resumes. -/
def State.engineSuspend (s : State) (loc : Nat) : State :=
  let e := (s.core loc).engine
  if !e.suspend then s
  else match e.owner with
    | .free => s.modEngine loc fun e => { e with suspend := false }
    | .wg _ => if e.mayHalt then s.modEngine loc fun e => { e with suspend := false, halted := true } else s
    | .task id => match s.task? id with
      | none => s
      | some (_, t) =>
        if !(t.cores.all fun l => t.ended.contains l || (s.core l).engine.mayPause t.sg) then s
        else if t.sg == 3 then
          (s.stopTask id).modTask id fun t => { t with cores := [], ended := [], relaunch := true }
        else s.pauseTask t

/-- ENGINE_SUSPEND (R314). -/
def execEngineSuspend (s : State) : Out := s.onEvent fun e s => match e with
  | .engineSuspend loc => s.engineSuspend loc
  | _ => s

end Sys2Proof.Machine
end

