-- ==== Sys2Proof/Machine/Ladle.lean ====
section
/-! DEFINITION. Ladles (R334 to R338) and runners (R339, R340, R366). -/

namespace Sys2Proof.Machine

/-! ### Faults of ladle commands (R336) -/

/-- The record of a ladle command (R343, R345, R346). -/
def State.ladleTrap (s : State) (x : LadleCmd) (code : FCode) (va pa : Nat) (info : Bool) : TrapInfo :=
  let who := s.issuer x.wg x.gid
  { code, src := if x.task.isSome then 2 else 4, info, region := some x.region, loc := x.core, pc := x.pc,
    vaddr := BitVec.ofNat 64 va, paddr := pa, windex := who.1, gindex := who.2, obj := s.taskAddr x.task,
    detail := if x.task.isSome then
      taskDetail ((x.b.getD 0 0).toNat + x.done) (if x.fifo then 1 else 0) (s.core x.core).engine.gang else 0 }

/-- A MEMORY FAULT of a ladle command (R312, R336): STALL for a direct command, the task's mode for a feed
of a task. -/
def State.ladleMem (s : State) (ck l : Nat) (x : LadleCmd) (code : FCode) (va pa : Nat) : State :=
  let d := ck / 32
  let s0 := s.logUnit d 3 x.core code pa
  let t := s0.ladleTrap x code va pa false
  let (id, s1) := s0.newId
  let stall := (s1.modLadleCmd ck l x.id fun y => { y with party := some id, stalledOn := [] }).writeTrap d id t
    (some (.ladle ck l x.id))
  match x.task with
  | none => stall
  | some k => match s1.task? k with
    | some (_, y) =>
      if s1.taskMode y == 2 then stall else (s1.killTask k id).writeTrap d id t (some (.task k))
    | none => s1

/-- A ladle command is complete (R177, R334). -/
def State.ladleEnd (s : State) (ck l : Nat) (x : LadleCmd) : State :=
  (s.modLadle ck l fun q => q.filter fun y => y.id != x.id).sbComplete x.gid x.sb x.id

/-! ### Copies (R335) -/

/-- Length of a copy. -/
def LadleCmd.len (x : LadleCmd) : Nat := (x.b.getD 0 0).toNat
/-- Control word of a copy. -/
def LadleCmd.ctl (x : LadleCmd) : Nat := (x.b.getD 1 0).toNat
/-- DV: a copy-done word. -/
def LadleCmd.dv (x : LadleCmd) : Bool := x.ctl / 16 % 2 == 1

/-- A part of a scratchpad range. -/
def spadPart (s : State) (ck off : Nat) : Checked :=
  { frags := [{ off := 0, size := 16, va := 0, pa := off, cl := some ck }], s }

/-- The checks of the next part at one end of a copy: `scr` a scratchpad end at address `a`. -/
def State.copyEnd (s : State) (ck : Nat) (x : LadleCmd) (scr write : Bool) (a : Nat) : Checked :=
  if scr then spadPart s ck (a + x.done)
  else s.unitPart (ck / 32) x.core { acc := if write then .write else .read, write } false (0, 16, a + x.done)

/-- A part read by a ladle. -/
def State.ladleRead (s : State) (d : Nat) (f : Frag) : Option (List Byte × State) :=
  match f.cl with
  | some c => some (Memory.readN (s.cluster c).spad f.pa f.size, s)
  | none => s.unitRead d f

/-- A part written by a ladle. -/
def State.ladlePut (s : State) (d : Nat) (f : Frag) (bs : List Byte) : Put :=
  match f.cl with
  | some c => .ok (s.modCluster c fun y => { y with spad := Memory.writeN y.spad f.pa bs })
  | none => s.unitPut d f bs

/-- A part of a copy done; the last one of a copy without a done word completes it. -/
def State.partDone (s : State) (ck l : Nat) (x : LadleCmd) : State :=
  if x.len ≤ x.done + 16 && !x.dv then s.ladleEnd ck l x
  else s.modLadleCmd ck l x.id fun y => { y with done := y.done + 16, stalledOn := [] }

/-- A ladle command stalls on frames in transition (R213, R280). -/
def State.ladleStalls (s : State) (ck l : Nat) (x : LadleCmd) (rs : List (Nat × Nat)) : State :=
  s.modLadleCmd ck l x.id fun y => { y with stalledOn := s.unitTrans (ck / 32) x.core rs }

/-- THE NEXT PART of a copy (R335): source read, destination written, in one step. The rule states no order of the parts:
they are moved by ascending address, which is the model's choice (assumption log 67). -/
def State.copyPart (s : State) (ck l : Nat) (x : LadleCmd) : State :=
  let d := ck / 32
  let c := s.copyEnd ck x (x.ctl / 4 % 2 == 1) false (pairNat (x.a.getD 0 0) (x.a.getD 1 0))
  let w := c.s.copyEnd ck x (x.ctl / 8 % 2 == 1) true (pairNat (x.a.getD 2 0) (x.a.getD 3 0))
  if c.stall || w.stall then
    s.ladleStalls ck l x ((if x.ctl / 4 % 2 == 1 then [] else [(pairNat (x.a.getD 0 0) (x.a.getD 1 0) + x.done, 16)])
      ++ if x.ctl / 8 % 2 == 1 then [] else [(pairNat (x.a.getD 2 0) (x.a.getD 3 0) + x.done, 16)])
  else match worst (c.hits ++ w.hits) with
    | some (code, _, va, pa) => w.s.ladleMem ck l x code va pa
    | none => match c.frags, w.frags with
      | f :: _, g :: _ =>
        (match w.s.ladleRead d f with
          | none => s
          | some (bs, s1) => match s1.ladlePut d g bs with
            | .ok s2 => s2.partDone ck l x
            | .wait _ => s.unitDup [g])
      | _, _ => s

/-- The command that a ladle works on (R334). -/
def State.ladleHead (s : State) (ck l : Nat) : Option LadleCmd := (Tab.getD (s.cluster ck).ladles l []).head?

/-- LADLE_COMMAND_START (R334, R335): the oldest command starts; a copy moves its next part. -/
def State.ladleStart (s : State) (ck l : Nat) : State :=
  match s.ladleHead ck l with
  | none => s
  | some x =>
    if x.party.isSome then s
    else
      let s1 := if x.started then s else s.modLadleCmd ck l x.id fun y => { y with started := true }
      if x.feed then s1
      else if x.len ≤ x.done then (if x.dv then s1 else s1.ladleEnd ck l x)
      else s1.copyPart ck l x

/-- LADLE_COMMAND_START (R334). -/
def execLadleCommandStart (s : State) : Out := s.onEvent fun e s => match e with
  | .ladleCommandStart c l => s.ladleStart c l
  | _ => s

/-- COPY_DONE_WRITE (R275, R335): after every payload write, the done word; the command is complete. -/
def State.copyDone (s : State) (ck l : Nat) : State :=
  match s.ladleHead ck l with
  | none => s
  | some x =>
    if x.feed || !x.started || !x.dv || x.party.isSome || x.done < x.len then s
    else
      let off := (x.b.getD 2 0).toNat
      (s.modCluster ck fun c => { c with spad := Memory.writeN c.spad off (leBytes 4 (x.b.getD 3 0).toNat) }).ladleEnd
        ck l x

/-- COPY_DONE_WRITE (R335). -/
def execCopyDoneWrite (s : State) : Out := s.onEvent fun e s => match e with
  | .copyDoneWrite c l => s.copyDone c l
  | _ => s

/-! ### Feeds (R338) -/

/-- Tensor row of line `i` of an entry. -/
def LadleCmd.rowOf (x : LadleCmd) (gang : BitVec 8) (i : Nat) : Nat :=
  let t := (x.a.getD 0 0).toNat % 2 ^ 16
  let cb := (x.a.getD 0 0).toNat / 2 ^ 16 % 4
  let g := gang.toNat
  if x.fifo then ((t * (g / 64 + 1) + g / 4 % 4) * 3 + cb) * patRows x.entry + i
  else (t * (g / 16 % 4 + 1) + g % 4) * patRows x.entry + i

/-- Dimension 2 and 3 indices of a feed. -/
def LadleCmd.i2 (x : LadleCmd) : Nat := (x.a.getD 1 0).toNat % 2 ^ 16
/-- Dimension 3 index. -/
def LadleCmd.i3 (x : LadleCmd) : Nat := (x.a.getD 1 0).toNat / 2 ^ 16

/-- SPN of a feed's pattern: nonzero for rows and columns in stored form (R338). -/
def LadleCmd.spn (x : LadleCmd) : Nat := patSpn x.entry

/-- Lines of an entry: 128 rows of A, 64 columns of B. -/
def LadleCmd.lines (x : LadleCmd) : Nat := if x.fifo then 64 else 128

/-- Line `i` holds a row of the tensor. -/
def LadleCmd.holds (x : LadleCmd) (gang : BitVec 8) (i : Nat) : Bool :=
  decide (i < patRows x.entry) && decide (x.rowOf gang i < patExt x.entry 1) && patInside x.entry x.i2 x.i3

/-- Bytes of line `i` of K-group `g`: address and length (R338). -/
def LadleCmd.dataRange (x : LadleCmd) (gang : BitVec 8) (g i : Nat) : Nat × Nat :=
  let p := x.entry
  let m := x.rowOf gang i
  let sz := fmtSize (patFmt p)
  if !x.holds gang i then (0, 0)
  else if x.spn == 0 then (patAddr p m (32 * g) sz x.i2 x.i3, min 32 (patExt p 0 - 32 * g) * sz)
  else (patAddr p m g (4 + spnSlots x.spn * sz) x.i2 x.i3, 4 + spnSlots x.spn * sz)

/-- The scale byte of line `i` of K-group `g` (R63, R218). -/
def LadleCmd.scaleRange (x : LadleCmd) (gang : BitVec 8) (g i : Nat) : Nat × Nat :=
  let p := x.entry
  if patSfmt p == 0 || !x.holds gang i then (0, 0)
  else ((leAt p 8 8 + x.rowOf gang i * ((patExt p 0 + 31) / 32) + g) % 2 ^ 64, 1)

/-- A dense line: elements whose k reaches EXT0 are zero. -/
def denseLine (fmt : Nat) (bs : List Byte) : List Nat :=
  (List.range 32).map fun k => leAt bs (k * fmtSize fmt) (fmtSize fmt)

/-- A line from its bytes and its scale byte (R65, R66, R338). -/
def LadleCmd.line (x : LadleCmd) (g : Nat) (bs sc : List Byte) : FifoLine :=
  let fmt := patFmt x.entry
  let sz := fmtSize fmt
  let nel := patExt x.entry 0 - 32 * g
  let scale := (BitVec.ofNat 8 (leNat sc)).toInt
  if x.spn == 0 then
    let l := denseLine fmt bs
    { elems := l, scale, summary := x.fifo && nonFinite fmt l }
  else
    let mask : Word := BitVec.ofNat 32 (leAt bs 0 4)
    let at_ := ranksOf mask
    { elems := (List.range (spnSlots x.spn)).map fun k =>
        if at_.getD k 32 < nel then leAt bs (4 + k * sz) sz else 0,
      smask := some mask, scale, summary := x.fifo && nonFinite fmt ((List.range (spnSlots x.spn)).map fun k =>
        if at_.getD k 32 < nel then leAt bs (4 + k * sz) sz else 0) }

/-- The feed cut to one K-group (R314). -/
def LadleCmd.one (x : LadleCmd) (g : Nat) : LadleCmd :=
  { x with b := [BitVec.ofNat 32 g, 1], done := 0, sb := 0, started := false, party := none }

/-- The engine that a feed targets belongs to the feed's workgroup or task (assumption log 37). -/
def LadleCmd.owned (x : LadleCmd) (e : Engine) : Bool :=
  match x.task with
  | some t => e.owner == .task t
  | none => e.owner == .wg x.wg

/-- An entry put into its FIFO. -/
def Engine.pushEntry (e : Engine) (fifo : Bool) (x : FifoEntry) : Engine :=
  if fifo then { e with fifoB := e.fifoB ++ [x] } else { e with fifoA := e.fifoA ++ [x] }

/-- A K-group of a feed done; the last one completes it. -/
def State.feedDone (s : State) (ck l : Nat) (x : LadleCmd) : State :=
  if (x.b.getD 1 0).toNat ≤ x.done + 1 then s.ladleEnd ck l x
  else s.modLadleCmd ck l x.id fun y => { y with done := y.done + 1, stalledOn := [] }

/-- THE NEXT ENTRY of a feed (R338): read, and pushed when it has room. -/
def State.feedEntry (s : State) (ck l : Nat) (x : LadleCmd) : State :=
  let d := ck / 32
  let e := (s.core x.core).engine
  let g := (x.b.getD 0 0).toNat + x.done
  let fmt := patFmt x.entry
  let have_ := fifoBytes x.fifo (if x.fifo then e.fifoB else e.fifoA)
  if have_ + entryBytes x.fifo fmt x.spn > 65536 then s
  else
    let ix := List.range x.lines
    let (fs, c) := s.unitRanges d x.core { acc := .read, size := fmtSize fmt, matrix := x.task.isSome } (ix.map (x.dataRange e.gang g))
    let (ss, k) := c.s.unitRanges d x.core { acc := .read, matrix := x.task.isSome } (ix.map (x.scaleRange e.gang g))
    if c.stall || k.stall then
      s.ladleStalls ck l x (ix.map (x.dataRange e.gang g) ++ ix.map (x.scaleRange e.gang g))
    else match worst (c.hits ++ k.hits) with
      | some (code, _, va, pa) => k.s.ladleMem ck l x code va pa
      | none => match k.s.unitReadAll d fs with
        | none => s
        | some (data, s1) => match s1.unitReadAll d ss with
          | none => s
          | some (scs, s2) =>
            let ls := (data.zip scs).map fun y => x.line g y.1 y.2
            let ent : FifoEntry := { pat := x.pat, fmt, spn := x.spn, feed := x.one g, lines := ls }
            (s2.modEngine x.core fun e => e.pushEntry x.fifo ent).feedDone ck l x

/-- An entry of a feed whose pattern is invalid: it has no lines; the feed raises no PAT, the command that consumes the
entry does (R220, R338; assumption log 32). -/
def State.feedInvalid (s : State) (ck l : Nat) (x : LadleCmd) : State :=
  if !s.feedCanPush x then s
  else
    let g := (x.b.getD 0 0).toNat + x.done
    (s.modEngine x.core fun e => e.pushEntry x.fifo { pat := x.pat, fmt := 0, spn := 0, feed := x.one g, lines := [] }).feedDone
      ck l x

/-- LADLE_FEED_PUSH (R338). -/
def State.feedPush (s : State) (ck l : Nat) : State :=
  match s.ladleHead ck l with
  | none => s
  | some x =>
    if !x.feed || !x.started || x.party.isSome then s
    else if !x.owned (s.core x.core).engine then s.feedDone ck l x
    else if x.entry.isEmpty then s.feedInvalid ck l x
    else s.feedEntry ck l x

/-- LADLE_FEED_PUSH (R338). -/
def execLadleFeedPush (s : State) : Out := s.onEvent fun e s => match e with
  | .ladleFeedPush c l => s.feedPush c l
  | _ => s

/-! ### Runners (R339, R340, R366) -/

/-- The queue of a runner command: its C-die, or 4 for the steward cores (R339). -/
def RunCmd.queue (c : RunCmd) : Nat := if c.die < 4 then c.die else 4

/-- RUNNER_COMMAND_START (R339): eight runners, four commands of one queue at once, in queue order; with
ORD only after the earlier ones of the queue. -/
def State.runStart (s : State) (x q : Nat) : State :=
  match Tab.getD (s.xdie x).queues q [] with
  | [] => s
  | c :: r =>
    let act := (s.xdie x).active
    let mine := act.filter fun y => y.queue == q
    if 8 ≤ act.length || 4 ≤ mine.length || (c.ctl.getLsbD 5 && !mine.isEmpty) then s
    else s.modXdie x fun d =>
      { d with queues := Tab.put d.queues q r, active := d.active ++ [{ c with started := true }] }

/-- RUNNER_COMMAND_START (R339). -/
def execRunnerCommandStart (s : State) : Out := s.onEvent fun e s => match e with
  | .runnerCommandStart x q => s.runStart x q
  | _ => s

/-- Kind of the source and of the destination (R340). -/
def RunCmd.sKind (c : RunCmd) : Nat := c.ctl.toNat % 4
/-- Kind of the destination. -/
def RunCmd.dKind (c : RunCmd) : Nat := c.ctl.toNat / 4 % 4

/-- PORT (R340). -/
def RunCmd.port (c : RunCmd) : Nat := c.ctl.toNat / 2 ^ 6 % 8

/-- The record of a runner command (R343, R345); the LOC of an X-die unit has no stated value (log 8). -/
def State.runTrap (s : State) (c : RunCmd) (code : FCode) (va pa : Nat) (info : Bool) : TrapInfo × State :=
  let who := s.issuer c.wg c.gid
  let (v, s1) := s.freeWord
  ({ code, src := 5, info, region := some c.region, loc := v.toNat % 1024, pc := c.pc,
     vaddr := BitVec.ofNat 64 va, paddr := pa, windex := who.1, gindex := who.2 }, s1)

/-- A record of a runner command written: to the die's queues, or to the steward ring of its X-die (R340,
R368). -/
def State.runRecord (s : State) (x : Nat) (c : RunCmd) (id : Nat) (t : TrapInfo) (party : Option Party) : State :=
  if c.die < 4 then s.writeTrap c.die id t party else s.stewardTrap x t

/-- A record of a steward core's command waits for room in the ring (R368). -/
def State.runHeld (s : State) (x : Nat) (c : RunCmd) : Bool := decide (4 ≤ c.die) && s.stewardFull x

/-- A MEMORY FAULT on the device side (R336, R340): the command stalls. -/
def State.runMem (s : State) (x : Nat) (c : RunCmd) (code : FCode) (va pa : Nat) : State :=
  let (t, s1) := (s.logUnit c.die 6 x code pa).runTrap c code va pa false
  let (id, s2) := s1.newId
  (s2.modRunCmd x c.id fun y => { y with party := some id, stalledOn := [] }).runRecord x c id t (some (.runner x c.id))

/-- A runner command is complete (R177, R340). -/
def State.runEnd (s : State) (x : Nat) (c : RunCmd) : State :=
  (s.modXdie x fun d => { d with active := d.active.filter fun y => y.id != c.id }).sbComplete c.gid c.sb c.id

/-- The parts of one end: device parts carry their fragment. -/
inductive RunPart where
  | dev (f : Frag)
  | host (a : Nat)
  | safe (a : Nat)
  /-- Port, peer table entry, offset in the peer's region (R366). -/
  | fabric (port : Nat) (peer : List Byte) (off : Nat)
  deriving DecidableEq, Repr

/-- The 32-byte peer table entry that a fabric address names: its index in bits 63:48, the table at FABBASE of the
command's die; a steward core's command takes C-die 0's (R366; assumption log 108). -/
def State.peerEntry (s : State) (d a : Nat) : List Byte :=
  s.readPaN ((s.die (if d < 4 then d else 0)).fabBase.toNat + 32 * (a / 2 ^ 48)) 32

/-- The end of a command of kind `k` at address `a`, `n` bytes long: its parts and the checks. -/
def State.runEnds (s : State) (x : Nat) (c : RunCmd) (k a n : Nat) (write : Bool) : List RunPart × Checked :=
  if k == 0 then
    let r := s.unitRange c.die (2 * stewardLoc + x) { acc := if write then .write else .read, write } a n
    (r.frags.map .dev, r)
  else
    ((List.range (n / 16)).map fun i => match k with
      | 1 => .host ((a + 16 * i) % 2 ^ 47)
      | 2 => .safe (a + 16 * i)
      | _ => .fabric c.port (s.peerEntry c.die a) ((a + 16 * i) % 2 ^ 48), { s })

/-- A part read; a scale-out peer is sent a read, and its bytes are open (R366; assumption log 8). -/
def State.runRead (s : State) (d : Nat) (p : RunPart) : Option (List Byte × State) :=
  match p with
  | .dev f => s.unitRead d f
  | .host a => some (Memory.readN s.hostMem a 16, s)
  | .safe a => some (Memory.readN s.safeTier a 16, s)
  | .fabric port peer off => some (({ s with fabric := s.fabric ++ [⟨port, peer, off, none⟩] } : State).freeBytes 16)

/-- A part written; a scale-out peer is sent a write (R366). -/
def State.runPut (s : State) (d : Nat) (p : RunPart) (bs : List Byte) : Put :=
  match p with
  | .dev f => s.unitPut d f bs
  | .host a => .ok { s with hostMem := Memory.writeN s.hostMem a bs }
  | .safe a => .ok { s with safeTier := Memory.writeN s.safeTier a bs }
  | .fabric port peer off => .ok { s with fabric := s.fabric ++ [⟨port, peer, off, some bs⟩] }

/-- Parts moved one after another; none: one of them must wait. -/
def State.runMove (s : State) (d : Nat) : List (RunPart × RunPart) → Option State
  | [] => some s
  | (p, q) :: r => match s.runRead d p with
    | none => none
    | some (bs, s1) => match s1.runPut d q bs with
      | .wait _ => none
      | .ok s2 => State.runMove s2 d r

/-- Device fragments of the parts. -/
def devParts (l : List RunPart) : List Frag :=
  l.filterMap fun p => match p with
    | .dev f => some f
    | _ => none

/-- AN ERROR RESPONSE at byte `n` ends the command (R340): the address is logged and recorded. -/
def State.runError (s : State) (x : Nat) (c : RunCmd) (n : Nat) : State :=
  let a := (if c.sKind != 0 then c.src.toNat else c.dst.toNat) + n
  let d := if c.die < 4 then c.die else 0
  let (t, s1) := (s.logViolation d a 1 6 x).runTrap c .viol 0 (a % 2 ^ 48) true
  let (id, s2) := s1.newId
  (s2.runEnd x c).runRecord x c id t none

/-- Bytes that move before the first error response: an error comes only from the host, a peer or the safe
tier (R340). -/
def RunCmd.moved (c : RunCmd) (errAt : Option Nat) : Option Nat :=
  match errAt with
  | some n => if (c.sKind != 0 || c.dKind != 0) && n < c.len then some (n / 16 * 16) else none
  | none => none

/-- RUNNER_COMMAND_COMPLETE (R340): the bytes move, all parts or none but those after an error response. -/
def State.runComplete (s : State) (x id : Nat) (errAt : Option Nat) : State :=
  match (s.xdie x).active.find? fun c => c.id == id with
  | none => s
  | some c =>
    if c.party.isSome then s
    else
      let n := (c.moved errAt).getD c.len
      let (ps, a) := s.runEnds x c c.sKind c.src.toNat n false
      let (qs, b) := a.s.runEnds x c c.dKind c.dst.toNat n true
      if a.stall || b.stall then
        let rs := (if c.sKind == 0 then [(c.src.toNat, n)] else []) ++ (if c.dKind == 0 then [(c.dst.toNat, n)] else [])
        s.modRunCmd x c.id fun y => { y with stalledOn := s.unitTrans c.die (2 * stewardLoc + x) rs }
      else match worst (a.hits ++ b.hits ++ twicePart b.frags) with
        | some (code, _, va, pa) => if s.runHeld x c then s else b.s.runMem x c code va pa
        | none => match b.s.runMove c.die (ps.zip qs) with
          | none => s.unitDup (devParts qs)
          | some s1 => match c.moved errAt with
            | some k => if s.runHeld x c then s else s1.runError x c k
            | none => s1.runEnd x c

/-- RUNNER_COMMAND_COMPLETE (R340). -/
def execRunnerCommandComplete (s : State) : Out := s.onEvent fun e s => match e with
  | .runnerCommandComplete x id err => s.runComplete x id err
  | _ => s

end Sys2Proof.Machine
end

