-- ==== Sys2Proof/Machine/Save.lean ====
section
/-! DEFINITION. Context save: `eret.save`, the save area and the saved workgroup (R172, R354, R355). -/

namespace Sys2Proof.Machine

/-! ### The save area (R354) -/

/-- The save area base that the CTX pair of a group names. -/
def Group.saveBase (g : Group) : DWord := g.ctx - 0x20000 - 0x14000 * BitVec.ofNat 64 g.gindex

/-- ALIGN of `eret.save` (R172, R354): CTX, or the area it names, or an area other than the first. -/
def saveAlign (g : Group) (w : Workgroup) : Bool :=
  g.ctx.toNat % 64 != 0 || g.saveBase.toNat % 65536 != 0
    || (match w.saveArea with
      | some a => a != g.saveBase
      | none => false)

/-- ILL of `eret.save` (R172). -/
def saveIll (g : Group) (w : Workgroup) : Bool := eretIll g w || g.hcause.toNat % 16 != 1

/-- The 32 bytes of a walker (R354). -/
def Walker.bytes (k : Walker) : List Byte :=
  leBytes 8 k.base.toNat ++ leBytes 2 k.c0.toNat ++ leBytes 2 k.c1.toNat ++ leBytes 4 k.s0.toNat
    ++ leBytes 4 k.s1.toNat ++ leBytes 2 k.i0.toNat ++ leBytes 2 k.i1.toNat
    ++ leBytes 1 ((if k.bound then 1 else 0) + 2 * k.e.toNat + (if k.fin then 8 else 0)) ++ leBytes 7 0

/-- A thread's predicates and walkers by rank; an absent rank holds zeros. -/
def Group.thread (g : Group) (r : Nat) : Thread := Tab.getD g.threads r {}

/-- The fields of a group block (R354): offset from the block and bytes. `logs` is NLOG, `imgs` the log
images, whose layout is the device's own (assumption log 8). -/
def Group.block (g : Group) (logs : Nat) (imgs : List Byte) : List (Nat × List Byte) :=
  [(0, leBytes 1 logs), (4, leBytes 4 g.fpx.toNat),
   (0x40, [0, 1, 2].flatMap fun k =>
      leBytes 8 (g.epcOf k).toNat ++ leBytes 4 (g.emskOf k).toNat ++ leBytes 4 0),
   (0x80, (List.range 32).map fun r => (g.thread r).preds),
   (0x100, (List.range 32).flatMap fun r => (List.range 8).flatMap fun w =>
      (Tab.getD (g.thread r).walkers w {}).bytes),
   (0x2400, imgs)]

/-- Arrival marks of barrier `b` in the saved group of GINDEX `g`, as a mask over ranks (R354). -/
def Workgroup.marksOf (w : Workgroup) (b g : Nat) : Nat :=
  let m := (Tab.getD w.barriers b {}).marks
  (List.filter (fun x : Nat × Group => x.2.gindex == g) w.savedGroups).foldl (fun n x =>
    x.2.threads.foldl (fun n t => if m.contains t.2.tid then n ||| 2 ^ t.1 else n) n) 0

/-- Bit `g` for every saved group (R354). -/
def Workgroup.gmask (w : Workgroup) : Nat := w.savedGroups.foldl (fun n x => n ||| 2 ^ x.2.gindex) 0

/-- SIZES (R354). -/
def Workgroup.sizes (w : Workgroup) : Nat := w.scrSize / 4096 + w.xwin * 2 ^ 9 + w.spw * 2 ^ 15

/-- The fields of the workgroup block (R354); `eng` tells that an engine image stands in the area. -/
def Workgroup.block (w : Workgroup) (eng : Bool) : List (Nat × List Byte) :=
  [(0, leBytes 4 0x5854434B ++ leBytes 4 w.gmask ++ leBytes 4 w.index.toNat ++ leBytes 2 w.region
      ++ leBytes 2 ((if eng then 1 else 0) + (if w.tbase.isSome then 2 else 0))
      ++ leBytes 4 (w.tbase.getD 0xFFFFFFFF) ++ leBytes 4 w.modb.toNat
      ++ leBytes 8 (2 ^ 48 * bits16 fun b => (Tab.getD w.barriers b {}).phase) ++ leBytes 4 w.sizes),
   (0x100, (List.range 16).flatMap fun b => (List.range 32).flatMap fun g => leBytes 4 (w.marksOf b g))]

/-- The accumulator entries of an engine image (R354). -/
def Engine.accBytes (e : Engine) : List Byte :=
  (List.range (128 * 192)).flatMap fun k => leBytes 8 (Tab.getD e.acc k 0).toNat

/-- Offset of the spawn memory image in the save area. -/
def saveSpawn : Nat := 0x10000
/-- Offset of group block `g`. -/
def saveGroupAt (g : Nat) : Nat := 0x20000 + 0x14000 * g
/-- Offset of the engine image. -/
def saveEngine : Nat := 0x2A0000

/-! ### Stores of the save -/

/-- The fields of a save checked as stores of the core (R172, R209): parts with their bytes. -/
def State.saveCheck (s : State) (loc : Nat) (base : Nat) : List (Nat × List Byte) → List (Frag × List Byte) × Checked
  | [] => ([], { s })
  | (off, bs) :: r =>
    let c := s.unitRange (coreDie loc) loc { acc := .write, write := true, core := some (locCoreOfDie loc) }
      (base + off) bs.length
    let ps := c.frags.map fun f => (f, (bs.drop f.off).take f.size)
    let (qs, d) := State.saveCheck c.s loc base r
    (ps ++ qs, { frags := c.frags ++ d.frags, hits := c.hits ++ d.hits, stall := c.stall || d.stall, s := d.s })

/-- Parts of a save stored, at package scope (R172): those of IP frames in the owner's L1. -/
def State.savePuts (s : State) (loc : Nat) : List (Frag × List Byte) → Put
  | [] => .ok s
  | (f, bs) :: r =>
    if f.typ == 3 then State.savePuts (s.ipWrite loc f.pa bs .alloc) loc r
    else match s.unitPut (coreDie loc) f bs with
      | .ok s1 => State.savePuts s1 loc r
      | .wait s1 => .wait s1

/-- Commands of a group on units that are not complete, but for those that its suspended engine keeps
(R314). -/
def State.unitsLeft (s : State) (loc gid : Nat) : Bool :=
  let e := (s.core loc).engine
  let kept := e.halted && (match e.owner with
    | .wg _ => true
    | _ => false)
  (s.clusters.any fun c => c.2.ladles.any fun q => q.2.any fun x =>
      x.gid == gid && x.task.isNone && !(kept && x.feed && x.core == loc))
    || (s.cores.any fun k => !(kept && k.1 == loc) && k.2.engine.queue.any fun x =>
      x.gid == gid && x.task.isNone)
    || s.xdies.any fun x => (x.2.queues.any fun q => q.2.any fun c => c.gid == gid)
      || x.2.active.any fun c => c.gid == gid

/-- Earlier operations of a group that `eret.save` waits for (R354): all but logged ones. -/
def State.saveBusy (s : State) (loc gid : Nat) : Bool :=
  (s.ops.any fun o => o.2.gid == gid && !o.2.aside && !s.logged o.2) || s.unitsLeft loc gid

/-- The group is the last of its workgroup. -/
def State.lastGroup (s : State) (gid wg : Nat) : Bool :=
  !(s.groups.any fun g => g.1 != gid && g.2.wg == wg && !g.2.steward)

/-- The engine that a workgroup owns is at rest (R314): suspended, or without a command or feed. -/
def State.engineAtRest (s : State) (loc wg : Nat) : Bool :=
  let e := (s.core loc).engine
  e.owner != .wg wg || e.halted || (e.queue.isEmpty
    && !((Tab.getD (s.cluster (locCluster loc)).ladles (locCore loc) []).any fun x => x.wg == wg && x.task.isNone))

/-! ### The group and the workgroup leave (R354, R355) -/

/-- A logged operation with the sources at its unit logged by value, but for those that an earlier instruction of the
thread has still to write: the replay after a RESUME does not see what the restore routine writes (R43, R46). -/
def State.freezeOp (s : State) (id : Nat) (o : Op) : Op :=
  match laneOpOf o.instr with
  | none => o
  | some op =>
    let each := fun k : Member => (op.form.reads.filter fun n => !k.frozen.contains n && !s.writeAhead id k.tid n).foldl
      (fun k n => s.freezeMember o op.form n k) k
    { o with members := o.members.map fun k => if k.done then k else each k }

/-- A logged operation as it is saved: it replays from its checks (R43, R356). -/
def Op.saved (o : Op) : Op :=
  { o with stage := .issued, logix := none, recasts := 0, suspect := none, farError := false, stalledOn := [], aside := true,
           members := o.members.map fun m => if m.done then m else { m with frags := m.frags.filter fun f => f.sent } }

/-- A group as it is saved: what its threads wait for on trap records is forgotten (R349, R356). -/
def Group.saved (g : Group) : Group :=
  let free := fun k : Casting =>
    { k with party := none, wait := match k.wait with
        | .trap _ => .none
        | v => v }
  { g with
    casting := g.casting.map free, sb := [], preempt := false, localTrap := none, stored := false
    uniform := [], threads := Tab.mapV g.threads fun _ t => t.dropLatches
    waits := g.waits.filter fun x => match x.2 with
      | .trap _ => false
      | _ => true }

/-- A record's party is the workgroup, or a command of its engine or a feed that its image keeps: their records end with
its save (R349). -/
def State.partySaved (s : State) (wg : Nat) (p : Party) : Bool :=
  p == .wg wg || s.partyCmd (· == .wg wg) (fun x => x.feed && x.wg == wg && x.task.isNone) p

/-- A record's party is the group, or an operation of it. -/
def partyOf (gid : Nat) (ids : List Nat) (p : Party) : Bool :=
  match p with
  | .op id => ids.contains id
  | .path g | .cast g => g == gid
  | _ => false

/-- The group gone: its members ended without a decrement of JOIN, the marks they hold kept (R172, R354;
assumption log 13). -/
def State.takeGroup (s : State) (gid : Nat) (g : Group) : State :=
  let ops := List.filter (fun o : Nat × Op => o.2.gid == gid) s.ops
  let ids := ops.map fun o => o.1
  let s1 := s.modWg g.wg fun w =>
    { w with saveArea := some g.saveBase, savedGroups := Tab.put w.savedGroups gid g.saved,
             savedOps := ops.foldl (fun t o => Tab.put t o.1 (s.freezeOp o.1 o.2).saved) w.savedOps }
  (({ s1 with
    groups := Tab.del s1.groups gid
    ops := s1.ops.filter fun o => o.2.gid != gid } : State).dropRecs (partyOf gid ids)).refit g.loc

/-- A workgroup's allocations released (R22, R355): scratchpad, window and spawn memory are one block. -/
def State.freeSpad (s : State) (w : Workgroup) : State :=
  s.modCluster (locCluster w.loc) fun c => { c with allocs := c.allocs.filter fun a => a.1 != w.scrBase }

/-- A workgroup's engine scrubbed and released, its feeds discarded (R296). -/
def State.freeEngine (s : State) (wg : Nat) (w : Workgroup) : State :=
  if (s.core w.loc).engine.owner == .wg wg then
    (s.modEngine w.loc Engine.release).modLadle (locCluster w.loc) (locCore w.loc) fun q =>
      q.filter fun x => !(x.feed && x.wg == wg && x.task.isNone)
  else s

/-- THE WORKGROUP IS SAVED (R355). -/
def State.takeWg (s : State) (wg : Nat) : State :=
  match s.wg? wg with
  | none => s
  | some w =>
    let img := if (s.core w.loc).engine.owner == .wg wg then
        some (s.imageOf w.loc fun x => x.wg == wg && x.task.isNone) else none
    let s1 := ((s.dropRecs (s.partySaved wg)).freeSpad w).freeEngine wg w
    { s1 with
      wgs := Tab.del s1.wgs wg
      saved := s1.saved ++ [{ id := wg, die := locDie w.loc, area := w.saveArea.getD 0, wg := w, engine := img }] }

/-- What an `eret.save` stores, as offsets from the save area (R354), and the free bytes of the images. -/
def State.saveData (s : State) (gid : Nat) (g : Group) (w : Workgroup) (last : Bool) :
    List (Nat × List Byte) × State :=
  let ops := List.filter (fun o : Nat × Op => o.2.gid == gid) s.ops
  let (imgs, s1) := s.freeBytes (1024 * ops.length)
  let blk := (g.block ops.length imgs).map fun x => (saveGroupAt g.gindex + x.1, x.2)
  if !last then (blk, s1)
  else
    let e := (s.core g.loc).engine
    let own := e.owner == .wg g.wg
    let (spn, s2) := s1.freeBytes ((w.spw + 1) * 4096)
    let (tail, s3) := s2.freeBytes (if own then 64 else 0)
    let w1 := { w with savedGroups := Tab.put w.savedGroups gid g }
    (blk ++ w1.block own ++ [(saveSpawn, spn)] ++ (if own then [(saveEngine, e.accBytes ++ tail)] else []), s3)

/-- THE SAVE of a group (R172, R354). -/
def State.saveGroup (s : State) (c : Ctx) : State :=
  let last := s.lastGroup c.gid c.g.wg
  let (data, s1) := s.saveData c.gid c.g c.w last
  let (ps, k) := s1.saveCheck c.g.loc c.g.saveBase.toNat data
  if k.stall then s.turnOver
  else match worst k.hits with
    | some (code, _, va, pa) =>
      ((k.s.logHits c.g.loc k.hits).takeTrap c.gid c.pi
        { s.trapInfo c.g code c.p.pc c.p.mask with vaddr := BitVec.ofNat 64 va, paddr := pa } none).moveOn
    | none => match k.s.savePuts c.g.loc ps with
      | .wait _ => (k.s.unitDup (ps.map fun x => x.1)).turnOver
      | .ok s2 =>
        let s3 := (s2.takeGroup c.gid c.g).moveOn
        if last then s3.takeWg c.g.wg else s3

/-- `eret.save` (R172, R354). -/
def execEretSave (s : State) : Out :=
  .next (s.issue .eretSave { group := true, outside := true, illOn := saveIll } fun c s =>
    if saveAlign c.g c.w then s.trapCode c .align
    else if s.saveBusy c.g.loc c.gid
        || (s.lastGroup c.gid c.g.wg && !s.engineAtRest c.g.loc c.g.wg) then s.turnOver
    else s.saveGroup c)

end Sys2Proof.Machine
end

