-- ==== Sys2Proof/Machine/Launch.lean ====
section
/-! DEFINITION. Continuation records at pop: validity (R19, R103), the choice of a core (R321), creation of
a workgroup (R20), resumption of a saved one (R356). -/

namespace Sys2Proof.Machine

/-! ### Fields of a record (R18) -/

/-- Bits of a record's doubleword. -/
def bitsOf (w : DWord) (k n : Nat) : Nat := w.toNat / 2 ^ k % 2 ^ n

/-- CODE. -/
def Record.code (r : Record) : Nat := bitsOf r.w0 0 56
/-- FRAME. -/
def Record.frame (r : Record) : Nat := bitsOf r.w1 0 56
/-- JOIN. -/
def Record.join (r : Record) : Nat := bitsOf r.w2 0 56
/-- The workgroup linear index (R21). -/
def Record.windex (r : Record) : Nat := bitsOf r.w0 56 8 * 65536 + bitsOf r.w3 48 16
/-- SPW. -/
def Record.spw (r : Record) : Nat := bitsOf r.w3 44 4
/-- XWIN. -/
def Record.xwin (r : Record) : Nat := bitsOf r.w3 38 6
/-- SCR. -/
def Record.scr (r : Record) : Nat := bitsOf r.w3 29 9
/-- KIND. -/
def Record.kind (r : Record) : Nat := bitsOf r.w3 26 3
/-- GMAX. -/
def Record.gmax (r : Record) : Nat := bitsOf r.w3 21 5
/-- G0. -/
def Record.g0 (r : Record) : Nat := bitsOf r.w3 16 5

/-- Bytes of scratchpad, exchange window and spawn memory (R19). -/
def Record.bytes (r : Record) : Nat := r.scr * 4096 + 2 * r.xwin * 1024 + (r.spw + 1) * 4096

/-- The record itself is invalid, its region aside (R19). -/
def Record.bad (r : Record) : Bool :=
  bitsOf r.w1 56 8 != 0 || bitsOf r.w2 56 8 != 0 || 2 ≤ r.kind || r.code % 4 != 0 || r.join % 64 != 0
    || r.gmax < r.g0 || 2 ^ 21 < r.bytes

/-! ### The kernel descriptor (R102, R103) -/

/-- What a descriptor gives. -/
structure Kernel where
  nb : Nat
  mode : Nat
  map : BitVec 112
  deriving DecidableEq, Repr

/-- Set bits of a placement map. -/
def mapCount (m : BitVec 112) : Nat := ((List.range 112).filter fun k => m.getLsbD k).length

/-- A descriptor from its sixteen words, checked against its record (R103). -/
def kernelOf (ws : List Word) (r : Record) : Option Kernel :=
  let w := fun k => (ws.getD k 0).toNat
  let nb := w 1 % 256
  let mode := w 2 / 256 % 256
  let hi := w 6 + 2 ^ 32 * w 7
  let map := w 4 + 2 ^ 32 * w 5 + 2 ^ 64 * hi
  let rsv := w 2 / 65536 != 0 || w 3 != 0 || hi / 2 ^ 48 != 0
    || [10, 11, 12, 13, 14, 15].any fun k => w k != 0
  if w 0 != 0x4E52454B || rsv || nb == 0 || 14 < nb || 3 ≤ mode
      || 32 < mapCount (BitVec.ofNat 112 map) || map % 4 != 0 || map / 2 ^ (8 * nb) != 0
      || r.scr < w 1 / 65536 || r.xwin != w 1 / 256 % 256 || r.spw < w 2 % 256 then none
  else some { nb, mode, map := BitVec.ofNat 112 map }

/-! ### Needs (R20, R321) -/

/-- Lowest offset of a cluster's scratchpad, in steps of 4 KiB, where `n` bytes are free (assumption log
38). -/
def spadFind (allocs : List (Nat × Nat)) (n : Nat) : Option Nat :=
  ((List.range 512).map fun k => 4096 * k).find? fun o =>
    decide (o + n ≤ 2 ^ 21) && allocs.all fun a => decide (o + n ≤ a.1) || decide (a.1 + a.2 ≤ o)

/-- Far-register entries of a die in use (R20). -/
def State.farUsed (s : State) (d : Nat) : Nat :=
  (s.wgs.map fun w => if locDie w.2.loc == d && !w.2.released then 512 * (w.2.gmax + 1) else 0).sum

/-- The region's core budget admits a workgroup on a core (R321). -/
def State.budgetOk (s : State) (loc r : Nat) : Bool :=
  let locs := distinct ((s.wgs.filter fun w => w.2.region == r && !w.2.released && locDie w.2.loc == locDie loc).map
    fun w => w.2.loc)
  locs.contains loc || (match s.rgn? (locDie loc) r with
    | some b => decide (locs.length < b.cores)
    | none => true)

/-- A core can meet all the needs of a record at once: `n` group slots (R20). -/
def State.canMeet (s : State) (loc : Nat) (r : Record) (n : Nat) : Bool :=
  decide (n ≤ (s.freeSlots loc).length) && (spadFind (s.cluster (locCluster loc)).allocs r.bytes).isSome
    && decide (s.farUsed (locDie loc) + 512 * (r.gmax + 1) ≤ 1572864) && s.budgetOk loc r.region

/-! ### Reading a save area (R356) -/

/-- What a read of a save area gives. -/
inductive Area where
  | bytes (bs : List Byte)
  | wait
  | fault (c : FCode)

/-- `n` bytes read by the device under the die's SID. -/
def State.areaRead (s : State) (d va n : Nat) : Area × State :=
  let c := s.unitRange d (2048 + d) { acc := .read } va n
  if c.stall then (.wait, c.s)
  else match worst c.hits with
    | some (code, _, _, _) => (.fault code, c.s)
    | none => match c.s.unitReads d c.frags with
      | some (bs, s1) => (.bytes bs, s1)
      | none => (.wait, c.s)

/-- What a RESUME record finds in its save area: the workgroup block, each saved group's block, the
accumulator. -/
structure Context where
  wg : List Byte
  groups : List (Nat × List Byte)
  acc : List Byte

/-- The saved workgroup that a RESUME record names (R355). -/
def State.savedAt (s : State) (d : Nat) (r : Record) : Option Saved :=
  s.saved.find? fun v => v.die == d && v.area.toNat == r.frame

/-- The workgroup block does not fit the record (R356), or a RSV bit of it is set (R2, R354); a group block is
misaligned when the save area is. -/
def resumeBad (bs : List Byte) (r : Record) : Bool :=
  leAt bs 0 4 != 0x5854434B || leAt bs 0xC 2 != r.region || leAt bs 8 4 % 2 ^ 24 != r.windex
    || r.frame % 65536 != 0 || leAt bs 0x20 4 != r.scr + 2 ^ 9 * r.xwin + 2 ^ 15 * r.spw
    || leAt bs 0xE 2 / 4 != 0 || leAt bs 0x18 6 != 0

/-- A RSV byte of one of `n` walkers, 32 bytes each, is set (R354). -/
def walkersBad : Nat → List Byte → Bool
  | 0, _ => false
  | n + 1, bs => leAt bs 25 7 != 0 || walkersBad n (bs.drop 32)

/-- A RSV byte of a group block is set: after a path record's mask, and in a walker (R2, R354). -/
def blockBad (bs : List Byte) : Bool :=
  ((List.range 3).any fun k => leAt bs (0x4C + 16 * k) 4 != 0) || walkersBad 256 (bs.drop 0x100)

/-- The group blocks of a mask read one after another. -/
def State.groupAreas (s : State) (d base : Nat) : List Nat → Except (Option FCode) (List (Nat × List Byte)) × State
  | [] => (.ok [], s)
  | g :: gs => match s.areaRead d (base + saveGroupAt g) 0x2100 with
    | (.wait, s1) => (.error none, s1)
    | (.fault c, s1) => (.error (some c), s1)
    | (.bytes bs, s1) => match State.groupAreas s1 d base gs with
      | (.ok l, s2) => (.ok ((g, bs) :: l), s2)
      | (.error e, s2) => (.error e, s2)

/-- GINDEX values of a workgroup block's GMASK. -/
def gmaskOf (bs : List Byte) : List Nat := (List.range 32).filter fun g => leAt bs 4 4 / 2 ^ g % 2 == 1

/-- What a popped record is (R19, R103, R356). -/
inductive Verdict where
  /-- It cannot be judged now: a frame in transition, an unwritten part. -/
  | wait
  | bad (c : FCode)
  | launch (k : Kernel)
  | resume (k : Kernel) (v : Saved) (x : Context)

/-- The code that a record of SRC 1 carries for a fault of a read at pop: PAGE or PERM, and no other (R103, R345); what
is not PAGE counts as PERM (assumption log 40). -/
def popCode (c : FCode) : FCode := if c == .page then .page else .perm

/-- The context of a RESUME record (R356). A save area that no saved workgroup has is invalid (assumption
log 39); so is one that meets a fault (assumption log 40). -/
def State.judgeResume (s : State) (d : Nat) (r : Record) (k : Kernel) : Verdict × State :=
  match s.savedAt d r, s.areaRead d r.frame 0x900 with
  | _, (.wait, s1) => (.wait, s1)
  | _, (.fault c, s1) => (.bad (popCode c), s1)
  | none, (.bytes _, s1) => (.bad .ill, s1)
  | some v, (.bytes bs, s1) =>
    if resumeBad bs r then (.bad .ill, s1)
    else match s1.groupAreas d r.frame (gmaskOf bs) with
      | (.error none, s2) => (.wait, s2)
      | (.error (some c), s2) => (.bad (popCode c), s2)
      | (.ok gs, s2) =>
        if gs.any fun g => blockBad g.2 then (.bad .ill, s2)
        else if leAt bs 0xE 2 % 2 == 0 || v.engine.isNone then (.resume k v ⟨bs, gs, []⟩, s2)
        else match s2.areaRead d (r.frame + saveEngine) (8 * 128 * 192) with
          | (.wait, s3) => (.wait, s3)
          | (.fault c, s3) => (.bad (popCode c), s3)
          | (.bytes acc, s3) => (.resume k v ⟨bs, gs, acc⟩, s3)

/-- A record judged by a core (R19, R103). A record that is invalid of itself, or whose region is not live, is
discarded with ILL and its descriptor is not read, so a fault of that read is not reported then (the spec does not say
which code comes first; assumption log 106). The descriptor of any other record is read through instruction fetch. -/
def State.judge (s : State) (loc : Nat) (r : Record) : Verdict × State :=
  let d := locDie loc
  if r.bad || (s.rgn? d r.region).isNone then (.bad .ill, s)
  else match s.fetchMore { wg := 0, loc } ((r.code + 2 ^ 64 - 64) % 2 ^ 64) 16 with
    | (.error .preempt, s1) => (.wait, s1)
    | (.error c, s1) => (.bad (popCode c), s1)
    | (.ok ws, s1) => match kernelOf ws r with
      | none => (.bad .ill, s1)
      | some k => if r.kind == 0 then (.launch k, s1) else s1.judgeResume d r k

/-- A core can take the record as it was judged: an engine image needs the core's engine free (assumption
log 41). R321 does not say whether an invalid record must meet the budget and the needs as well: a core with a free group
slot pops it (DESIGN CHOICE, assumption log 134). -/
def State.takes (s : State) (loc : Nat) (r : Record) : Verdict → Bool
  | .wait => false
  | .bad _ => true
  | .launch _ => s.canMeet loc r (r.g0 + 1)
  | .resume _ v x => s.canMeet loc r x.groups.length
    && (v.engine.isNone || ((s.core loc).engine.owner == .free && s.engineFree loc v.id))

/-- The first of some records that a core can take. -/
def State.firstTaken (s : State) (loc : Nat) : List QRec → Option (QRec × Verdict) × State
  | [] => (none, s)
  | q :: qs =>
    let (v, s1) := s.judge loc q.record
    if s1.takes loc q.record v then (some (q, v), s1) else State.firstTaken s1 loc qs

/-- The levels from 7 down, the 16 oldest records of each (R321). -/
def State.chooseFrom (s : State) (loc : Nat) : Nat → Option (QRec × Verdict) × State
  | 0 => (none, s)
  | l + 1 => match s.firstTaken loc (((s.die (locDie loc)).level l).take 16) with
    | (some x, s1) => (some x, s1)
    | (none, s1) => State.chooseFrom s1 loc l

/-- The record that a core with a free slot pops (R321); the queues are off while QEN bit 0 is clear (R367). -/
def State.choose (s : State) (loc : Nat) : Option (QRec × Verdict) × State :=
  let d := s.die (locDie loc)
  if (s.freeSlots loc).isEmpty || !d.qen.getLsbD 0 || d.inReset then (none, s) else s.chooseFrom loc 8

/-- A record off its queue. -/
def State.dequeue (s : State) (d id : Nat) : State :=
  s.modDie d fun x => { x with queues := Tab.mapV x.queues fun _ q => q.filter fun y => y.id != id }

/-! ### Creation (R20) -/

/-- The scratchpad block of a new workgroup: allocated, and its bytes read as zero (R20, R233). -/
def State.takeSpad (s : State) (ck off n : Nat) : State :=
  s.modCluster ck fun c =>
    { c with allocs := c.allocs ++ [(off, n)],
             spad := List.filter (fun m : Host.Cell => decide (m.1 < off) || decide (off + n ≤ m.1)) c.spad }

/-- The workgroup of a record on a core, its block at `off`: allocation, live bank, shadow bank, spawn
memory (assumption log 38). -/
def Record.workgroup (r : Record) (loc off : Nat) (priv : Bool) (k : Kernel) : Workgroup :=
  { loc, index := BitVec.ofNat 24 r.windex, region := r.region, nb := k.nb, mode := k.mode, priv,
    join := BitVec.ofNat 64 r.join, scrBase := off, scrSize := r.scr * 4096, xwin := r.xwin, spw := r.spw,
    gmax := r.gmax, live := off + r.scr * 4096, shadow := off + r.scr * 4096 + r.xwin * 1024,
    spawnBase := off + r.scr * 4096 + 2 * r.xwin * 1024, clusterMap := k.map }

/-- A region is privileged on a die (R226). -/
def State.rgnPriv (s : State) (d r : Nat) : Bool :=
  match s.rgn? d r with
  | some b => b.priv
  | none => false

/-- A launched thread: `v0` and `v1` hold FRAME (R20), its far slot is its own (R31). -/
def launchThread (gid gindex rank frame : Nat) : Thread :=
  { tid := newTid gid rank, farSlot := 32 * gindex + rank,
    lane := [(0, BitVec.ofNat 32 frame), (1, BitVec.ofNat 32 (frame / 2 ^ 32))] }

/-- Group `k` of a launch (R20, R112). -/
def State.launchGroup (s : State) (wg loc : Nat) (r : Record) (k : Nat) : State :=
  let (gid, s1) := s.newId
  (s1.setGroup gid
    { wg, loc, gindex := k, slot := s.nextSlot loc, stored := true,
      threads := (List.range 32).map fun i => (i, launchThread gid k i r.frame),
      paths := [{ pc := BitVec.ofNat 64 r.code, mask := -1 }] }).seatGroup gid

/-- CREATION of a workgroup from a LAUNCH record, in one step (R20). -/
def State.create (s : State) (loc : Nat) (r : Record) (k : Kernel) : State :=
  let off := (spadFind (s.cluster (locCluster loc)).allocs r.bytes).getD 0
  let (wg, s1) := (s.takeSpad (locCluster loc) off r.bytes).newId
  (List.range (r.g0 + 1)).foldl (fun s i => s.launchGroup wg loc r i)
    (s1.setWg wg (r.workgroup loc off (s.rgnPriv (locDie loc) r.region) k))

/-- DISCARD of an invalid record (R19): a record of SRC 1 reports it. -/
def State.discard (s : State) (loc : Nat) (r : Record) (c : FCode) : State :=
  let d := locDie loc
  let (id, s1) := s.newId
  s1.writeTrap d id
    { code := c, src := 1, info := true, loc, rcd := some r,
      region := if (s.rgn? d r.region).isSome then some r.region else none } none

/-- CONT_POP (R19, R20, R321): a core pops the record that comes first, if it is no RESUME. -/
def State.contPop (s : State) (loc : Nat) : State :=
  match s.choose loc with
  | (some (q, .launch k), s1) => (s1.dequeue (locDie loc) q.id).create loc q.record k
  | (some (q, .bad c), s1) => (s1.dequeue (locDie loc) q.id).discard loc q.record c
  | _ => s

/-- CONT_POP (R321). -/
def execContPop (s : State) : Out := s.onEvent fun e s => match e with
  | .contPop loc => s.contPop loc
  | _ => s

/-! ### Resumption (R356) -/

/-- A thread as it is resumed (R356): predicates and walkers from the block; its names keep their place, unit and
anchor (R174), and read as at creation, zero, until the restore routine has written them (R110; assumption
log 75). -/
def resumeThread (bs : List Byte) (r : Nat) (t : Thread) : Thread :=
  { t with
    lane := []
    far := Tab.mapV t.far fun _ x => { x with value := 0 }
    preds := BitVec.ofNat 8 (leAt bs (0x80 + r) 1)
    walkers := (List.range 8).map fun w =>
      (w, Walker.ofBytes ((bs.drop (0x100 + 256 * r + 32 * w)).take 32)) }

/-- Counts of a group's log entries raised again (R356). -/
def Group.recount (g : Group) (gid : Nat) (ops : Tab Op) : Group :=
  (List.filter (fun o : Nat × Op => o.2.gid == gid) ops).foldl (fun g o => g.sbAdd o.2.sb o.1) g

/-- A saved group formed again (R356): one path of all its members at CODE, in handler state with cause 3. -/
def resumeGroup (gid : Nat) (old : Group) (bs : List Byte) (wg loc slot code base : Nat)
    (ops : Tab Op) : Group :=
  let m := fun k => BitVec.ofNat 32 (leAt bs (0x48 + 16 * k) 4)
  let all := m 0 ||| m 1 ||| m 2
  let rest := old.casting.foldl (fun n c => n ||| c.mask) 0
  ({ wg, loc, gindex := old.gindex, slot, stored := true,
     threads := ((List.range 32).filter fun r => (all ||| rest).getLsbD r).map fun r =>
       (r, resumeThread bs r (Tab.getD old.threads r { tid := newTid gid r })),
     paths := if all == 0 then [] else [{ pc := BitVec.ofNat 64 code, mask := all }],
     casting := old.casting, fpx := BitVec.ofNat 5 (leAt bs 4 4),
     epc := [0, 1, 2].map fun k => (k, BitVec.ofNat 64 (leAt bs (0x40 + 16 * k) 8)),
     emsk := [0, 1, 2].map fun k => (k, m k),
     ctx := BitVec.ofNat 64 (base + saveGroupAt old.gindex), hcause := 3, handler := true,
     waits := old.waits } : Group).recount gid ops

/-- The saved group of a GINDEX: its name and what was saved of it. -/
def Workgroup.savedGroup (w : Workgroup) (g : Nat) : Option (Nat × Group) :=
  List.find? (fun x : Nat × Group => x.2.gindex == g) w.savedGroups

/-- One group of a resumed workgroup. -/
def State.resumeOne (s : State) (loc : Nat) (r : Record) (v : Saved) (x : Nat × List Byte) : State :=
  match v.wg.savedGroup x.1 with
  | none => s
  | some (gid, old) =>
    (s.setGroup gid (resumeGroup gid old x.2 v.id loc (s.nextSlot loc) r.code r.frame v.wg.savedOps)).seatGroup gid

/-- A barrier restored (R356): the marks that the block holds for the groups' ranks, those of the threads in
spawn memory as they stood, the phase of the block. -/
def resumeBarrier (bs : List Byte) (w : Workgroup) (b : Nat) : Barrier :=
  let old := Tab.getD w.barriers b {}
  let inGroup := w.savedGroups.flatMap fun x => x.2.threads.map fun t => t.2.tid
  { marks := (w.savedGroups.flatMap fun x => (x.2.threads.filter fun t =>
        leAt bs (0x100 + 128 * b + 4 * x.2.gindex) 4 / 2 ^ t.1 % 2 == 1).map fun t => t.2.tid)
      ++ old.marks.filter fun t => !inGroup.contains t
    phase := leAt bs 0x1E 2 / 2 ^ b % 2 == 1
    swap := old.swap }

/-- The workgroup of a RESUME record (R356): barriers, remap state and spawn memory as they were; CLUSTER
names are zero (R131) until the restore routine reloads them. -/
def resumeWorkgroup (r : Record) (loc off : Nat) (priv : Bool) (k : Kernel) (bs : List Byte) (v : Saved) :
    Workgroup :=
  let t := leAt bs 0x10 4
  { r.workgroup loc off priv k with
    barriers := (List.range 16).map fun b => (b, resumeBarrier bs v.wg b)
    tbase := if leAt bs 0xE 2 / 2 % 2 == 1 && t != 0xFFFFFFFF then some t else none
    modb := BitVec.ofNat 32 (leAt bs 0x14 4)
    items := v.wg.items, overflow := v.wg.overflow, flush := v.wg.flush, clusterRegs := [] }

/-- The accumulator of an engine image; bits 63:56 of an entry do not count. -/
def accOf (bs : List Byte) : Tab (BitVec 56) :=
  ((List.range (128 * 192)).map fun k => (k, BitVec.ofNat 56 (leAt bs (8 * k) 8))).filter fun x => x.2 != 0

/-- The engine reclaimed from its image (R314, R356): what its FIFOs held is fed again. -/
def State.resumeEngine (s : State) (loc wg : Nat) (img : Engine) (acc : List Byte) : State :=
  (s.modEngine loc fun e =>
    { img with table := e.table, acc := accOf acc, owner := .wg wg, halted := false, suspend := false, refeeds := [] }).refeed
      loc img.refeeds

/-- A log entry restored on a core: the lowest free entry holds it (R42, R356). -/
def State.resumeOp (s : State) (loc id : Nat) (o : Op) : State :=
  s.setOp id { o with loc, logix := s.freeLog loc, restored := true }

/-- RE-CREATION of a saved workgroup (R356). -/
def State.resume (s : State) (loc : Nat) (r : Record) (k : Kernel) (v : Saved) (x : Context) : State :=
  let off := (spadFind (s.cluster (locCluster loc)).allocs r.bytes).getD 0
  let w := resumeWorkgroup r loc off (s.rgnPriv (locDie loc) r.region) k x.wg v
  let s0 := s.takeSpad (locCluster loc) off r.bytes
  let s1 := { s0 with saved := s0.saved.filter fun y => y.id != v.id }.setWg v.id w
  let s2 := x.groups.foldl (fun s g => s.resumeOne loc r v g) s1
  let s3 := v.wg.savedOps.foldl (fun s o => s.resumeOp loc o.1 o.2) s2
  match v.engine with
  | some img => s3.resumeEngine loc v.id img x.acc
  | none => s3

/-- RESUME_POP (R321, R356): a core pops the record that comes first, if it is a RESUME. -/
def State.resumePop (s : State) (loc : Nat) : State :=
  match s.choose loc with
  | (some (q, .resume k v x), s1) => (s1.dequeue (locDie loc) q.id).resume loc q.record k v x
  | _ => s

/-- RESUME_POP (R356). -/
def execResumePop (s : State) : Out := s.onEvent fun e s => match e with
  | .resumePop loc => s.resumePop loc
  | _ => s

end Sys2Proof.Machine
end

