-- ==== Sys2Proof/Machine/Signature.lean ====
section
/-! DEFINITION. The signature of a firmware file (R15, R108): ECDSA on the curve P-521 over SHA-512 digests. The
algorithms' constants are those of their standards, which the spec names and does not repeat (assumption log 93);
the keys are the device's. -/

namespace Sys2Proof.Machine

/-! ### SHA-512 -/

/-- Words 0 to 19 of the table of constants. -/
def shaK0 : List (BitVec 64) :=
  [
    0x428A2F98D728AE22, 0x7137449123EF65CD, 0xB5C0FBCFEC4D3B2F, 0xE9B5DBA58189DBBC,
    0x3956C25BF348B538, 0x59F111F1B605D019, 0x923F82A4AF194F9B, 0xAB1C5ED5DA6D8118,
    0xD807AA98A3030242, 0x12835B0145706FBE, 0x243185BE4EE4B28C, 0x550C7DC3D5FFB4E2,
    0x72BE5D74F27B896F, 0x80DEB1FE3B1696B1, 0x9BDC06A725C71235, 0xC19BF174CF692694,
    0xE49B69C19EF14AD2, 0xEFBE4786384F25E3, 0x0FC19DC68B8CD5B5, 0x240CA1CC77AC9C65]

/-- Words 20 to 39 of the table of constants. -/
def shaK1 : List (BitVec 64) :=
  [
    0x2DE92C6F592B0275, 0x4A7484AA6EA6E483, 0x5CB0A9DCBD41FBD4, 0x76F988DA831153B5,
    0x983E5152EE66DFAB, 0xA831C66D2DB43210, 0xB00327C898FB213F, 0xBF597FC7BEEF0EE4,
    0xC6E00BF33DA88FC2, 0xD5A79147930AA725, 0x06CA6351E003826F, 0x142929670A0E6E70,
    0x27B70A8546D22FFC, 0x2E1B21385C26C926, 0x4D2C6DFC5AC42AED, 0x53380D139D95B3DF,
    0x650A73548BAF63DE, 0x766A0ABB3C77B2A8, 0x81C2C92E47EDAEE6, 0x92722C851482353B]

/-- Words 40 to 59 of the table of constants. -/
def shaK2 : List (BitVec 64) :=
  [
    0xA2BFE8A14CF10364, 0xA81A664BBC423001, 0xC24B8B70D0F89791, 0xC76C51A30654BE30,
    0xD192E819D6EF5218, 0xD69906245565A910, 0xF40E35855771202A, 0x106AA07032BBD1B8,
    0x19A4C116B8D2D0C8, 0x1E376C085141AB53, 0x2748774CDF8EEB99, 0x34B0BCB5E19B48A8,
    0x391C0CB3C5C95A63, 0x4ED8AA4AE3418ACB, 0x5B9CCA4F7763E373, 0x682E6FF3D6B2B8A3,
    0x748F82EE5DEFB2FC, 0x78A5636F43172F60, 0x84C87814A1F0AB72, 0x8CC702081A6439EC]

/-- Words 60 to 79 of the table of constants. -/
def shaK3 : List (BitVec 64) :=
  [
    0x90BEFFFA23631E28, 0xA4506CEBDE82BDE9, 0xBEF9A3F7B2C67915, 0xC67178F2E372532B,
    0xCA273ECEEA26619C, 0xD186B8C721C0C207, 0xEADA7DD6CDE0EB1E, 0xF57D4F7FEE6ED178,
    0x06F067AA72176FBA, 0x0A637DC5A2C898A6, 0x113F9804BEF90DAE, 0x1B710B35131C471B,
    0x28DB77F523047D84, 0x32CAAB7B40C72493, 0x3C9EBE0A15C9BEBC, 0x431D67C49C100D4C,
    0x4CC5D4BECB3E42B6, 0x597F299CFC657E2A, 0x5FCB6FAB3AD6FAEC, 0x6C44198C4A475817]

/-- The table of constants of SHA-512. -/
def shaK : List (BitVec 64) := shaK0 ++ shaK1 ++ shaK2 ++ shaK3

/-- The initial hash value of SHA-512. -/
def shaInit : List (BitVec 64) :=
  [
    0x6A09E667F3BCC908, 0xBB67AE8584CAA73B, 0x3C6EF372FE94F82B, 0xA54FF53A5F1D36F1,
    0x510E527FADE682D1, 0x9B05688C2B3E6C1F, 0x1F83D9ABFB41BD6B, 0x5BE0CD19137E2179]

/-- Big-endian value of bytes. -/
def beNat (l : List Byte) : Nat := l.foldl (fun n b => 256 * n + b.toNat) 0

/-- The low `n` bytes of a value, big-endian. -/
def beBytes (n v : Nat) : List Byte := (leBytes n v).reverse

/-- A message padded to whole blocks of 128 bytes. -/
def shaPad (m : List Byte) : List Byte :=
  m ++ [0x80] ++ List.replicate ((239 - m.length % 128) % 128) 0 ++ beBytes 16 (8 * m.length)

/-- The message schedule: `n` further words behind those of a block, the latest first. -/
def shaSchedule (w : List (BitVec 64)) : Nat → List (BitVec 64)
  | 0 => w
  | n + 1 =>
    let at_ := fun k => w.getD k 0
    let s0 := fun x : BitVec 64 => x.rotateRight 1 ^^^ x.rotateRight 8 ^^^ (x >>> 7)
    let s1 := fun x : BitVec 64 => x.rotateRight 19 ^^^ x.rotateRight 61 ^^^ (x >>> 6)
    shaSchedule ((s1 (at_ 1) + at_ 6 + s0 (at_ 14) + at_ 15) :: w) n

/-- One round with the sum of its constant and its message word. -/
def shaRound (h : List (BitVec 64)) (kw : BitVec 64) : List (BitVec 64) :=
  match h with
  | [a, b, c, d, e, f, g, x] =>
    let t1 := x + (e.rotateRight 14 ^^^ e.rotateRight 18 ^^^ e.rotateRight 41) + ((e &&& f) ^^^ (~~~e &&& g)) + kw
    let t2 := (a.rotateRight 28 ^^^ a.rotateRight 34 ^^^ a.rotateRight 39) + ((a &&& b) ^^^ (a &&& c) ^^^ (b &&& c))
    [t1 + t2, a, b, c, d + t1, e, f, g]
  | h => h

/-- One block hashed. -/
def shaBlock (h : List (BitVec 64)) (blk : List Byte) : List (BitVec 64) :=
  let w := (List.range 16).map fun k => BitVec.ofNat 64 (beNat ((blk.drop (8 * k)).take 8))
  let ws := (shaSchedule w.reverse 64).reverse
  (h.zip ((shaK.zip ws).foldl (fun v e => shaRound v (e.1 + e.2)) h)).map fun e => e.1 + e.2

/-- `n` blocks hashed in order. -/
def shaBlocks (h : List (BitVec 64)) (m : List Byte) : Nat → List (BitVec 64)
  | 0 => h
  | n + 1 => shaBlocks (shaBlock h (m.take 128)) (m.drop 128) n

/-- SHA-512 of a message, as a number. -/
def sha512 (m : List Byte) : Nat :=
  let p := shaPad m
  (shaBlocks shaInit p (p.length / 128)).foldl (fun n w => 2 ^ 64 * n + w.toNat) 0

/-! ### The curve P-521 -/

/-- The prime of the field. -/
def p521 : Nat := 2 ^ 521 - 1

/-- The order of the base point. -/
def n521 : Nat := (2 ^ 261 - 1) * 2 ^ 260 + 0xA51868783BF2F966B7FCC0148F709A5D03BB5C9B8899C47AEBB6FB71E91386409

/-- The coefficient b; the coefficient a is -3. -/
def b521 : Nat :=
  0x51953EB9618E1C9A1F929A21A0B68540EEA2DA725B99B315F3B8B489918EF109E156193951EC7E937B1652C0BD3BB1BF073573DF883D2C34F1EF451FD46B503F00

/-- The base point. -/
def g521 : Nat × Nat :=
  (0xC6858E06B70404E9CD9E3ECB662395B4429C648139053FB521F828AF606B4D3DBAA14B5E77EFE75928FE1DC127A2FFA8DE3348B3C1856A429BF97E7E31C2E5BD66,
   0x11839296A789A3BC0045C8A5FB42C7D1BD998F54449579B446817AFBD17273E662C97EE72995EF42640C550B9013FAD0761353C7086A272C24088BE94769FD16650)

/-- `b` to the power `e` modulo `m`; `e` is below 2 to the power `n`. -/
def powMod (m : Nat) : Nat → Nat → Nat → Nat
  | 0, _, _ => 1
  | n + 1, b, e =>
    let r := powMod m n (b * b % m) (e / 2)
    if e % 2 == 1 then r * b % m else r

/-- The inverse modulo a prime below 2 to the power 521. -/
def invMod (m a : Nat) : Nat := powMod m 521 (a % m) (m - 2)

/-- The line of slope `l` through two points of abscissas `x` and `z`, the first of ordinate `y`: the sum. -/
def chord (l x y z : Nat) : Nat × Nat :=
  let s := (l * l + 2 * p521 - x - z) % p521
  (s, (l * (p521 + x - s) + p521 - y) % p521)

/-- The sum of two points; none is the point at infinity. -/
def addPoint (a b : Option (Nat × Nat)) : Option (Nat × Nat) :=
  match a, b with
  | none, b => b
  | a, none => a
  | some (x, y), some (z, w) =>
    if x == z then
      if (y + w) % p521 == 0 then none
      else some (chord ((3 * x * x + p521 - 3) * invMod p521 (2 * y) % p521) x y x)
    else some (chord ((p521 + w - y) * invMod p521 (p521 + z - x) % p521) x y z)

/-- A multiple of a point; `k` is below 2 to the power `n`. -/
def mulPoint : Nat → Nat → Option (Nat × Nat) → Option (Nat × Nat)
  | 0, _, _ => none
  | n + 1, k, q =>
    let r := mulPoint n (k / 2) (addPoint q q)
    if k % 2 == 1 then addPoint r q else r

/-- A public key is a point of the curve. -/
def onCurve (q : Nat × Nat) : Bool :=
  decide (q.1 < p521) && decide (q.2 < p521)
    && (q.2 * q.2) % p521 == (q.1 * q.1 * q.1 + (p521 - 3) * q.1 + b521) % p521

/-- ECDSA VERIFICATION of a digest (R15): the signature (r, s) under the public key `q`. -/
def ecdsaOk (q : Nat × Nat) (z r s : Nat) : Bool :=
  onCurve q && decide (0 < r) && decide (r < n521) && decide (0 < s) && decide (s < n521) && (
    let v := invMod n521 s
    match addPoint (mulPoint 521 (z * v % n521) (some g521)) (mulPoint 521 (r * v % n521) (some q)) with
    | some (x, _) => x % n521 == r
    | none => false)

/-- The signature of bytes under the key of a slot (R108): SIGR and SIGS are big-endian. The device may hold no key
in the slot. -/
def sigOk (signed : List Byte) (slot : Nat) (r s : List Byte) : Bool :=
  match Config.fwKey slot with
  | some q => ecdsaOk q (sha512 signed) (beNat r) (beNat s)
  | none => false

end Sys2Proof.Machine
end

