-- ==== Sys2Proof/Machine/Work.lean ====
section
/-! DEFINITION. Work from outside and its end: launch aperture (R323), ageing (R322), finish of workgroups
(R22), ordered adds (R257, R341), completion records (R187, R383), residency (R112). -/

namespace Sys2Proof.Machine

/-! ### Posted requests of the host (R286, R323, R365) -/

/-- Unit kind and number of an X-die in the violation log (R351). -/
def xdieKind : Nat := 6

/-- The X-die that carries the host's messages (assumption log 46). -/
def hostDie : Nat := 4

/-- Parts of a host access with their frames' types. -/
def State.hostParts (s : State) (addr n : Nat) : List Frag :=
  (parts16 addr n).map fun x => { off := x.1, size := x.2.1, va := x.2.2, pa := x.2.2, typ := (s.frame x.2.2).typ }

/-- A part that receives a completer abort (R365): outside the die's exposed memory, in an IP or a stranded
frame, or a store that the WS rules refuse. -/
def State.hostBad (s : State) (d : Nat) (write : Bool) (f : Frag) : Bool :=
  hbmDie f.pa != some d || isCwPa f.pa || f.typ == 3 || (s.frame f.pa).strand
    || (write && f.typ == 2 && (f.size != 16 || f.pa % 16 != 0 || s.wsBit f.pa))

/-- The lowest refused address logged with cause 1 (R365). -/
def State.hostRefuse (s : State) (d : Nat) (f : Frag) : State := s.logViolation d f.pa 1 xdieKind hostDie

/-- A write of device memory by the host (R365): accepted or refused whole; it waits while a frame is in transition or
the die is in reset. -/
def State.hostWrite (s : State) (d addr : Nat) (data : List Byte) : Put :=
  let fs := s.hostParts addr data.length
  if (s.die d).inReset then .wait s
  else match fs.find? (s.hostBad d true) with
    | some f => .ok (s.hostRefuse d f)
    | none =>
      if fs.any fun f => (s.frame f.pa).trans then .wait s
      else match s.unitPuts hostDie (fs.map fun f => (f, (data.drop f.off).take f.size)) with
        | .ok s1 => .ok s1
        | .wait _ => .wait (s.unitDup fs)

/-- A write of a launch aperture (R323, R367): one record enters the staging queue; a malformed write is logged with its
aperture offset. While staging, or the region's count (R186), is full, or the die is in reset, it waits. -/
def State.apertureWrite (s : State) (d off : Nat) (data : List Byte) : Put :=
  let x := s.die d
  if x.inReset then .wait s
  else if !x.qen.getLsbD 0 || data.length != 32 || off % 32 != 0 then .ok (s.logViolation d off 5 xdieKind hostDie)
  else
    let r := Record.ofBytes data
    if 64 ≤ x.staging.length || !countRoom s.dieItems d r.region then .wait s
    else .ok ((s.launchOn d r.region).modDie d fun x => { x with staging := x.staging ++ [r] })

/-- A posted request performed, or it waits. -/
def State.performPosted (s : State) (d : Nat) : Posted → Put
  | .mem a bs => s.hostWrite d a bs
  | .record off bs => s.apertureWrite d off bs

/-- The posted requests performed in order, up to the first that waits (R286). -/
def State.drain (s : State) : List (Nat × Posted) → State
  | [] => { s with posted := [] }
  | (d, p) :: r => match s.performPosted d p with
    | .ok s1 => State.drain s1 r
    | .wait s1 => { s1 with posted := (d, p) :: r }

/-- A request that the host posts: it comes after those that wait (R286). -/
def State.post (s : State) (d : Nat) (p : Posted) : State := s.drain (s.posted ++ [(d, p)])

/-- Requests that wait are tried again, when the oldest is for the die. -/
def State.drainFor (s : State) (d : Nat) : State :=
  match s.posted with
  | (e, _) :: _ => if e == d then s.drain s.posted else s
  | [] => s

/-! ### The launch aperture (R323) -/

/-- APERTURE_WRITE (R323). -/
def execApertureWrite (s : State) : Out := s.onEvent fun e s => match e with
  | .apertureWrite d off data => s.post d (.record off data)
  | _ => s

/-- APERTURE_STAGING_TRANSFER (R320, R323): the oldest staged record enters its ring when that has room. -/
def State.stagingTransfer (s : State) (d : Nat) : State :=
  match (s.die d).staging with
  | [] => s
  | r :: rs =>
    if s.ringRoom d r then
      let (id, s1) := s.newId
      (s1.modDie d fun x => { x with staging := rs }).enqueue d id r
    else s

/-- APERTURE_STAGING_TRANSFER (R323). -/
def execApertureStagingTransfer (s : State) : Out := s.onEvent fun e s => match e with
  | .apertureStagingTransfer d => s.stagingTransfer d
  | _ => s

/-! ### Ageing (R322) -/

/-- The level that holds a record. -/
def Die.levelHolding (x : Die) (id : Nat) : Option (Nat × QRec) :=
  (List.range 8).findSome? fun l => ((x.level l).find? fun q => q.id == id).map fun q => (l, q)

/-- RECORD_AGEING (R322): a record that has waited 800 ticks at its level moves one level up, and keeps its
age; `level` is the one that it entered. -/
def State.age (s : State) (d id : Nat) : State :=
  match (s.die d).levelHolding id with
  | none => s
  | some (l, q) =>
    if 7 ≤ l || (s.die d).ticks < q.since + 800 * (l - q.level + 1) then s
    else (s.dequeue d id).modDie d fun x =>
      { x with queues := Tab.put x.queues (l + 1) (insertAge (x.level (l + 1)) q) }

/-- RECORD_AGEING (R322). -/
def execRecordAgeing (s : State) : Out := s.onEvent fun e s => match e with
  | .recordAgeing d id => s.age d id
  | _ => s

/-! ### Finish of a workgroup (R22) -/

/-- A direct command of a workgroup is not complete at its engine. -/
def State.engineBusy (s : State) (wg : Nat) (w : Workgroup) : Bool :=
  (s.core w.loc).engine.queue.any fun c => c.wg == wg && c.task.isNone

/-- A `ldl` or `run.copy` command of a workgroup is not complete, or a tile task that it issued has not ended (R22, R262,
R275; assumption log 110). -/
def State.copiesBusy (s : State) (wg : Nat) : Bool :=
  (s.clusters.any fun c => (c.2.ladles.any fun q => q.2.any fun x => x.wg == wg) || c.2.tasks.any fun t => t.wg == wg)
    || s.xdies.any fun x => (x.2.queues.any fun q => q.2.any fun c => c.wg == wg) || x.2.active.any fun c => c.wg == wg

/-- A workgroup has finished (R22): no thread, no item, nothing in flight on any path (R275). -/
def State.wgOver (s : State) (wg : Nat) (w : Workgroup) : Bool :=
  !(s.groups.any fun g => g.2.wg == wg && !g.2.steward) && w.items.isEmpty && w.overflow.isEmpty
    && w.savedGroups.isEmpty && w.finishing.isNone && !(s.ops.any fun o => o.2.wg == wg)
    && !s.engineBusy wg w && !s.copiesBusy wg

/-- What a finished workgroup holds, released once (R22, R296). -/
def State.releaseWg (s : State) (wg : Nat) (w : Workgroup) : State :=
  if w.released then s
  else ((s.freeSpad w).freeEngine wg w).modWg wg fun w => { w with released := true }

/-- The fault of a finish decrement (R183, R345). -/
def Workgroup.joinTrap (w : Workgroup) (code : FCode) (pa : Nat) : TrapInfo :=
  { code, src := 7, region := some w.region, loc := w.loc, vaddr := w.join, paddr := pa, windex := w.index,
    obj := w.join }

/-- A faulting finish decrement waits on its record (R183, R349). -/
def State.joinFault (s : State) (wg : Nat) (w : Workgroup) (code : FCode) (pa : Nat) : State :=
  let (id, s1) := s.newId
  (s1.modWg wg fun w => { w with finishing := some id }).writeTrap (locDie w.loc) id (w.joinTrap code pa)
    (some (.wg wg))

/-- WORKGROUP_FINISH (R22): it releases what it holds, decrements JOIN as `join` does, and is gone. A block that is not
homed on the die raises ATTR before ALIAS, STRAND and VIOL (R183). -/
def State.finishWg (s : State) (wg : Nat) : State :=
  match s.wg? wg with
  | none => s
  | some w =>
    if !s.wgOver wg w then s
    else
      let s0 := s.releaseWg wg w
      if w.join == 0 then { s0 with wgs := Tab.del s0.wgs wg }
      else match s0.check (locDie w.loc) w.loc .writeAt rcSc (some (locCoreOfDie w.loc)) w.join.toNat with
        | (.stall, s1) => s1
        | (.fault c pa, s1) =>
          s1.joinFault wg w (if hbmDie pa != some (locDie w.loc) && 4 < c.rank then .attr else c) pa
        | (.ok pa _, s1) =>
          if hbmDie pa != some (locDie w.loc) then s1.joinFault wg w .attr pa
          else if isCwPa pa then
            (s1.logViolation (locDie w.loc) pa 1 0 w.loc).joinFault wg w .viol pa
          else match s1.joinAt (locDie w.loc) pa (w.joinTrap .ill pa) none with
            | .ok s2 => { s2 with wgs := Tab.del s2.wgs wg }
            | .wait s2 => s2

/-- WORKGROUP_FINISH (R22). -/
def execWorkgroupFinish (s : State) : Out := s.onEvent fun e s => match e with
  | .workgroupFinish wg => s.finishWg wg
  | _ => s

/-! ### Ordered adds (R257, R341) -/

/-- Key order of two items (R257). -/
def OrdItem.before (a b : OrdItem) : Bool :=
  decide (a.windex < b.windex) || (a.windex == b.windex
    && (decide (a.rank < b.rank) || (a.rank == b.rank && decide (a.count < b.count))))

/-- An item put among sorted ones. -/
def insertOrd (x : OrdItem) : List OrdItem → List OrdItem
  | [] => [x]
  | y :: r => if y.before x then y :: insertOrd x r else x :: y :: r

/-- Items in ascending key. Two items may bear one key, as from two groups of a workgroup: R257 breaks no such tie, and
the model combines them in the order in which they entered the queue (DESIGN CHOICE, assumption log 125). -/
def sortOrd (l : List OrdItem) : List OrdItem := l.foldr insertOrd []

/-- The sum that combination writes at an address (R257). -/
def combineAt (m : Word) (l : List OrdItem) : Word := (sortOrd l).foldl
  (fun v x => BitVec.ofNat 32 (fAddB fmt32b .rne v.toNat x.value.toNat 0).1) m

/-- One address of a slice combined, performed at package scope. -/
def State.combineOne (s : State) (l : List OrdItem) (pa : Nat) : State :=
  ((s.dropCopies pa).getD s).homeWrite pa (leBytes 4 (combineAt (BitVec.ofNat 32 (s.readPaLe pa 4)) (l.filter fun x => x.pa == pa)).toNat)
    none

/-- ORDERED_ADD_COMBINE (R257): the region's counts on the issuing dies are zero; every item of the region
at the slice is combined, address by address, and leaves the queue. -/
def State.combine (s : State) (d sl r : Nat) : State :=
  let mine := fun x : OrdItem => x.region == r && homeSlice x.pa == sl
  let l := (s.die d).ordq.filter mine
  if l.isEmpty || l.any fun x => s.regionItems x.die r != 0 then s
  else
    let pas := distinct (l.map fun x => x.pa)
    match pas.find? fun pa => (s.dupStall pa).isSome || (s.dropCopies pa).isNone with
    | some pa => (s.dupStall pa).getD s
    | none =>
      (pas.foldl (fun s pa => s.combineOne l pa) s).modDie d fun x =>
        { x with ordq := x.ordq.filter fun y => !mine y }

/-- ORDERED_ADD_COMBINE (R257). -/
def execOrderedAddCombine (s : State) : Out := s.onEvent fun e s => match e with
  | .orderedAddCombine d sl r => s.combine d sl r
  | _ => s

/-! ### Completion records (R187, R383) -/

/-- Home die of a region (R16). -/
def State.homeOf (s : State) (r : Nat) : Nat :=
  match State.dies4.findSome? fun d => s.rgn? d r with
  | some b => b.home
  | none => 0

/-- A region's subtree holds an item, an ordered add that is not combined, or below it a completion record that a
fault holds (R17, R257, R383). -/
def State.treeBusy (s : State) (r : Nat) : Bool :=
  (s.items.any fun x => s.killed r x.2) || (s.dies.any fun d => d.2.ordq.any fun x => s.killed r x.region)
    || s.regionRuns.any fun x => x.1 != r && x.2.party.isSome && s.killed r x.1

/-- The completion record of a launch (R187). -/
def State.completionBytes (s : State) (d r : Nat) : List Byte :=
  let x := s.run r
  leBytes 2 r ++ leBytes 2 (if x.killed then 1 else 0) ++ leBytes 4 x.faults ++ leBytes 8 (s.die d).ticks
    ++ leBytes 8 (x.seq + 1) ++ leBytes 8 0

/-- The launch is over and reported: the region's interrupt (R187, R364). -/
def State.reported (s : State) (d r : Nat) : State :=
  let s1 := s.modRun r fun x => { x with active := false, seq := x.seq + 1 }
  match s.rgn? d r with
  | some b => if b.irqen && b.irqVec ≤ 2047 then { s1 with irqs := s1.irqs ++ [2048 * d + b.irqVec] } else s1
  | none => s1

/-- A fault of the write of a completion record (R383): its address is logged, the region's fault queue has the record,
and the report waits for the answer. -/
def State.reportFault (s : State) (d r : Nat) (b : RgnBlock) (code : FCode) (pa : Nat) : State :=
  let (id, s1) := (s.logUnit d 1 0 code pa).newId
  (s1.modRun r fun x => { x with party := some id }).writeTrap d id
    { code, src := 9, region := some r, vaddr := b.crec, paddr := pa } (some (.tree r))

/-- COMPLETION_REPORT (R187, R383): the record is written on the home die; a fault of the write is reported
and holds the report. `error`: the write meets an error response once its checks have passed, which is a VIOL as for any
store (R246; assumption log 132). -/
def State.report (s : State) (r : Nat) (error : Bool) : State :=
  let d := s.homeOf r
  if !(s.run r).active || (s.run r).party.isSome || s.treeBusy r then s
  else match s.rgn? d r with
    | none => s
    | some b =>
      if b.crec == 0 then s.reported d r
      else
        let c := s.unitRange d (2048 + d) { acc := .write, write := true, size := 32 } b.crec.toNat 32
        if c.stall then c.s
        else match worst c.hits with
          | some (code, _, _, pa) => c.s.reportFault d r b code pa
          | none =>
            let bs := s.completionBytes d r
            if error then c.s.reportFault d r b .viol ((c.frags.head?.map fun f => f.pa).getD 0)
            else match c.s.unitPuts d (c.frags.map fun f => (f, (bs.drop f.off).take f.size)) with
            | .wait _ => c.s.unitDup c.frags
            | .ok s1 => s1.reported d r

/-- COMPLETION_REPORT (R187). -/
def execCompletionReport (s : State) : Out := s.onEvent fun e s => match e with
  | .completionReport r => s.report r false
  | .completionError r => s.report r true
  | _ => s

/-! ### Residency (R112) -/

/-- A path that an exchange may take for not ready (R112): at a barrier, in a `waita`, held, at a `gate.wait`
that does not hold, or waiting for lumens. -/
def State.idlePath (s : State) (g : Group) (p : Path) : Bool :=
  let idle := fun v : Wait => match v with
    | .bar _ => true
    | .op id => (match s.op? id with
      | some o => (match o.instr with
        | .waitaEq _ | .waitaNe _ => true
        | _ => false)
      | none => false)
    | .trap _ | .enq _ | .none => false
  p.hold.isSome || (p.waits.any fun x => idle x.2)
    || (p.free && (p.lumBlocked || (match (s.fetch g p).1 with
      | .instr (.gateWait f) =>
        let e : Env := ⟨s.wgOf g, Tab.getD g.threads (lowRank p.mask) {}, lowRank p.mask, extVal f.x⟩
        decide ((Tab.getD (s.die (locDie g.loc)).gates ((e.word f.a).toNat % 4096) 0).toNat < (e.word f.b).toNat)
      | _ => false)))

/-- A stored group made resident by an exchange (R112). -/
def State.loadGroup (s : State) (gid : Nat) (g : Group) : State :=
  (s.bringBack gid g).modCore g.loc fun c => { c with perf := bump c.perf 0x108 1 }

/-- RESIDENCY_EXCHANGE (R112): a group that is not ready gives its place to a stored one that then fits. -/
def State.exchange (s : State) (loc out inn : Nat) : State :=
  match s.group? out, s.group? inn with
  | some g, some h =>
    if g.loc == loc && h.loc == loc && !g.steward && !h.steward && !g.stored && h.stored
        && stageOf g.slot == stageOf h.slot && !g.paths.isEmpty && (g.paths.all fun p => s.idlePath g p)
        && s.stageWords loc (stageOf g.slot) + s.groupWords h ≤ 2048 + s.groupWords g
    then (s.storeGroup out g).loadGroup inn h
    else s
  | _, _ => s

/-- RESIDENCY_EXCHANGE (R112). -/
def execResidencyExchange (s : State) : Out := s.onEvent fun e s => match e with
  | .residencyExchange loc out inn => s.exchange loc out inn
  | _ => s

/-- The resident group of a stage that issued least recently (R112). -/
def State.leastRecent (s : State) (loc st : Nat) : Option (Nat × Group) :=
  (s.stageGroups loc st).foldl (fun b e => if e.2.stored || e.2.paths.any (fun p => p.chain.isSome) then b
    else match b with
      | none => some e
      | some x => if e.2.lastIssue < x.2.lastIssue then some e else b) none

/-- Groups of a stage stored until `n` words fit (R112): the one that issued least recently, and where its words do
not suffice further ones in that order; R112 names one group only (DESIGN CHOICE, assumption log 122). -/
def State.makeRoom (s : State) (loc st n : Nat) : Nat → State
  | 0 => s
  | fuel + 1 =>
    if s.stageWords loc st + n ≤ 2048 then s
    else match s.leastRecent loc st with
      | none => s
      | some (gid, g) => State.makeRoom (s.storeGroup gid g) loc st n fuel

/-- RESIDENCY_TIMEOUT (R112): 2,048 F-cycles have passed since the group was stored. -/
def State.timeout (s : State) (loc inn : Nat) : State :=
  match s.group? inn with
  | none => s
  | some h =>
    if h.loc != loc || !h.stored then s
    else
      let s1 := s.makeRoom loc (stageOf h.slot) (s.groupWords h) 24
      if s1.stageWords loc (stageOf h.slot) + s.groupWords h ≤ 2048 then s1.loadGroup inn h else s

/-- RESIDENCY_TIMEOUT (R112). -/
def execResidencyTimeout (s : State) : Out := s.onEvent fun e s => match e with
  | .residencyTimeout loc inn => s.timeout loc inn
  | _ => s

end Sys2Proof.Machine
end

