-- ==== Sys2Proof/Machine/Time.lean ====
section
/-! DEFINITION. The lumen ring (R188 to R192), budgets (R13), grants and droop (R195, R196), reference ticks
and watchdogs (R197), hot-frame lists (R199). -/

namespace Sys2Proof.Machine

/-! ### Revolutions (R188 to R192) -/

/-- T of R189: lumens of one revolution for a budget in quarter watts and a ring frequency in MHz. -/
def injection (budget ringf : Nat) : Nat := max 240 budget * 500000 / ringf

/-- V of R189. -/
def reserveOf (t : Nat) : Nat := t / 8

/-- A path that waits for lumens, and neither waits for anything else nor is held. -/
def Path.lumReady (p : Path) : Bool := p.lumBlocked && p.free && p.hold.isNone

/-- The paths of a group can issue but for what each of them waits for (R85, R112, R170, R348). -/
def State.ready (s : State) (gid : Nat) (g : Group) : Bool :=
  !g.stored && !(s.wgOf g).stopped && !g.entryDue && !s.stageKept gid g

/-- Some path's next instruction is ready except for lumens (R192). -/
def State.lumReady (s : State) (gid : Nat) (g : Group) : Bool := s.ready gid g && g.paths.any Path.lumReady

/-- Groups of a core that wait for lumens, by ascending slot (R192). -/
def State.lumWaiters (s : State) (loc : Nat) : List (Nat × Group) :=
  (List.range 48).flatMap fun k => s.groups.filter fun e =>
    e.2.loc == loc && !e.2.steward && e.2.slot == k && s.lumReady e.1 e.2

/-- The boundary counted on the paths that wait for lumens (R192). -/
def Group.lumCount (g : Group) : Group :=
  { g with paths := g.paths.map fun p => if p.lumReady then { p with lumWait := p.lumWait + 1 } else p }

/-- Lumen waits of a core counted at a boundary; parties that reach 4 starve, the engine last (R192). -/
def State.countWaits (s : State) (loc : Nat) : State :=
  let ws := s.lumWaiters loc
  let e := (s.core loc).engine
  let new := (ws.filter fun x => x.2.lumCount.starves).map (fun x => x.1 + 1)
    ++ (if e.lumBlocked && e.lumWait + 1 == 4 then [0] else [])
  let s1 := ws.foldl (fun s x => s.modGroup x.1 Group.lumCount) s
  let q := s1.starving loc ++ new.filter fun p => !(s1.starving loc).contains p
  s1.modCore loc fun c =>
    { c with starveQ := q, flagged := !q.isEmpty,
             engine := if e.lumBlocked then { c.engine with lumWait := e.lumWait + 1 } else c.engine,
             perf := if q.isEmpty then c.perf else bump c.perf 0x106 1 }

/-- Cores of a die that hold something. -/
def State.coresOf (s : State) (d : Nat) : List Nat :=
  distinct ((s.cores.map fun c => c.1) ++ s.groups.map fun g => g.2.loc) |>.filter fun l => locDie l == d && l < stewardLoc

/-- Pools of a die at a boundary (R189, R190, R224, R369): what is left expires, pending prices, budget and
ring frequency take effect, lumens are injected; `k` cores are flagged. -/
def Die.inject (x : Die) (k : Nat) : Die :=
  let f := x.ringfPend.getD x.ringf
  let t := injection x.budgetNext f
  let v := reserveOf t
  { x with
    ringf := f, ringfPend := none, budgetInForce := x.budgetNext
    prices := x.pricePend.foldl (fun p e => Tab.put p e.1 e.2) x.prices, pricePend := []
    injected := t, openPool := t - v, reservePool := v, share := if k == 0 then 0 else v / k
    lumUsed := [], ringPos := 0, revolutions := x.revolutions + 1
    perf := bump (bump x.perf 0x1001 1) 0x1002 (x.openPool + x.reservePool) }

/-- REVOLUTION_BOUNDARY (R188 to R192): the ring stands at position 128, or before its first revolution. -/
def State.boundary (s : State) (d : Nat) : State :=
  if (s.die d).inReset || ((s.die d).ringPos < 128 && (s.die d).revolutions != 0) then s
  else
    let cs := s.coresOf d
    let s1 := cs.foldl (fun s l => s.countWaits l) s
    s1.modDie d fun x => x.inject (cs.filter fun l => (s1.core l).flagged).length

/-- REVOLUTION_BOUNDARY (R189). -/
def execRevolutionBoundary (s : State) : Out := s.onEvent fun e s => match e with
  | .revolutionBoundary d => s.boundary d
  | _ => s

/-- RING_CYCLE_DRAW (R190): the pools pass the core at the ring's position. -/
def State.draw (s : State) (d : Nat) : State :=
  let x := s.die d
  if x.inReset || 128 ≤ x.ringPos || x.revolutions == 0 then s
  else
    let loc := 256 * d + x.ringPos
    let c := s.core loc
    let r := if c.flagged then min (min x.share (8192 - c.purse)) x.reservePool else 0
    let o := min x.openPool (8192 - (c.purse + r))
    (s.modDie d fun x =>
      { x with ringPos := x.ringPos + 1, openPool := x.openPool - o, reservePool := x.reservePool - r,
               perf := bump x.perf 0x1003 r }).modCore loc fun c =>
      { c with purse := c.purse + r + o, perf := bump c.perf 0x105 (r + o) }

/-- RING_CYCLE_DRAW (R190). -/
def execRingCycleDraw (s : State) : Out := s.onEvent fun e s => match e with
  | .ringCycleDraw d => s.draw d
  | _ => s

/-- BUDGET_INTERVAL (R13): every die's budget for the next interval, from the draw P of the rest in watts: the spec
gives P no resolution, and a budget in force is a multiple of a quarter watt (assumption log 101). -/
def State.setBudgets (s : State) (p : Nat) : State :=
  let v := min 1680 (1800 - p)
  State.dies4.foldl (fun s d => s.modDie d fun x => { x with budgetNext := min (4 * x.budget) v })
    { s with powerDraw := p }

/-- BUDGET_INTERVAL (R13). -/
def execBudgetInterval (s : State) : Out := s.onEvent fun e s => match e with
  | .budgetInterval p => s.setBudgets p
  | _ => s

/-! ### Bank grants and droop (R195, R196) -/

/-- GRANT_LEVEL_CHANGE (R195): 64, 48, 32 or 16 bank reads. -/
def State.setGrant (s : State) (loc g : Nat) : State :=
  if [16, 32, 48, 64].contains g then (s.runCycles loc).modCore loc fun c => { c with grant := g } else s

/-- GRANT_LEVEL_CHANGE (R195). -/
def execGrantLevelChange (s : State) : Out := s.onEvent fun e s => match e with
  | .grantLevelChange loc g => s.setGrant loc g
  | _ => s

/-- A result of an operation stands in the droop window (R45, R196): it is confirmed, logged, and gives a
register or a predicate. -/
def Op.inWindow (o : Op) : Bool :=
  o.stage == .confirmed && !o.aside && o.logix.isSome && (!o.dests.isEmpty || o.predDest.isSome)

/-- A core in the window of a droop: its next `n` results at LANE, and the one that its engine has in hand if `eng`, are
suspect (R45, R196, R313). -/
def Core.droopNext (n : Nat) (eng : Bool) (c : Core) : Core :=
  { c with droops := if n == 0 then c.droops else c.droops ++ [n]
           engine := if eng then { c.engine with stepFails := (c.engine.stepFails ++ [1]).take 2 } else c.engine }

/-- The window of a droop on a core: how many results of its two issue stages fall in 4 lane cycles is open, up to 8
(assumption log 7), and whether one of its engine does (assumption log 68). -/
def State.droopCore (s : State) (loc : Nat) : State :=
  let (k, s1) := s.freeWord
  s1.modCore loc (Core.droopNext (k.toNat % 9) (k.getLsbD 8))

/-- A core whose droops are over. -/
def Core.droopOver (c : Core) : Core :=
  { c with droops := [], engine := { c.engine with stepFails := c.engine.stepFails.filter (· != 1) } }

/-- DROOP_REPORT (R196): results in the window are suspect, the droop hold begins. -/
def State.droopReport (s : State) (ck : Nat) : State :=
  let d := ck / 32
  let mark := fun (_ : Nat) (o : Op) =>
    if locCluster o.loc == ck && o.loc < stewardLoc && o.inWindow then { o with suspect := some 1 } else o
  let s1 := [0, 1, 2, 3].foldl (fun s k => s.droopCore (clusterLoc ck k))
    { s with ops := Tab.mapV s.ops mark }
  (s1.modCluster ck fun c => { c with droop := true, droopAt := (s.die d).ticks }).modDie d fun x =>
    { x with perf := bump x.perf 0x1000 1 }

/-- DROOP_REPORT (R196). -/
def execDroopReport (s : State) : Out := s.onEvent fun e s => match e with
  | .droopReport c => s.droopReport c
  | _ => s

/-- DROOP_HOLD_END (R196): not before 64 ticks have passed; the windows are past by then. -/
def State.droopEnd (s : State) (ck : Nat) : State :=
  if (s.cluster ck).droop && (s.cluster ck).droopAt + 64 ≤ (s.die (ck / 32)).ticks then
    ([0, 1, 2, 3].foldl (fun s k => s.modCore (clusterLoc ck k) Core.droopOver) s).modCluster ck fun c =>
      { c with droop := false }
  else s

/-- DROOP_HOLD_END (R196). -/
def execDroopHoldEnd (s : State) : Out := s.onEvent fun e s => match e with
  | .droopHoldEnd c => s.droopEnd c
  | _ => s

/-! ### Ticks and watchdogs (R197) -/

/-- F of a cluster that watchdogs call nominal (R10). -/
def nominalF : Nat := 1200

/-- A group does nothing but wait for lumens, or waits otherwise without being ready. -/
def Group.onlyLumens (g : Group) : Bool :=
  g.paths.all fun p => p.lumBlocked || !p.free || p.hold.isSome

/-- A workgroup waits only for lumens, and none of it has issued since the last tick (R197). -/
def State.lumensHold (s : State) (wg : Nat) : Bool :=
  let gs := s.groups.filter fun g => g.2.wg == wg && !g.2.steward
  (gs.any fun g => s.lumReady g.1 g.2) && (gs.all fun g => g.2.onlyLumens) && !(gs.any fun g => g.2.sinceTick)

/-- One tick of a watchdog: accumulator, held ticks, ticks at reduced clock (R197). -/
def pacedTick (held : Bool) (f : Nat) (w : Nat × Nat × Nat) : Nat × Nat × Nat :=
  let (acc, hold, slow) := w
  if held then (acc, hold + 1, slow)
  else (acc + 256 * f / nominalF, hold, if f < nominalF then slow + 1 else slow)

/-- The tick of a workgroup's watchdog. -/
def State.wgTick (s : State) (wg : Nat) (w : Workgroup) : Workgroup :=
  let c := s.cluster (locCluster w.loc)
  let (a, h, l) := pacedTick (c.droop || s.lumensHold wg) c.freq (w.wdogAcc, w.wdogHeld, w.wdogSlow)
  { w with wdogAcc := a, wdogHeld := h, wdogSlow := l }

/-- The tick of an engine, and of its watchdog while a task runs on it. -/
def State.engTick (s : State) (loc : Nat) (e : Engine) : Engine :=
  match e.owner with
  | .task _ =>
    let c := s.cluster (locCluster loc)
    let (a, h, l) := pacedTick (c.droop || (e.lumBlocked && !e.stepped)) nominalF (e.wdogAcc, e.wdogHeld, e.wdogSlow)
    { e with wdogAcc := a, wdogHeld := h, wdogSlow := l, stepped := false }
  | _ => { e with stepped := false }

/-- The tick of the steward cores' watchdogs, which C-die 0's ticks drive (assumption log 42). -/
def Xdie.tick (x : Xdie) : Xdie :=
  { x with wdog := [0, 1, 2, 3].map fun c => (c, Tab.getD x.wdog c 0 + 256) }

/-- REFERENCE_TICK (R165, R197, R332): the tick count of a die and its watchdogs. -/
def State.tick (s : State) (d : Nat) : State :=
  let s1 : State := { s with
    wgs := Tab.mapV s.wgs fun id w => if locDie w.loc == d then s.wgTick id w else w
    cores := Tab.mapV s.cores fun loc c =>
      if locDie loc == d then { c with engine := s.engTick loc c.engine } else c
    groups := Tab.mapV s.groups fun _ g => if locDie g.loc == d then { g with sinceTick := false } else g
    xdies := if d == 0 then [(4, (s.xdie 4).tick), (5, (s.xdie 5).tick)] else s.xdies }
  (s1.modDie d fun x => { x with ticks := x.ticks + 1 }).noteOldest d

/-- REFERENCE_TICK (R197). -/
def execReferenceTick (s : State) : Out := s.onEvent fun e s => match e with
  | .referenceTick d => s.tick d
  | _ => s

/-- DETAIL of a WDOG record (R346). -/
def wdogDetail (held slow : Nat) : DWord := BitVec.ofNat 64 (held % 2 ^ 32 + 2 ^ 32 * (slow % 2 ^ 32))

/-- WORKGROUP_WDOG_EXPIRY (R197): an interval of 0 disables the watchdog. -/
def State.wgWdog (s : State) (wg : Nat) : State :=
  match s.wg? wg with
  | none => s
  | some w =>
    let i := match s.rgn? (locDie w.loc) w.region with
      | some b => b.wdog
      | none => 0
    if i == 0 || w.wdogFired || w.wdogAcc < 256 * i then s
    else
      let (id, s1) := s.newId
      (s1.modWg wg fun w => { w with wdogFired := true }).writeTrap (locDie w.loc) id
        { code := .wdog, src := 8, region := some w.region, loc := w.loc, windex := w.index,
          detail := wdogDetail w.wdogHeld w.wdogSlow } (some (.wg wg))

/-- WORKGROUP_WDOG_EXPIRY (R197). -/
def execWorkgroupWdogExpiry (s : State) : Out := s.onEvent fun e s => match e with
  | .workgroupWdogExpiry wg => s.wgWdog wg
  | _ => s

/-- ENGINE_TASK_WDOG_EXPIRY (R197, R343): the task ends, its tiles scrubbed, its gate not advanced. -/
def State.engWdog (s : State) (loc : Nat) : State :=
  let e := (s.core loc).engine
  match e.owner with
  | .task id => match s.task? id with
    | none => s
    | some (_, t) =>
      if e.wdogAcc < 256 * 100000 then s
      else
        let (rec_, s1) := s.newId
        (s1.failTask id).writeTrap (locDie loc) rec_
          { code := .wdog, src := 2, info := true, region := some t.region, loc, pc := t.pc, obj := t.addr,
            windex := (s.issuer t.wg t.gid).1, gindex := (s.issuer t.wg t.gid).2,
            detail := wdogDetail e.wdogHeld e.wdogSlow } none
  | _ => s

/-- ENGINE_TASK_WDOG_EXPIRY (R197). -/
def execEngineTaskWdogExpiry (s : State) : Out := s.onEvent fun e s => match e with
  | .engineTaskWdogExpiry loc => s.engWdog loc
  | _ => s

/-- STEWARD_WDOG_EXPIRY (R197): the steward core is reset, what it ran is gone (assumption log 43), and the
reset is reported. Its ticks are those of a die that has no droop detector, at the reference clock: none is held,
none at reduced clock (R10). -/
def State.stewardWdog (s : State) (x c : Nat) : State :=
  if Tab.getD (s.xdie x).wdog c 0 < 256 * 10000000 then s
  else
    let loc := stewardLoc + 4 * (x - 4) + c
    ({ s with
      groups := s.groups.filter fun g => g.2.loc != loc
      ops := s.ops.filter fun o => o.2.loc != loc }.modXdie x fun y =>
        { y with wdog := Tab.put y.wdog c 0 }).postReport (.stewardReset x c 0 0)

/-- STEWARD_WDOG_EXPIRY (R197). -/
def execStewardWdogExpiry (s : State) : Out := s.onEvent fun e s => match e with
  | .stewardWdogExpiry x c => s.stewardWdog x c
  | _ => s

/-! ### Hot frames (R199) -/

/-- A candidate (frame, estimate) put among those of higher estimate, or equal estimate and lower frame. -/
def insertHot (x : Nat × Nat) : List (Nat × Nat) → List (Nat × Nat)
  | [] => [x]
  | y :: r => if y.2 < x.2 || (y.2 == x.2 && x.1 < y.1) then x :: y :: r else y :: insertHot x r

/-- The list of a controller in the order in which it is written (R199). -/
def hotList (l : List (Nat × Nat)) : List (Nat × Nat) := l.foldr insertHot []

/-- The bytes of a list (R199): frame in bits 30:0, estimate in bits 47:32. -/
def hotBytes (l : List (Nat × Nat)) : List Byte :=
  (hotList l).flatMap fun x => leBytes 8 (x.1 % 2 ^ 31 + 2 ^ 32 * (x.2 % 65536))

/-- HOTNESS_INTERVAL_END (R199): the lists of the 32 controllers are written, counters and candidates return
to 0. -/
def State.hotEnd (s : State) (d : Nat) : State :=
  let x := s.die d
  let s1 := x.hotCand.foldl (fun s u =>
    s.devWrite d (x.hotBase.toNat + 256 * u.1) (hotBytes (u.2.map fun n => (n, x.hotEst u.1 n)))) s
  s1.modDie d fun x => { x with hot := [], hotCand := [] }

/-- HOTNESS_INTERVAL_END (R199). -/
def execHotnessIntervalEnd (s : State) : Out := s.onEvent fun e s => match e with
  | .hotnessIntervalEnd d => s.hotEnd d
  | _ => s

end Sys2Proof.Machine
end

