-- ==== Sys2Proof/Machine/Package.lean ====
section
/-! DEFINITION. The package and its host: host accesses (R365), links (R373, R374), dies taken offline
(R375), loss of power (R376), resets (R370 to R372), the mailbox. -/

namespace Sys2Proof.Machine

/-! ### Host accesses (R286, R365) -/

/-- HOST_WRITE (R365). -/
def execHostWrite (s : State) : Out := s.onEvent fun e s => match e with
  | .hostWrite d a data => s.post d (.mem a data)
  | .hostPosted d => s.drainFor d
  | _ => s

/-- Bytes from an address up as the device's own tables give them (assumption log 111). -/
def State.withTables (s : State) (a : Nat) : List Byte → List Byte
  | [] => []
  | b :: bs => (s.tableByte a).getD b :: State.withTables s (a + 1) bs

/-- HOST_READ (R365): the bytes go to the host; a refused read returns none. -/
def State.hostRead (s : State) (d addr n : Nat) : State :=
  let fs := s.hostParts addr n
  if (s.die d).inReset then s
  else match fs.find? (s.hostBad d false) with
    | some f => { s.hostRefuse d f with hostReads := s.hostReads ++ [[]] }
    | none =>
      if fs.any fun f => (s.frame f.pa).trans then s
      else match s.unitReads hostDie fs with
        | some (bs, s1) => { s1 with hostReads := s1.hostReads ++ [s.withTables addr bs] }
        | none => s

/-- Registers of the control window that the mirror in BAR2 shows as zero: TRAPACK and PREQ (R364, R367). -/
def writeOnly (o : Nat) : Bool := o == 0x48 || o == 0x50

/-- The bytes of a read of BAR2, the mirror of a die's control window (R364): a register at its own width, zero in a
photonic block; what is no register, or another width, reads as zero (assumption log 113). -/
def State.bar2Bytes (s : State) (d off n : Nat) : List Byte :=
  if cwWidth off == some n && off < 0x10000 && !writeOnly off then leBytes n (s.cwRead d off).1 else List.replicate n 0

/-- The failure record (R372). -/
def failureBytes (f : Failure) : List Byte :=
  leBytes 4 0x4E434542 ++ leBytes 1 f.step ++ leBytes 1 f.kind ++ leBytes 2 f.unit ++ leBytes 4 f.code
    ++ leBytes 20 0

/-- `n` bytes of a record repeated, from an offset (R372). -/
def repeated (l : List Byte) (off n : Nat) : List Byte := (List.range n).map fun k => l.getD ((off + k) % l.length) 0

/-- A read of a BAR by the host (R323, R364): in the beacon state every one returns the failure record, repeated
(R372). -/
def State.barRead (s : State) (off n : Nat) (bs : List Byte) : State :=
  { s with hostReads := s.hostReads ++ [match s.power with
      | .beacon f => repeated (failureBytes f) off n
      | _ => bs] }

/-- HOST_READ (R365); a read of the launch aperture returns zeros (R323). -/
def execHostRead (s : State) : Out := s.onEvent fun e s => match e with
  | .hostRead d a n => s.hostRead d a n
  | .apertureRead _ off n => s.barRead off n (List.replicate n 0)
  | .bar2Read d off n => s.barRead off n (s.bar2Bytes d off n)
  | _ => s

/-! ### A die offline (R375) -/

/-- The die goes offline: TRANS on every frame of it. -/
def State.takeOffline (s : State) (d : Nat) : State :=
  if (s.die d).offline then s
  else s.modDie d fun x =>
    { x with offline := true, transAll := true,
             frames := Tab.mapV x.frames fun _ f => { f with trans := true } }

/-- A frame without a destination is stranded, and reported. -/
def State.strandFrame (s : State) (d n : Nat) : State :=
  if (s.die d).offline && hbmDie (n * Config.frameBytes) == some d then
    (s.modFrame (n * Config.frameBytes) fun f => { f with strand := true, trans := false }).postReport (.stranded d n)
  else s

/-- DIE_OFFLINE (R375): the die is taken offline; `strand` lists frames found to have no destination. -/
def State.offlineDie (s : State) (d : Nat) (strand : List Nat) : State :=
  strand.foldl (fun s n => s.strandFrame d n) (s.takeOffline d)

/-- DIE_OFFLINE (R375). -/
def execDieOffline (s : State) : Out := s.onEvent fun e s => match e with
  | .dieOffline d ns => s.offlineDie d ns
  | _ => s

/-! ### Links and reserves (R373, R374) -/

/-- The die that a link takes offline (assumption log 45). -/
def linkDie (d e : Nat) : Nat := if d < 4 then d else e

/-- The width below a number of data lanes (R374). -/
def nextWidth (n : Nat) : Nat := if n > 24 then 24 else if n > 16 then 16 else 8

/-- A link retrains: its ordered traffic is held (R374). -/
def State.retrain (s : State) (k : Nat) : State :=
  if s.linkDown.contains k then s else { s with linkDown := s.linkDown ++ [k] }

/-- LANE_LOSS (R374): a reserve lane, or the next width; a link at 8 lanes takes its die offline. -/
def State.loseLane (s : State) (d e : Nat) : State :=
  let k := 8 * d + e
  let r := Tab.getD s.linkReserve k 2
  let n := Tab.getD s.linkLanes k 32
  if r != 0 then
    ({ s with linkReserve := Tab.put s.linkReserve k (r - 1) }.retrain k).postReport (.substituted d 2 e)
  else if n == 8 then s.takeOffline (linkDie d e)
  else { s with linkLanes := Tab.put s.linkLanes k (nextWidth n) }.retrain k

/-- LANE_LOSS (R374). -/
def execLaneLoss (s : State) : Out := s.onEvent fun e s => match e with
  | .laneLoss d f => s.loseLane d f
  | _ => s

/-- LINK_RETRAIN_DONE (R374): the traffic goes on. -/
def execLinkRetrainDone (s : State) : Out := s.onEvent fun e s => match e with
  | .linkRetrainDone d f => { s with linkDown := s.linkDown.filter (· != 8 * d + f) }
  | _ => s

/-- A reserve cluster (kind 0) or slice (kind 1) brought in for a logical unit: the physical unit after those in
service takes its place at the next reset of the die (R8, R373). -/
def State.bringIn (s : State) (d kind unit : Nat) : State :=
  let k := Tab.getD (s.die d).reserves kind 0
  if k < 2 then
    (s.modDie d fun x =>
      { x with reserves := bump x.reserves kind 1
               unitsNext := Tab.put x.unitsNext (128 * kind + unit) ((if kind == 0 then 32 else 64) + k) }).postReport
      (.substituted d kind unit)
  else s

/-- The mapping of logical to physical units that a reset of the die fixes (R8). -/
def Die.remap (x : Die) : Die :=
  { x with units := x.unitsNext.foldl (fun t e => Tab.put t e.1 e.2) x.units, unitsNext := [] }

/-- The physical unit of a logical cluster (kind 0) or slice (kind 1) (R8). -/
def Die.unit (x : Die) (kind n : Nat) : Nat := Tab.getD x.units (128 * kind + n) n

/-- CORRECTED_ERROR_WINDOW (R373): kinds 0 cluster, 1 slice, 2 lane of the link to die `unit`, 3 ring of port
`unit`, whose replacement is the service group's. -/
def State.errorWindow (s : State) (d kind unit count : Nat) : State :=
  if kind == 2 then (if 1000 ≤ count && unit < 6 && unit != d && !(4 ≤ d && 4 ≤ unit) then s.loseLane d unit else s)
  else if 4 ≤ d then s
  else if kind == 3 then
    let s1 := s.modPort d unit fun p => { p with losses := 0, retrans := [] }
    if 16 ≤ count then s1.postReport (.substituted d 3 unit) else s1
  else if (kind == 0 && unit < 32 || kind == 1 && unit < 64) && 64 ≤ count then s.bringIn d kind unit
  else s

/-- CORRECTED_ERROR_WINDOW (R373). -/
def execCorrectedErrorWindow (s : State) : Out := s.onEvent fun e s => match e with
  | .correctedErrorWindow d k u n => s.errorWindow d k u n
  | _ => s

/-! ### Loss of power (R376) -/

/-- POWER_LOSS (R376): compute stops at once. -/
def execPowerLoss (s : State) : Out := s.onEvent fun _ s => { s with power := .lost }

/-- HBM stack of a physical address (R231) and its offset there. -/
def stackOf (pa : Nat) : Nat × Nat :=
  let o := pa % (Config.framesPerDie * Config.frameBytes)
  (o / 2 ^ 16 % 2, o / 2 ^ 17 * 2 ^ 16 + o % 2 ^ 16)

/-- Bytes of a stack: 48 GiB. -/
def stackBytes : Nat := 48 * 2 ^ 30

/-- Safe-tier offset of the checkpoint header: 1 TiB. -/
def ckptBase : Nat := 2 ^ 40

/-- Stack `t` of die `d` in the safe tier. -/
def stackAt (d t : Nat) : Nat := ckptBase + 2 ^ 30 + (2 * d + t) * stackBytes

/-- The safe tier with one stack copied. -/
def copyStack (safe mem : Memory) (d t : Nat) : Memory :=
  let a := stackAt d t
  let new : Memory := (List.filter (fun c : Host.Cell => (stackOf c.1).1 == t) mem).map fun c =>
    (a + (stackOf c.1).2, c.2)
  List.filter (fun c : Host.Cell => decide (c.1 < a)) safe ++ new
    ++ List.filter (fun c : Host.Cell => decide (a + stackBytes ≤ c.1)) safe

/-- The cells of `n` bytes from a base register up that the device's tables fill in the HBM of die `d`. -/
def State.tableCells (s : State) (d n : Nat) (base : DWord) : List Host.Cell :=
  if base == 0 then []
  else (List.range n).filterMap fun i => match s.tableByte (base.toNat + i) with
    | some b => if hbmDie (base.toNat + i) == some d then some (base.toNat + i, b) else none
    | none => none

/-- The HBM of a die with the device's tables in it (R204, R212, R226). -/
def State.tableMem (s : State) (d : Nat) : Memory :=
  (s.tableCells d (4 * Config.framesPerDie) (s.die d).ftBase ++ s.tableCells d (128 * 65536) (s.die d).rgnBase).foldl
    (fun m c => Memory.write m c.1 c.2) (s.die d).mem

/-- CHECKPOINT_COMPLETE (R376): the stacks of the mask stand in the safe tier, the header is written last. -/
def State.checkpoint (s : State) (mask : Nat) (ok : Bool) : State :=
  match s.power with
  | .lost =>
    let ks := (List.range 8).filter fun k => mask / 2 ^ k % 2 == 1
    let m := ks.foldl (fun m k => copyStack m (s.tableMem (k / 2)) (k / 2) (k % 2)) s.safeTier
    let hdr := leBytes 4 0x54464153 ++ leBytes 4 (if ok then 2 else 3) ++ leBytes 4 (mask % 256)
      ++ leBytes 4 (s.die 0).ticks
    { s with safeTier := Memory.writeN m ckptBase hdr }
  | _ => s

/-- CHECKPOINT_COMPLETE (R376). -/
def execCheckpointComplete (s : State) : Out := s.onEvent fun e s => match e with
  | .checkpointComplete m ok => s.checkpoint m ok
  | _ => s

/-! ### Resets (R370 to R372) -/

/-- The received writes of a die applied before a reset (R370): those that may be first, else the oldest.
`error`: one of them waits for read duplicates. -/
def State.drainHeld (s : State) (d : Nat) : Nat → Except State State
  | 0 => .ok s
  | n + 1 =>
    let l := (s.die d).held
    let may := fun x : Nat × Msg => match x.2.clock? with
      | some v => s.mayApply x.1 d v
      | none => true
    let k := (l.findIdx? may).getD 0
    match l[k]? with
    | none => .ok s
    | some (e, m) =>
      match (s.modDie d fun x => { x with held := x.held.eraseIdx k }).applyMsg e d m with
      | .ok s1 => State.drainHeld s1 d n
      | .wait s1 => .error s1

/-- A `tlb.inv` of kind EXPORT of another die waits on accesses of die `d` (R214). -/
def State.waitsOn (s : State) (d : Nat) (gid pi : Nat) (g : Group) (p : Path) : Bool :=
  match (s.fetch g p).1 with
  | .instr (.tlbInv f) =>
    (match { s with cursor := (gid, pi) }.ctx? (.tlbInv f) {} with
      | some c =>
        (c.lead.word f.b).toNat % 16 == 4 && locDie g.loc != d
          && (s.invBusy (invCovers (coreDie g.loc) 4 (c.lead.pair f.a).toNat 0))
          && (s.ops.any fun o => locDie o.2.loc == d)
      | none => false)
  | _ => false

/-- Such waits end with the reset; each is logged on the waiting die with cause 4 (R214, R351). -/
def State.logShootdowns (s : State) (d : Nat) : State :=
  s.groups.foldl (fun r e => (e.2.paths.mapIdx fun k p => (k, p)).foldl (fun r x =>
    if e.2.loc < stewardLoc && s.waitsOn d e.1 x.1 e.2 x.2 then r.logViolation (locDie e.2.loc) 0 4 0 e.2.loc
    else r) r) s

/-- A C-die's registers and tables after a warm reset (R370). -/
def Die.warm (x : Die) : Die :=
  { x.remap with
    qen := 0, sid := 0, spill := [], peers := [], tlb := [], walkPtrs := [], patterns := [], prices := [], pricePend := []
    gates := [], queues := [], staging := [], heldPush := [], ordq := [], held := [], lumUsed := [], perf := []
    inReset := true }

/-- A core after a warm reset: its L1 and grant stay. -/
def Core.warm (c : Core) : Core := { l1 := c.l1, grant := c.grant }

/-- A cluster after a warm reset: scratchpad and clock stay. -/
def Cluster.warm (c : Cluster) : Cluster :=
  { spad := c.spad, droop := c.droop, droopAt := c.droopAt, freq := c.freq, lr := c.lr, clkPend := c.clkPend }

/-- WARM_RESET of a die (R370): what its table clears is cleared, on the die and in the runner queues. -/
def State.clearDie (s : State) (d : Nat) : State :=
  { s.modDie d Die.warm with
    groups := s.groups.filter fun g => locDie g.2.loc != d
    wgs := s.wgs.filter fun w => locDie w.2.loc != d
    ops := s.ops.filter fun o => locDie o.2.loc != d
    saved := s.saved.filter fun v => v.die != d
    pending := s.pending.filter fun p => p.die != d
    heldRecs := s.heldRecs.filter fun h => h.die != d
    clusters := Tab.mapV s.clusters fun k c => if k / 32 == d then c.warm else c
    cores := Tab.mapV s.cores fun l c => if locDie l == d then c.warm else c
    xdies := Tab.mapV s.xdies fun _ x =>
      { x with queues := Tab.put x.queues d [], active := x.active.filter fun c => c.die != d } }

/-- WARM_RESET (R370): the received writes come first; while one of them waits, so does the reset. -/
def State.warmReset (s : State) (d : Nat) : State :=
  match s.drainHeld d (s.die d).held.length with
  | .error s1 => { s1 with agenda := s1.agenda ++ [.ev (.warmReset d)] }
  | .ok s1 => (s1.logShootdowns d).clearDie d

/-- WARM_RESET (R370). -/
def execWarmReset (s : State) : Out := s.onEvent fun e s => match e with
  | .warmReset d => s.warmReset d
  | _ => s

/-- WARM_RESET_END (R370): writes for the die that its links held arrive from now on. -/
def execWarmResetEnd (s : State) : Out := s.onEvent fun e s => match e with
  | .warmResetEnd d => s.modDie d fun x => { x with inReset := false }
  | _ => s

/-! ### The firmware file (R15, R104, R105, R108) -/

/-- The header of a firmware file is valid (R104): MAGIC, LEVEL, KIND 2, RSV bits, signed. -/
def fwHeader (f : List Byte) : Bool :=
  leAt f 0 4 == 0x314F584B && leAt f 4 2 == 1 && leAt f 6 2 == 2 && leAt f 8 4 / 4 == 0 && leAt f 8 4 % 2 == 1

/-- The offsets of the section headers of a file (R105). -/
def fwHeads (f : List Byte) : List Nat :=
  (List.range (min (leAt f 0xC 4) (f.length / 48))).map fun k => leAt f 0x10 8 + 48 * k

/-- No section header of a file has a RSV bit set (R105). -/
def fwSections (f : List Byte) : Bool := (fwHeads f).all fun o => leAt f (o + 7) 1 / 32 == 0 && leAt f (o + 0x28) 8 == 0

/-- The RSV bytes of 24-byte entries, two at offset `r` of each, are 0. -/
def fwEntries (f : List Byte) (o n r : Nat) : Bool :=
  (List.range (min n (f.length / 24))).all fun k => leAt f (o + 24 * k + r) 2 == 0

/-- No symbol and no relocation of a file has a RSV byte set (R106, R107). -/
def fwLists (f : List Byte) : Bool :=
  fwEntries f (leAt f 0x18 8) (leAt f 0x20 4) 22
    && (fwHeads f).all fun o => leAt f (o + 4) 1 != 3 || fwEntries f (leAt f (o + 8) 8) (leAt f (o + 0x10) 8 / 24) 14

/-- The signature block of a file is valid (R108): nothing follows it. -/
def fwSignature (f : List Byte) : Bool :=
  let o := leAt f 0x38 8
  decide (o + 160 = f.length) && leAt f o 4 == 0x4753584B && leAt f (o + 4) 2 == 1 && leAt f (o + 6) 2 == 0
    && leAt f (o + 8) 8 == o && leAt f (o + 0x14) 4 == 0 && leAt f (o + 0x9C) 4 == 0
    && sigOk (f.take o) (leAt f (o + 0x10) 4) ((f.drop (o + 0x18)).take 66) ((f.drop (o + 0x5A)).take 66)

/-- Step 1 of bring-up accepts the firmware (R371). -/
def fwOk (f : List Byte) : Bool := fwHeader f && fwSections f && fwLists f && fwSignature f

/-- The failure of step 1 (R372): the firmware image, its signature refused. -/
def fwFailure : Failure := { step := 1, kind := 7, unit := 0, code := 1 }

/-- The executable sections of code of a firmware file, at their addresses (R105). -/
def fwCode (f : List Byte) : List (Nat × List Byte) :=
  ((fwHeads f).filter fun o => leAt f (o + 4) 1 == 0 && leAt f (o + 7) 1 / 4 % 2 == 1).map fun o =>
    (leAt f (o + 0x18) 8, (f.drop (leAt f (o + 8) 8)).take (leAt f (o + 0x10) 8))

/-- Address of a firmware's first instruction (R104). -/
def fwEntry (f : List Byte) : DWord := BitVec.ofNat 64 (leAt f 0x30 8)

/-! ### Bring-up (R371) -/

/-- A unit that failed self-test replaced from the reserves (R8, R371 step 3): die, kind and number as a window of R373
names them. A lane's link takes the next lower width where it has no reserve left; none: nothing can replace the unit. -/
def State.replaceUnit (s : State) (x : Nat × Nat × Nat) : Option State :=
  let d := x.1
  if x.2.1 == 2 then
    let k := 8 * d + x.2.2
    let r := Tab.getD s.linkReserve k 2
    let n := Tab.getD s.linkLanes k 32
    if r != 0 then some { s with linkReserve := Tab.put s.linkReserve k (r - 1) }
    else if n == 8 then none
    else some { s with linkLanes := Tab.put s.linkLanes k (nextWidth n) }
  else
    let k := Tab.getD (s.die d).reserves x.2.1 0
    if k < 2 then
      some (s.modDie d fun y =>
        { y with reserves := bump y.reserves x.2.1 1
                 units := Tab.put y.units (128 * x.2.1 + x.2.2) ((if x.2.1 == 0 then 32 else 64) + k) })
    else none

/-- Step 3 of bring-up (R371): the units of a list replaced one after another, or the first that none can replace. -/
def State.replaceUnits (s : State) : List (Nat × Nat × Nat) → Except (Nat × Nat × Nat) State
  | [] => .ok s
  | x :: r => match s.replaceUnit x with
    | some s1 => State.replaceUnits s1 r
    | none => .error x

/-- The failure record of a unit that nothing can replace (R372): a cluster is named by its first core, a lane by its die's
X-die or the die it leads to (assumption log 133). -/
def shortFailure (code : Nat) (x : Nat × Nat × Nat) : Failure :=
  { step := 3, code
    kind := if x.2.1 == 0 then 0 else if x.2.1 == 1 then 1 else 6
    unit := if x.2.1 == 0 then 256 * x.1 + 4 * x.2.2 else x.2.2 }

/-- Offset of a command: TRAPACK, PREQ, DUPCMD (R367). -/
def cwCommand (o : Nat) : Bool := writeOnly o || o == 0x210

/-- Step 5 of bring-up (R371): registers of the control windows, none of them a command, and the frames that the device
owns (R212). -/
def State.bringWindows (s : State) (b : BringUp) : State :=
  let s1 := b.windows.foldl (fun s x => if cwCommand x.2.1 then s else s.cwWrite x.1 x.2.1 x.2.2) s
  b.res.foldl (fun s n => s.modFrame (n * Config.frameBytes) fun f => { f with res := true }) s1

/-- Step 6 of bring-up (R371): the resident kernel is loaded, and QEN set on every C-die. -/
def State.bringKernel (s : State) (b : BringUp) : State :=
  State.dies4.foldl (fun s d => s.setQen d 1) (b.kernel.foldl (fun s x => s.writePaN x.1 x.2) s)

/-- Step 1 of bring-up (R104, R371): core 0 of X-die 4 holds the firmware and starts at ENTRY (assumption log 127). -/
def State.startSteward (s : State) (f : List Byte) : State :=
  let (tid, s1) := s.newId
  let (gid, s2) := s1.newId
  { s2 with
    firmware := fwCode f
    groups := Tab.put s2.groups gid
      { wg := 0, loc := stewardLoc, steward := true, threads := [(0, { tid })], paths := [{ pc := fwEntry f, mask := 1 }] } }

/-- Steps 4 to 6 of bring-up, where no step fails (R371). -/
def State.bringOn (s : State) (b : BringUp) : State := ((s.startSteward b.firmware).bringWindows b).bringKernel b

/-- A package whose bring-up has failed (R372). -/
def State.inBeacon (s : State) (f : Failure) : State := { s with power := .beacon f }

/-- BRING-UP (R371): the first failure leaves the package in the beacon state. Which units fail self-test, which step
fails otherwise, and what firmware writes, come with the reset (assumption log 133). -/
def State.bringUp (s : State) (b : BringUp) : State :=
  if !fwOk b.firmware then s.inBeacon fwFailure
  else match b.failed with
    | some f => if f.step ≤ 2 then s.inBeacon f
      else (match s.replaceUnits b.bad with
        | .error x => s.inBeacon (shortFailure b.shortCode x)
        | .ok s1 => s1.inBeacon f)
    | none => match s.replaceUnits b.bad with
      | .error x => s.inBeacon (shortFailure b.shortCode x)
      | .ok s1 => s1.bringOn b

/-- What a cold reset leaves for bring-up (R370): HBM, and what lies outside the package's dies, are kept; units
replaced before stay replaced (R8). Every link is trained with all its lanes and reserves again, also those lost before:
the spec says only that links are retrained, which is the model's choice (DESIGN CHOICE, assumption log 123). The
model's own fields go on. -/
def State.coldClear (s : State) : State :=
  { State.reset with
    dies := s.dies.map fun d => (d.1, { Die.reset d.1 with
      mem := d.2.mem, reserves := d.2.reserves, units := d.2.remap.units })
    hostMem := s.hostMem, safeTier := s.safeTier, irqs := s.irqs, mailbox := s.mailbox, hostReads := s.hostReads
    fabric := s.fabric
    agenda := s.agenda, cycle := s.cycle, nextId := s.nextId, fresh := s.fresh }

/-- COLD_RESET (R370, R371). -/
def State.coldReset (s : State) (b : BringUp) : State := s.coldClear.bringUp b

/-- COLD_RESET (R370). -/
def execColdReset (s : State) : Out := s.onEvent fun e s => match e with
  | .coldReset b => s.coldReset b
  | _ => s

/-- MAILBOX_COMMAND (R13, R372, R375): answered with the failure record in the beacon state; it takes a die
offline, or limits a die's budget as a write of BUDGET does. The spec gives no other command. -/
def execMailboxCommand (s : State) : Out :=
  match s.event with
  | some (.mailboxCommand c) =>
    let s1 := { s with event := none }
    (match s.power, c with
      | .beacon f, _ => .next { s1 with mailbox := s1.mailbox ++ [.failure (failureBytes f)] }
      | _, .dieOffline d => .next (s1.takeOffline d)
      | _, .budget d w => .next (s1.setBudget d w)
      | _, .other k => .refused (.mailboxUnspecified k))
  | _ => .next s

/-- Events that take place as the package stands (R372, R376): without power the checkpoint and a cold reset;
in the beacon state, which a cold reset alone leaves, reads of a BAR and mailbox commands. -/
def Ev.on (p : Power) (e : Ev) : Bool :=
  match p with
  | .running => true
  | .beacon _ => (match e with
    | .mailboxCommand _ | .coldReset _ | .apertureRead _ _ _ | .bar2Read _ _ _ => true
    | _ => false)
  | .lost => (match e with
    | .checkpointComplete _ _ | .coldReset _ => true
    | _ => false)

end Sys2Proof.Machine
end

