-- ==== Sys2Proof/Machine/Dispatch.lean ====
section
/-! DEFINITION. One arm per constructor of Instr: a direct call of its meaning. -/

namespace Sys2Proof.Machine

def exec (i : Instr) (s : State) : Host.Outcome State Fault Refusal :=
  match i with
  | .add f => Sys2Proof.Machine.execAdd f s
  | .sub f => Sys2Proof.Machine.execSub f s
  | .add64 f => Sys2Proof.Machine.execAdd64 f s
  | .sub64 f => Sys2Proof.Machine.execSub64 f s
  | .mul f => Sys2Proof.Machine.execMul f s
  | .mulhiS f => Sys2Proof.Machine.execMulhiS f s
  | .mulhiU f => Sys2Proof.Machine.execMulhiU f s
  | .mad f => Sys2Proof.Machine.execMad f s
  | .divS f => Sys2Proof.Machine.execDivS f s
  | .divU f => Sys2Proof.Machine.execDivU f s
  | .remS f => Sys2Proof.Machine.execRemS f s
  | .remU f => Sys2Proof.Machine.execRemU f s
  | .minS f => Sys2Proof.Machine.execMinS f s
  | .minU f => Sys2Proof.Machine.execMinU f s
  | .maxS f => Sys2Proof.Machine.execMaxS f s
  | .maxU f => Sys2Proof.Machine.execMaxU f s
  | .and f => Sys2Proof.Machine.execAnd f s
  | .or f => Sys2Proof.Machine.execOr f s
  | .xor f => Sys2Proof.Machine.execXor f s
  | .shl f => Sys2Proof.Machine.execShl f s
  | .shr f => Sys2Proof.Machine.execShr f s
  | .sar f => Sys2Proof.Machine.execSar f s
  | .rot f => Sys2Proof.Machine.execRot f s
  | .bfxU f => Sys2Proof.Machine.execBfxU f s
  | .bfxS f => Sys2Proof.Machine.execBfxS f s
  | .bfi f => Sys2Proof.Machine.execBfi f s
  | .popc f => Sys2Proof.Machine.execPopc f s
  | .clz f => Sys2Proof.Machine.execClz f s
  | .ctz f => Sys2Proof.Machine.execCtz f s
  | .brev f => Sys2Proof.Machine.execBrev f s
  | .abs f => Sys2Proof.Machine.execAbs f s
  | .cmp f => Sys2Proof.Machine.execCmp f s
  | .selLo f => Sys2Proof.Machine.execSelLo f s
  | .selHi f => Sys2Proof.Machine.execSelHi f s
  | .mov f => Sys2Proof.Machine.execMov f s
  | .movx f => Sys2Proof.Machine.execMovx f s
  | .movxW f => Sys2Proof.Machine.execMovxW f s
  | .lea64 f => Sys2Proof.Machine.execLea64 f s
  | .pand f => Sys2Proof.Machine.execPand f s
  | .por f => Sys2Proof.Machine.execPor f s
  | .pnot f => Sys2Proof.Machine.execPnot f s
  | .pmov f => Sys2Proof.Machine.execPmov f s
  | .fadd f => Sys2Proof.Machine.execFadd f s
  | .fsub f => Sys2Proof.Machine.execFsub f s
  | .fmul f => Sys2Proof.Machine.execFmul f s
  | .ffma f => Sys2Proof.Machine.execFfma f s
  | .fmin f => Sys2Proof.Machine.execFmin f s
  | .fmax f => Sys2Proof.Machine.execFmax f s
  | .fcmp f => Sys2Proof.Machine.execFcmp f s
  | .frcp f => Sys2Proof.Machine.execFrcp f s
  | .frsq f => Sys2Proof.Machine.execFrsq f s
  | .fsqrt f => Sys2Proof.Machine.execFsqrt f s
  | .fexp2 f => Sys2Proof.Machine.execFexp2 f s
  | .flog2 f => Sys2Proof.Machine.execFlog2 f s
  | .hadd2F16 f => Sys2Proof.Machine.execHadd2F16 f s
  | .hmul2F16 f => Sys2Proof.Machine.execHmul2F16 f s
  | .hadd2Bf16 f => Sys2Proof.Machine.execHadd2Bf16 f s
  | .hmul2Bf16 f => Sys2Proof.Machine.execHmul2Bf16 f s
  | .hfma2F16 f => Sys2Proof.Machine.execHfma2F16 f s
  | .hfma2Bf16 f => Sys2Proof.Machine.execHfma2Bf16 f s
  | .dadd f => Sys2Proof.Machine.execDadd f s
  | .dmul f => Sys2Proof.Machine.execDmul f s
  | .dfma f => Sys2Proof.Machine.execDfma f s
  | .cvt f => Sys2Proof.Machine.execCvt f s
  | .cvtD8x4 f => Sys2Proof.Machine.execCvtD8x4 f s
  | .cvtF32x4 f => Sys2Proof.Machine.execCvtF32x4 f s
  | .shflIdx f => Sys2Proof.Machine.execShflIdx f s
  | .shflUp f => Sys2Proof.Machine.execShflUp f s
  | .shflDown f => Sys2Proof.Machine.execShflDown f s
  | .shflXor f => Sys2Proof.Machine.execShflXor f s
  | .voteAny f => Sys2Proof.Machine.execVoteAny f s
  | .voteAll f => Sys2Proof.Machine.execVoteAll f s
  | .voteBallot f => Sys2Proof.Machine.execVoteBallot f s
  | .reduxAdd f => Sys2Proof.Machine.execReduxAdd f s
  | .reduxMin f => Sys2Proof.Machine.execReduxMin f s
  | .reduxMax f => Sys2Proof.Machine.execReduxMax f s
  | .match_ f => Sys2Proof.Machine.execMatch f s
  | .wBind f => Sys2Proof.Machine.execWBind f s
  | .wSkip f => Sys2Proof.Machine.execWSkip f s
  | .bw f => Sys2Proof.Machine.execBw f s
  | .ld f => Sys2Proof.Machine.execLd f s
  | .ldNc f => Sys2Proof.Machine.execLdNc f s
  | .ldByp f => Sys2Proof.Machine.execLdByp f s
  | .st f => Sys2Proof.Machine.execSt f s
  | .stNc f => Sys2Proof.Machine.execStNc f s
  | .stByp f => Sys2Proof.Machine.execStByp f s
  | .ldAcq f => Sys2Proof.Machine.execLdAcq f s
  | .stRel f => Sys2Proof.Machine.execStRel f s
  | .ldProbe f => Sys2Proof.Machine.execLdProbe f s
  | .gather f => Sys2Proof.Machine.execGather f s
  | .scatter f => Sys2Proof.Machine.execScatter f s
  | .scatterAdd f => Sys2Proof.Machine.execScatterAdd f s
  | .atom f => Sys2Proof.Machine.execAtom f s
  | .atomFaddOrd f => Sys2Proof.Machine.execAtomFaddOrd f s
  | .lds f => Sys2Proof.Machine.execLds f s
  | .sts f => Sys2Proof.Machine.execSts f s
  | .xst f => Sys2Proof.Machine.execXst f s
  | .waitaEq f => Sys2Proof.Machine.execWaitaEq f s
  | .waitaNe f => Sys2Proof.Machine.execWaitaNe f s
  | .fence f => Sys2Proof.Machine.execFence f s
  | .pfence f => Sys2Proof.Machine.execPfence f s
  | .spb f => Sys2Proof.Machine.execSpb f s
  | .fla f => Sys2Proof.Machine.execFla f s
  | .wb f => Sys2Proof.Machine.execWb f s
  | .inv f => Sys2Proof.Machine.execInv f s
  | .pref f => Sys2Proof.Machine.execPref f s
  | .wsClear f => Sys2Proof.Machine.execWsClear f s
  | .redecl f => Sys2Proof.Machine.execRedecl f s
  | .plc f => Sys2Proof.Machine.execPlc f s
  | .bra f => Sys2Proof.Machine.execBra f s
  | .exit => Sys2Proof.Machine.execExit s
  | .nop => Sys2Proof.Machine.execNop s
  | .yield => Sys2Proof.Machine.execYield s
  | .ret a => Sys2Proof.Machine.execRet a s
  | .gAdd f => Sys2Proof.Machine.execGAdd f s
  | .gSub f => Sys2Proof.Machine.execGSub f s
  | .gAdd64 f => Sys2Proof.Machine.execGAdd64 f s
  | .gSub64 f => Sys2Proof.Machine.execGSub64 f s
  | .gMul f => Sys2Proof.Machine.execGMul f s
  | .gMulhiS f => Sys2Proof.Machine.execGMulhiS f s
  | .gMulhiU f => Sys2Proof.Machine.execGMulhiU f s
  | .gAnd f => Sys2Proof.Machine.execGAnd f s
  | .gOr f => Sys2Proof.Machine.execGOr f s
  | .gXor f => Sys2Proof.Machine.execGXor f s
  | .gShl f => Sys2Proof.Machine.execGShl f s
  | .gShr f => Sys2Proof.Machine.execGShr f s
  | .gSar f => Sys2Proof.Machine.execGSar f s
  | .gRot f => Sys2Proof.Machine.execGRot f s
  | .gMinS f => Sys2Proof.Machine.execGMinS f s
  | .gMinU f => Sys2Proof.Machine.execGMinU f s
  | .gMaxS f => Sys2Proof.Machine.execGMaxS f s
  | .gMaxU f => Sys2Proof.Machine.execGMaxU f s
  | .gCmp f => Sys2Proof.Machine.execGCmp f s
  | .gSel f => Sys2Proof.Machine.execGSel f s
  | .gMov f => Sys2Proof.Machine.execGMov f s
  | .gMovx f => Sys2Proof.Machine.execGMovx f s
  | .gMovxW f => Sys2Proof.Machine.execGMovxW f s
  | .gBfxU f => Sys2Proof.Machine.execGBfxU f s
  | .gBfxS f => Sys2Proof.Machine.execGBfxS f s
  | .gBfi f => Sys2Proof.Machine.execGBfi f s
  | .gLea64 f => Sys2Proof.Machine.execGLea64 f s
  | .gPopc f => Sys2Proof.Machine.execGPopc f s
  | .gClz f => Sys2Proof.Machine.execGClz f s
  | .gCtz f => Sys2Proof.Machine.execGCtz f s
  | .gDivS f => Sys2Proof.Machine.execGDivS f s
  | .gDivU f => Sys2Proof.Machine.execGDivU f s
  | .gRemS f => Sys2Proof.Machine.execGRemS f s
  | .gRemU f => Sys2Proof.Machine.execGRemU f s
  | .jmp off => Sys2Proof.Machine.execJmp off s
  | .call f => Sys2Proof.Machine.execCall f s
  | .callr f => Sys2Proof.Machine.execCallr f s
  | .gbra f => Sys2Proof.Machine.execGbra f s
  | .ifence => Sys2Proof.Machine.execIfence s
  | .trap code => Sys2Proof.Machine.execTrap code s
  | .sysr f => Sys2Proof.Machine.execSysr f s
  | .sysw f => Sys2Proof.Machine.execSysw f s
  | .eret => Sys2Proof.Machine.execEret s
  | .eretSave => Sys2Proof.Machine.execEretSave s
  | .wait f => Sys2Proof.Machine.execWait f s
  | .barSync b => Sys2Proof.Machine.execBarSync b s
  | .barArrive b => Sys2Proof.Machine.execBarArrive b s
  | .barSwap b => Sys2Proof.Machine.execBarSwap b s
  | .join a => Sys2Proof.Machine.execJoin a s
  | .gateAdd f => Sys2Proof.Machine.execGateAdd f s
  | .gateWait f => Sys2Proof.Machine.execGateWait f s
  | .lumPurse d => Sys2Proof.Machine.execLumPurse d s
  | .perfRead f => Sys2Proof.Machine.execPerfRead f s
  | .wdogKick => Sys2Proof.Machine.execWdogKick s
  | .patSet f => Sys2Proof.Machine.execPatSet f s
  | .patInv a => Sys2Proof.Machine.execPatInv a s
  | .tlook f => Sys2Proof.Machine.execTlook f s
  | .tset f => Sys2Proof.Machine.execTset f s
  | .tclr f => Sys2Proof.Machine.execTclr f s
  | .seqLoad a => Sys2Proof.Machine.execSeqLoad a s
  | .remapSet f => Sys2Proof.Machine.execRemapSet f s
  | .tlbInv f => Sys2Proof.Machine.execTlbInv f s
  | .retype f => Sys2Proof.Machine.execRetype f s
  | .priceSet f => Sys2Proof.Machine.execPriceSet f s
  | .rgnMake a => Sys2Proof.Machine.execRgnMake a s
  | .peerMap a => Sys2Proof.Machine.execPeerMap a s
  | .spawn f => Sys2Proof.Machine.execSpawn f s
  | .contPush f => Sys2Proof.Machine.execContPush f s
  | .ttask f => Sys2Proof.Machine.execTtask f s
  | .ldlCopy f => Sys2Proof.Machine.execLdlCopy f s
  | .ldlFeed f => Sys2Proof.Machine.execLdlFeed f s
  | .runCopy f => Sys2Proof.Machine.execRunCopy f s
  | .castFlush => Sys2Proof.Machine.execCastFlush s
  | .mxZero f => Sys2Proof.Machine.execMxZero f s
  | .mxSync f => Sys2Proof.Machine.execMxSync f s
  | .mxGang a => Sys2Proof.Machine.execMxGang a s
  | .mxLoad f => Sys2Proof.Machine.execMxLoad f s
  | .mxMma f => Sys2Proof.Machine.execMxMma f s
  | .mxSmma f => Sys2Proof.Machine.execMxSmma f s
  | .mxStore f => Sys2Proof.Machine.execMxStore f s
  | .apertureWrite => Sys2Proof.Machine.execApertureWrite s
  | .apertureStagingTransfer => Sys2Proof.Machine.execApertureStagingTransfer s
  | .contPop => Sys2Proof.Machine.execContPop s
  | .resumePop => Sys2Proof.Machine.execResumePop s
  | .recordAgeing => Sys2Proof.Machine.execRecordAgeing s
  | .contRingPushRetry => Sys2Proof.Machine.execContRingPushRetry s
  | .contPushAck => Sys2Proof.Machine.execContPushAck s
  | .workgroupFinish => Sys2Proof.Machine.execWorkgroupFinish s
  | .deferredCast => Sys2Proof.Machine.execDeferredCast s
  | .casterFormGroup => Sys2Proof.Machine.execCasterFormGroup s
  | .casterTimeout => Sys2Proof.Machine.execCasterTimeout s
  | .overflowReturn => Sys2Proof.Machine.execOverflowReturn s
  | .farResult => Sys2Proof.Machine.execFarResult s
  | .instructionConfirm => Sys2Proof.Machine.execInstructionConfirm s
  | .heldTrapRecord => Sys2Proof.Machine.execHeldTrapRecord s
  | .loadDataReturn => Sys2Proof.Machine.execLoadDataReturn s
  | .storePerformed => Sys2Proof.Machine.execStorePerformed s
  | .storeErrorResponse => Sys2Proof.Machine.execStoreErrorResponse s
  | .translationWalk => Sys2Proof.Machine.execTranslationWalk s
  | .peerTranslation => Sys2Proof.Machine.execPeerTranslation s
  | .residencyExchange => Sys2Proof.Machine.execResidencyExchange s
  | .residencyTimeout => Sys2Proof.Machine.execResidencyTimeout s
  | .handlerEntry => Sys2Proof.Machine.execHandlerEntry s
  | .preq => Sys2Proof.Machine.execPreq s
  | .trapack => Sys2Proof.Machine.execTrapack s
  | .referenceTick => Sys2Proof.Machine.execReferenceTick s
  | .workgroupWdogExpiry => Sys2Proof.Machine.execWorkgroupWdogExpiry s
  | .engineTaskWdogExpiry => Sys2Proof.Machine.execEngineTaskWdogExpiry s
  | .stewardWdogExpiry => Sys2Proof.Machine.execStewardWdogExpiry s
  | .droopReport => Sys2Proof.Machine.execDroopReport s
  | .droopHoldEnd => Sys2Proof.Machine.execDroopHoldEnd s
  | .grantLevelChange => Sys2Proof.Machine.execGrantLevelChange s
  | .revolutionBoundary => Sys2Proof.Machine.execRevolutionBoundary s
  | .ringCycleDraw => Sys2Proof.Machine.execRingCycleDraw s
  | .budgetInterval => Sys2Proof.Machine.execBudgetInterval s
  | .hotnessIntervalEnd => Sys2Proof.Machine.execHotnessIntervalEnd s
  | .completionReport => Sys2Proof.Machine.execCompletionReport s
  | .taskStart => Sys2Proof.Machine.execTaskStart s
  | .gangReserve => Sys2Proof.Machine.execGangReserve s
  | .taskEnd => Sys2Proof.Machine.execTaskEnd s
  | .sequencerStep => Sys2Proof.Machine.execSequencerStep s
  | .engineKgroupStep => Sys2Proof.Machine.execEngineKgroupStep s
  | .engineSuspend => Sys2Proof.Machine.execEngineSuspend s
  | .ladleCommandStart => Sys2Proof.Machine.execLadleCommandStart s
  | .ladleFeedPush => Sys2Proof.Machine.execLadleFeedPush s
  | .copyDoneWrite => Sys2Proof.Machine.execCopyDoneWrite s
  | .runnerCommandStart => Sys2Proof.Machine.execRunnerCommandStart s
  | .runnerCommandComplete => Sys2Proof.Machine.execRunnerCommandComplete s
  | .orderedAddCombine => Sys2Proof.Machine.execOrderedAddCombine s
  | .waitaSatisfied => Sys2Proof.Machine.execWaitaSatisfied s
  | .dupInvalidate => Sys2Proof.Machine.execDupInvalidate s
  | .dupAck => Sys2Proof.Machine.execDupAck s
  | .crossDieWriteReceive => Sys2Proof.Machine.execCrossDieWriteReceive s
  | .clockBeatReceive => Sys2Proof.Machine.execClockBeatReceive s
  | .heldWriteApply => Sys2Proof.Machine.execHeldWriteApply s
  | .hostWrite => Sys2Proof.Machine.execHostWrite s
  | .hostRead => Sys2Proof.Machine.execHostRead s
  | .laneLoss => Sys2Proof.Machine.execLaneLoss s
  | .linkRetrainDone => Sys2Proof.Machine.execLinkRetrainDone s
  | .dieOffline => Sys2Proof.Machine.execDieOffline s
  | .correctedErrorWindow => Sys2Proof.Machine.execCorrectedErrorWindow s
  | .powerLoss => Sys2Proof.Machine.execPowerLoss s
  | .checkpointComplete => Sys2Proof.Machine.execCheckpointComplete s
  | .warmReset => Sys2Proof.Machine.execWarmReset s
  | .coldReset => Sys2Proof.Machine.execColdReset s
  | .mailboxCommand => Sys2Proof.Machine.execMailboxCommand s
  | .budget => Sys2Proof.Machine.execBudget s
  | .qen => Sys2Proof.Machine.execQen s
  | .ringf => Sys2Proof.Machine.execRingf s
  | .clk => Sys2Proof.Machine.execClk s
  | .clkApply => Sys2Proof.Machine.execClkApply s
  | .dupcmdRegister => Sys2Proof.Machine.execDupcmdRegister s
  | .dupcmdWithdraw => Sys2Proof.Machine.execDupcmdWithdraw s
  | .spillbase => Sys2Proof.Machine.execSpillbase s
  | .controlWindowWrite => Sys2Proof.Machine.execControlWindowWrite s
  | .heat => Sys2Proof.Machine.execHeat s
  | .wmap => Sys2Proof.Machine.execWmap s
  | .wactive => Sys2Proof.Machine.execWactive s
  | .glintRelease => Sys2Proof.Machine.execGlintRelease s
  | .pstatRead => Sys2Proof.Machine.execPstatRead s
  | .wavelengthDegrade => Sys2Proof.Machine.execWavelengthDegrade s
  | .flitRetransmit => Sys2Proof.Machine.execFlitRetransmit s
  | .engineCommandRetire => Sys2Proof.Machine.execEngineCommandRetire s
  | .xstAccepted => Sys2Proof.Machine.execXstAccepted s
  | .lossOfLock => Sys2Proof.Machine.execLossOfLock s
  | .warmResetEnd => Sys2Proof.Machine.execWarmResetEnd s

end Sys2Proof.Machine
end

