-- ==== Sys2Proof/Machine/Turn.lean ====
section
/-! DEFINITION. A turn: the next one of the agenda, or an issue by the path at the cursor. -/

namespace Sys2Proof.Machine

/-- A path's turn: fetch, decode and execute, or the fetch's fault (R93), or nothing where the path
is not ready. -/
def State.issueTurn (s : State) : Out :=
  match s.ctx? .nop {} with
  | none => .next s.turnOver
  | some c =>
    if !s.canIssue c then .next s.turnOver
    else match s.fetch c.g c.p with
      | (.instr i, s1) => exec i s1
      | (.fault f, s1) => .next (s1.trapMask c f c.p.mask c.p.pc 0)
      | (.wait, s1) => .next s1.turnOver

/-- The path at the cursor issues; a package without power, or one whose bring-up failed, runs no
instruction. -/
def State.issueIfOn (s : State) : Out :=
  match s.power with
  | .running => s.issueTurn
  | .beacon _ => .fault .beacon
  | .lost => .fault .powerLost

/-- An event takes place, if it is one that can and the package is on for it. -/
def State.eventTurn (s : State) (e : Ev) : Out :=
  if e.wellFormed && Ev.on s.power e then exec e.row { s with event := some e } else .next s

/-- The next turn of the agenda, or an issue at the cursor. -/
def State.turn (s : State) : Out :=
  match s.agenda with
  | .ev e :: r => State.eventTurn { s with agenda := r } e
  | .issue g p :: r => State.issueIfOn { s with agenda := r, cursor := (g, p) }
  | [] => s.issueIfOn

end Sys2Proof.Machine
end

