-- ==== Sys2Proof/Machine/Step.lean ====
section
/-! DEFINITION. One step. -/

namespace Sys2Proof.Machine

/-- One step of the package: one turn. -/
def step (s : State) : Host.Outcome State Fault Refusal := s.turn

/-- `s` about to fetch and run the instruction whose bits are `w` (assumption log 1). -/
def State.withFetchWord (s : State) (nbits w : Nat) : State := s.placeWord nbits w

end Sys2Proof.Machine
end

