-- ==== Sys2Proof/Safety.lean ====
section
/-! DEFINITION. The terms claims use: what is observed of a state, when an instruction issues without
a fault or a stall, and what it means that a step leaves the rest of the package as it was. -/

namespace Sys2Proof.Machine

/-! ### Observations -/

/-- wrap32 (R50). -/
def wrap32 (x : Int) : Word := BitVec.ofInt 32 x

/-- wrap64 (R50). -/
def wrap64 (x : Int) : DWord := BitVec.ofInt 64 x

/-- The value of name `n` for the thread of rank `r` of a group, wherever the name stands (R33, R115). -/
def State.regAt (s : State) (gid r n : Nat) : Option Word := do
  let g ← s.group? gid
  let t ← Tab.find? g.threads r
  some (readV (s.wgOf g) t n)

/-- The predicate `p` of the thread of rank `r` of a group. -/
def State.predAt (s : State) (gid r p : Nat) : Option Bool := do
  let g ← s.group? gid
  let t ← Tab.find? g.threads r
  some (predOf t p)

/-- The walker `k` of the thread of rank `r` of a group. -/
def State.walkerAt (s : State) (gid r k : Nat) : Option Walker := do
  let g ← s.group? gid
  let t ← Tab.find? g.threads r
  some (Tab.getD t.walkers k {})

/-- A path of the group with member `r` stands at `pc`. -/
def State.stands (s : State) (gid r : Nat) (pc : DWord) : Prop :=
  ∃ g, s.group? gid = some g ∧ ∃ p ∈ g.paths, p.mask.getLsbD r = true ∧ p.pc = pc

/-! ### Normal issue -/

/-- What R93 checks and what issue waits for is met: instruction `i` of form `f` issues and takes its
effect. `c` is the issuing path with its group and workgroup. -/
structure State.Ready (s : State) (i : Instr) (f : Form) (c : Ctx) : Prop where
  ctx : s.ctx? i f = some c
  turn : s.canIssue c = true
  legal : c.isIll = false
  allowed : ((c.f.priv || c.f.privOn c.g c.w) && !c.privileged) = false
  priced : s.priceOf c ≤ 8192
  placed : s.badPlace c = 0
  free : s.stalls c = false
  licensed : s.licensed c.g.loc (c.gid + 1) c.w.region (s.priceOf c) = true
  /-- No check of a result at LANE has failed and no far entry meets an error response (R45, R117). -/
  sound : s.laneFailsNow c.g.loc = [] ∧ (s.core c.g.loc).farError = false

/-- A member whose instruction executes at LANE and takes its sources from registers alone: every
destination name at LANE with no `redecl` of it in flight, no source a bound walker. -/
structure Ctx.Plain (c : Ctx) (t : Thread) : Prop where
  here : ∀ n ∈ c.f.dst.names, (placeOf c.w t n).1 = .lane
  unmoved : ∀ n ∈ c.f.dst.names, moveOf c.ops t.tid n = none
  noA : (walkReads c.f t).1 = none
  noB : (walkReads c.f t).2.1 = none

/-! ### Frames -/

/-- A die but for what an issue debits. -/
def Die.rest (d : Die) : Die := { d with lumUsed := [] }

/-- A core but for its purse and the counters of cycles and of the operand collector, 0x0100 to 0x0104 (R201). -/
def Core.rest (c : Core) : Core :=
  { c with purse := 0, starveQ := [], perf := c.perf.filter fun e => !([0x100, 0x101, 0x102, 0x103, 0x104].contains e.1) }

/-- The special registers of a group and its counters of operations: all but its threads, paths, flags, uniform
tags and what every issue counts (counter 0x0000, the time of its last issue, the mark that it has issued since the last
tick). -/
def Group.rest (g : Group) : Group :=
  { g with threads := [], paths := [], parked := none, fpx := 0, perf := g.perf.filter fun e => e.1 != 0,
           lastIssue := 0, sinceTick := false, uniform := [], uniNow := [] }

/-- From `s` to `t` nothing outside the group `gid` changes but the purse of its core, the lumens its
region has used and whose turn is next: memories, tables, engines, other groups, operations in flight
and pending records are as they were, and so are the group's special registers. -/
structure State.Still (s t : State) (gid : Nat) : Prop where
  dies : ∀ d, (t.die d).rest = (s.die d).rest
  cores : ∀ l, (t.core l).rest = (s.core l).rest
  clusters : ∀ c, t.cluster c = s.cluster c
  xdies : ∀ x, t.xdie x = s.xdie x
  wgs : ∀ w, t.wg? w = s.wg? w
  groups : ∀ g, g ≠ gid → t.group? g = s.group? g
  group : (t.group? gid).map Group.rest = (s.group? gid).map Group.rest
  ops : ∀ o, t.op? o = s.op? o
  runs : ∀ r, t.run r = s.run r
  pending : t.pending = s.pending
  heldRecs : t.heldRecs = s.heldRecs
  saved : t.saved = s.saved
  hostMem : t.hostMem = s.hostMem
  safeTier : t.safeTier = s.safeTier
  links : t.links = s.links
  power : t.power = s.power
  irqs : t.irqs = s.irqs
  mailbox : t.mailbox = s.mailbox
  posted : t.posted = s.posted
  fabric : t.fabric = s.fabric
  rels : t.rels = s.rels
  firmware : t.firmware = s.firmware

/-- Every byte of every memory reads as before: physical memory of the dies and the host, the safe
tier, scratchpads, and the lines that cores hold of IP frames. -/
structure State.SameMemory (s t : State) : Prop where
  phys : ∀ pa, t.readPa pa = s.readPa pa
  safe : ∀ a, Memory.read t.safeTier a = Memory.read s.safeTier a
  spads : ∀ c off, Memory.read (t.cluster c).spad off = Memory.read (s.cluster c).spad off
  lines : ∀ l, (t.core l).l1 = (s.core l).l1

/-- The flags of a group (R55). -/
def State.fpxAt (s : State) (gid : Nat) : Option Fpx := (s.group? gid).map (·.fpx)

/-- What an issue that writes registers alone leaves: no name but `names` of the ranks `who`, no
predicate but `preds` of theirs, no walker but `walks` of theirs; the flags `fl` join FPX. -/
structure State.RegFrame (s t : State) (gid : Nat) (who : Nat → Prop) (names preds walks : List Nat)
    (fl : Fpx) : Prop where
  still : s.Still t gid
  memory : s.SameMemory t
  regs : ∀ k q m, ¬ (k = gid ∧ who q ∧ m ∈ names) → t.regAt k q m = s.regAt k q m
  preds : ∀ k q m, ¬ (k = gid ∧ who q ∧ m ∈ preds) → t.predAt k q m = s.predAt k q m
  walkers : ∀ k q m, ¬ (k = gid ∧ who q ∧ m ∈ walks) → t.walkerAt k q m = s.walkerAt k q m
  flags : t.fpxAt gid = (s.fpxAt gid).map (· ||| fl)

/-- The ranks of the issuing path that have a thread. -/
def Ctx.Member (c : Ctx) (r : Nat) : Prop := ∃ t, (r, t) ∈ c.threads

/-- Every member executes at LANE from registers alone. -/
def Ctx.AllPlain (c : Ctx) : Prop := ∀ e ∈ c.threads, c.Plain e.2

/-- A 32-bit source of a member, as R115 delivers it. -/
def Ctx.src (c : Ctx) (e : Nat × Thread) (f : Fld) : Word := lo ((c.env e).val f) 0 32

/-- A 64-bit source of a member (R50). -/
def Ctx.src64 (c : Ctx) (e : Nat × Thread) (f : Fld) : DWord := lo ((c.env e).val f) 0 64

/-- A thread's names of a field hold a value, word 0 in the first name (R50, R79). -/
def State.Holds (s : State) (gid r : Nat) (f : Fld) (v : BitVec 128) : Prop :=
  ∀ k n, f.names[k]? = some n → s.regAt gid r n = some (lo v (32 * k) 32)

/-- An operation of the issuing path in flight after its issue (R42): what it holds of the issue. -/
structure Op.From (o : Op) (c : Ctx) : Prop where
  gid : o.gid = c.gid
  loc : o.loc = c.g.loc
  pc : o.pc = c.p.pc
  instr : o.instr = c.i
  mask : o.mask = c.p.mask
  stage : o.stage = .issued
  aside : o.aside = false

/-- The files of every thread and the flags of a group are as they were. -/
structure State.SameFiles (s t : State) (gid : Nat) : Prop where
  regs : ∀ k q m, t.regAt k q m = s.regAt k q m
  preds : ∀ k q m, t.predAt k q m = s.predAt k q m
  walkers : ∀ k q m, t.walkerAt k q m = s.walkerAt k q m
  flags : t.fpxAt gid = s.fpxAt gid

/-- A state with a group's scoreboard counters out of view. -/
def State.noSb (s : State) (gid : Nat) : State := s.modGroup gid fun g => { g with sb := [] }

/-- An issue puts the operation `o` in flight and does nothing else but count it (R42, R176): every other
operation, the memories, the tables and the groups' special registers stay. -/
structure State.Launches (s t : State) (c : Ctx) (o : Op) : Prop where
  op : t.op? s.nextId = some o
  gid : o.gid = c.gid
  loc : o.loc = c.g.loc
  pc : o.pc = c.p.pc
  instr : o.instr = c.i
  mask : o.mask = c.p.mask
  aside : o.aside = false
  sb : o.sb = c.f.sb
  others : ∀ k, k ≠ s.nextId → t.op? k = s.op? k
  still : (s.noSb c.gid).Still ({ t with ops := s.ops }.noSb c.gid) c.gid
  memory : s.SameMemory t
  counted : c.f.sb ≠ 0 → ∀ g, t.group? c.gid = some g →
    g.sbList c.f.sb = c.g.sbList c.f.sb ++ [(s.nextId, false)]

/-! ### Accesses (R245 to R264) -/

/-- The access forms that translate their address: price class, names waited for, places and scoreboard
counter (R89, R245, R247 to R264). -/
def accForm : Instr → Option Form
  | .ld f | .ldNc f | .ldByp f =>
    some { cls := 4, dst := Fld.ofSz f.sz f.d, full := (Fld.pair f.a).names, log := true,
           far := f.sz != 3 && f.sz != 4, sb := f.sb.toNat }
  | .ldAcq f => some { cls := 4, dst := Fld.ofSz f.sz f.d, full := (Fld.pair f.a).names, log := true, sb := f.sb.toNat }
  | .ldProbe f => some { cls := 4, dst := Fld.ofSz f.sz f.d, full := (Fld.pair f.a).names, log := true,
                         predW := [f.p.toNat], sb := f.sb.toNat }
  | .st f | .stNc f | .stByp f | .stRel f =>
    some { cls := 4, full := (Fld.pair f.a).names ++ (Fld.ofSz f.sz f.d).names, log := true, outside := true,
           sb := f.sb.toNat }
  | .gather f => some { cls := 4, dst := Fld.ofSz f.sz f.d, full := (Fld.pair f.a).names ++ (Fld.w f.b).names,
                        log := true, illOn := remapIll f, sb := f.sb.toNat }
  | .scatter f | .scatterAdd f =>
    some { cls := 4, full := (Fld.pair f.a).names ++ (Fld.w f.b).names ++ (Fld.ofSz f.sz f.d).names, log := true,
           outside := true, illOn := remapIll f, sb := f.sb.toNat }
  | .atom f => some { cls := 4, dst := Fld.ofSz f.sz f.d, full := (Fld.pair f.a).names ++ (AtomF_b f).names,
                      log := true, outside := true, sb := f.sb.toNat }
  | .atomFaddOrd f => some { cls := 4, full := (Fld.pair f.a).names ++ (Fld.w f.b).names, log := true,
                             outside := true, sb := f.sb.toNat }
  | .xst f => some { cls := 1, full := (Fld.w f.a).names ++ (Fld.ofSz f.sz f.d).names, outside := true, log := true,
                     sb := f.sb.toNat }
  | .spb f | .fla f => some { cls := 4, full := (Fld.pair f.a).names, log := true, sb := f.sb.toNat }
  | .wb f | .inv f => some { cls := 1, full := (Fld.pair f.a).names, log := true, outside := true, sb := f.sb.toNat }
  | .pref f => some { cls := 1, full := (Fld.pair f.a).names, log := true, sb := f.sb.toNat }
  | .wsClear f => some { cls := 1, full := (Fld.pair f.a).names ++ (Fld.w f.b).names, log := true, outside := true,
                         sb := f.sb.toNat }
  | _ => none

/-- What else lets the form issue: an exchange store is aligned (R259), a table lookup waits for scratchpad
stores (R253). -/
def accReady : Instr → State → Ctx → Prop
  | .gather f, s, c | .scatter f, s, c | .scatterAdd f, s, c => f.rmp = 3 → s.stsPending c = false
  | .xst f, _, c => ∀ e ∈ c.threads, (c.scrAddr e f).toNat % szBytes f.sz = 0
  | _, _, _ => True

/-- The address of a member: wrap64 of the pair A plus OFF (R247), the element's address (R253), the
exchange address (R259). -/
def accAddr : Instr → State → Ctx → Nat × Thread → DWord
  | .ld f, _, c, e | .ldNc f, _, c, e | .ldByp f, _, c, e | .ldAcq f, _, c, e | .st f, _, c, e | .stNc f, _, c, e
  | .stByp f, _, c, e | .stRel f, _, c, e => wrap64 ((c.env e).pair f.a).toInt + wrap64 f.off.toInt
  | .ldProbe f, _, c, e => wrap64 ((c.env e).pair f.a).toInt + wrap64 f.off.toInt
  | .gather f, s, c, e | .scatter f, s, c, e | .scatterAdd f, s, c, e =>
    (c.env e).pair f.a + wrap64 ((s.remap c.w f.rmp ((c.env e).word f.b)).toNat * 2 ^ f.sh.toNat)
  | .atom f, _, c, e => (c.env e).pair f.a + wrap64 f.off.toInt
  | .atomFaddOrd f, _, c, e => (c.env e).pair f.a + wrap64 f.off.toInt
  | .xst f, _, c, e => BitVec.ofNat 64 ((c.env e).word f.a + wrap32 f.off.toInt).toNat
  | .spb f, _, c, e | .fla f, _, c, e | .wb f, _, c, e | .inv f, _, c, e | .pref f, _, c, e =>
    (c.env e).pair f.a + wrap64 f.off.toInt
  | .wsClear f, _, c, e => (c.env e).pair f.a + wrap64 f.off.toInt
  | _, _, _, _ => 0

/-- The data of a store (R249). -/
def accData : Instr → Ctx → Nat × Thread → BitVec 128
  | .st f, c, e | .stNc f, c, e | .stByp f, c, e | .stRel f, c, e | .xst f, c, e => (c.env e).val (Fld.ofSz f.sz f.d)
  | .scatter f, c, e | .scatterAdd f, c, e => (c.env e).val (Fld.ofSz f.sz f.d)
  | .atomFaddOrd _, _, e => BitVec.ofNat 128 e.2.ordAdds
  | _, _, _ => 0

/-- The operands of an atomic (new value of `cas`, operand or compare value) or the length of `ws.clear`. -/
def accOps : Instr → Ctx → Nat × Thread → DWord × DWord
  | .atom f, c, e =>
    let v := (c.env e).val (AtomF_b f)
    if f.aop = 9 then
      (if f.sz = 3 then (lo v 64 64, lo v 0 64) else ((lo v 32 32).zeroExtend 64, (lo v 0 32).zeroExtend 64))
    else (0, lo v 0 64)
  | .atomFaddOrd f, c, e => (0, ((c.env e).word f.b).zeroExtend 64)
  | .wsClear f, c, e => (0, ((c.env e).word f.b).zeroExtend 64)
  | _, _, _ => (0, 0)

/-- Forms that read memory into a destination: name and size code. -/
def loadOf : Instr → Option (Name × BitVec 3)
  | .ld f | .ldNc f | .ldByp f | .ldAcq f | .lds f => some (f.d, f.sz)
  | .ldProbe f => some (f.d, f.sz)
  | .gather f => some (f.d, f.sz)
  | _ => none

/-- The value of loaded bytes (R1, R86): little-endian, sizes 5 and 6 sign-extended to 32 bits. -/
def loadValue (sz : BitVec 3) (bs : List Byte) : BitVec 128 :=
  match sz.toNat with
  | 5 => (wrap32 (Int.bmod (leNat bs) 256)).zeroExtend 128
  | 6 => (wrap32 (Int.bmod (leNat bs) 65536)).zeroExtend 128
  | _ => BitVec.ofNat 128 (leNat bs)

/-- A member of an operation and its thread, whose destination names stand with the thread. -/
structure State.Member (s : State) (o : Op) (m : Member) (rank : Nat) (g : Group) (th : Thread) : Prop where
  member : o.member? rank = some m
  group : s.group? o.gid = some g
  thread : Tab.find? g.threads rank = some th
  same : th.tid = m.tid
  wg : s.wgOf g = s.opWg o
  own : ∀ n ∈ o.dests, (placeOf (s.wgOf g) th n).1 ≠ .cluster

/-- The member of an operation is done, or the whole operation is over. -/
def State.memberDone (s : State) (id rank : Nat) : Prop :=
  s.op? id = none ∨ ∃ o m, s.op? id = some o ∧ o.member? rank = some m ∧ m.done = true

/-- Byte `j` of a fragment as it stands in memory or in its scratchpad. -/
def State.fragByte (s : State) (f : Frag) (j : Nat) : Byte :=
  match f.cl with
  | some c => Memory.read (s.cluster c).spad (f.pa + j)
  | none => s.readPa (f.pa + j)

/-- A fragment is plain HBM of the operation's own die: no scratchpad, no control window, no IP line. -/
structure Frag.Plain (f : Frag) (o : Op) (d : Nat) : Prop where
  die : coreDie o.loc = d
  hbm : ∀ j < f.size, hbmDie (f.pa + j) = some d
  some_ : hbmDie f.pa = some d
  noHost : ∀ j < f.size, isHostPa (f.pa + j) = false
  spad : f.cl = none
  cw : isCwPa f.pa = false
  ip : f.typ ≠ 3

/-! ### Integer results (R50, R51, R118 to R128) -/

/-- The forms of R118 to R122: prices and places of R89, and whether D is a source. -/
def intForm : Instr → Option Form
  | .add f | .sub f | .minS f | .minU f | .maxS f | .maxU f | .and f | .or f | .xor f | .shl f | .shr f
  | .sar f | .rot f => some (f.form 1 true)
  | .mul f | .mulhiS f | .mulhiU f => some (f.form 2 true)
  | .mad f => some (f.form 2 true true)
  | .divS f | .divU f | .remS f | .remU f => some (f.form 3 false)
  | .bfxU f | .bfxS f => some (f.form 1 false)
  | .bfi f => some (f.form 1 false true)
  | .popc f | .clz f | .ctz f | .brev f => some (f.form 1 false)
  | .abs f => some (f.form 1 true)
  | _ => none

/-- The group-set forms of the same results (R128). -/
def intFormG : Instr → Option Form
  | .gAdd f | .gSub f | .gAnd f | .gOr f | .gXor f | .gShl f | .gShr f | .gSar f | .gRot f | .gMinS f
  | .gMinU f | .gMaxS f | .gMaxU f => some (f.formG 1 true)
  | .gMul f | .gMulhiS f | .gMulhiU f | .gBfxU f | .gBfxS f => some (f.formG 1 false)
  | .gBfi f => some (f.formG 1 false true)
  | .gDivS f | .gDivU f | .gRemS f | .gRemU f => some (f.formG 3 false)
  | .gPopc f | .gClz f | .gCtz f => some (f.formG 1)
  | _ => none

/-- `v` is the result of the sources `a`, `b` and `d` by the tables of R118 to R122. -/
def intLaw : Instr → Word → Word → Word → Word → Prop
  | .add _, a, b, _, v | .gAdd _, a, b, _, v => v = wrap32 (a.toInt + b.toInt)
  | .sub _, a, b, _, v | .gSub _, a, b, _, v => v = wrap32 (a.toInt - b.toInt)
  | .mul _, a, b, _, v | .gMul _, a, b, _, v => v = wrap32 (a.toInt * b.toInt)
  | .mad _, a, b, d, v => v = wrap32 (a.toInt * b.toInt + d.toInt)
  | .mulhiS _, a, b, _, v | .gMulhiS _, a, b, _, v => v.toInt = (a.toInt * b.toInt) / 2 ^ 32
  | .mulhiU _, a, b, _, v | .gMulhiU _, a, b, _, v => v.toNat = a.toNat * b.toNat / 2 ^ 32
  | .divS _, a, b, _, v | .gDivS _, a, b, _, v =>
    if b = 0 then v = 0xFFFFFFFF
    else if a = 0x80000000 ∧ b = 0xFFFFFFFF then v = 0x80000000
    else v.toInt = a.toInt.tdiv b.toInt
  | .divU _, a, b, _, v | .gDivU _, a, b, _, v =>
    if b = 0 then v = 0xFFFFFFFF else v.toNat = a.toNat / b.toNat
  | .remS _, a, b, _, v | .gRemS _, a, b, _, v =>
    if b = 0 then v = a
    else if a = 0x80000000 ∧ b = 0xFFFFFFFF then v = 0
    else v.toInt = a.toInt - a.toInt.tdiv b.toInt * b.toInt
  | .remU _, a, b, _, v | .gRemU _, a, b, _, v =>
    if b = 0 then v = a else v.toNat = a.toNat - a.toNat / b.toNat * b.toNat
  | .minS _, a, b, _, v | .gMinS _, a, b, _, v => v.toInt = min a.toInt b.toInt
  | .minU _, a, b, _, v | .gMinU _, a, b, _, v => v.toNat = min a.toNat b.toNat
  | .maxS _, a, b, _, v | .gMaxS _, a, b, _, v => v.toInt = max a.toInt b.toInt
  | .maxU _, a, b, _, v | .gMaxU _, a, b, _, v => v.toNat = max a.toNat b.toNat
  | .and _, a, b, _, v | .gAnd _, a, b, _, v => ∀ k, v.getLsbD k = (a.getLsbD k && b.getLsbD k)
  | .or _, a, b, _, v | .gOr _, a, b, _, v => ∀ k, v.getLsbD k = (a.getLsbD k || b.getLsbD k)
  | .xor _, a, b, _, v | .gXor _, a, b, _, v => ∀ k, v.getLsbD k = (a.getLsbD k ^^ b.getLsbD k)
  | .shl _, a, b, _, v | .gShl _, a, b, _, v => v.toNat = a.toNat * 2 ^ (b.toNat % 32) % 2 ^ 32
  | .shr _, a, b, _, v | .gShr _, a, b, _, v => v.toNat = a.toNat / 2 ^ (b.toNat % 32)
  | .sar _, a, b, _, v | .gSar _, a, b, _, v => v.toInt = a.toInt / 2 ^ (b.toNat % 32)
  | .rot _, a, b, _, v | .gRot _, a, b, _, v =>
    ∀ k < 32, v.getLsbD ((k + b.toNat) % 32) = a.getLsbD k
  | .bfxU _, a, b, _, v | .gBfxU _, a, b, _, v =>
    v.toNat = a.toNat / 2 ^ (b.toNat % 32) % 2 ^ min (b.toNat / 256 % 64) (32 - b.toNat % 32)
  | .bfxS _, a, b, _, v | .gBfxS _, a, b, _, v =>
    v.toInt = Int.bmod (a.toNat / 2 ^ (b.toNat % 32) : Nat) (2 ^ min (b.toNat / 256 % 64) (32 - b.toNat % 32))
  | .bfi _, a, b, d, v | .gBfi _, a, b, d, v =>
    ∀ k < 32, v.getLsbD k =
      if b.toNat % 32 ≤ k ∧ k < b.toNat % 32 + b.toNat / 256 % 64 then a.getLsbD (k - b.toNat % 32)
      else d.getLsbD k
  | .popc _, a, _, _, v | .gPopc _, a, _, _, v => v.toNat = (List.range 32).countP fun k => a.getLsbD k
  | .clz _, a, _, _, v | .gClz _, a, _, _, v =>
    v.toNat ≤ 32 ∧ (∀ k < 32, 32 - v.toNat ≤ k → a.getLsbD k = false)
      ∧ (v.toNat < 32 → a.getLsbD (31 - v.toNat) = true)
  | .ctz _, a, _, _, v | .gCtz _, a, _, _, v =>
    v.toNat ≤ 32 ∧ (∀ k < v.toNat, a.getLsbD k = false) ∧ (v.toNat < 32 → a.getLsbD v.toNat = true)
  | .brev _, a, _, _, v => ∀ k < 32, v.getLsbD (31 - k) = a.getLsbD k
  | .abs _, a, _, _, v => v = wrap32 |a.toInt|
  | _, _, _, _, _ => False

/-- The condition codes of R88 on 32-bit sources. -/
def condLaw (c : Nat) (a b : Word) : Prop :=
  match c with
  | 0 => a = b
  | 1 => a ≠ b
  | 2 => a.toInt < b.toInt
  | 3 => a.toInt ≤ b.toInt
  | 4 => a.toInt > b.toInt
  | 5 => a.toInt ≥ b.toInt
  | 6 => a.toNat < b.toNat
  | 7 => a.toNat ≤ b.toNat
  | 8 => a.toNat > b.toNat
  | 9 => a.toNat ≥ b.toNat
  | _ => False

/-- The 64-bit forms of R127. -/
def addrForm : Instr → Option Form
  | .add64 f | .sub64 f => some f.form64
  | .lea64 f => some { cls := 1, a := .pair f.a, b := .w f.b, dst := .pair f.d, x := f.x, chain := true }
  | _ => none

/-- Their group-set forms (R128). -/
def addrFormG : Instr → Option Form
  | .gAdd64 f | .gSub64 f => some f.formG64
  | .gLea64 f => some { cls := 1, a := .pair f.a, b := .w f.b, dst := .pair f.d, x := f.x, group := true }
  | _ => none

/-- `v` is the result of R127: `a` and `b` are pairs, `w` is B as a 32-bit source. -/
def addrLaw : Instr → DWord → DWord → Word → DWord → Prop
  | .add64 _, a, b, _, v | .gAdd64 _, a, b, _, v => v = wrap64 (a.toInt + b.toInt)
  | .sub64 _, a, b, _, v | .gSub64 _, a, b, _, v => v = wrap64 (a.toInt - b.toInt)
  | .lea64 f, a, _, w, v | .gLea64 f, a, _, w, v => v = wrap64 (a.toInt + w.toInt * 2 ^ f.s.toNat)
  | _, _, _, _, _ => False

/-- The moves of R126 and R128: form and value moved. -/
def moveForm : Instr → Option Form
  | .mov f => some { a := .w f.a, dst := .w f.d, x := f.x, h := f.h, n := f.n, chain := true, cluster := true,
                     far := true }
  | .movx f => some { a := .w 120, dst := .w f.d, h := f.h, n := f.n, chain := true, cluster := true, far := true }
  | .movxW f => some { a := .w 120, dst := .w f.d, h := f.h, n := f.n, chain := true, cluster := true, far := true }
  | .selLo f => some (f.form f.p.toNat)
  | .selHi f => some (f.form (4 + f.p.toNat))
  | _ => none

/-- The group-set moves and select. -/
def moveFormG : Instr → Option Form
  | .gMov f => some { a := .w f.a, dst := .w f.d, x := f.x, group := true, cluster := true }
  | .gMovx f => some { dst := .w f.d, group := true, cluster := true }
  | .gMovxW f => some { dst := .w f.d, group := true, cluster := true }
  | .gSel f => some { cls := 1, a := .w f.a, b := .w f.b, dst := .w f.d, x := f.x, group := true,
                      predR := [f.p.toNat], selP := some f.p.toNat }
  | _ => none

/-- The value moved: a source, the extension value, or the source that a predicate of the thread
selects (R124, R126). -/
def moveVal : Instr → Thread → Word → Word → Word
  | .mov _, _, a, _ | .gMov _, _, a, _ => a
  | .movx f, _, _, _ => f.imm.signExtend 32
  | .gMovx f, _, _, _ => f.imm.signExtend 32
  | .movxW f, _, _, _ => f.imm
  | .gMovxW f, _, _, _ => f.imm
  | .selLo f, t, a, b => if t.preds.getLsbD f.p.toNat then a else b
  | .selHi f, t, a, b => if t.preds.getLsbD (4 + f.p.toNat) then a else b
  | .gSel f, t, a, b => if t.preds.getLsbD f.p.toNat then a else b
  | _, _, a, _ => a

/-- The predicate forms of R125: destination, sources, function. -/
def predRule : Instr → Option (Nat × Nat × Nat × (Bool → Bool → Bool))
  | .pand f => some (f.p.toNat, f.q.toNat, f.r.toNat, fun a b => a && b)
  | .por f => some (f.p.toNat, f.q.toNat, f.r.toNat, fun a b => a || b)
  | .pnot f => some (f.p.toNat, f.q.toNat, f.q.toNat, fun a _ => !a)
  | .pmov f => some (f.p.toNat, f.q.toNat, f.q.toNat, fun a _ => a)
  | _ => none

/-! ### Numbers of the lane formats (R52 to R62) -/

/-- The sign of a format's bits. -/
def Fmt.isNeg (f : Fmt) (b : Nat) : Bool := b / 2 ^ (f.ebits + f.fbits) % 2 == 1

/-- Exponent and fraction field. -/
def Fmt.expOf (f : Fmt) (b : Nat) : Nat := b / 2 ^ f.fbits % 2 ^ f.ebits

/-- The fraction field. -/
def Fmt.fracOf (f : Fmt) (b : Nat) : Nat := b % 2 ^ f.fbits

/-- The bits hold a NaN. -/
def Fmt.nan (f : Fmt) (b : Nat) : Bool := f.expOf b == 2 ^ f.ebits - 1 && f.fracOf b != 0

/-- The bits hold a signalling NaN. -/
def Fmt.snan (f : Fmt) (b : Nat) : Bool := f.nan b && decide (f.fracOf b < 2 ^ (f.fbits - 1))

/-- The bits hold ±∞. -/
def Fmt.inf (f : Fmt) (b : Nat) : Bool := f.expOf b == 2 ^ f.ebits - 1 && f.fracOf b == 0

/-- The bits hold ±0. -/
def Fmt.zero (f : Fmt) (b : Nat) : Bool := f.expOf b == 0 && f.fracOf b == 0

/-- The value of a number of the format: subnormals are kept (R52). -/
def Fmt.value (f : Fmt) (b : Nat) : ℚ :=
  (if f.isNeg b then -1 else 1)
    * (if f.expOf b = 0 then (f.fracOf b : ℚ) else (2 ^ f.fbits + f.fracOf b : ℚ))
    * 2 ^ ((max (f.expOf b) 1 : ℤ) - (2 ^ (f.ebits - 1) - 1) - f.fbits)

/-- Order of numbers and infinities as signed magnitudes, −0 below +0 (R54). -/
def Fmt.key (f : Fmt) (b : Nat) : Int :=
  if f.isNeg b then -(b % 2 ^ (f.ebits + f.fbits) : Nat) - 1 else (b % 2 ^ (f.ebits + f.fbits) : Nat)

/-- The same order with −0 equal to +0 (R135). -/
def Fmt.key0 (f : Fmt) (b : Nat) : Int :=
  if f.isNeg b then -(b % 2 ^ (f.ebits + f.fbits) : Nat) else (b % 2 ^ (f.ebits + f.fbits) : Nat)

/-- round_to (R132) of an exact value; zero takes the sign `zneg`. -/
def roundQ (f : Fmt) (m : RMode) (zneg : Bool) (x : ℚ) : Res :=
  if x = 0 then (f.signed zneg 0, 0) else roundTo f m (decide (x < 0)) x.num.natAbs x.den

/-- a × b + d by R133 and R54. `p` says that there is a product (else it is a + d and b is not looked at),
`q` that there is an addend. -/
def fmaRule (f : Fmt) (m : RMode) (p q : Bool) (a b d : Nat) : Res :=
  let nans := f.nan a || (p && f.nan b) || (q && f.nan d)
  let sn := f.snan a || (p && f.snan b) || (q && f.snan d)
  let bad := p && ((f.zero a && f.inf b) || (f.inf a && f.zero b))
  let neg := if p then f.isNeg a != f.isNeg b else f.isNeg a
  let pinf := f.inf a || (p && f.inf b)
  if nans then (f.qnan, if sn || bad then flNV else 0)
  else if bad then (f.qnan, flNV)
  else if pinf then
    if q && f.inf d && f.isNeg d != neg then (f.qnan, flNV) else (f.signed neg f.infBits, 0)
  else if q && f.inf d then (f.signed (f.isNeg d) f.infBits, 0)
  else
    roundQ f m (if q then (if neg == f.isNeg d then neg else m == .rdn) else neg)
      (f.value a * (if p then f.value b else 1) + if q then f.value d else 0)

/-- Sum, product and fused product. -/
def addRule (f : Fmt) (m : RMode) (a b : Nat) : Res := fmaRule f m false true a 0 b
def mulRule (f : Fmt) (m : RMode) (a b : Nat) : Res := fmaRule f m true false a b 0

/-- A rule on both elements of a packed pair (R137). -/
def pairRule (r : Nat → Nat → Nat → Res) (a b d : Nat) : Res :=
  let x := r (a % 65536) (b % 65536) (d % 65536)
  let y := r (a / 65536) (b / 65536) (d / 65536)
  (x.1 + 65536 * y.1, x.2 ||| y.2)

/-- fmin and fmax (R134): `k` is 1 for the larger and −1 for the smaller. -/
def minMaxRule (f : Fmt) (k : Int) (a b : Nat) : Res :=
  (if f.nan a && f.nan b then f.qnan
    else if f.nan a then b
    else if f.nan b then a
    else if k * f.key a ≥ k * f.key b then a else b,
   if f.snan a || f.snan b then flNV else 0)

/-- The forms of R133, R134, R137 and R138. -/
def floatForm : Instr → Option Form
  | .fadd f | .fsub f => some (f.form 2 true)
  | .fmul f => some (f.form 2 false)
  | .ffma f => some (f.form 2 false true)
  | .fmin f | .fmax f => some (f.form 1 true)
  | .hadd2F16 f | .hmul2F16 f | .hadd2Bf16 f | .hmul2Bf16 f => some (f.form 2 false)
  | .hfma2F16 f | .hfma2Bf16 f => some (f.form 2 false true)
  | .dadd f | .dmul f => some f.form
  | .dfma f => some (f.form true)
  | _ => none

/-- Their result and flags from the bits of A, B and D. -/
def floatRule : Instr → Nat → Nat → Nat → Res
  | .fadd f, a, b, _ => addRule fmt32b (.ofCode f.r) a b
  | .fsub f, a, b, _ => addRule fmt32b (.ofCode f.r) a (b ^^^ 0x80000000)
  | .fmul f, a, b, _ => mulRule fmt32b (.ofCode f.r) a b
  | .ffma f, a, b, d => fmaRule fmt32b (.ofCode f.r) true true a b d
  | .fmin _, a, b, _ => minMaxRule fmt32b (-1) a b
  | .fmax _, a, b, _ => minMaxRule fmt32b 1 a b
  | .hadd2F16 _, a, b, d => pairRule (fun a b _ => addRule fmt16b .rne a b) a b d
  | .hmul2F16 _, a, b, d => pairRule (fun a b _ => mulRule fmt16b .rne a b) a b d
  | .hfma2F16 _, a, b, d => pairRule (fmaRule fmt16b .rne true true) a b d
  | .hadd2Bf16 _, a, b, d => pairRule (fun a b _ => addRule fmtBf16 .rne a b) a b d
  | .hmul2Bf16 _, a, b, d => pairRule (fun a b _ => mulRule fmtBf16 .rne a b) a b d
  | .hfma2Bf16 _, a, b, d => pairRule (fmaRule fmtBf16 .rne true true) a b d
  | .dadd f, a, b, _ => addRule fmt64b (.ofCode f.r) a b
  | .dmul f, a, b, _ => mulRule fmt64b (.ofCode f.r) a b
  | .dfma f, a, b, d => fmaRule fmt64b (.ofCode f.r) true true a b d
  | _, _, _, _ => (0, 0)

/-- The condition of `fcmp` and its flags (R88, R135). -/
def fcmpRule (c : Nat) (a b : Nat) : Bool × Fpx :=
  let f := fmt32b
  let un := f.nan a || f.nan b
  let sn : Fpx := if f.snan a || f.snan b then flNV else 0
  let an : Fpx := if un then flNV else 0
  match c with
  | 0 => (!un && decide (f.key0 a = f.key0 b), sn)
  | 1 => (un || decide (f.key0 a ≠ f.key0 b), sn)
  | 2 => (!un && decide (f.key0 a < f.key0 b), an)
  | 3 => (!un && decide (f.key0 a ≤ f.key0 b), an)
  | 4 => (!un && decide (f.key0 a > f.key0 b), an)
  | 5 => (!un && decide (f.key0 a ≥ f.key0 b), an)
  | 6 => (un, sn)
  | _ => (!un, sn)

/-- The unary forms of R136. -/
def unaryForm : Instr → Option Form
  | .frcp f | .frsq f | .fsqrt f | .fexp2 f | .flog2 f => some (f.form 3)
  | _ => none

/-- The table of R136 on the operand `a`. A root is given by the rationals below and above it: two that round to one
result give it. So is a power or a logarithm, where the rationals lie farther from it than the model's working
precision asks (assumption log 9); NX is raised where it is no binary32 value. -/
def unaryLaw (i : Instr) (a : Nat) (r : Res) : Prop :=
  let f := fmt32b
  let nanR : Res := (f.qnan, flNV)
  if f.nan a then r = (f.qnan, if f.snan a then flNV else 0)
  else match i with
    | .frcp g =>
      if f.inf a then r = (f.signed (f.isNeg a) 0, 0)
      else if f.zero a then r = (f.signed (f.isNeg a) f.infBits, flDZ)
      else r = roundQ f (.ofCode g.r) false (1 / f.value a)
    | .frsq g =>
      if f.zero a then r = (f.signed (f.isNeg a) f.infBits, flDZ)
      else if f.isNeg a then r = nanR
      else if f.inf a then r = (0, 0)
      else ∀ lo hi : ℚ, 0 < lo → 0 < hi → lo * lo * f.value a ≤ 1 → 1 ≤ hi * hi * f.value a →
        roundQ f (.ofCode g.r) false lo = roundQ f (.ofCode g.r) false hi → r = roundQ f (.ofCode g.r) false lo
    | .fsqrt g =>
      if f.zero a then r = (f.signed (f.isNeg a) 0, 0)
      else if f.isNeg a then r = nanR
      else if f.inf a then r = (f.infBits, 0)
      else ∀ lo hi : ℚ, 0 < lo → 0 < hi → lo * lo ≤ f.value a → f.value a ≤ hi * hi →
        roundQ f (.ofCode g.r) false lo = roundQ f (.ofCode g.r) false hi → r = roundQ f (.ofCode g.r) false lo
    | .fexp2 g =>
      if f.inf a then r = (if f.isNeg a then 0 else f.infBits, 0)
      else (∀ n : ℤ, f.value a = n → r = roundQ f (.ofCode g.r) false (2 ^ n))
        ∧ ((∀ n : ℤ, f.value a ≠ n) → r.2 &&& flNX = flNX)
        ∧ ∀ (k : ℕ) (m : ℤ) (lo hi : ℚ), f.value a * 2 ^ k = m → 0 < lo → 0 < hi → lo ^ 2 ^ k ≤ 2 ^ m → 2 ^ m ≤ hi ^ 2 ^ k →
          let y := roundQ f (.ofCode g.r) false (lo * (1 - 1 / 2 ^ 30))
          y = roundQ f (.ofCode g.r) false (hi * (1 + 1 / 2 ^ 30)) → r = y
    | .flog2 g =>
      if f.zero a then r = (f.signed true f.infBits, flDZ)
      else if f.isNeg a then r = nanR
      else if f.inf a then r = (f.infBits, 0)
      else (∀ n : ℤ, f.value a = 2 ^ n → r = roundQ f (.ofCode g.r) false n)
        ∧ ((∀ n : ℤ, f.value a ≠ 2 ^ n) → r.2 &&& flNX = flNX)
        ∧ ∀ (q : ℕ) (m n : ℤ), 0 < q → (2 : ℚ) ^ m ≤ f.value a ^ q → f.value a ^ q ≤ (2 : ℚ) ^ n →
          let y := roundQ f (.ofCode g.r) false (m / q - 1 / 2 ^ 60)
          y = roundQ f (.ofCode g.r) false (n / q + 1 / 2 ^ 60) → r = y
    | _ => False

/-- Magnitude of the D8 code p (R57): (1 + 9f ÷ 2^r) × 10^(−z). -/
def d8Magnitude (p : Nat) : ℚ :=
  if p = 0 then 0
  else (1 + 9 * (p - 2 ^ p.log2 : ℚ) / 2 ^ p.log2) / 10 ^ (6 - p.log2)

/-- d8_from of a number (R60): `r` is the byte and the flags. -/
def d8FromLaw (x : ℚ) (r : Res) : Prop :=
  let s := if x < 0 then 128 else 0
  if abs x > 631 / 64 then r = (s + 0x7F, flOF ||| flNX)
  else ∃ p < 128, (∀ q < 128, abs (d8Magnitude p - abs x) ≤ abs (d8Magnitude q - abs x))
    ∧ (∀ q < 128, q ≠ p → abs (d8Magnitude p - abs x) = abs (d8Magnitude q - abs x) → p % 2 = 0)
    ∧ r.1 = (if p = 0 then 0 else s + p)
    ∧ r.2 = (if d8Magnitude p = abs x then 0 else flNX) ||| (if abs x < 1 / 1000000 ∧ x ≠ 0 then flUF else 0)

/-- The value of a D8 byte other than 0x80. -/
def d8Value (b : Nat) : ℚ := (if b / 128 % 2 = 1 then -1 else 1) * d8Magnitude (b % 128)

/-- A conversion source (R86, R139): NaN (signalling or not), ±∞, or a number with the sign of a zero. -/
inductive CSource where
  | nan (signalling : Bool)
  | inf (neg : Bool)
  | num (x : ℚ) (zneg int : Bool)

/-- A source in a binary format. -/
def Fmt.source (f : Fmt) (b : Nat) : CSource :=
  if f.nan b then .nan (f.snan b) else if f.inf b then .inf (f.isNeg b) else .num (f.value b) (f.isNeg b) false

/-- The exact value of a source (R139, R140): narrow sources from the low bits. -/
def cvtSource (c : Nat) (v : DWord) : CSource :=
  match c with
  | 0 => .num (v.setWidth 32).toInt false true
  | 1 => .num (v.setWidth 32).toNat false true
  | 2 => fmt16b.source (v.toNat % 65536)
  | 3 => fmtBf16.source (v.toNat % 65536)
  | 4 => fmt32b.source (v.toNat % 4294967296)
  | 5 => fmt64b.source v.toNat
  | 6 => if v.toNat % 256 = 128 then .nan false else .num (d8Value (v.toNat % 256)) false false
  | 7 => .num (v.setWidth 8).toInt false true
  | 8 => .num v.toInt false true
  | _ => .num v.toNat false true

/-- round_to_integer (R53). -/
def roundIntQ (m : RMode) (x : ℚ) : ℤ :=
  match m with
  | .rdn => ⌊x⌋
  | .rup => ⌈x⌉
  | .rtz => if x < 0 then ⌈x⌉ else ⌊x⌋
  | .rne =>
    if x - ⌊x⌋ < 1 / 2 then ⌊x⌋ else if x - ⌊x⌋ > 1 / 2 then ⌊x⌋ + 1
    else if ⌊x⌋ % 2 = 0 then ⌊x⌋ else ⌊x⌋ + 1

/-- Bounds of an integer target (R140). -/
def cvtBounds (c : Nat) : ℤ × ℤ :=
  match c with
  | 0 => (-2 ^ 31, 2 ^ 31 - 1)
  | 1 => (0, 2 ^ 32 - 1)
  | 7 => (-128, 127)
  | 8 => (-2 ^ 63, 2 ^ 63 - 1)
  | _ => (0, 2 ^ 64 - 1)

/-- The bits of an integer result: two's complement of 64 bits for s64 and u64, of 32 else (R139). -/
def cvtBits (c : Nat) (x : ℤ) : Nat :=
  if c = 8 ∨ c = 9 then (wrap64 x).toNat else (wrap32 x).toNat

/-- The rows of R140: `r` is the result of the source `v` in format `src` for the target `dst`. -/
def cvtLaw (src dst : Nat) (m : RMode) (v : DWord) (r : Res) : Prop :=
  let bin : Option Fmt := match dst with
    | 2 => some fmt16b
    | 3 => some fmtBf16
    | 4 => some fmt32b
    | 5 => some fmt64b
    | _ => none
  match bin, cvtSource src v with
  | some f, .nan s => r = (f.qnan, if s then flNV else 0)
  | some f, .inf neg => r = (f.signed neg f.infBits, 0)
  | some f, .num x z _ => r = roundQ f m z x
  | none, y =>
    if dst = 6 then match y with
      | .nan s => r = (0x80, if s then flNV else 0)
      | .inf neg => r = ((if neg then 128 else 0) + 0x7F, flOF ||| flNX)
      | .num x _ _ => d8FromLaw x r
    else match y with
      | .nan _ => r = (0, flNV)
      | .inf neg => r = (cvtBits dst (if neg then (cvtBounds dst).1 else (cvtBounds dst).2), flNV)
      | .num x _ int =>
        let n := roundIntQ m x
        r = (cvtBits dst (max (cvtBounds dst).1 (min (cvtBounds dst).2 n)),
          if int then 0
          else if n < (cvtBounds dst).1 ∨ n > (cvtBounds dst).2 then flNV
          else if (n : ℚ) = x then 0 else flNX)

/-- The conversion forms (R139, R141). -/
def cvtForm : Instr → Option Form
  | .cvt f => some f.form
  | .cvtD8x4 f => some { cls := 1, a := .quad f.a, dst := .w f.d, chain := true }
  | .cvtF32x4 f => some { cls := 1, a := .w f.a, dst := .quad f.d, chain := true }
  | _ => none

/-- The result of a conversion form from the bits of A. -/
def cvtFormLaw : Instr → BitVec 128 → BitVec 128 → Fpx → Prop
  | .cvt f, a, v, fl => ∃ r, cvtLaw f.src.toNat f.dst.toNat (.ofCode f.rm) (a.setWidth 64) r
      ∧ v.toNat = r.1 ∧ fl = r.2
  | .cvtD8x4 _, a, v, fl => ∃ r0 r1 r2 r3,
      cvtLaw 4 6 .rne (a.setWidth 64) r0 ∧ cvtLaw 4 6 .rne ((a >>> 32).setWidth 64) r1
      ∧ cvtLaw 4 6 .rne ((a >>> 64).setWidth 64) r2 ∧ cvtLaw 4 6 .rne ((a >>> 96).setWidth 64) r3
      ∧ v.toNat = r0.1 + 256 * r1.1 + 65536 * r2.1 + 16777216 * r3.1
      ∧ fl = r0.2 ||| r1.2 ||| r2.2 ||| r3.2
  | .cvtF32x4 _, a, v, fl => ∃ r0 r1 r2 r3,
      cvtLaw 6 4 .rne (a.setWidth 64) r0 ∧ cvtLaw 6 4 .rne ((a >>> 8).setWidth 64) r1
      ∧ cvtLaw 6 4 .rne ((a >>> 16).setWidth 64) r2 ∧ cvtLaw 6 4 .rne ((a >>> 24).setWidth 64) r3
      ∧ v.toNat = r0.1 + 2 ^ 32 * r1.1 + 2 ^ 64 * r2.1 + 2 ^ 96 * r3.1
      ∧ fl = r0.2 ||| r1.2 ||| r2.2 ||| r3.2
  | _, _, _, _ => False

/-- `v` is the value nearest to the exact `x` that the rounding mode chooses among the values that
`grid` admits (R53). -/
def Chosen (m : RMode) (grid : ℚ → Prop) (even : ℚ → Prop) (x v : ℚ) : Prop :=
  grid v ∧ match m with
    | .rne => (∀ w, grid w → abs (x - v) ≤ abs (x - w)) ∧ ∀ w, grid w → w ≠ v → abs (x - v) = abs (x - w) → even v
    | .rtz => abs v ≤ abs x ∧ 0 ≤ v * x ∧ ∀ w, grid w → abs w ≤ abs x → abs w ≤ abs v
    | .rdn => v ≤ x ∧ ∀ w, grid w → w ≤ x → w ≤ v
    | .rup => x ≤ v ∧ ∀ w, grid w → x ≤ w → v ≤ w

/-- The numbers with the format's precision and no exponent above a bound: `emin` is the least exponent of a
unit in the last place, if there is one. -/
def Fmt.grid (f : Fmt) (emin : Option ℤ) (v : ℚ) : Prop :=
  ∃ (k e : ℤ), abs k < 2 ^ (f.fbits + 1) ∧ (∀ l, emin = some l → l ≤ e) ∧ v = k * 2 ^ e

/-- The last bit of the significand is 0: the value is an even multiple of its unit, or one of a larger
power. -/
def Fmt.evenIn (f : Fmt) (emin : Option ℤ) (v : ℚ) : Prop :=
  ∃ (k e : ℤ), abs k ≤ 2 ^ f.fbits ∧ (∀ l, emin = some l → l < e) ∧ v = k * 2 ^ e ∨ v = 0

/-- Exponent of the unit in the last place of a subnormal. -/
def Fmt.ulpMin (f : Fmt) : ℤ := 1 - (2 ^ (f.ebits - 1) - 1) - f.fbits

/-- The largest finite value. -/
def Fmt.maxFinite (f : Fmt) : ℚ := (2 ^ (f.fbits + 1) - 1) * 2 ^ ((2 ^ (f.ebits - 1) - 1 : ℤ) - f.fbits)

/-- IEEE 754-2019 rounding of a non-zero exact value as R132 asks for it: the value chosen with subnormals
kept and no bound above, ±∞ or the largest finite value beyond it, tininess after rounding (R55). -/
def Rounded (f : Fmt) (m : RMode) (x : ℚ) (r : Res) : Prop :=
  ∃ v u : ℚ, Chosen m (f.grid (some f.ulpMin)) (f.evenIn (some f.ulpMin)) x v
    ∧ Chosen m (f.grid none) (f.evenIn none) x u
    ∧ if abs v > f.maxFinite then
        r.2 = flOF ||| flNX ∧ f.isNeg r.1 = decide (x < 0)
          ∧ if m = .rne ∨ (m = .rdn ∧ x < 0) ∨ (m = .rup ∧ 0 < x) then f.inf r.1 = true
            else f.inf r.1 = false ∧ f.nan r.1 = false ∧ abs (f.value r.1) = f.maxFinite
      else
        f.nan r.1 = false ∧ f.inf r.1 = false ∧ f.value r.1 = v ∧ f.isNeg r.1 = decide (x < 0)
          ∧ r.2 = (if v = x then 0 else flNX)
            ||| (if v ≠ x ∧ abs u < 2 ^ (f.ulpMin + f.fbits) then flUF else 0)

/-! ### Paths (R26 to R29) -/

/-- Two paths of a group stand, the issuing one and `q`, which waits for nothing and is in no chain; no path is
parked and none waits to be cast. -/
structure Ctx.Beside (c : Ctx) (q : Path) : Prop where
  paths : c.g.paths = [c.p, q] ∨ c.g.paths = [q, c.p]
  apart : c.p.mask &&& q.mask = 0 ∧ c.p.mask ≠ 0 ∧ q.mask ≠ 0
  open_ : c.p.chain = none ∧ q.chain = none
  free : c.p.free = true ∧ q.free = true
  parked : c.g.parked = none
  casting : c.g.casting = []
  threads : ∀ r, c.g.members.getLsbD r = true → (Tab.find? c.g.threads r).isSome = true

/-- A path of the group has this mask and stands at this PC. -/
def Group.has (g : Group) (x : Word × DWord) : Prop := ∃ p ∈ g.paths, p.mask = x.1 ∧ p.pc = x.2

/-- The victim of R28 among paths given by mask and PC: the fewest members, on a tie the highest PC. -/
def IsVictim (ps : List (Word × DWord)) (v : Word × DWord) : Prop :=
  v ∈ ps ∧ ∀ x ∈ ps, x ≠ v → countMask v.1 < countMask x.1 ∨ countMask v.1 = countMask x.1 ∧ x.2 < v.2

/-- The interval between a transfer's address and its target holds a PC (R27). -/
def Between (a y t : DWord) : Prop := a < y ∧ y < t

/-! ### Cross-lane forms (R142 to R146) -/

/-- Forms that write a name of every member from the sources of all. -/
def crossForm : Instr → Option Form
  | .shflIdx f | .shflUp f | .shflDown f | .shflXor f => some f.form
  | .reduxAdd f | .reduxMin f | .reduxMax f | .match_ f => some (f.form 1 false)
  | .voteBallot f => some { predR := [f.q.toNat], dst := .w f.d, h := f.h, n := f.n, chain := true }
  | _ => none

/-- The value that `shfl` gives for the index `j`: A of that member, or FILL (R143). -/
def shflLaw (c : Ctx) (f : ShflF) (e : Nat × Thread) (j : Option Nat) (v : Word) : Prop :=
  (∀ e' ∈ c.threads, j = some e'.1 → v = c.src e' (.w f.a))
    ∧ ((∀ e' ∈ c.threads, j ≠ some e'.1) → v = c.src e (.w f.fill))

/-- The result of member `e` (R143 to R146). -/
def crossLaw : Instr → Ctx → Nat × Thread → Word → Prop
  | .shflIdx f, c, e, v => shflLaw c f e (some ((c.src e (.w f.b)).toNat % 32)) v
  | .shflUp f, c, e, v =>
    let n := (c.src e (.w f.b)).toNat % 32
    shflLaw c f e (if n ≤ e.1 then some (e.1 - n) else none) v
  | .shflDown f, c, e, v =>
    let n := (c.src e (.w f.b)).toNat % 32
    shflLaw c f e (if e.1 + n ≤ 31 then some (e.1 + n) else none) v
  | .shflXor f, c, e, v => shflLaw c f e (some (e.1 ^^^ (c.src e (.w f.b)).toNat % 32)) v
  | .reduxAdd f, c, _, v => v = wrap32 (c.threads.map fun e => (c.src e (.w f.a)).toInt).sum
  | .reduxMin f, c, _, v =>
    (∃ e ∈ c.threads, v = c.src e (.w f.a)) ∧ ∀ e ∈ c.threads, v.toInt ≤ (c.src e (.w f.a)).toInt
  | .reduxMax f, c, _, v =>
    (∃ e ∈ c.threads, v = c.src e (.w f.a)) ∧ ∀ e ∈ c.threads, (c.src e (.w f.a)).toInt ≤ v.toInt
  | .match_ f, c, e, v =>
    ∀ r, v.getLsbD r = true ↔ ∃ e' ∈ c.threads, e'.1 = r ∧ c.src e' (.w f.a) = c.src e (.w f.a)
  | .voteBallot f, c, _, v =>
    ∀ r, v.getLsbD r = true ↔ ∃ e' ∈ c.threads, e'.1 = r ∧ e'.2.preds.getLsbD f.q.toNat = true
  | _, _, _, _ => False

/-! ### Control flow and system registers -/

/-- The forms that only go on to the next instruction once what they wait for has happened (R164, R173, R178,
R185, R261, R262), and that condition. -/
def goOn : Instr → State → Ctx → Option (Form × Bool)
  | .nop, _, _ | .yield, _, _ => some ({}, true)
  | .ifence, s, c => some ({ group := true }, !s.storesPending c)
  | .fence f, s, c => some ({}, !s.laneBusy c f.scope.toNat (f.kind == 0))
  | .pfence f, s, c =>
    some ({}, !c.threads.any fun t => match f.f.toNat with
      | 0 => s.pathPending t.2.tid false
      | 1 => s.pathPending t.2.tid true
      | p => s.unitPending t.2.tid p)
  | .wait f, s, c => some ({ group := true }, s.waitOver c f)
  | _, _, _ => none

/-- The value of a system register for the issuing path (R165, R167). The LOC of a steward core and the die's
SPILLBASE and SID stand elsewhere. -/
def sysLaw (s : State) (c : Ctx) (n : Nat) (v : Word) : Prop :=
  let g := c.g
  let w := c.w
  match n with
  | 0x000 => v.toNat = g.fpx.toNat
  | 0x001 => v = c.p.mask
  | 0x002 => v = g.members
  | 0x003 => v.toNat = w.index.toNat
  | 0x004 => v = wrap32 g.gindex
  | 0x005 => v = wrap32 w.region
  | 0x006 => g.steward = false → v = wrap32 g.loc
  | 0x007 => v = wrap32 w.nb
  | 0x008 => v = wrap32 w.scrBase
  | 0x009 => v = wrap32 w.scrSize
  | 0x00A => v = if w.xwin = 0 then 0xFFFFFFFF else wrap32 w.live
  | 0x00B => v.toNat = (if w.priv || g.steward then 1 else 0) + (if g.handler then 2 else 0)
      + if g.steward then 4 else 0
  | 0x010 => v = wrap32 (s.die (if g.steward then 0 else g.loc / 256)).ticks
  | 0x011 => v = g.timeHi
  | 0x100 => v.toNat = g.hcause.toNat
  | 0x101 => v.toNat = (g.epcOf 0).toNat % 2 ^ 32
  | 0x102 => v.toNat = (g.epcOf 0).toNat / 2 ^ 32
  | 0x103 => v = g.emskOf 0
  | 0x104 => v.toNat = (g.epcOf 1).toNat % 2 ^ 32
  | 0x105 => v.toNat = (g.epcOf 1).toNat / 2 ^ 32
  | 0x106 => v = g.emskOf 1
  | 0x107 => v.toNat = (g.epcOf 2).toNat % 2 ^ 32
  | 0x108 => v.toNat = (g.epcOf 2).toNat / 2 ^ 32
  | 0x109 => v = g.emskOf 2
  | 0x10A => v.toNat = g.ctx.toNat % 2 ^ 32
  | 0x10B => v.toNat = g.ctx.toNat / 2 ^ 32
  | 0x2000 => v = wrap32 (s.sidOf g)
  | 0x2001 => v.toNat = (s.spillOf g).toNat % 2 ^ 32
  | 0x2002 => v.toNat = (s.spillOf g).toNat / 2 ^ 32
  | _ => False

/-- A 64-bit register with one half replaced. -/
def withHalf (x : DWord) (hi : Bool) (v : Word) : DWord :=
  if hi then BitVec.ofNat 64 (v.toNat * 2 ^ 32 + x.toNat % 2 ^ 32)
  else BitVec.ofNat 64 (x.toNat / 2 ^ 32 * 2 ^ 32 + v.toNat)

/-- What a write of a group register leaves of the group's special registers (R168): flags, path records and
context. -/
def sysWritten (g h : Group) (n : Nat) (v : Word) : Prop :=
  (h.fpx.toNat = if n = 0 then v.toNat % 32 else g.fpx.toNat)
    ∧ h.ctx = (if n = 0x10A then withHalf g.ctx false v else if n = 0x10B then withHalf g.ctx true v else g.ctx)
    ∧ (∀ k < 3, h.epcOf k =
        if n = 0x101 + 3 * k then withHalf (g.epcOf k) false v
        else if n = 0x102 + 3 * k then withHalf (g.epcOf k) true v else g.epcOf k)
    ∧ (∀ k < 3, h.emskOf k = if n = 0x103 + 3 * k then v else g.emskOf k)
    ∧ h.hcause = g.hcause ∧ h.timeHi = g.timeHi ∧ h.gindex = g.gindex ∧ h.handler = g.handler

/-- The queue of a record of a fault of the issuing path (R348): the die's own for a group in privileged mode
(assumption log 103). -/
def Ctx.queue (c : Ctx) : Option Nat := if c.w.priv then none else some c.w.region

/-- A record of the die's own queue (R343, R348): its code, PC, MASK stand at the slot that TAIL named,
its DISP is 0, TAIL and FQWAKE are one more; no other byte of physical memory changes. -/
def State.Recorded (s t : State) (d : Nat) (code : Nat) (pc : DWord) (mask : Word) : Prop :=
  let b := (s.die d).dfqBase.toNat
  let tail := s.readPaLe b 4
  let r := b + 64 + 64 * (tail % 4096)
  t.readPaLe b 4 = (tail + 1) % 2 ^ 32 ∧ t.readPaLe r 1 = code ∧ t.readPaLe (r + 2) 1 = 0
    ∧ t.readPaLe (r + 8) 8 = pc.toNat ∧ t.readPaLe (r + 32) 4 = mask.toNat
    ∧ (t.die d).fqWake = (s.die d).fqWake + 1
    ∧ ∀ a, ¬ (b ≤ a ∧ a < b + 4) → ¬ (r ≤ a ∧ a < r + 64) → t.readPa a = s.readPa a

/-- Records for the queue of `q` go to the die's own queue, which lies in the die's HBM, has room and no read
duplicates (R242, R348); the policy of the region `r` of the record does not kill (R349). -/
structure State.DieQueue (s : State) (d : Nat) (q r : Option Nat) : Prop where
  own : s.faultQueue d q = none
  room : (s.readPaLe (s.die d).dfqBase.toNat 4 + 2 ^ 32 - s.readPaLe ((s.die d).dfqBase.toNat + 4) 4) % 2 ^ 32 ≠ 4096
  here : ∀ k < 64 + 64 * 4096, hbmDie ((s.die d).dfqBase.toNat + k) = some d
  noHost : ∀ k < 64 + 64 * 4096, isHostPa ((s.die d).dfqBase.toNat + k) = false
  calm : ∀ k < 64 + 64 * 4096, (s.frame ((s.die d).dfqBase.toNat + k)).hold = 0
  goesOn : s.killsAtOnce d r = false

/-- The group has no path but the issuing one. -/
def Ctx.OnePath (c : Ctx) : Prop := c.g.paths = [c.p] ∧ c.g.parked = none

/-- A path with member `r` stands at `pc` and waits for `v`. -/
def State.waitsAt (s : State) (gid r : Nat) (pc : DWord) (v : Wait) : Prop :=
  ∃ g, s.group? gid = some g ∧ ∃ p ∈ g.paths, p.mask.getLsbD r = true ∧ p.pc = pc ∧ p.wait = v

/-- Member `r` of a group has a path, parked or not, at `pc`. -/
def Group.standsAt (g : Group) (r : Nat) (pc : DWord) : Prop :=
  ∃ p ∈ g.paths ++ g.parked.toList, p.mask.getLsbD r = true ∧ p.pc = pc

/-- An instruction issues with the needs `f`: whatever it does, it does past the checks of issue (R93). -/
def IssuesWith (i : Instr) (f : Form) : Prop := ∃ k, ∀ s, exec i s = .next (s.issue i f k)

/-- The precise fault of R93 that an issue meets: code and ranks; none: it may issue. -/
def State.issueFault (s : State) (c : Ctx) : Option (FCode × Word) :=
  if c.isIll then some (.ill, c.p.mask)
  else if (c.f.priv || c.f.privOn c.g c.w) && !(c.w.priv || c.g.steward) then some (.priv, c.p.mask)
  else if 8192 < s.priceOf c then some (.lumen, c.p.mask)
  else if s.badPlace c ≠ 0 then some (.place, s.badPlace c)
  else none

/-! ### What a step leaves alone -/

/-- Parts of the package that a step may change. -/
structure Parts where
  dies : List Nat := []
  xdies : List Nat := []
  clusters : List Nat := []
  cores : List Nat := []
  wgs : List Nat := []
  groups : List Nat := []
  ops : List Nat := []
  runs : Bool := false
  traps : Bool := false
  links : Bool := false
  reports : Bool := false
  deriving DecidableEq, Repr

/-- Outside the parts `p` nothing of the package changes. -/
structure State.Outside (s t : State) (p : Parts) : Prop where
  dies : ∀ d, d ∉ p.dies → t.die d = s.die d
  xdies : ∀ d, d ∉ p.xdies → t.xdie d = s.xdie d
  clusters : ∀ c, c ∉ p.clusters → t.cluster c = s.cluster c
  cores : ∀ l, l ∉ p.cores → t.core l = s.core l
  wgs : ∀ w, w ∉ p.wgs → t.wg? w = s.wg? w
  groups : ∀ g, g ∉ p.groups → t.group? g = s.group? g
  ops : ∀ o, o ∉ p.ops → t.op? o = s.op? o
  runs : p.runs = false → t.regionRuns = s.regionRuns
  traps : p.traps = false → t.pending = s.pending ∧ t.heldRecs = s.heldRecs
  links : p.links = false → t.links = s.links ∧ t.linkBeats = s.linkBeats
  reports : p.reports = false → t.irqs = s.irqs ∧ t.mailbox = s.mailbox ∧ t.hostReads = s.hostReads
  wires : t.linkLanes = s.linkLanes ∧ t.linkReserve = s.linkReserve ∧ t.linkDown = s.linkDown
  outer : t.hostMem = s.hostMem ∧ t.safeTier = s.safeTier ∧ t.power = s.power ∧ t.saved = s.saved
    ∧ t.posted = s.posted ∧ t.fabric = s.fabric ∧ t.rels = s.rels ∧ t.firmware = s.firmware

/-- A die but for its memory and for what counts its trap records (R348). -/
def Die.noQueue (d : Die) : Die := { d with mem := [], trapSeq := 0, fqWake := 0 }

/-- From `s` to `t` the issuing path meets a precise fault (R44, R85, R343, R348): a record names it in the die's own
queue, the path stops before its instruction, or before its open chain, and waits for the answer. Nothing else of the
package changes; a group in privileged mode stops with its workgroup and is reported (assumption log 103). -/
structure State.Faults (s t : State) (c : Ctx) (code : FCode) (m : Word) : Prop where
  record : s.Recorded t (coreDie c.g.loc) code.num c.p.pc m
  stops : ∀ r, c.p.mask.getLsbD r = true → t.waitsAt c.gid r (c.p.chain.elim c.p.pc (·.start)) (.trap s.nextId)
  party : ∃ x ∈ t.pending, x.id = s.nextId ∧ x.party = .path c.gid
  regs : ∀ k q n, t.regAt k q n = s.regAt k q n
  preds : ∀ k q n, t.predAt k q n = s.predAt k q n
  files : c.p.chain = none → s.SameFiles t c.gid
  outside : s.Outside t { dies := [coreDie c.g.loc], groups := [c.gid], wgs := if c.w.priv then [c.g.wg] else [],
                          runs := true, traps := true, reports := c.w.priv }
  die : (t.die (coreDie c.g.loc)).noQueue = (s.die (coreDie c.g.loc)).noQueue
  waiting : ∀ x ∈ s.pending, x ∈ t.pending

/-- The mask of the ranks of the issuing path that satisfy a test. -/
def Ctx.ranks (c : Ctx) (p : Nat × Thread → Bool) : Word :=
  BitVec.ofNat 32 ((c.threads.filter p).map fun e => 2 ^ e.1).sum

/-- The precise fault that an instruction raises by its own rule once it may issue: form, code and ranks (R161, R162,
R171, R172, R213, R214, R221, R225, R246, R258, R259, R310, R324, R330). -/
def ownFault : Instr → State → Ctx → Option (Form × FCode × Word)
  | .callr f, _, c =>
    let v := c.src64 c.leader (.pair f.a)
    let g : Form := { group := true, a := .pair f.a, dst := .pair f.d }
    if v = 0 then some (g, .nullret, c.p.mask) else if v.toNat % 4 ≠ 0 then some (g, .align, c.p.mask) else none
  | .ret a, _, c =>
    let v := fun e => (c.src64 e (.pair a)).toNat
    if c.threads.any fun e => v e == 0 then some ({ a := .pair a }, .nullret, c.ranks fun e => v e == 0)
    else if c.threads.any fun e => v e % 4 != 0 then some ({ a := .pair a }, .align, c.ranks fun e => v e % 4 != 0)
    else none
  | .eret, _, c => if eretAlign c.g then some ({ group := true, illOn := eretIll }, .align, c.p.mask) else none
  | .eretSave, _, c =>
    if saveAlign c.g c.w then some ({ group := true, outside := true, illOn := saveIll }, .align, c.p.mask) else none
  | .contPush f, _, c =>
    if (c.src64 c.leader (.pair f.a)).toNat % 32 ≠ 0 then
      some ({ group := true, a := .pair f.a, b := .w f.b, outside := true, log := true, sb := f.sb.toNat }, .align, c.p.mask)
    else none
  | .ttask f, _, c =>
    if (c.src64 c.leader (.pair f.a)).toNat % 64 ≠ 0 then
      some ({ group := true, a := .pair f.a, outside := true, log := true, noSteward := true, sb := f.sb.toNat }, .align,
        c.p.mask)
    else none
  | .lds f, _, c =>
    let a := fun e => ((c.env e).word f.a + wrap32 f.off.toInt).toNat
    let n := szBytes f.sz
    let g : Form := { cls := 1, dst := Fld.ofSz f.sz f.d, full := (Fld.w f.a).names, sb := f.sb.toNat }
    if c.threads.any fun e => a e % n != 0 then some (g, .align, c.ranks fun e => a e % n != 0)
    else if c.threads.any fun e => decide (2 ^ 21 ≤ a e) || !scrOk c.w (a e) n then
      some (g, .perm, c.ranks fun e => decide (2 ^ 21 ≤ a e) || !scrOk c.w (a e) n)
    else none
  | .sts f, _, c =>
    let a := fun e => ((c.env e).word f.a + wrap32 f.off.toInt).toNat
    let n := szBytes f.sz
    let g : Form := { cls := 1, full := (Fld.w f.a).names ++ (Fld.ofSz f.sz f.d).names, outside := true, sb := f.sb.toNat }
    if c.threads.any fun e => a e % n != 0 then some (g, .align, c.ranks fun e => a e % n != 0)
    else if c.threads.any fun e => decide (2 ^ 21 ≤ a e) || !scrOk c.w (a e) n then
      some (g, .perm, c.ranks fun e => decide (2 ^ 21 ≤ a e) || !scrOk c.w (a e) n)
    else none
  | .xst f, _, c =>
    let a := fun e => ((c.env e).word f.a + wrap32 f.off.toInt).toNat
    if c.threads.any fun e => a e % szBytes f.sz != 0 then
      some ({ cls := 1, full := (Fld.w f.a).names ++ (Fld.ofSz f.sz f.d).names, outside := true, log := true,
              sb := f.sb.toNat }, .align, c.ranks fun e => a e % szBytes f.sz != 0)
    else none
  | .retype f, s, c =>
    let a := (c.src64 c.leader (.pair f.a)).toNat
    let g : Form := { group := true, a := .pair f.a, b := .w f.b, outside := true, priv := true }
    if a % 131072 ≠ 0 then some (g, .align, c.p.mask)
    else if hbmDie a ≠ some (tabDie c.g.loc) then none
    else if (s.frame a).res || (s.frame a).dev then some (g, .perm, c.p.mask)
    else if (s.frame a).strand then some (g, .strand, c.p.mask) else none
  | .tlbInv f, _, c =>
    if 4 < (c.src c.leader (.w f.b)).toNat % 16 then
      some ({ group := true, a := .pair f.a, b := .w f.b, outside := true, priv := true }, .ill, c.p.mask)
    else none
  | .remapSet f, _, c =>
    let a := (c.src c.leader (.w f.a)).toNat
    if c.g.steward = false ∧ a ≠ 0xFFFFFFFF ∧ (a % 64 ≠ 0 ∨ c.w.scrSize < a + 16384) then
      some ({ group := true, a := .w f.a, b := .w f.b, outside := true }, .ill, c.p.mask)
    else none
  | .tset f, s, c =>
    let n := (c.src c.leader (.w f.b)).toNat % 2048
    if c.g.steward = false ∧ s.tableBusy c = false ∧ c.privileged = false
        ∧ ((Tab.find? (s.cluster (locCluster c.g.loc)).tags n).any fun e => e.1.toNat != c.w.region) = true then
      some ({ group := true, a := .w f.a, b := .w f.b, dst := .w f.d, outside := true }, .perm, c.p.mask)
    else none
  | .tclr f, s, c =>
    let n := (c.src c.leader (.w f.a)).toNat % 2048
    if c.g.steward = false ∧ s.tableBusy c = false ∧ c.privileged = false
        ∧ ((Tab.find? (s.cluster (locCluster c.g.loc)).tags n).any fun e => e.1.toNat != c.w.region) = true then
      some ({ group := true, a := .w f.a, dst := .w f.d, outside := true }, .perm, c.p.mask)
    else none
  | _, _, _ => none

/-- A record held at its party is written at `r` of a queue whose TAIL stands at `tail` (R343, R348), and what the
policy of its region asks follows (R349): the party waits for the answer at `ack`, or the subtree is killed. -/
structure State.Written (s t : State) (h : HeldRec) (tail r ack : Nat) (redirect : Bool) : Prop where
  count : t.readPaLe tail 4 = (s.readPaLe tail 4 + 1) % 2 ^ 32
  code : t.readPaLe r 1 = h.trap.code.num
  disp : t.readPaLe (r + 2) 1 = if s.killsAtOnce h.die h.trap.region then 2 else 0
  info : t.readPaLe (r + 3) 1 / 2 % 2 =
    if h.trap.info || s.killsAtOnce h.die h.trap.region || h.party.isNone then 1 else 0
  redirected : t.readPaLe (r + 3) 1 / 4 % 2 = if redirect then 1 else 0
  pc : t.readPaLe (r + 8) 8 = h.trap.pc.toNat
  mask : t.readPaLe (r + 32) 4 = h.trap.mask.toNat
  wake : (t.die h.die).fqWake = (s.die h.die).fqWake + 1
  bytes : ∀ a, ¬ (tail ≤ a ∧ a < tail + 4) → ¬ (r ≤ a ∧ a < r + 64) → t.readPa a = s.readPa a
  taken : ∀ x ∈ t.heldRecs, x.id ≠ h.id
  waits : s.killsAtOnce h.die h.trap.region = false → ∀ p, h.party = some p →
    ∃ x ∈ t.pending, x.id = h.id ∧ x.party = p ∧ x.addr = BitVec.ofNat 64 ack ∧ x.pa = r
  killed : s.killsAtOnce h.die h.trap.region = true → ∀ k, h.trap.region = some k →
    (t.run k).killed = true ∧ (∀ w x, t.wg? w = some x → s.killed k x.region = false)
      ∧ ∀ o x, t.op? o = some x → s.killed k x.region = false

/-- Every memory of the package has the canonical form, and a die's memory lists its own HBM alone. -/
structure State.MemoriesWf (s : State) : Prop where
  dies : ∀ d, (s.die d).mem.wf = true
  within : ∀ d, ∀ c ∈ (s.die d).mem, hbmDie c.1 = some d
  spads : ∀ c, (s.cluster c).spad.wf = true
  host : s.hostMem.wf = true
  safe : s.safeTier.wf = true

/-! ### The control window (R367) -/

/-- The 64-bit registers of the control window that hold what is written: whether they are marked Q, the
bits that they keep, and the register. -/
def cwField : Nat → Option (Bool × DWord × (Die → DWord))
  | 0x00 => some (true, 0xFFFFFFFFFFFF0000, (·.rootBase))
  | 0x08 => some (true, 0xFFFFFFFFFFFFFFFF, (·.ftBase))
  | 0x18 => some (true, 0xFFFFFFFFFFFFFFFF, (·.expBase))
  | 0x20 => some (true, 0xFFFFFFFFFFFFFFFF, (·.rgnBase))
  | 0x28 => some (true, 0xFFFFFFFFFFFFFFFF, (·.dfqBase))
  | 0x30 => some (true, 0xFFFFFFFFFFFFFFFF, (·.vlBase))
  | 0x60 => some (false, 0xFFFFFFFFFFFFFFFF, (·.hotBase))
  | 0x70 => some (false, 0xFFFFFFFFFFFFFFFF, (·.fabBase))
  | 0x200 => some (false, 0x7FFFFFFF, (·.dupFrame))
  | 0x208 => some (false, 0x0003FFFFFFFFFFFF, (·.dupCopy))
  | _ => none

/-- The names of a group's operations in flight. -/
def State.opsOf (s : State) (gid : Nat) : List Nat := (s.ops.filter fun o => o.2.gid == gid).map (·.1)

/-- Far results of the group's instructions hold its handler entry back (R170). -/
def State.entryHeld (s : State) (gid : Nat) : Bool :=
  s.ops.any fun o => o.2.gid == gid && !s.logged o.2
    && o.2.members.any fun m => !m.done && (m.place != .lane || o.2.isRedecl)

/-- A PREQ value `v` on die `d` names a workgroup (R352): its region is bits 15:0 or, with bit 16, a descendant
of it; with bit 28 its core is bits 27:18. -/
def State.named (s : State) (d : Nat) (v : Word) (w : Workgroup) : Prop :=
  w.loc / 256 = d ∧ (w.region = v.toNat % 65536 ∨ v.getLsbD 16 = true ∧ s.under d (v.toNat % 65536) w.region = true)
    ∧ (v.getLsbD 28 = true → w.loc = v.toNat / 2 ^ 18 % 1024)

/-! ### Barriers, counters and tables -/

/-- The barrier forms (R181): barrier, whether the path waits, whether it asks for the exchange swap. -/
def barRule : Instr → Option (Nat × Bool × Bool)
  | .barSync b => some (b.toNat, true, false)
  | .barArrive b => some (b.toNat, false, false)
  | .barSwap b => some (b.toNat, true, true)
  | _ => none

/-- What they need at issue. -/
def barForm (swap : Bool) : Form :=
  { group := true, noSteward := true, outside := true, illOn := fun _ w => swap && w.xwin == 0 }

/-- A barrier of a workgroup. -/
def Workgroup.barrier (w : Workgroup) (b : Nat) : Barrier := Tab.getD w.barriers b {}

/-- The value of a performance counter but those of a core's cycles (R201). -/
def perfLaw (s : State) (c : Ctx) (n : Nat) (v : DWord) : Prop :=
  (n ≤ 2 → v = wrap64 (Tab.getD c.g.perf n 0 : Nat))
    ∧ (0x101 ≤ n ∧ n ≤ 0x109 ∧ n ≠ 0x104 → v = wrap64 (Tab.getD (s.core c.g.loc).perf n 0 : Nat))
    ∧ (n = 0x200 ∨ n = 0x201 → v = wrap64 (Tab.getD (s.cluster (locCluster c.g.loc)).perf n 0 : Nat))
    ∧ (0x1000 ≤ n ∧ n ≤ 0x1003 → v = wrap64 (Tab.getD (s.die (tabDie c.g.loc)).perf n 0 : Nat))

/-- The members of a path go on at `pc` and nothing but what the statement names changes of the registers and
the memories. -/
structure State.GoesOn (s t : State) (c : Ctx) (pc : DWord) : Prop where
  stands : ∀ e ∈ c.threads, t.stands c.gid e.1 pc
  regs : ∀ k q m, k ≠ c.gid ∨ ¬ c.Member q → t.regAt k q m = s.regAt k q m
  preds : ∀ k q m, t.predAt k q m = s.predAt k q m
  walkers : ∀ k q m, t.walkerAt k q m = s.walkerAt k q m
  flags : t.fpxAt c.gid = s.fpxAt c.gid
  memory : s.SameMemory t

/-- The forms that make one access for the whole path (R82, R183, R205, R217, R220, R223, R228, R324, R330). -/
def oneForm : Instr → Option Form
  | .join a | .seqLoad a | .rgnMake a => some { group := true, a := .pair a, outside := true, log := true }
  | .peerMap a => some { group := true, a := .pair a, outside := true, log := true, priv := true }
  | .patSet f => some { group := true, a := .w f.a, b := .pair f.b, outside := true, log := true }
  | .contPush f => some { group := true, a := .pair f.a, b := .w f.b, outside := true, log := true, sb := f.sb.toNat }
  | .ttask f => some { group := true, a := .pair f.a, outside := true, log := true, noSteward := true,
                       sb := f.sb.toNat }
  | _ => none

/-- The address of that access: the pair that the form names. -/
def oneAddr : Instr → Ctx → DWord
  | .join a, c | .seqLoad a, c | .rgnMake a, c | .peerMap a, c => c.src64 c.leader (.pair a)
  | .patSet f, c => c.src64 c.leader (.pair f.b)
  | .contPush f, c => c.src64 c.leader (.pair f.a)
  | .ttask f, c => c.src64 c.leader (.pair f.a)
  | _, _ => 0

/-- The other operand: the entry of `pat.set`, the target of `cont.push`. -/
def oneArgs : Instr → Ctx → DWord × DWord
  | .patSet f, c => ((c.src c.leader (.w f.a)).zeroExtend 64, 0)
  | .contPush f, c => (0, (c.src c.leader (.w f.b)).zeroExtend 64)
  | _, _ => (0, 0)

/-- What else lets it go in flight: the alignment of a record (R324, R330), no steward core (R205). -/
def oneReady : Instr → Ctx → Prop
  | .contPush f, c => (c.src64 c.leader (.pair f.a)).toNat % 32 = 0
  | .ttask f, c => (c.src64 c.leader (.pair f.a)).toNat % 64 = 0
  | .seqLoad _, c => c.g.steward = false
  | _, _ => True

/-- The cached translations that a `tlb.inv` of a kind by a core of die `d` covers, among those of die `x` (R214). -/
def invLaw (d kind a sid x : Nat) (t : Trans) : Prop :=
  match kind with
  | 0 => x = d ∧ t.slot = none ∧ t.sid = sid ∧ t.base ≤ a ∧ a < t.base + t.size
  | 1 => x = d ∧ t.sid = sid
  | 2 => x = d
  | 3 => x = d ∧ t.slot = some (a % 256)
  | _ => t.export_ = some (d * 1024 + a % 1024)

/-! ### Commands of units -/

/-- From `s` to `t` a path enqueues a command of the name `s.nextId` (R176, R319): its members go on, the command is
counted, and no register and no byte of memory changes. -/
structure State.Enqueues (s t : State) (c : Ctx) : Prop where
  stands : ∀ e ∈ c.threads, t.stands c.gid e.1 (c.p.pc + wrap64 (4 * c.i.words))
  files : s.SameFiles t c.gid
  memory : s.SameMemory t
  counted : c.f.sb ≠ 0 → ∀ g, t.group? c.gid = some g →
    g.sbList c.f.sb = c.g.sbList c.f.sb ++ [(s.nextId, false)]
  ops : ∀ o, t.op? o = s.op? o

/-- The direct commands of the engine (R303 to R306, R310). -/
def mxForm : Instr → Option Form
  | .mxZero f => some { cls := 6, outside := true, sb := f.sb.toNat, group := true, noSteward := true }
  | .mxLoad f => some { cls := 6, a := .pair f.a, outside := true, sb := f.sb.toNat, group := true, noSteward := true }
  | .mxStore f => some { cls := 6, a := .pair f.a, outside := true, sb := f.sb.toNat, group := true, noSteward := true }
  | .mxMma f | .mxSmma f =>
    some { cls := 7, outside := true, sb := f.sb.toNat, group := true, noSteward := true }
  | .mxGang a => some { group := true, noSteward := true, a := .w a }
  | _ => none

/-- The command that such a form enqueues (R220, R301, R310): the patterns as they stand at issue, the leader's
coordinates or gang word. -/
structure EngCmd.From (k : EngCmd) (s : State) (c : Ctx) : Prop where
  instr : k.instr = c.i
  gid : k.gid = c.gid
  wg : k.wg = c.g.wg
  pc : k.pc = c.p.pc
  tids : k.tids = c.threads.map fun e => e.2.tid
  sb : k.sb = c.f.sb
  fresh : k.done = 0 ∧ k.started = false
  pat : match c.i with
    | .mxLoad f => k.tile = c.src64 c.leader (.pair f.a) ∧ k.pcEnt = s.pattern (locDie c.g.loc) f.pc.toNat
    | .mxStore f => k.tile = c.src64 c.leader (.pair f.a) ∧ k.pcEnt = s.pattern (locDie c.g.loc) f.pc.toNat
    | .mxMma f | .mxSmma f => k.pa = s.pattern (locDie c.g.loc) f.pa.toNat
        ∧ k.pb = s.pattern (locDie c.g.loc) f.pb.toNat ∧ k.pcEnt = s.pattern (locDie c.g.loc) f.pc.toNat
    | .mxGang a => k.gang.toNat = (c.src c.leader (.w a)).toNat % 256
    | _ => True

/-- The commands of a ladle. -/
def State.ladle (s : State) (ck l : Nat) : List LadleCmd := Tab.getD (s.cluster ck).ladles l []

/-- The commands of a runner queue. -/
def State.runQ (s : State) (x q : Nat) : List RunCmd := Tab.getD (s.xdie x).queues q []

/-- A thread that the caster makes of an item (R29, R31): a cast thread as it was, a spawned one with its
arguments in `v0` and `v1` and all else clear. -/
def Item.becomes : Item → Thread → Prop
  | .cast _ t, u => u = t
  | .spawn _ a b, u => u.preds = 0 ∧ u.walkers = [] ∧ u.far = [] ∧ u.lane = [(0, a), (1, b)]

/-- A group formed of the first items of the list of `pc` in a workgroup (R30): ranks from 0 up in order of the
list, one path at `pc`; the items leave spawn memory and overflow area. -/
structure State.Forms (s t : State) (wg : Nat) (w : Workgroup) (pc : DWord) : Prop where
  group : ∃ g, t.group? s.nextId = some g ∧ g.wg = wg ∧ g.loc = w.loc ∧ g.handler = false ∧ g.steward = false
    ∧ g.threads.map (·.1) = List.range (min 32 (w.listOf pc).length)
    ∧ (∀ (k : Nat) (x : Nat × Item), ((w.listOf pc).take 32)[k]? = some x → ∃ th, g.threads[k]? = some (k, th) ∧ x.2.becomes th)
    ∧ ∃ p, g.paths = [p] ∧ p.pc = pc ∧ ∀ r, p.mask.getLsbD r = decide (r < min 32 (w.listOf pc).length)
  items : ∃ x, t.wg? wg = some x
    ∧ (∀ e, e ∈ x.items ↔ e ∈ w.items ∧ ∀ y ∈ (w.listOf pc).take 32, y.1 ≠ e.1)
    ∧ ∀ e, e ∈ x.overflow ↔ e ∈ w.overflow ∧ ∀ y ∈ (w.listOf pc).take 32, y.1 ≠ e.1

/-! ### Operations that end -/

/-- The new value of an atomic (R256) of width `w` bits: `m` in memory, `b` the operand or compare value, `n` the
new value of `cas`. -/
def atomRule (aop w m b n : Nat) : Nat :=
  let s := fun x : Nat => Int.bmod x (2 ^ w)
  match aop with
  | 0 => (m + b) % 2 ^ w
  | 1 => if s m < s b then m else b
  | 2 => min m b
  | 3 => if s b < s m then m else b
  | 4 => max m b
  | 5 => m &&& b
  | 6 => m ||| b
  | 7 => m ^^^ b
  | 8 => b
  | 9 => if m = b then n else m
  | _ => (addRule fmt32b .rne m b).1

/-- The sum that combination leaves at an address (R257): items in ascending order of workgroup index, rank and
count are added one after another. -/
def ordLaw (l : List OrdItem) (old new : Nat) : Prop :=
  ∃ k : List OrdItem, k.Perm l
    ∧ k.Pairwise (fun a b => a.windex < b.windex ∨ a.windex = b.windex ∧
        (a.rank < b.rank ∨ a.rank = b.rank ∧ a.count ≤ b.count))
    ∧ new = k.foldl (fun v x => (addRule fmt32b .rne v x.value.toNat).1) old

/-- The operation has no member left to do and is gone. -/
def State.opEnded (s : State) (id : Nat) : Prop := s.op? id = none

/-- A fragment may be performed now: confirmed, not set aside, nothing of the program's order before it. -/
structure State.Due (s : State) (id rank k : Nat) (o : Op) (m : Machine.Member) (f : Frag) : Prop where
  op : s.op? id = some o
  member : o.member? rank = some m
  stage : o.stage = .confirmed
  aside : o.aside = false
  undone : m.done = false
  frag : m.frags[k]? = some f
  first : f.done = false
  free : s.blocked id o m f = false

/-! ### Queues, the caster and residency -/

/-- A record of a die's queues at its level (R320). -/
def State.queued (s : State) (d : Nat) (r : Record) (id : Nat) : Prop :=
  ∃ q ∈ (s.die d).level (s.levelOf d r), q.record = r ∧ q.id = id ∧ q.since = (s.die d).ticks

/-- A launched group (R20): its workgroup, core and number, 32 threads with FRAME in `v0` and `v1`, one path of all
at CODE. -/
structure Launched (g : Group) (wg loc k : Nat) (r : Record) : Prop where
  wg : g.wg = wg
  loc : g.loc = loc
  gindex : g.gindex = k
  plain : g.handler = false ∧ g.steward = false ∧ g.fpx = 0
  path : ∃ p, g.paths = [p] ∧ p.pc.toNat = r.code ∧ p.mask = -1 ∧ p.wait = .none
  ranks : g.threads.map (·.1) = List.range 32
  threads : ∀ e ∈ g.threads, e.2.preds = 0 ∧ e.2.walkers = [] ∧ e.2.far = []
    ∧ e.2.lane = [(0, BitVec.ofNat 32 r.frame), (1, BitVec.ofNat 32 (r.frame / 2 ^ 32))]

/-! ### Engines, tasks and units -/

/-- The value of an element of a fixed-mode operand (R57, R64); none is NaN. -/
def fixedValue (fmt v : Nat) : Option ℚ :=
  if fmt = 7 then some ((BitVec.ofNat 8 v).toInt : ℚ) else if v % 256 = 128 then none else some (d8Value v)

/-- kgroup_fixed and add_fixed (R67, R69) on the lines `a` and `b`: one rounding of the exact sum to the entry's
unit, saturation at the largest magnitude, NaN kept. -/
def fixedLaw (fa fb : Nat) (q : ℤ) (a b : FifoLine) (old new : BitVec 56) : Prop :=
  let xs := a.expand.map (fixedValue fa)
  let ys := b.elems.map (fixedValue fb)
  if none ∈ xs ∨ none ∈ ys ∨ b.summary = true ∨ old = nanFixed then new = nanFixed
  else
    let sum : ℚ := (List.zipWith (fun x y => x.getD 0 * y.getD 0) xs ys).sum
    let v := old.toInt + roundIntQ .rne (sum * (10 : ℚ) ^ (a.scale + b.scale - q) * 4096)
    new.toInt = max (-(2 ^ 55 - 1)) (min (2 ^ 55 - 1) v)

/-- kgroup_a56 and add_a56 (R68, R69) on lines of finite elements: one rounding of the exact sum, IEEE addition
to the entry, an exact zero is +0. -/
def a56Law (fa fb : Fmt) (a b : FifoLine) (old new : BitVec 56) : Prop :=
  let sum : ℚ := (List.zipWith (fun x y => fa.value x * fb.value y) a.expand b.elems).sum
  let r := (addRule fmtA56 .rne old.toNat (roundQ fmtA56 .rne false sum).1).1
  new.toNat = if r = 2 ^ 55 then 0 else r

/-- Every element of both lines is a number. -/
def finiteLines (fa fb : Fmt) (a b : FifoLine) : Prop :=
  (∀ x ∈ a.expand, fa.nan x = false ∧ fa.inf x = false) ∧ ∀ y ∈ b.elems, fb.nan y = false ∧ fb.inf y = false

/-- The exact value of an accumulator entry in its block's mode (R67, R68). -/
def entrySource (fixed : Bool) (q : ℤ) (e : BitVec 56) : CSource :=
  if fixed then (if e = nanFixed then .nan false else .num (e.toInt * (10 : ℚ) ^ q / 4096) false false)
  else fmtA56.source e.toNat

/-- The epilogue of R307 on the value `v`; `m` is the element in memory. -/
def epilogueLaw (epi : Nat) (v m : CSource) : CSource :=
  match epi, v, m with
  | 1, .inf true, _ => .num 0 false false
  | 1, .num x _ _, _ => .num (max x 0) false false
  | 2, .inf neg, _ => .num (if neg then -1 else 1) false false
  | 2, .num x z _, _ => .num (min (max x (-1)) 1) z false
  | 3, .nan _, _ | 3, _, .nan _ => .nan false
  | 3, .inf a, .inf b => if a = b then .inf a else .nan false
  | 3, .inf a, _ => .inf a
  | 3, _, .inf b => .inf b
  | 3, .num x z _, .num y w _ => .num (x + y) (z && w) false
  | _, v, _ => v

/-- The conversion of R308: `r` is the element in OFMT, `sat` says whether it sets OSAT. -/
def outLaw (ofmt : Nat) (v : CSource) (r : Nat) (sat : Bool) : Prop :=
  let bin := fun f : Fmt => match v with
    | .nan _ => r = f.qnan ∧ sat = false
    | .inf neg => r = f.signed neg f.infBits ∧ sat = false
    | .num x z _ => r = (roundQ f .rne z x).1 ∧ (sat = true ↔ (roundQ f .rne z x).2 &&& flOF = flOF)
  let int := fun b : Nat => match v with
    | .nan _ => r = 0 ∧ sat = true
    | .inf neg => r = (if neg then 2 ^ (b - 1) else 2 ^ (b - 1) - 1) ∧ sat = true
    | .num x _ _ =>
      let n := roundIntQ .rne x
      let c := max (-2 ^ (b - 1)) (min (2 ^ (b - 1) - 1) n)
      r = (BitVec.ofInt b c).toNat ∧ (sat = true ↔ c ≠ n)
  match ofmt with
  | 2 => bin fmt16b
  | 3 => bin fmtBf16
  | 4 => bin fmt32b
  | 6 => match v with
    | .nan _ => r = 0x80 ∧ sat = false
    | .inf neg => r = (if neg then 128 else 0) + 0x7F ∧ sat = true
    | .num x _ _ => ∃ y, d8FromLaw x y ∧ r = y.1 ∧ (sat = true ↔ y.2 &&& flOF = flOF)
  | 7 => int 8
  | _ => int 32

/-- A part of plain HBM of die `d`, which a unit of the die writes at once: no read duplicate of its frame, no copy of
its line on any die (R242, R283). -/
structure State.PlainPart (s : State) (d : Nat) (g : Frag) : Prop where
  here : ∀ j < g.size, hbmDie (g.pa + j) = some d ∧ isHostPa (g.pa + j) = false
  base : hbmDie g.pa = some d
  cw : isCwPa g.pa = false
  hold : (s.frame g.pa).hold = 0
  copies : ∀ x < 4, Tab.find? (s.die x).peerLines (g.pa / 128) = none

/-- The monitor law of R380 on ring `i` of a port, mapped to wavelength `w` at drive `h`: the reading is 2,048 plus 4
counts for each step of drive above the one the ring needs, within 0 to 4,095. The spec gives no need of a main ring for
another main ring's wavelength (assumption log 23). -/
def Port.MonLaw (p : Port) (i w : Nat) (h : Int) : Prop :=
  i = w ∨ 12 ≤ i →
    (p.monOf i : ℤ) = max 0 (min 4095 (2048 + 4 * (h - Tab.getD p.base w 2048 - (if i = w then 0 else 2000) + p.warm)))

/-- From `s` to `t` a cold reset has cleared the package (R370): HBM, replaced units and what lies outside the dies stay;
`q` is QEN of the C-dies after bring-up. -/
structure State.Cold (s t : State) (q : Word) : Prop where
  dies : ∀ d, t.die d = { Die.reset d with mem := (s.die d).mem, reserves := (s.die d).reserves,
                                           units := (s.die d).remap.units, qen := if d < 4 then q else 0 }
  outer : t.hostMem = s.hostMem ∧ t.safeTier = s.safeTier
  wgs : ∀ w, t.wg? w = none
  ops : ∀ o, t.op? o = none
  cores : ∀ l, t.core l = {}
  clusters : ∀ c, t.cluster c = {}
  wires : t.linkDown = [] ∧ t.linkLanes = [] ∧ t.linkReserve = [] ∧ t.links = []

/-- The head command of an engine may go on: the engine is not halted, no record holds it (R301, R312, R314). -/
structure State.Heads (s : State) (loc : Nat) (c : EngCmd) : Prop where
  head : ∃ r, (s.core loc).engine.queue = c :: r
  halted : (s.core loc).engine.halted = false
  free : c.party = none

/-- The counters of a sequencer after a state (R315): KC and CBC. -/
def seqCounts (x : Task) (e : Engine) (w : Nat) : Nat × Nat :=
  ((if stCtr w 40 then x.kStart else e.seqKC) + (if stCtr w 38 then stKcnt w else 0),
   if stCtr w 39 then (e.seqCBC + 1) % 3 else e.seqCBC)

end Sys2Proof.Machine
end

