-- ==== Sys2Proof/Certificates/Slice0/Obligations.lean ====
section
/-! DEFINITION. The statements for the provers. -/

section

open Sys2Proof Sys2Proof.Machine

/-! ### Lane-set and group-set forms -/

/-- R118 to R122: a lane-set integer form that is ready completes. D of each member at LANE with register
sources holds the result of the tables; nothing else changes (R117). The name `z` in a pair field is assumption log 10.
R127: `add64`, `sub64` and `lea64` that are ready complete; both names of D hold the 64-bit result, and
nothing else changes. -/
def Obligations.IntegerLaneResult : Prop :=
  (∀ (i : Instr) (f : Form) (s : State) (c : Ctx), intForm i = some f → s.Ready i f c →
    ∃ t, exec i s = .next t
      ∧ (∀ e ∈ c.threads, c.Plain e.2 → ∃ v,
          intLaw i (c.src e f.a) (c.src e f.b) (c.src e f.d) v ∧ t.Holds c.gid e.1 f.dst (v.zeroExtend 128))
      ∧ (c.AllPlain → s.RegFrame t c.gid c.Member f.dst.names [] [] 0))
  ∧ (∀ (i : Instr) (f : Form) (s : State) (c : Ctx), addrForm i = some f → s.Ready i f c →
    ∃ t, exec i s = .next t
      ∧ (∀ e ∈ c.threads, c.Plain e.2 → ∃ v,
          addrLaw i (c.src64 e f.a) (c.src64 e f.b) (c.src e f.b) v ∧ t.Holds c.gid e.1 f.dst (v.zeroExtend 128))
      ∧ (c.AllPlain → s.RegFrame t c.gid c.Member f.dst.names [] [] 0))

/-- R124, R126: `mov`, `movx`, `movx.w` and both ranges of `sel` that are ready complete; D holds the source,
the extension value, or the source that the thread's predicate selects. -/
def Obligations.MoveSelectResult : Prop :=
  ∀ (i : Instr) (f : Form) (s : State) (c : Ctx), moveForm i = some f → s.Ready i f c →
    ∃ t, exec i s = .next t
      ∧ (∀ e ∈ c.threads, c.Plain e.2 →
          t.Holds c.gid e.1 f.dst ((moveVal i e.2 (c.src e f.a) (c.src e f.b)).zeroExtend 128))
      ∧ (c.AllPlain → s.RegFrame t c.gid c.Member f.dst.names [] [] 0)

/-- R123, R135: `cmp` and `fcmp` that are ready complete; the predicate of each member is the condition on
its sources, `fcmp` ORs its NV flags into FPX, and nothing else changes.
R125: the predicate forms that are ready complete; the destination predicate of each member is the
function of its source predicates as they were. -/
def Obligations.PredicateResult : Prop :=
  ((∀ (f : LCmp) (s : State) (c : Ctx), s.Ready (.cmp f) f.form c →
    ∃ t, exec (.cmp f) s = .next t
      ∧ (∀ e ∈ c.threads, c.Plain e.2 → ∃ b, t.predAt c.gid e.1 f.p.toNat = some b
          ∧ (b = true ↔ condLaw f.c.toNat (c.src e (.w f.a)) (c.src e (.w f.b))))
      ∧ (c.AllPlain → s.RegFrame t c.gid c.Member [] [f.p.toNat] [] 0))
  ∧ ∀ (f : LCmp) (s : State) (c : Ctx), s.Ready (.fcmp f) f.form c →
    let r := fun e => fcmpRule f.c.toNat (c.src e (.w f.a)).toNat (c.src e (.w f.b)).toNat
    ∃ t, exec (.fcmp f) s = .next t
      ∧ (∀ e ∈ c.threads, c.Plain e.2 → t.predAt c.gid e.1 f.p.toNat = some (r e).1)
      ∧ (c.AllPlain → s.RegFrame t c.gid c.Member [] [f.p.toNat] []
          ((c.threads.map fun e => (r e).2).foldl (· ||| ·) 0)))
  ∧ (∀ (i : Instr) (p q r : Nat) (g : Bool → Bool → Bool) (s : State) (c : Ctx), predRule i = some (p, q, r, g) →
    s.Ready i { predR := [q, r], predW := [p], chain := true } c →
    ∃ t, exec i s = .next t
      ∧ (∀ e ∈ c.threads, t.predAt c.gid e.1 p = some (g (e.2.preds.getLsbD q) (e.2.preds.getLsbD r)))
      ∧ s.RegFrame t c.gid c.Member [] [p] [] 0)

/-- R133, R134, R137, R138: the floating-point forms that are ready complete; D holds the rounded exact
value, the NaN or the infinity that the tables give, and FPX takes the OR of the members' flags (R56). That zero times
infinity raises NV beside a quiet NaN in D is the model's reading (assumption log 49). -/
def Obligations.FloatLaneResult : Prop :=
  ∀ (i : Instr) (f : Form) (s : State) (c : Ctx), floatForm i = some f → s.Ready i f c →
    let r := fun e => floatRule i ((c.env e).val f.a).toNat ((c.env e).val f.b).toNat ((c.env e).val f.d).toNat
    ∃ t, exec i s = .next t
      ∧ (∀ e ∈ c.threads, c.Plain e.2 → t.Holds c.gid e.1 f.dst (BitVec.ofNat 128 (r e).1))
      ∧ (c.AllPlain → s.RegFrame t c.gid c.Member f.dst.names [] []
          ((c.threads.map fun e => (r e).2).foldl (· ||| ·) 0))

/-- R136: the unary functions that are ready complete, with the results and flags of the table: the rounded exact
value of `frcp`, `frsq` and `fsqrt`, and that of `fexp2` and `flog2` within the model's working precision (assumption
log 9). -/
def Obligations.FloatUnaryResult : Prop :=
  ∀ (i : Instr) (f : Form) (s : State) (c : Ctx), unaryForm i = some f → s.Ready i f c →
    ∃ (t : State) (r : Nat × Thread → Res), exec i s = .next t
      ∧ (∀ e ∈ c.threads, unaryLaw i (c.src e f.a).toNat (r e))
      ∧ (∀ e ∈ c.threads, c.Plain e.2 → t.Holds c.gid e.1 f.dst (BitVec.ofNat 128 (r e).1))
      ∧ (c.AllPlain → s.RegFrame t c.gid c.Member f.dst.names [] []
          ((c.threads.map fun e => (r e).2).foldl (· ||| ·) 0))

/-- R60, R61, R139 to R141: the conversions that are ready complete, with the result and flags of the first
matching row (a walker in A of `cvt.f32x4` is assumption log 115). -/
def Obligations.ConversionResult : Prop :=
  ∀ (i : Instr) (f : Form) (s : State) (c : Ctx), cvtForm i = some f → s.Ready i f c →
    ∃ (t : State) (v : Nat × Thread → BitVec 128) (fl : Nat × Thread → Fpx), exec i s = .next t
      ∧ (∀ e ∈ c.threads, cvtFormLaw i ((c.env e).val f.a) (v e) (fl e))
      ∧ (∀ e ∈ c.threads, c.Plain e.2 → t.Holds c.gid e.1 f.dst (v e))
      ∧ (c.AllPlain → s.RegFrame t c.gid c.Member f.dst.names [] [] ((c.threads.map fl).foldl (· ||| ·) 0))

/-- R53, R55, R132: the model's round_to is IEEE 754-2019 rounding in the four formats and four modes. -/
def Obligations.RoundingIsIeee : Prop :=
  ∀ (f : Fmt) (m : RMode) (neg : Bool) (n d : Nat), f ∈ [fmt16b, fmtBf16, fmt32b, fmt64b] → 0 < n → 0 < d →
    Rounded f m ((if neg then -1 else 1) * (n : ℚ) / d) (roundTo f m neg n d)

/-- R35, R39, R42, R149: a lane-set form with a member that executes away from LANE or reads a bound walker
goes in flight: the operation holds each such member with its place and its sources, D is pending for it, and
D of that member keeps its value (a walker in A of `cvt.f32x4` is assumption log 115).
R36, R41, R116: a group-set form whose D is CLUSTER goes in flight as one operation with the leader's
sources for every member. -/
def Obligations.LaneFormGoesInFlight : Prop :=
  (∀ (i : Instr) (f : Form) (s : State) (c : Ctx),
    (intForm i = some f ∨ addrForm i = some f ∨ moveForm i = some f ∨ floatForm i = some f
      ∨ unaryForm i = some f ∨ cvtForm i = some f) → s.Ready i f c → ¬ c.AllPlain →
    ∃ t o, exec i s = .next t ∧ s.Launches t c o ∧ o.stage = .issued ∧ o.dests = f.dst.names
      ∧ o.logix = s.freeLog c.g.loc
      ∧ (∀ e ∈ c.threads, ¬ c.Plain e.2 → ∀ n, t.regAt c.gid e.1 n = s.regAt c.gid e.1 n)
      ∧ ∀ e ∈ c.threads, ¬ c.Plain e.2 → ∃ m ∈ o.members, m.rank = e.1 ∧ m.tid = e.2.tid ∧ m.done = false
          ∧ (m.place, m.unit) = c.execPlace e.2 ∧ m.a = c.src64 e f.a ∧ m.b = c.src64 e f.b
          ∧ (m.wa, m.wb) = ((walkReads f e.2).1, (walkReads f e.2).2.1))
  ∧ ∀ (i : Instr) (f : Form) (s : State) (c : Ctx), (intFormG i = some f ∨ moveFormG i = some f) → s.Ready i f c →
    (∃ e ∈ c.threads, (c.execPlace e.2).1 ≠ .lane) →
    ∃ t o, exec i s = .next t ∧ s.Launches t c o ∧ s.SameFiles t c.gid ∧ o.stage = .issued ∧ o.dests = f.dst.names
      ∧ o.members.map (·.rank) = c.threads.map (·.1)
      ∧ ∀ m ∈ o.members, m.done = false ∧ m.a = c.src64 c.leader f.a ∧ m.b = c.src64 c.leader f.b

/-- R82, R128: a group-set integer form that is ready, with D at LANE in every member, completes: one result
of the leader's sources in D of every member, and nothing else changes. The name `z` in a pair field is assumption log
10.
R82, R127, R128: `g.add64`, `g.sub64` and `g.lea64` that are ready complete. -/
def Obligations.IntegerGroupResult : Prop :=
  (∀ (i : Instr) (f : Form) (s : State) (c : Ctx), intFormG i = some f → s.Ready i f c →
    (∀ e ∈ c.threads, (c.execPlace e.2).1 = .lane) →
    ∃ t v, exec i s = .next t ∧ intLaw i (c.src c.leader f.a) (c.src c.leader f.b) (c.src c.leader f.d) v
      ∧ (∀ e ∈ c.threads, t.Holds c.gid e.1 f.dst (v.zeroExtend 128))
      ∧ s.RegFrame t c.gid c.Member f.dst.names [] [] 0)
  ∧ (∀ (i : Instr) (f : Form) (s : State) (c : Ctx), addrFormG i = some f → s.Ready i f c →
    ∃ t v, exec i s = .next t
      ∧ addrLaw i (c.src64 c.leader f.a) (c.src64 c.leader f.b) (c.src c.leader f.b) v
      ∧ (∀ e ∈ c.threads, t.Holds c.gid e.1 f.dst (v.zeroExtend 128))
      ∧ s.RegFrame t c.gid c.Member f.dst.names [] [] 0)

/-- R82, R124, R126, R128: the group-set moves and select that are ready, with D at LANE, complete; and
`g.cmp` writes its predicate in every member. -/
def Obligations.MoveGroupResult : Prop :=
  (∀ (i : Instr) (f : Form) (s : State) (c : Ctx), moveFormG i = some f → s.Ready i f c →
    (∀ e ∈ c.threads, (c.execPlace e.2).1 = .lane) →
    ∃ t, exec i s = .next t
      ∧ (∀ e ∈ c.threads, t.Holds c.gid e.1 f.dst
          ((moveVal i c.leader.2 (c.src c.leader f.a) (c.src c.leader f.b)).zeroExtend 128))
      ∧ s.RegFrame t c.gid c.Member f.dst.names [] [] 0)
  ∧ ∀ (f : GCmp) (s : State) (c : Ctx), s.Ready (.gCmp f) f.form c →
    ∃ t b, exec (.gCmp f) s = .next t
      ∧ (b = true ↔ condLaw f.c.toNat (c.src c.leader (.w f.a)) (c.src c.leader (.w f.b)))
      ∧ (∀ e ∈ c.threads, t.predAt c.gid e.1 f.p.toNat = some b)
      ∧ s.RegFrame t c.gid c.Member [] [f.p.toNat] [] 0

/-- R198: `wdog.kick` is the one word of its encoding, of class 0; ready, it completes and resets the watchdog of the
issuing workgroup, or the steward watchdog on a steward core, and nothing else changes. -/
def Obligations.WatchdogKick : Prop :=
  encode .wdogKick = [BitVec.ofNat 32 (2 ^ 31 + 0x22 * 2 ^ 25 + 120 * 2 ^ 18 + 120 * 2 ^ 11 + 120 * 2 ^ 4)]
  ∧ decodeWords (encode .wdogKick) = .ok (.wdogKick, [])
  ∧ ∀ (s : State) (c : Ctx), s.Ready .wdogKick { cls := 0, group := true } c →
    ∃ t, exec .wdogKick s = .next t ∧ (∀ e ∈ c.threads, t.stands c.gid e.1 (c.p.pc + 4)) ∧ s.SameFiles t c.gid
      ∧ (c.g.steward = false → ({ s with wgs := [] } : State).Still { t with wgs := [] } c.gid
          ∧ (∀ k, k ≠ c.g.wg → t.wg? k = s.wg? k)
          ∧ t.wg? c.g.wg = (s.wg? c.g.wg).map fun w => { w with wdogAcc := 0, wdogHeld := 0, wdogSlow := 0, wdogFired := false })
      ∧ (c.g.steward = true → ({ s with xdies := [] } : State).Still { t with xdies := [] } c.gid
          ∧ ∀ x, t.xdie x = if x = coreDie c.g.loc then { s.xdie x with wdog := Tab.put (s.xdie x).wdog (c.g.loc % 4) 0 } else s.xdie x)

/-! ### Accesses -/

/-- R42, R245 to R264: an access form that is ready goes in flight with the address, the data and the operands
of every member; no register, predicate, walker, flag or byte of memory changes. -/
def Obligations.AccessGoesInFlight : Prop :=
  ∀ (i : Instr) (f : Form) (s : State) (c : Ctx), accForm i = some f → s.Ready i f c → accReady i s c →
    ∃ t o, exec i s = .next t ∧ s.Launches t c o ∧ s.SameFiles t c.gid ∧ o.stage = .issued ∧ o.dests = f.dst.names
      ∧ o.logix = s.freeLog c.g.loc ∧ o.members.map (·.rank) = c.threads.map (·.1)
      ∧ ∀ e ∈ c.threads, ∃ m ∈ o.members, m.rank = e.1 ∧ m.tid = e.2.tid ∧ m.done = false ∧ m.frags = []
          ∧ m.addr = accAddr i s c e ∧ m.dhi ++ m.d = accData i c e ∧ (m.a, m.b) = accOps i c e

/-- R233, R246, R258: `lds` and `sts` whose addresses are aligned and within the workgroup's rights go in
flight confirmed, each member with its one fragment of the cluster's scratchpad. -/
def Obligations.ScratchpadAccessGoesInFlight : Prop :=
  ∀ (i : Instr) (f : MemF) (s : State) (c : Ctx),
    (i = .lds f ∧ s.Ready i { cls := 1, dst := Fld.ofSz f.sz f.d, full := (Fld.w f.a).names, sb := f.sb.toNat } c
      ∨ i = .sts f ∧ s.Ready i { cls := 1, full := (Fld.w f.a).names ++ (Fld.ofSz f.sz f.d).names, outside := true,
                                 sb := f.sb.toNat } c) →
    let a := fun e => ((c.env e).word f.a + wrap32 f.off.toInt).toNat
    (∀ e ∈ c.threads, a e % szBytes f.sz = 0 ∧ a e < 2 ^ 21 ∧ scrOk c.w (a e) (szBytes f.sz) = true) →
    ∃ t o, exec i s = .next t ∧ s.Launches t c o ∧ s.SameFiles t c.gid ∧ o.stage = .confirmed ∧ o.dests = c.f.dst.names
      ∧ o.members.map (·.rank) = c.threads.map (·.1)
      ∧ ∀ e ∈ c.threads, ∃ m ∈ o.members, m.rank = e.1 ∧ m.tid = e.2.tid ∧ m.done = false
          ∧ (i = .sts f → m.dhi ++ m.d = (c.env e).val (Fld.ofSz f.sz f.d))
          ∧ m.frags = [{ off := 0, size := szBytes f.sz, va := 0, pa := a e, cl := some (locCluster c.g.loc) }]

/-- R47, R260: `waita.eq` and `waita.ne` on translated addresses go in flight and their path is not ready
until the operation ends. -/
def Obligations.WaitAddressGoesInFlight : Prop :=
  ∀ (i : Instr) (f : WaitaF) (s : State) (c : Ctx), (i = .waitaEq f ∨ i = .waitaNe f) →
    s.Ready i { dst := Fld.ofSz f.sz f.d, full := (Fld.pair f.a).names
      ++ (if f.sz == 3 then Fld.pair f.b else Fld.w f.b).names, sb := f.sb.toNat } c →
    (∀ e ∈ c.threads, isAlias ((c.env e).pair f.a + wrap64 f.off.toInt) = false) → c.threads ≠ [] →
    s.freeLog c.g.loc ≠ none →
    ∃ t o, exec i s = .next t ∧ s.Launches t c o ∧ s.SameFiles t c.gid ∧ o.stage = .issued
      ∧ o.members.map (·.rank) = c.threads.map (·.1)
      ∧ (∀ e ∈ c.threads, ∃ m ∈ o.members, m.rank = e.1 ∧ m.done = false
          ∧ m.addr = (c.env e).pair f.a + wrap64 f.off.toInt
          ∧ m.b = if f.sz = 3 then (c.env e).pair f.b else ((c.env e).word f.b).zeroExtend 64)
      ∧ ∀ g, t.group? c.gid = some g → ∃ p ∈ g.paths, p.wait = .op s.nextId

/-- R209, R210, R216, R240: an access that the checks let through, at once or after it has walked again, has the
rights it needs; its frame is memory the die reaches, not in transition, of the type the leaf names and the form
allows, not stranded, and on an IP frame the core is the owner. -/
def Obligations.AccessesRespectRights : Prop :=
  ∀ (s s1 : State) (d holder va pa : Nat) (acc : Acc) (attr : BitVec 2 → Bool) (core : Option Nat) (ty : BitVec 2),
    acc ≠ .locate → s.check d holder acc attr core va = (.ok pa ty, s1) →
    ∃ s' tr s0, (s' = s ∨ (s.checkOnce d holder acc attr core va).1 = none
        ∧ s' = (s.checkOnce d holder acc attr core va).2)
      ∧ s'.lookup d holder va = (some tr, s0) ∧ pa = tr.frame + (va - tr.base)
      ∧ accOk acc tr.leaf tr.rights = true ∧ reaches d pa tr.exporter = true
      ∧ (s0.frame pa).res = false ∧ (s0.frame pa).trans = false ∧ (s0.frame pa).strand = false
      ∧ ty = (s0.frame pa).typ ∧ attr ty = true ∧ BitVec.ofNat 2 (tr.leaf.toNat / 4) = ty
      ∧ (ty = 3 → ∀ k, core = some k → k = (s0.frame pa).owner.toNat ∧ hbmDie pa = some d)

/-- R247, R258: when the last fragment of a load's member returns from HBM of its die or a scratchpad, the destination
holds the bytes of the member in order, extended as the size code says; the member is done. No byte of memory and no
other register changes. -/
def Obligations.LoadReturnsMemory : Prop :=
  ∀ (s : State) (id rank k d : Nat) (o : Op) (m : Member) (f : Frag) (n : Name) (sz : BitVec 3) (g : Group) (th : Thread),
    s.event = some (.loadDataReturn id rank k) → s.op? id = some o → s.Member o m rank g th →
    loadOf o.instr = some (n, sz) → o.dests = (Fld.ofSz sz n).names → o.stage = .confirmed → o.aside = false →
    o.suspect = none → o.farError = false → m.done = false → m.far = false → m.frags[k]? = some f → f.done = false →
    (∀ j x, m.frags[j]? = some x → j ≠ k → x.done = true) →
    (f.Plain o d ∨ f.cl ≠ none) → s.wsUnwritten f = false → s.blocked id o m f = false → s.relHeld o m f = false →
    s.acqWaits o f = false →
    let bs := (m.frags.mapIdx fun j x => if j = k then (List.range f.size).map (s.fragByte f) else x.data).flatten
    ∃ t, exec .loadDataReturn s = .next t
      ∧ t.Holds o.gid rank (Fld.ofSz sz n) (loadValue sz bs)
      ∧ t.memberDone id rank ∧ s.SameMemory t
      ∧ ∀ q r x, ¬ (q = o.gid ∧ r = rank ∧ x ∈ o.dests) → t.regAt q r x = s.regAt q r x

/-- R237, R249, R254, R258: when a fragment of a store or of a `scatter` is performed at HBM of its die or in a
scratchpad, its bytes of the member's data stand there; no other byte and no register changes.
R264: `ws.clear` clears the written bits of its parts at their home and nothing else of memory.
R263: the cache operations on a line of an IP frame of the owner's die: `spb` and `wb` write a dirty line to memory and
leave it clean, `inv` discards the core's copy, `fla` fills it; on other lines no byte and no copy changes. -/
def Obligations.StoreWritesMemory : Prop :=
  (∀ (s : State) (id rank k d : Nat) (o : Op) (m : Member) (f : Frag),
    s.event = some (.storePerformed id rank k) → s.op? id = some o → o.member? rank = some m →
    ((∃ x, o.instr = .st x ∨ o.instr = .stNc x ∨ o.instr = .stByp x ∨ o.instr = .stRel x ∨ o.instr = .sts x)
      ∨ ∃ x, o.instr = .scatter x) →
    o.stage = .confirmed → o.aside = false → m.done = false → m.frags[k]? = some f → f.done = false →
    (f.Plain o d ∧ (s.frame f.pa).hold = 0 ∨ f.cl ≠ none) → f.off + f.size ≤ 16 → s.blocked id o m f = false →
    ∃ t, exec .storePerformed s = .next t
      ∧ (∀ j < f.size, t.fragByte f j = BitVec.ofNat 8 ((m.dhi ++ m.d).toNat / 256 ^ (f.off + j)))
      ∧ (∀ a, (f.cl = none → ∀ j < f.size, a ≠ f.pa + j) → t.readPa a = s.readPa a)
      ∧ (∀ c a, (f.cl = some c → ∀ j < f.size, a ≠ f.pa + j) →
          Memory.read (t.cluster c).spad a = Memory.read (s.cluster c).spad a)
      ∧ (∀ q r x, t.regAt q r x = s.regAt q r x)
      ∧ ∀ l, (t.core l).l1 = (s.core l).l1)
  ∧ (∀ (s : State) (id rank d : Nat) (o : Op) (m : Member) (f : Frag) (x : WsClrF),
    s.event = some (.storePerformed id rank 0) → s.Due id rank 0 o m f → o.instr = .wsClear x →
    hbmDie f.pa = some d → coreDie o.loc = d →
    ∃ t, exec .storePerformed s = .next t
      ∧ (∀ p, p ∈ (t.die d).wsWritten ↔ p ∈ (s.die d).wsWritten ∧ ¬ (f.pa / 16 ≤ p ∧ p < (f.pa + f.size) / 16))
      ∧ (∀ e, e ≠ d → (t.die e).wsWritten = (s.die e).wsWritten)
      ∧ s.SameMemory t ∧ ∀ q r n, t.regAt q r n = s.regAt q r n)
  ∧ ∀ (s : State) (id rank k d : Nat) (o : Op) (m : Member) (f : Frag) (x : CacheF),
    s.event = some (.storePerformed id rank k) → s.Due id rank k o m f →
    (o.instr = .spb x ∨ o.instr = .fla x ∨ o.instr = .wb x ∨ o.instr = .inv x) → s.flaWaits o m f = false →
    hbmDie f.pa = some d → coreDie o.loc = d →
    let l := f.pa / 128
    let copy := fun t : State => Tab.find? (t.core o.loc).l1 l
    ∃ t, exec .storePerformed s = .next t ∧ (∀ q r n, t.regAt q r n = s.regAt q r n)
      ∧ (f.typ ≠ 3 → s.SameMemory t)
      ∧ (∀ j, j ≠ o.loc → (t.core j).l1 = (s.core j).l1)
      ∧ (f.typ = 3 → (o.instr = .spb x ∨ o.instr = .wb x) →
          (∀ j < 128, hbmDie (128 * l + j) = some d ∧ isHostPa (128 * l + j) = false) →
          (∀ bs, copy s = some (bs, true) → bs.length = 128 →
            copy t = some (bs, false) ∧ (∀ (j : Nat) b, bs[j]? = some b → t.readPa (128 * l + j) = b)
              ∧ ∀ a, ¬ (128 * l ≤ a ∧ a < 128 * l + 128) → t.readPa a = s.readPa a)
          ∧ ((∀ bs, copy s ≠ some (bs, true)) → s.SameMemory t)
          ∧ ∀ n, n ≠ l → Tab.find? (t.core o.loc).l1 n = Tab.find? (s.core o.loc).l1 n)
      ∧ (f.typ = 3 → o.instr = .inv x → copy t = none ∧ (∀ a, t.readPa a = s.readPa a)
          ∧ ∀ n, n ≠ l → Tab.find? (t.core o.loc).l1 n = Tab.find? (s.core o.loc).l1 n)
      ∧ (f.typ = 3 → o.instr = .fla x → (s.core o.loc).l1.length < 2048 →
          (∃ b, copy t = some (s.l1Line o.loc l, b)) ∧ (∀ a, t.readPa a = s.readPa a)
          ∧ ∀ n, n ≠ l → Tab.find? (t.core o.loc).l1 n = Tab.find? (s.core o.loc).l1 n)

/-! ### Cross-lane forms and walkers -/

/-- R142 to R146: the cross-lane forms that are ready and read no bound walker complete: every member's result
comes from the sources of all members as they were, and nothing else changes.
R144: `vote.any` and `vote.all` write one value to the predicate of every member. -/
def Obligations.CrossLaneResult : Prop :=
  (∀ (i : Instr) (f : Form) (s : State) (c : Ctx), crossForm i = some f → s.Ready i f c → c.walks = false →
    ∃ t, exec i s = .next t
      ∧ (∀ e ∈ c.threads, ∃ v, crossLaw i c e v ∧ t.Holds c.gid e.1 f.dst (v.zeroExtend 128))
      ∧ s.RegFrame t c.gid c.Member f.dst.names [] [] 0)
  ∧ (∀ (i : Instr) (f : VoteP) (s : State) (c : Ctx), (i = .voteAny f ∨ i = .voteAll f) →
    s.Ready i { predR := [f.q.toNat], predW := [f.p.toNat], h := f.h, chain := true } c →
    ∃ t b, exec i s = .next t
      ∧ (i = .voteAny f → (b = true ↔ ∃ e ∈ c.threads, e.2.preds.getLsbD f.q.toNat = true))
      ∧ (i = .voteAll f → (b = true ↔ ∀ e ∈ c.threads, e.2.preds.getLsbD f.q.toNat = true))
      ∧ (∀ e ∈ c.threads, t.predAt c.gid e.1 f.p.toNat = some b)
      ∧ s.RegFrame t c.gid c.Member [] [f.p.toNat] [] 0)

/-- R148: `w.bind` sets the walker of every member from the pair A and the quad B: base, element size,
counts, strides, position 0 and END 0. Its word, the names that it takes, no H and no N are those of its rule.
R150: `w.skip` moves a bound walker as that many reads would and leaves an unbound one; its word likewise. -/
def Obligations.WalkerResult : Prop :=
  let word := fun op k a b : Nat => BitVec.ofNat 32 (op * 2 ^ 25 + (112 + k) * 2 ^ 18 + a * 2 ^ 11 + b * 2 ^ 4)
  (∀ f : WBindF, encode (.wBind f) = [word 0x25 f.k.toNat f.a.toNat f.b.toNat]
    ∧ ((Instr.wBind f).wellFormed = true ↔ f.a.toNat < 112 ∧ f.a.toNat % 2 = 0 ∧ f.b.toNat ≤ 108 ∧ f.b.toNat % 4 = 0)
    ∧ ∀ h, h ≠ 0 → h < 4 → ∃ e, decodeWords [word 0x25 f.k.toNat f.a.toNat f.b.toNat + BitVec.ofNat 32 h] = .error e)
  ∧ (∀ f : WSkipF, encode (.wSkip f) = [word 0x26 f.k.toNat f.a.toNat 120]
    ∧ ((Instr.wSkip f).wellFormed = true ↔ f.a.toNat < 112)
    ∧ ∀ h, h ≠ 0 → h < 4 → ∃ e, decodeWords [word 0x26 f.k.toNat f.a.toNat 120 + BitVec.ofNat 32 h] = .error e)
  ∧ (∀ (f : WBindF) (s : State) (c : Ctx), s.Ready (.wBind f) { a := .pair f.a, b := .quad f.b, chain := true, wDst := [112 + f.k.toNat] } c →
    ∃ t, exec (.wBind f) s = .next t
      ∧ (∀ e ∈ c.threads, ∃ w, t.walkerAt c.gid e.1 f.k.toNat = some w ∧ w.bound = true
          ∧ w.base = c.src64 e (.pair f.a)
          ∧ (let q := ((c.env e).val (.quad f.b)).toNat
             w.e.toNat = q % 4 ∧ w.c0.toNat = q / 2 ^ 32 % 2 ^ 16 ∧ w.c1.toNat = q / 2 ^ 48 % 2 ^ 16
               ∧ w.s0.toNat = q / 2 ^ 64 % 2 ^ 32 ∧ w.s1.toNat = q / 2 ^ 96)
          ∧ w.i0 = 0 ∧ w.i1 = 0 ∧ w.fin = false)
      ∧ s.RegFrame t c.gid c.Member [] [] [f.k.toNat] 0)
  ∧ (∀ (f : WSkipF) (s : State) (c : Ctx), s.Ready (.wSkip f) { a := .w f.a, chain := true, wDst := [112 + f.k.toNat] } c →
    ∃ t, exec (.wSkip f) s = .next t
      ∧ (∀ e ∈ c.threads, let w : Walker := Tab.getD e.2.walkers f.k.toNat {}
          w.i0.toNat ≤ w.c0.toNat → w.i1.toNat ≤ w.c1.toNat →
          t.walkerAt c.gid e.1 f.k.toNat =
            some (if w.bound then Walker.step^[(c.src e (.w f.a)).toNat] w else w))
      ∧ s.RegFrame t c.gid c.Member [] [] [f.k.toNat] 0)

/-! ### Control flow -/

/-- R158, R160, R161: `jmp` and `gbra` move the whole path to the target or, for `gbra`, by the leader's
predicate to the next instruction; `call` also writes the link to its pair in every member.
R161, R162: `callr` goes to the leader's pair A and writes the link; `ret` takes each member to its own
pair A, while the group has one path and the members name at most two targets. -/
def Obligations.PathTransfers : Prop :=
  ((∀ (off : BitVec 19) (s : State) (c : Ctx), s.Ready (.jmp off) { group := true } c →
    ∃ t, exec (.jmp off) s = .next t
      ∧ (∀ e ∈ c.threads, t.stands c.gid e.1 (c.p.pc + wrap64 (4 * off.toInt)))
      ∧ s.RegFrame t c.gid c.Member [] [] [] 0)
  ∧ (∀ (f : GBrF) (s : State) (c : Ctx), s.Ready (.gbra f) { group := true, predR := [f.p.toNat] } c →
    ∃ t, exec (.gbra f) s = .next t
      ∧ (∀ e ∈ c.threads, t.stands c.gid e.1
          (if c.leader.2.preds.getLsbD f.p.toNat = f.ps then c.p.pc + wrap64 (4 * f.off.toInt) else c.p.pc + 4))
      ∧ s.RegFrame t c.gid c.Member [] [] [] 0)
  ∧ ∀ (f : CallF) (s : State) (c : Ctx) (d : Fld), d = .pair (BitVec.ofNat 7 (2 * f.l.toNat)) →
    s.Ready (.call f) { group := true, dst := d } c →
    ∃ t, exec (.call f) s = .next t
      ∧ (∀ e ∈ c.threads, t.stands c.gid e.1 (c.p.pc + wrap64 (4 * f.off.toInt))
          ∧ t.Holds c.gid e.1 d ((c.p.pc + 4).zeroExtend 128))
      ∧ s.RegFrame t c.gid c.Member d.names [] [] 0)
  ∧ ((∀ (f : N2) (s : State) (c : Ctx), s.Ready (.callr f) { group := true, a := .pair f.a, dst := .pair f.d } c →
    let v := c.src64 c.leader (.pair f.a)
    v ≠ 0 → v.toNat % 4 = 0 →
    ∃ t, exec (.callr f) s = .next t
      ∧ (∀ e ∈ c.threads, t.stands c.gid e.1 v ∧ t.Holds c.gid e.1 (.pair f.d) ((c.p.pc + 4).zeroExtend 128))
      ∧ s.RegFrame t c.gid c.Member (Fld.pair f.d).names [] [] 0)
  ∧ ∀ (a : Name) (s : State) (c : Ctx), s.Ready (.ret a) { a := .pair a } c → c.OnePath →
    (∀ e ∈ c.threads, c.src64 e (.pair a) ≠ 0 ∧ (c.src64 e (.pair a)).toNat % 4 = 0) →
    (∃ x y, ∀ e ∈ c.threads, c.src64 e (.pair a) = x ∨ c.src64 e (.pair a) = y) →
    ∃ t, exec (.ret a) s = .next t
      ∧ (∀ e ∈ c.threads, t.stands c.gid e.1 (c.src64 e (.pair a)))
      ∧ s.RegFrame t c.gid c.Member [] [] [] 0)

/-- R28, R151, R159: `bra` and `bw` split the one path of a group: members whose predicate, or whose walker's END
(1 while unbound), equals the sense stand at the target, the others at the next instruction.
R28, R29: where the group has another path and the three stand at different addresses, the victim is parked (policy
PARK) or cast (policy CAST): its items enter spawn memory in ascending rank and its membership ends.
R26, R27: a path that transfers to where the other path stands merges with it; else both stand, the one that took a
forward transfer held while the other stands in between, a held one released once the other leaves its interval. A
held path does not issue. -/
def Obligations.BranchSplits : Prop :=
  (∀ (i : Instr) (f : BrF) (s : State) (c : Ctx),
    (i = .bra f ∧ s.Ready i { predR := [f.p.toNat] } c ∨ i = .bw f ∧ s.Ready i {} c) → c.OnePath →
    let end_ := fun e : Nat × Thread =>
      let w : Walker := Tab.getD e.2.walkers f.p.toNat {}
      !w.bound || w.fin
    let flag := fun e : Nat × Thread => if i = .bra f then e.2.preds.getLsbD f.p.toNat else end_ e
    ∃ t, exec i s = .next t
      ∧ (∀ e ∈ c.threads, t.stands c.gid e.1
          (if flag e = f.ps then c.p.pc + wrap64 (4 * f.off.toInt) else c.p.pc + 4))
      ∧ s.RegFrame t c.gid c.Member [] [] [] 0)
  ∧ (∀ (i : Instr) (f : BrF) (s : State) (c : Ctx) (q : Path) (mt mn : Word) (v : Word × DWord),
    (i = .bra f ∧ s.Ready i { predR := [f.p.toNat] } c ∨ i = .bw f ∧ s.Ready i {} c) → c.Beside q →
    let end_ := fun th : Thread =>
      let w : Walker := Tab.getD th.walkers f.p.toNat {}
      !w.bound || w.fin
    let flag := fun th : Thread => if i = .bra f then th.preds.getLsbD f.p.toNat else end_ th
    let ps := [(q.mask, q.pc), (mt, c.p.pc + wrap64 (4 * f.off.toInt)), (mn, c.p.pc + 4)]
    (∀ r, mt.getLsbD r = true ↔ ∃ th, (r, th) ∈ c.threads ∧ flag th = f.ps) →
    (∀ r, mn.getLsbD r = true ↔ ∃ th, (r, th) ∈ c.threads ∧ flag th ≠ f.ps) →
    mt ≠ 0 → mn ≠ 0 → (ps.map Prod.snd).Nodup → IsVictim ps v →
    (f.cp = 1 → ∃ t g p, exec i s = .next t ∧ t.group? c.gid = some g ∧ g.parked = some p ∧ p.mask = v.1 ∧ p.pc = v.2
      ∧ g.paths.length = 2 ∧ (∀ x ∈ ps, x ≠ v → g.has x) ∧ s.RegFrame t c.gid c.Member [] [] [] 0)
    ∧ (f.cp = 0 → s.wg? c.g.wg = some c.w →
        (∀ e ∈ c.g.threads, v.1.getLsbD e.1 = true → s.busy e.2.tid = false) →
        itemBytes c.w.nb c.w.items + countMask v.1 * (320 + 32 * c.w.nb) ≤ (c.w.spw + 1) * 4096 →
        ∃ t g x, exec i s = .next t ∧ t.group? c.gid = some g ∧ g.parked = none ∧ g.paths.length = 2
          ∧ (∀ x ∈ ps, x ≠ v → g.has x)
          ∧ (∀ r, Tab.find? g.threads r = if v.1.getLsbD r = true then none else Tab.find? c.g.threads r)
          ∧ t.wg? c.g.wg = some x ∧ x.overflow = c.w.overflow
          ∧ x.items.map Prod.snd = c.w.items.map Prod.snd ++ (ranksOf v.1).filterMap (fun r =>
              (Tab.find? c.g.threads r).map fun th => Item.cast v.2 th.dropLatches)
          ∧ s.SameMemory t))
  ∧ (∀ (off : BitVec 19) (s : State) (c : Ctx) (q : Path), s.Ready (.jmp off) { group := true } c → c.Beside q →
    let T := c.p.pc + wrap64 (4 * off.toInt)
    ∃ t g, exec (.jmp off) s = .next t ∧ t.group? c.gid = some g
      ∧ (q.pc = T → ∃ p, g.paths = [p] ∧ p.pc = T ∧ p.mask = c.p.mask ||| q.mask ∧ p.hold = none)
      ∧ (q.pc ≠ T → g.paths.length = 2
          ∧ (∃ p ∈ g.paths, p.mask = c.p.mask ∧ p.pc = T
              ∧ (p.hold = some c.p.pc ∧ Between c.p.pc q.pc T ∨ p.hold = none ∧ ¬ Between c.p.pc q.pc T))
          ∧ ∃ p ∈ g.paths, p.mask = q.mask ∧ p.pc = q.pc
            ∧ ∀ a, p.hold = some a ↔ q.hold = some a ∧ Between a T q.pc)
      ∧ s.RegFrame t c.gid c.Member [] [] [] 0)
  ∧ ∀ (i : Instr) (f : Form) (s : State) (c : Ctx), IssuesWith i f → s.ctx? i f = some c → c.p.hold ≠ none →
    ∃ t, exec i s = .next t ∧ t.group? c.gid = s.group? c.gid ∧ s.Still t c.gid ∧ s.SameFiles t c.gid

/-- R163: `exit` ends the members of the path: no thread and no path of the group holds them any more; the other
members keep their threads, memory and every other group's registers stay, where no spill area of the core that the
freed slot reads (R112) meets an error response. -/
def Obligations.ExitEndsMembers : Prop :=
  ∀ (s : State) (c : Ctx), s.Ready .exit {} c →
    (∀ e ∈ s.groups, e.2.loc = c.g.loc → e.2.stored = true → s.spillBad e.2.loc e.2.slot = false) →
    ∃ t, exec .exit s = .next t
      ∧ (∀ g, t.group? c.gid = some g → ∀ e ∈ c.threads, Tab.find? g.threads e.1 = none
          ∧ ∀ p ∈ g.paths, p.mask.getLsbD e.1 = false)
      ∧ (∀ r, c.p.mask.getLsbD r = false →
          ((Tab.find? c.g.threads r).isSome = true → ∀ n, t.regAt c.gid r n = s.regAt c.gid r n)
            ∧ ∀ g, t.group? c.gid = some g → Tab.find? g.threads r = Tab.find? c.g.threads r)
      ∧ s.SameMemory t
      ∧ ∀ k q m, k ≠ c.gid → t.regAt k q m = s.regAt k q m

/-- R164, R173, R178, R261, R262: `nop`, `yield`, `ifence`, `fence`, `pfence` and `wait` that are ready and have
nothing to wait for go on to the next instruction; otherwise their group stays as it is. Nothing else changes, but
that `ifence` leaves the instruction caches of every core of the die empty, a steward core's its own (R173). -/
def Obligations.OrderingFormsGoOn : Prop :=
  ∀ (i : Instr) (f : Form) (b : Bool) (s : State) (c : Ctx), goOn i s c = some (f, b) → s.Ready i f c →
    ∃ t, exec i s = .next t
      ∧ (b = true → (∀ e ∈ c.threads, t.stands c.gid e.1 (c.p.pc + wrap64 (4 * i.words)))
          ∧ (i ≠ .ifence → s.RegFrame t c.gid c.Member [] [] [] 0)
          ∧ (i = .ifence → s.SameFiles t c.gid ∧ s.SameMemory t
              ∧ ({ s with cores := [] } : State).Still { t with cores := [] } c.gid
              ∧ ∀ l, (t.core l).rest =
                  if l = c.g.loc ∨ (c.g.loc < 1024 ∧ l < 1024 ∧ locDie l = locDie c.g.loc) then
                    { (s.core l).rest with icache := [] } else (s.core l).rest))
      ∧ (b = false → t.group? c.gid = s.group? c.gid ∧ s.Still t c.gid ∧ s.SameFiles t c.gid)

/-! ### Places and system registers -/

/-- R157: `plc` gives the place of a name: unit in bits 63:58, place code in 57:56, anchor in 55:0.
R153 to R156: `redecl` that is ready goes in flight with the name's value and the anchor of every member;
to LANE, for the members whose name is or goes elsewhere, confirmed at issue; with no such member it only goes on. -/
def Obligations.PlaceForms : Prop :=
  (∀ (f : N2) (s : State) (c : Ctx), s.Ready (.plc f) { dst := .pair f.d, see := (Fld.w f.a).names } c →
    ∃ t, exec (.plc f) s = .next t
      ∧ (∀ e ∈ c.threads, ∃ v : DWord, t.Holds c.gid e.1 (.pair f.d) (v.zeroExtend 128)
          ∧ match Tab.find? e.2.far f.a.toNat with
            | some x => v.toNat / 2 ^ 58 = x.unit % 64 ∧ v.toNat / 2 ^ 56 % 4 = x.place.code.toNat
                ∧ v.toNat % 2 ^ 56 = x.anchor.toNat % 2 ^ 56
            | none => v.toNat = if c.w.clusterMap.getLsbD f.a.toNat then 2 ^ 56 else 0)
      ∧ s.RegFrame t c.gid c.Member (Fld.pair f.d).names [] [] 0)
  ∧ ∀ (f : RedeclF) (s : State) (c : Ctx), f.f ≠ 1 →
    s.Ready (.redecl f) { dst := .w f.d, far := true, outside := true, log := f.f != 0,
                          full := (Fld.pair f.a).names, placeOn := redeclPlace f } c →
    let moved := fun e : Nat × Thread => f.f ≠ 0 ∨ (c.execPlace e.2).1 ≠ .lane
    f.d.isV = true →
    ∃ t, exec (.redecl f) s = .next t ∧ s.SameFiles t c.gid ∧ s.SameMemory t
      ∧ ((∃ e ∈ c.threads, moved e) →
          ∃ o, s.Launches t c o ∧ o.dests = [f.d.toNat] ∧ o.stage = (if f.f = 0 then .confirmed else .issued)
            ∧ (∀ e ∈ c.threads, moved e → ∃ m ∈ o.members, m.rank = e.1 ∧ m.done = false
                ∧ m.addr = c.src64 e (.pair f.a) ∧ m.d.toNat = (c.src e (.w f.d)).toNat)
            ∧ ∀ m ∈ o.members, ∃ e ∈ c.threads, moved e ∧ m.rank = e.1)
      ∧ ((∀ e ∈ c.threads, ¬ moved e) → s.Still t c.gid)

/-- R56, R165, R167: `sysr` that is ready gives every register of the table; a read of FPX waits for the
group's far results. A steward core reads C-die 0's ticks as its time (assumption log 135). -/
def Obligations.SystemRegisterRead : Prop :=
  ∀ (f : NumF) (s : State) (c : Ctx),
    s.Ready (.sysr f) { group := true, dst := .w f.d, illOn := sysIll false f.num.toNat,
                        priv := sysKind f.num.toNat == .priv } c →
    (f.num = 0 → s.farOutstanding c.gid = false) →
    ∃ t v, exec (.sysr f) s = .next t ∧ sysLaw s c f.num.toNat v
      ∧ (∀ e ∈ c.threads, t.Holds c.gid e.1 (.w f.d) (v.zeroExtend 128))
      ∧ (∀ k q m, ¬ (k = c.gid ∧ c.Member q ∧ m ∈ (Fld.w f.d).names) → t.regAt k q m = s.regAt k q m)
      ∧ s.SameMemory t
      ∧ ∀ g, t.group? c.gid = some g → g.timeHi = if f.num = 0x10 then
          wrap32 ((s.die (if c.g.steward then 0 else c.g.loc / 256)).ticks / 2 ^ 32 : Nat) else c.g.timeHi

/-- R165, R168: `sysw` of a group register that is ready writes the leader's value to that register alone;
a write of FPX waits for outstanding flags. A write of SID or SPILLBASE changes the die's register. The name D is a
source here and may stand anywhere (assumption log 100). -/
def Obligations.SystemRegisterWrite : Prop :=
  ∀ (f : NumF) (s : State) (c : Ctx),
    s.Ready (.sysw f) { group := true, d := .w f.d, illOn := sysIll true f.num.toNat,
                        priv := sysKind f.num.toNat == .priv } c →
    (f.num = 0 → s.flagsOutstanding c.gid = false) →
    let v := c.src c.leader (.w f.d)
    ∃ t, exec (.sysw f) s = .next t
      ∧ (∀ k q m, t.regAt k q m = s.regAt k q m)
      ∧ (∀ g, t.group? c.gid = some g → sysWritten c.g g f.num.toNat v)
      ∧ (f.num.toNat < 0x2000 → s.SameMemory t)
      ∧ t.sidOf c.g = (if f.num = 0x2000 then v.toNat % 4096 else s.sidOf c.g)
      ∧ (coreDie c.g.loc < 4 → t.spillOf c.g =
          if f.num = 0x2001 then withHalf (s.spillOf c.g) false v
          else if f.num = 0x2002 then withHalf (s.spillOf c.g) true v else s.spillOf c.g)

/-! ### Traps and the return from them -/

/-- R44, R85, R93, R343, R348: an issue that meets ILL, PRIV, LUMEN or PLACE, or a precise fault of the instruction's
own rule, does nothing of its instruction: no register, memory, scratchpad, table, core or engine changes. A record with
its code, PC and MASK goes to the queue (the die's own for a group in privileged mode, assumption log 103), the path
stops with the PC of the instruction, or of its open chain's first, and waits for the answer. While the queue is full
the record is held at the path. Every instruction issues past these checks. Records of a region's own queue and its
policy are `TrapAnswered`'s. -/
def Obligations.PreciseFault : Prop :=
  (∀ (i : Instr) (f : Form) (s : State) (c : Ctx) (code : FCode) (m : Word),
    IssuesWith i f → s.ctx? i f = some c → s.canIssue c = true → s.issueFault c = some (code, m) →
    c.g.steward = false → s.DieQueue (coreDie c.g.loc) c.queue (some c.w.region) →
    ∃ t, exec i s = .next t ∧ s.Faults t c code m)
  ∧ (∀ (i : Instr) (f : Form) (s : State) (c : Ctx) (code : FCode) (m : Word),
    s.Ready i f c → ownFault i s c = some (f, code, m) → c.g.steward = false →
    s.DieQueue (coreDie c.g.loc) c.queue (some c.w.region) →
    ∃ t, exec i s = .next t ∧ s.Faults t c code m)
  ∧ (∀ (i : Instr) (f : Form) (s : State) (c : Ctx) (code : FCode) (m : Word),
    IssuesWith i f → s.ctx? i f = some c → s.canIssue c = true → s.issueFault c = some (code, m) →
    c.g.steward = false →
    let d := coreDie c.g.loc
    let b := (s.die d).dfqBase.toNat
    s.faultQueue d c.queue = none → (s.readPaLe b 4 + 2 ^ 32 - s.readPaLe (b + 4) 4) % 2 ^ 32 = 4096 →
    ∃ t h, exec i s = .next t ∧ t.heldRecs = s.heldRecs ++ [h] ∧ h.id = s.nextId ∧ h.die = d
      ∧ h.party = some (.path c.gid) ∧ h.trap.code = code ∧ h.trap.pc = c.p.pc ∧ h.trap.mask = m
      ∧ (∀ r, c.p.mask.getLsbD r = true →
          t.waitsAt c.gid r (c.p.chain.elim c.p.pc (·.start)) (.trap s.nextId))
      ∧ t.pending = s.pending ∧ s.SameMemory t ∧ ∀ k q n, t.regAt k q n = s.regAt k q n)
  ∧ ∀ i : Instr, i.isEvent = false → ∃ f, IssuesWith i f

/-- R169, R170: a `trap` that is ready. Bit 20 clear: a SWTRAP record that names the `trap` and holds its code in
DETAIL, and the path waits at the next instruction; a steward core's group goes on there (assumption log 14). Bit 20 set: when no
far result of the group is undone, it enters handler state with HCAUSE 2 and the code, the path recorded at the
next instruction; else it has the entry still to make. -/
def Obligations.TrapTaken : Prop :=
  ∀ (code : BitVec 21) (s : State) (c : Ctx),
    s.Ready (.trap code) { group := true, outside := true, illOn := trapIll code } c → c.threads ≠ [] →
    (code.getLsbD 20 = false → c.g.steward = false →
        s.DieQueue (coreDie c.g.loc) (some c.w.region) (some c.w.region) →
      ∃ t, exec (.trap code) s = .next t ∧ s.Recorded t (coreDie c.g.loc) 23 c.p.pc c.p.mask
        ∧ (let b := (s.die (coreDie c.g.loc)).dfqBase.toNat
           t.readPaLe (b + 64 + 64 * (s.readPaLe b 4 % 4096) + 48) 8 = code.toNat)
        ∧ (∀ r, c.p.mask.getLsbD r = true → t.waitsAt c.gid r (c.p.pc + 4) (.trap s.nextId))
        ∧ (∃ x ∈ t.pending, x.id = s.nextId ∧ x.party = .path c.gid) ∧ s.SameFiles t c.gid)
    ∧ (code.getLsbD 20 = false → c.g.steward = true → s.stewardFull (coreDie c.g.loc) = false →
      ∃ t, exec (.trap code) s = .next t ∧ (∀ e ∈ c.threads, t.stands c.gid e.1 (c.p.pc + 4))
        ∧ s.SameFiles t c.gid)
    ∧ (code.getLsbD 20 = true → c.OnePath → s.wg? c.g.wg = some c.w →
      ∃ t g, exec (.trap code) s = .next t ∧ t.group? c.gid = some g ∧ s.SameFiles t c.gid
        ∧ (s.entryHeld c.gid = false → g.handler = true ∧ g.hcause.toNat = 16 * code.toNat + 2
            ∧ g.epcOf 0 = c.p.pc + 4 ∧ g.emskOf 0 = c.p.mask ∧ g.emskOf 1 = 0 ∧ g.emskOf 2 = 0
            ∧ g.parked = none ∧ ∃ p, g.paths = [p] ∧ p.mask = c.p.mask ∧ p.wait = .none
              ∧ p.pc = (s.rgn? (coreDie c.g.loc) c.w.region).elim 0 RgnBlock.handler)
        ∧ (s.entryHeld c.gid = true → g.handler = false ∧ g.localTrap = some (code, c.p.mask)
            ∧ ∀ e ∈ c.threads, t.stands c.gid e.1 (c.p.pc + 4)))

/-- R170: HANDLER_ENTRY of a group that may enter, with no enqueue that waits for room: the path records take
PC and mask of its paths, HCAUSE the cause and the code, and one path of all members stands at the region's
handler.
R171: `eret` that is ready with aligned records leaves handler state: HCAUSE and PRIVST bit 1 are 0, and each
member of a record has a path at its PC; threads that wait to be cast are none of the members (assumption log 17). -/
def Obligations.HandlerEntryAndReturn : Prop :=
  (∀ (gid : Nat) (s : State) (g : Group), s.event = some (.handlerEntry gid) → s.group? gid = some g →
    s.entryReady gid = true → (∀ o ∈ s.ops, o.2.gid = gid → o.2.waitsForRoom = false) →
    let rec_ := fun k : Nat => if k = 0 then g.paths[0]? else if k = 1 then g.paths[1]? else g.parked
    ∃ t h, exec .handlerEntry s = .next t ∧ t.group? gid = some h
      ∧ h.handler = true
      ∧ h.hcause.toNat = (match g.localTrap with
        | some x => 16 * x.1.toNat + 2
        | none => 1)
      ∧ (∀ k < 3, ∀ p, rec_ k = some p → h.epcOf k = p.pc ∧ h.emskOf k = p.mask)
      ∧ (∀ k < 3, rec_ k = none → h.emskOf k = 0)
      ∧ h.parked = none
      ∧ (∃ p, h.paths = [p] ∧ p.mask = h.emskOf 0 ||| h.emskOf 1 ||| h.emskOf 2
          ∧ ∀ w b, s.wg? g.wg = some w → s.rgn? (coreDie g.loc) w.region = some b → p.pc = b.handler)
      ∧ s.SameFiles t gid ∧ s.Outside t { groups := [gid], ops := s.opsOf gid })
  ∧ (∀ (s : State) (c : Ctx), s.Ready .eret { group := true, illOn := eretIll } c → eretAlign c.g = false →
    ∃ t h, exec .eret s = .next t ∧ t.group? c.gid = some h ∧ h.handler = false ∧ h.hcause = 0
      ∧ (∀ k < 3, ∀ r, (c.g.emskOf k).getLsbD r = true → h.standsAt r (c.g.epcOf k))
      ∧ s.SameFiles t c.gid ∧ s.SameMemory t)

/-- R352: PREQ sends PREEMPT to the groups of every workgroup that it names and asks their engines to suspend;
a number that is not live names none. -/
def Obligations.PreemptRequest : Prop :=
  ∀ (d : Nat) (v : Word) (s : State), s.event = some (.preq d v) →
    ∃ t, exec .preq s = .next t
      ∧ ((s.rgn? d (v.toNat % 65536)).isSome = true →
          (∀ k g w, s.group? k = some g → g.steward = false → s.wg? g.wg = some w →
            ∃ x, t.group? k = some x ∧ (s.named d v w → x.preempt = true) ∧ (¬ s.named d v w → x = g))
          ∧ ∀ l k w, (s.core l).engine.owner = .wg k → s.wg? k = some w → s.named d v w →
            (t.core l).engine.suspend = true)
      ∧ ((s.rgn? d (v.toNat % 65536)).isSome = false → s.Outside t {})
      ∧ (∀ k, t.op? k = s.op? k) ∧ s.SameMemory t

/-- R172, R354, R355: `eret.save` that is ready, with its area aligned, nothing left to wait for and every store of
the save allowed, stores the image and ends the group; the last group of a workgroup takes the workgroup with it
and it awaits its RESUME record. Threads that wait to be cast are none of the members (assumption log 17), and direct
commands that the engine's suspension holds are not waited for (assumption log 70). -/
def Obligations.ContextSaved : Prop :=
  ∀ (s : State) (c : Ctx) (ps : List (Frag × List Byte)) (k : Checked) (s2 : State),
    s.Ready .eretSave { group := true, outside := true, illOn := saveIll } c →
    saveAlign c.g c.w = false → s.saveBusy c.g.loc c.gid = false →
    (s.lastGroup c.gid c.g.wg = true → s.engineAtRest c.g.loc c.g.wg = true) →
    s.wg? c.g.wg = some c.w →
    (let x := s.saveData c.gid c.g c.w (s.lastGroup c.gid c.g.wg)
     x.2.saveCheck c.g.loc c.g.saveBase.toNat x.1 = (ps, k)) →
    k.stall = false → k.hits = [] → k.s.savePuts c.g.loc ps = .ok s2 →
    (∀ e ∈ s.groups, e.2.loc = c.g.loc → e.2.stored = true → s2.spillBad e.2.loc e.2.slot = false) →
    ∃ t, exec .eretSave s = .next t ∧ t.group? c.gid = none ∧ s2.SameMemory t
      ∧ (∀ o x, t.op? o = some x → x.gid ≠ c.gid)
      ∧ (s.lastGroup c.gid c.g.wg = false →
          ∃ w, t.wg? c.g.wg = some w ∧ w.saveArea = some c.g.saveBase
            ∧ Tab.find? w.savedGroups c.gid = some c.g.saved)
      ∧ (s.lastGroup c.gid c.g.wg = true → t.wg? c.g.wg = none
          ∧ ∃ v ∈ t.saved, v.id = c.g.wg ∧ v.area = c.g.saveBase
            ∧ Tab.find? v.wg.savedGroups c.gid = some c.g.saved)

/-- R349: the answer that stands in DISP. RESUME lets a logged operation issue again and a stopped path go on,
END ends the members (of a logged operation all that it holds, assumption log 77), KILL leaves nothing of the region's
subtree, every other value leaves the record waiting.
R348, R349: a held record is written once its queue has room: to the ring at FQBASE of its region, or, redirected, to
the die's own where writing there meets a fault; it stays held while the ring is full. With POLICY 1 the record says
so and the subtree is killed at once. -/
def Obligations.TrapAnswered : Prop :=
  (∀ (d : Nat) (a : DWord) (s : State) (p : Pending), s.event = some (.trapack d a) →
    s.pending.reverse.find? (fun q => q.die == d && q.addr == a) = some p →
    let disp := (s.readPa (p.pa + 2)).toNat
    ∃ t, exec .trapack s = .next t
      ∧ (disp = 1 ∨ disp = 2 ∨ disp = 3 → (disp = 1 → ∀ g, p.party ≠ .cast g) →
          (disp = 3 → ∀ e ∈ s.groups, e.2.stored = true → s.spillBad e.2.loc e.2.slot = false) → p ∉ t.pending)
      ∧ (disp = 1 → ∀ id o, p.party = .op id → s.op? id = some o → t.op? id = some { o with stage := .issued })
      ∧ (disp = 1 → ∀ g x, p.party = .path g → t.group? g = some x → ∀ q ∈ x.paths, q.wait ≠ .trap p.id)
      ∧ (disp = 3 → ∀ g x y, p.party = .path g → s.group? g = some x → t.group? g = some y →
          ∀ r, (x.trapMask p.id).getLsbD r = true → Tab.find? y.threads r = none)
      ∧ (disp = 3 → ∀ id o y, p.party = .op id → s.op? id = some o → t.group? o.gid = some y →
          ∀ m ∈ o.members, m.rank < 32 → Tab.find? y.threads m.rank = none)
      ∧ (disp = 2 → ∀ r, p.region = some r → (∀ q, p.party ≠ .tree q) →
          (t.run r).killed = true
          ∧ (∀ w x, t.wg? w = some x → s.killed r x.region = false)
          ∧ (∀ o x, t.op? o = some x → s.killed r x.region = false)
          ∧ ∀ l, ∀ x ∈ (t.cluster l).tasks, s.killed r x.region = false)
      ∧ (disp = 0 ∨ 4 ≤ disp → s.Outside t {}))
  ∧ (∀ (id : Nat) (s : State) (h : HeldRec), s.event = some (.heldTrapRecord id) →
    s.heldRecs.find? (fun x => x.id == id) = some h → h.trap.rcd = none →
    s.DieQueue h.die h.trap.queue h.trap.region →
    ∃ t, exec .heldTrapRecord s = .next t ∧ s.Recorded t h.die h.trap.code.num h.trap.pc h.trap.mask
      ∧ (∀ x ∈ t.heldRecs, x.id ≠ id)
      ∧ (∀ p, h.party = some p → ∃ x ∈ t.pending, x.id = h.id ∧ x.party = p)
      ∧ ∀ g, t.group? g = s.group? g)
  ∧ ∀ (id base size : Nat) (s : State) (h : HeldRec), s.event = some (.heldTrapRecord id) →
    s.heldRecs.find? (fun x => x.id == id) = some h → h.trap.rcd = none →
    s.faultQueue h.die h.trap.queue = some (base, size) →
    let ring := ({ s with event := none } : State).checkRange h.die .write base 8
    let fits := fun (u : State) (tail r : Nat) => (tail + 4 ≤ r ∨ r + 64 ≤ tail)
      ∧ (∀ j < 4, (hbmDie (tail + j)).isSome = true ∧ isHostPa (tail + j) = false)
      ∧ (∀ j < 64, (hbmDie (r + j)).isSome = true ∧ isHostPa (r + j) = false)
      ∧ (u.frame tail).hold = 0 ∧ (u.frame r).hold = 0
    (∀ s1 hpa ty, ring = (.ok hpa ty, s1) →
      let tl := s1.readPaLe hpa 4
      let n := (tl + 2 ^ 32 - s1.readPaLe (hpa + 4) 4) % 2 ^ 32
      let va := base + 64 + 64 * (tl % size)
      (n = size → ∃ t, exec .heldTrapRecord s = .next t ∧ h ∈ t.heldRecs ∧ s1.SameMemory t)
      ∧ (n ≠ size → ∀ s2 rpa ty2, s1.checkRange h.die .write va 64 = (.ok rpa ty2, s2) → fits s2 hpa rpa →
          ∃ t, exec .heldTrapRecord s = .next t ∧ s2.Written t h hpa rpa va false))
    ∧ ∀ s1 c v, ring = (.fault c v, s1) → s1.dieSlot h.die ≠ .full →
        let b := (s1.die h.die).dfqBase.toNat
        let r := b + 64 + 64 * (s1.readPaLe b 4 % 4096)
        fits s1 b r → ∃ t, exec .heldTrapRecord s = .next t ∧ s1.Written t h b r (2 ^ 63 + r) true

/-! ### Barriers, counters and tables -/

/-- R179 to R181: an arrival of a path none of whose members holds a mark. When every live thread has then
arrived the barrier releases: marks cleared, phase toggled, the exchange banks swapped if an arrival was a swap,
no path of the workgroup waits at it; else the members' marks stand and the path of a waiting form waits. Threads that
a save has taken already count as live (assumption log 13). -/
def Obligations.BarrierArrival : Prop :=
  ∀ (i : Instr) (b : Nat) (waits swap : Bool) (s : State) (c : Ctx), barRule i = some (b, waits, swap) →
    s.Ready i (barForm swap) c → s.wg? c.g.wg = some c.w → c.threads ≠ [] →
    (∀ e ∈ c.threads, e.2.tid ∉ (c.w.barrier b).marks) → s.laneBusy c 2 false = false →
    s.clusterBusy (c.threads.map fun e => e.2.tid) = false →
    let x := c.w.barrier b
    let n := x.marks.length + c.threads.length
    ∃ t w, exec i s = .next t ∧ t.wg? c.g.wg = some w ∧ s.SameFiles t c.gid ∧ s.SameMemory t
      ∧ (∀ e ∈ c.threads, t.stands c.gid e.1 (c.p.pc + 4))
      ∧ (n = t.live c.g.wg → w.barrier b = { marks := [], phase := !x.phase, swap := false }
          ∧ ∀ k g, t.group? k = some g → g.wg = c.g.wg → g.steward = false → ∀ p ∈ g.paths, p.wait ≠ .bar b)
      ∧ (n ≠ t.live c.g.wg →
          w.barrier b = { marks := x.marks ++ c.threads.map (·.2.tid), phase := x.phase, swap := x.swap || swap }
          ∧ (waits = true → ∀ e ∈ c.threads, t.waitsAt c.gid e.1 (c.p.pc + 4) (.bar b)))
      ∧ ((∀ k < 16, k ≠ b → (c.w.barrier k).marks.length ≠ t.live c.g.wg ∨ (c.w.barrier k).marks = []) →
          (w.live, w.shadow) = if n = t.live c.g.wg ∧ (x.swap || swap) = true then (c.w.shadow, c.w.live)
            else (c.w.live, c.w.shadow))

/-- R185: `gate.add` adds the signed operand to a gate and clamps it to 0 and 2^32 − 1; `gate.wait` goes on once
the gate has reached its operand. Gates below 256 ask for privileged mode, else PRIV.
R194, R198, R201, R202: `lum.purse` gives the core's purse and whether it starves, `perf.read` a counter
(those of a core's cycles have no value that is stated), `wdog.kick` restarts the watchdog. The gates and die counters
of a steward core are C-die 0's (assumption log 27). -/
def Obligations.GateAndCounterForms : Prop :=
  ((∀ (f : ABX) (s : State) (c : Ctx),
    s.Ready (.gateAdd f) { group := true, a := .w f.a, b := .w f.b, x := f.x, outside := true } c →
    let g := (c.src c.leader (.w f.a)).toNat % 4096
    let d := tabDie c.g.loc
    256 ≤ g ∨ c.privileged = true → s.laneBusy c 5 false = false →
    ∃ t, exec (.gateAdd f) s = .next t ∧ s.GoesOn t c (c.p.pc + wrap64 (4 * (Instr.gateAdd f).words))
      ∧ ((t.gate d g).toNat : Int)
          = max 0 (min (2 ^ 32 - 1) ((s.gate d g).toNat + (c.src c.leader (.w f.b)).toInt))
      ∧ (∀ e k, ¬ (e = d ∧ k = g) → t.gate e k = s.gate e k) ∧ s.SameFiles t c.gid)
  ∧ (∀ (f : ABX) (s : State) (c : Ctx),
    s.Ready (.gateWait f) { group := true, a := .w f.a, b := .w f.b, x := f.x } c →
    let g := (c.src c.leader (.w f.a)).toNat % 4096
    let v := s.gate (tabDie c.g.loc) g
    256 ≤ g ∨ c.privileged = true →
    ∃ t, exec (.gateWait f) s = .next t
      ∧ ((c.src c.leader (.w f.b)).toNat ≤ v.toNat →
          s.GoesOn t c (c.p.pc + wrap64 (4 * (Instr.gateWait f).words)) ∧ s.RegFrame t c.gid c.Member [] [] [] 0)
      ∧ (v.toNat < (c.src c.leader (.w f.b)).toNat → t.group? c.gid = s.group? c.gid ∧ s.Still t c.gid))
  ∧ ∀ (i : Instr) (f : ABX) (s : State) (c : Ctx),
    (i = .gateAdd f ∧ s.Ready i { group := true, a := .w f.a, b := .w f.b, x := f.x, outside := true } c
      ∨ i = .gateWait f ∧ s.Ready i { group := true, a := .w f.a, b := .w f.b, x := f.x } c) →
    (c.src c.leader (.w f.a)).toNat % 4096 < 256 → c.privileged = false →
    s.DieQueue (coreDie c.g.loc) (some c.w.region) (some c.w.region) →
    ∃ t, exec i s = .next t ∧ s.Recorded t (coreDie c.g.loc) 3 c.p.pc c.p.mask ∧ s.SameFiles t c.gid)
  ∧ ((∀ (d : Name) (s : State) (c : Ctx), s.Ready (.lumPurse d) { group := true, dst := .w d } c →
    ∃ t v, exec (.lumPurse d) s = .next t ∧ s.RegFrame t c.gid c.Member (Fld.w d).names [] [] 0
      ∧ (v : Word).toNat % 2 ^ 14 = (s.core c.g.loc).purse % 2 ^ 14 ∧ v.toNat / 2 ^ 14 % 2 ^ 17 = 0
      ∧ (v.getLsbD 31 = true ↔ s.starving c.g.loc ≠ [])
      ∧ ∀ e ∈ c.threads, t.Holds c.gid e.1 (.w d) (v.zeroExtend 128))
  ∧ (∀ (f : NumF) (s : State) (c : Ctx),
    s.Ready (.perfRead f) { group := true, dst := .pair f.d, illOn := fun _ _ => perfScope f.num.toNat == .none,
                            priv := perfScope f.num.toNat == .die } c →
    ∃ t v, exec (.perfRead f) s = .next t ∧ perfLaw s c f.num.toNat v
      ∧ (∀ e ∈ c.threads, t.Holds c.gid e.1 (.pair f.d) (v.zeroExtend 128))
      ∧ s.RegFrame t c.gid c.Member (Fld.pair f.d).names [] [] 0)
  ∧ encode .wdogKick = [0xC5E3C780]
  ∧ ∀ (s : State) (c : Ctx), s.Ready .wdogKick { cls := 0, group := true } c →
    ∃ t, exec .wdogKick s = .next t ∧ s.GoesOn t c (c.p.pc + 4) ∧ s.SameFiles t c.gid
      ∧ (c.g.steward = false → ∀ w, s.wg? c.g.wg = some w → ∃ x, t.wg? c.g.wg = some x
          ∧ x = { w with wdogAcc := 0, wdogHeld := 0, wdogSlow := 0, wdogFired := false })
      ∧ (c.g.steward = true → Tab.find? (t.xdie (coreDie c.g.loc)).wdog (c.g.loc % 4) = some 0))

/-- R82, R183, R205, R217, R220, R223, R228, R324, R330: a form that makes one access for its path goes in flight
with the leader's address; the path of every one but `join` is not ready until the operation ends. A steward
core's `seq.load` only goes on. -/
def Obligations.GroupAccessGoesInFlight : Prop :=
  (∀ (i : Instr) (f : Form) (s : State) (c : Ctx), oneForm i = some f → s.Ready i f c → oneReady i c →
    c.threads ≠ [] →
    ∃ t o, exec i s = .next t ∧ s.Launches t c o ∧ s.SameFiles t c.gid ∧ o.stage = .issued
      ∧ o.logix = s.freeLog c.g.loc ∧ o.members.map (·.rank) = c.threads.map (·.1)
      ∧ (∃ m ∈ o.members, m.rank = c.leader.1 ∧ m.tid = c.leader.2.tid ∧ m.done = false ∧ m.frags = []
          ∧ m.addr = oneAddr i c ∧ (m.a, m.b) = oneArgs i c)
      ∧ (∀ m ∈ o.members, m.rank ≠ c.leader.1 → m.done = true)
      ∧ (∀ e ∈ c.threads, t.stands c.gid e.1 (c.p.pc + wrap64 (4 * i.words)))
      ∧ ((∀ a, i ≠ .join a) → ∃ v, (v = .op s.nextId ∨ v = .enq s.nextId)
          ∧ ∀ e ∈ c.threads, t.waitsAt c.gid e.1 (c.p.pc + wrap64 (4 * i.words)) v))
  ∧ ∀ (a : Name) (s : State) (c : Ctx),
    s.Ready (.seqLoad a) { group := true, a := .pair a, outside := true, log := true } c → c.g.steward = true →
    ∃ t, exec (.seqLoad a) s = .next t ∧ s.GoesOn t c (c.p.pc + 4) ∧ s.RegFrame t c.gid c.Member [] [] [] 0

/-- R220, R224, R225: `pat.inv` makes one pattern of the die invalid, `price.set` sets the pending price of classes 1
to 12 and leaves the others, `remap.set` sets table base and modulus of the workgroup; every other table, memory, core
and group stays as it is. A steward core's die is C-die 0 (assumption log 27). -/
def Obligations.TableWrites : Prop :=
  (∀ (a : Name) (s : State) (c : Ctx), s.Ready (.patInv a) { group := true, a := .w a, outside := true } c →
    s.tableBusy c = false →
    let d := tabDie c.g.loc
    ∃ t, exec (.patInv a) s = .next t ∧ s.GoesOn t c (c.p.pc + 4) ∧ s.SameFiles t c.gid
      ∧ (∀ e k, Tab.find? (t.die e).patterns k =
          if e = d ∧ k = (c.src c.leader (.w a)).toNat % 256 then none else Tab.find? (s.die e).patterns k)
      ∧ ({ s with dies := [] } : State).Still { t with dies := [] } c.gid
      ∧ ∀ e, { (t.die e).rest with patterns := [] } = { (s.die e).rest with patterns := [] })
  ∧ (∀ (f : AB) (s : State) (c : Ctx),
    s.Ready (.priceSet f) { group := true, a := .w f.a, b := .w f.b, outside := true, priv := true } c →
    let d := tabDie c.g.loc
    let n := (c.src c.leader (.w f.a)).toNat % 16
    ∃ t, exec (.priceSet f) s = .next t ∧ s.GoesOn t c (c.p.pc + 4) ∧ s.SameFiles t c.gid
      ∧ (∀ e k, Tab.find? (t.die e).pricePend k =
          if e = d ∧ k = n ∧ 1 ≤ n ∧ n ≤ 12 then some ((c.src c.leader (.w f.b)).toNat % 65536)
          else Tab.find? (s.die e).pricePend k)
      ∧ ({ s with dies := [] } : State).Still { t with dies := [] } c.gid
      ∧ ∀ e, { (t.die e).rest with pricePend := [] } = { (s.die e).rest with pricePend := [] })
  ∧ (∀ (f : AB) (s : State) (c : Ctx),
    s.Ready (.remapSet f) { group := true, a := .w f.a, b := .w f.b, outside := true } c → c.g.steward = true →
    ∃ t, exec (.remapSet f) s = .next t ∧ s.GoesOn t c (c.p.pc + 4) ∧ s.RegFrame t c.gid c.Member [] [] [] 0)
  ∧ ∀ (f : AB) (s : State) (c : Ctx) (w : Workgroup),
    s.Ready (.remapSet f) { group := true, a := .w f.a, b := .w f.b, outside := true } c →
    let a := (c.src c.leader (.w f.a)).toNat
    c.g.steward = false → s.wg? c.g.wg = some w → a = 0xFFFFFFFF ∨ a % 64 = 0 ∧ a + 16384 ≤ c.w.scrSize →
    ∃ t, exec (.remapSet f) s = .next t ∧ s.GoesOn t c (c.p.pc + 4) ∧ s.SameFiles t c.gid
      ∧ t.wg? c.g.wg = some { w with tbase := if a = 0xFFFFFFFF then none else some a, modb := c.src c.leader (.w f.b) }
      ∧ (∀ k, k ≠ c.g.wg → t.wg? k = s.wg? k) ∧ ({ s with wgs := [] } : State).Still { t with wgs := [] } c.gid

/-- R221: the tag forms on the cluster's table. `tlook` gives the first slot in table order that holds the
region's key; `tset` and `tclr` act on the slot of the number that they name: they give its old key and set or clear
it, unless another region's slot asks for privileged mode. A steward core has no tags: its slot is 0xFFFF_FFFF. -/
def Obligations.TagForms : Prop :=
  (∀ (f : N2) (s : State) (c : Ctx), s.Ready (.tlook f) { group := true, a := .w f.a, dst := .w f.d } c →
    c.g.steward = false →
    let tags := (s.cluster (locCluster c.g.loc)).tags
    let is := fun e : Nat × BitVec 16 × Word => e.2.1.toNat = c.w.region ∧ e.2.2 = c.src c.leader (.w f.a)
    ∃ t v, exec (.tlook f) s = .next t ∧ s.RegFrame t c.gid c.Member (Fld.w f.d).names [] [] 0
      ∧ (∀ e ∈ c.threads, t.Holds c.gid e.1 (.w f.d) (v.zeroExtend 128))
      ∧ ((∀ e ∈ tags, ¬ is e) ∧ v = (0xFFFFFFFF : Word)
        ∨ ∃ p e r, tags = p ++ e :: r ∧ is e ∧ (∀ x ∈ p, ¬ is x) ∧ v = wrap32 e.1))
  ∧ (∀ (i : Instr) (d : Name) (g : Form) (s : State) (c : Ctx),
    ((∃ f, i = .tlook f ∧ d = f.d ∧ g = { group := true, a := .w f.a, dst := .w f.d })
      ∨ (∃ f, i = .tset f ∧ d = f.d ∧ g = { group := true, a := .w f.a, b := .w f.b, dst := .w f.d, outside := true })
      ∨ ∃ f, i = .tclr f ∧ d = f.d ∧ g = { group := true, a := .w f.a, dst := .w f.d, outside := true }) →
    s.Ready i g c → c.g.steward = true → ((∀ f, i ≠ .tlook f) → s.tableBusy c = false) →
    ∃ t, exec i s = .next t ∧ s.RegFrame t c.gid c.Member (Fld.w d).names [] [] 0
      ∧ ∀ e ∈ c.threads, t.Holds c.gid e.1 (.w d) ((0xFFFFFFFF : Word).zeroExtend 128))
  ∧ ∀ (i : Instr) (d : Name) (slot : Nat) (key : Option Word) (g : Form) (s : State) (c : Ctx),
    ((∃ f, i = .tset f ∧ d = f.d ∧ slot = (c.src c.leader (.w f.b)).toNat % 2048
        ∧ key = (if c.src c.leader (.w f.a) = 0xFFFFFFFF then none else some (c.src c.leader (.w f.a)))
        ∧ g = { group := true, a := .w f.a, b := .w f.b, dst := .w f.d, outside := true })
      ∨ ∃ f, i = .tclr f ∧ d = f.d ∧ slot = (c.src c.leader (.w f.a)).toNat % 2048 ∧ key = none
        ∧ g = { group := true, a := .w f.a, dst := .w f.d, outside := true }) →
    s.Ready i g c → c.g.steward = false → s.tableBusy c = false → s.laneBusy c 4 false = false →
    let k := locCluster c.g.loc
    let old := Tab.find? (s.cluster k).tags slot
    (∀ e, old = some e → e.1.toNat = c.w.region ∨ c.privileged = true) →
    ∃ t, exec i s = .next t ∧ s.GoesOn t c (c.p.pc + 4)
      ∧ (∀ e ∈ c.threads, t.Holds c.gid e.1 (.w d) ((old.elim (0xFFFFFFFF : Word) Prod.snd).zeroExtend 128))
      ∧ (∀ e ∈ c.threads, ∀ m, m ∉ (Fld.w d).names → t.regAt c.gid e.1 m = s.regAt c.gid e.1 m)
      ∧ ∀ x n, Tab.find? (t.cluster x).tags n =
          if x = k ∧ n = slot then key.map (fun v => (BitVec.ofNat 16 c.w.region, v))
          else Tab.find? (s.cluster x).tags n

/-- R214: `tlb.inv` with no earlier store and no covered access under way removes the covered translations of every
die and no other; with KIND 1 and 2 no pointer entry of the SID, and none at all, is left on the issuing die.
R213: `retype` of a frame of the die that passes its checks: TRANS and NEWTYPE stand, unless TRANS stood already,
the operation is in flight and its path waits. STORE_PERFORMED then gives the frame its new type, TRANS and owner,
once the frame has drained; a `retype` that found TRANS set skips the drain. The frames of a steward core's `retype`
are C-die 0's (assumption log 27); the removal waits for covered accesses (assumption log 78). -/
def Obligations.InvalidationAndRetype : Prop :=
  (∀ (f : AB) (s : State) (c : Ctx),
    s.Ready (.tlbInv f) { group := true, a := .pair f.a, b := .w f.b, outside := true, priv := true } c →
    let b := (c.src c.leader (.w f.b)).toNat
    let a := (c.src64 c.leader (.pair f.a)).toNat
    b % 16 ≤ 4 → s.tableBusy c = false → s.storesBusy c (if b % 16 = 4 then 6 else 5) = false →
    s.invBusy (invCovers (coreDie c.g.loc) (b % 16) a (b / 2 ^ 16 % 4096)) = false →
    ∃ t, exec (.tlbInv f) s = .next t ∧ s.GoesOn t c (c.p.pc + 4) ∧ s.SameFiles t c.gid
      ∧ (∀ x, ∀ e : Trans, e ∈ (t.die x).tlb ↔
          e ∈ (s.die x).tlb ∧ ¬ invLaw (coreDie c.g.loc) (b % 16) a (b / 2 ^ 16 % 4096) x e)
      ∧ ∀ w ∈ (t.die (coreDie c.g.loc)).walkPtrs, b % 16 ≠ 2 ∧ (b % 16 = 1 → w.sid ≠ b / 2 ^ 16 % 4096))
  ∧ (∀ (f : AB) (s : State) (c : Ctx),
    s.Ready (.retype f) { group := true, a := .pair f.a, b := .w f.b, outside := true, priv := true } c →
    let a := (c.src64 c.leader (.pair f.a)).toNat
    let b := (c.src c.leader (.w f.b)).toNat
    let old := s.frame a
    a % 131072 = 0 → hbmDie a = some (tabDie c.g.loc) → old.res = false → old.dev = false → old.strand = false →
    s.tableBusy c = false → s.laneBusy c 5 false = false →
    (∀ e ∈ c.threads, s.pathPending e.2.tid true = false) → c.threads ≠ [] →
    ∃ t, exec (.retype f) s = .next t ∧ s.SameFiles t c.gid ∧ s.SameMemory t
      ∧ t.frame a = (if old.trans then old else { old with newType := BitVec.ofNat 2 b, trans := true })
      ∧ (∀ e ∈ c.threads, t.waitsAt c.gid e.1 (c.p.pc + 4) (.op s.nextId))
      ∧ ∃ o m, t.op? s.nextId = some o ∧ o.instr = .retype f ∧ m ∈ o.members ∧ m.rank = c.leader.1
        ∧ m.done = false ∧ m.addr.toNat = a ∧ m.b.toNat = b ∧ (m.a = 0 ↔ old.trans = false))
  ∧ ∀ (s : State) (id rank k : Nat) (o : Op) (m : Member) (f : AB), s.event = some (.storePerformed id rank k) →
    s.op? id = some o → o.member? rank = some m → o.instr = .retype f → o.stage = .confirmed → o.aside = false →
    m.done = false → m.frags = [] →
    let a := m.addr.toNat
    let b := m.b.toNat
    a % 131072 = 0 → hbmDie a ≠ none → (m.a = 0 → s.frameBusy (a / 131072) = false ∧ (s.frame a).hold = 0) →
    ∃ t, exec .storePerformed s = .next t
      ∧ t.frame a = { s.frame a with typ := BitVec.ofNat 2 b, trans := decide (b / 2 ^ 16 % 2 = 1),
                                     owner := if b % 4 = 3 then BitVec.ofNat 7 (b / 4) else 0 }
      ∧ (b / 2 ^ 16 % 2 = 1 → t.memberDone id rank) ∧ ∀ q r x, t.regAt q r x = s.regAt q r x

/-! ### Commands of units -/

/-- R186, R319, R335, R337, R340, R301 to R306, R310: an enqueue form whose operands pass its checks and whose queue and
region's count have room puts one command at the end of the queue, with the leader's operands, and its path goes on.
A feed and a direct engine command claim the engine. -/
def Obligations.CommandEnqueued : Prop :=
  (∀ (f : QF) (s : State) (c : Ctx),
    s.Ready (.ldlCopy f) { cls := 5, group := true, a := .quad f.a, b := .quad f.b, outside := true, noSteward := true,
                           sb := f.sb.toNat } c →
    copyFault c.w (c.lead.quad f.a) (c.lead.quad f.b) = none →
    let l := ((c.lead.quad f.b).getD 1 0).toNat % 4
    let k := locCluster c.g.loc
    s.ladleRoom k l c.w.region = true →
    ∃ t x, exec (.ldlCopy f) s = .next t ∧ s.Enqueues t c ∧ t.ladle k l = s.ladle k l ++ [x]
      ∧ x.id = s.nextId ∧ x.feed = false ∧ x.started = false ∧ x.done = 0 ∧ x.a = c.lead.quad f.a
      ∧ x.b = c.lead.quad f.b ∧ x.gid = c.gid ∧ x.tids = c.threads.map (fun e => e.2.tid))
  ∧ (∀ (f : FeedF) (s : State) (c : Ctx),
    s.Ready (.ldlFeed f) { cls := 5, group := true, a := .pair f.a, b := .pair f.b, outside := true, noSteward := true,
                           sb := f.sb.toNat } c →
    let a := c.src64 c.leader (.pair f.a)
    let b := c.src64 c.leader (.pair f.b)
    let k := locCluster c.g.loc
    let l := c.g.loc % 4
    1 ≤ b.toNat / 2 ^ 32 → b.toNat / 2 ^ 32 ≤ 4096 → a.toNat / 2 ^ 16 % 4 ≠ 3 →
    s.engineFree c.g.loc c.g.wg = true → s.ladleRoom k l c.w.region = true →
    ∃ t x, exec (.ldlFeed f) s = .next t ∧ s.Enqueues t c ∧ t.ladle k l = s.ladle k l ++ [x]
      ∧ x.id = s.nextId ∧ x.feed = true ∧ x.started = false ∧ x.done = 0 ∧ x.fifo = f.fifo
      ∧ x.entry = s.pattern (locDie c.g.loc) f.pat.toNat ∧ x.a = [lo a 0 32, lo a 32 32] ∧ x.b = [lo b 0 32, lo b 32 32]
      ∧ x.core = c.g.loc ∧ x.gid = c.gid ∧ (t.core c.g.loc).engine.owner = .wg c.g.wg)
  ∧ (∀ (f : RunF) (s : State) (c : Ctx),
    s.Ready (.runCopy f) { cls := 5, group := true, a := .quad f.a, b := .pair f.b, outside := true, sb := f.sb.toNat } c →
    let b := c.src64 c.leader (.pair f.b)
    let q := runQueue c.g.loc (lo b 32 32).toNat
    runFault c.privileged q.1 (c.lead.quad f.a) [lo b 0 32, lo b 32 32] = none → (s.runQ q.1 q.2).length < 128 →
    countRoom s.dieItems (coreDie c.g.loc) c.w.region = true →
    ∃ t x, exec (.runCopy f) s = .next t ∧ s.Enqueues t c ∧ t.runQ q.1 q.2 = s.runQ q.1 q.2 ++ [x]
      ∧ x.id = s.nextId ∧ x.started = false ∧ x.len = (lo b 0 32).toNat ∧ x.ctl = lo b 32 32
      ∧ x.src.toNat = ((c.env c.leader).val (.quad f.a)).toNat % 2 ^ 64
      ∧ x.dst.toNat = ((c.env c.leader).val (.quad f.a)).toNat / 2 ^ 64 ∧ x.scope = f.scope.toNat ∧ x.gid = c.gid)
  ∧ ∀ (i : Instr) (f : Form) (s : State) (c : Ctx), mxForm i = some f → s.Ready i f c →
    (∀ k : EngCmd, k.From s c → k.patOk = true) → (∀ a, i = .mxGang a → gangIll (c.src c.leader (.w a)) = false) →
    s.engineFree c.g.loc c.g.wg = true → (s.core c.g.loc).engine.queue.length < 16 →
    ∃ t x, exec i s = .next t ∧ s.Enqueues t c ∧ x.From s c ∧ x.id = s.nextId
      ∧ (t.core c.g.loc).engine.owner = .wg c.g.wg
      ∧ (t.core c.g.loc).engine.queue =
          (if (s.core c.g.loc).engine.owner = .free then [] else (s.core c.g.loc).engine.queue) ++ [x]

/-- R30, R326, R327: `spawn` with valid targets and room puts one item of each member into spawn memory, in ascending
rank, at the address of the member's pair A with its B and D; `cast.flush` tells every forming list to form: a list
that can form becomes a group, and every one that cannot is flagged. -/
def Obligations.SpawnAndFlush : Prop :=
  (∀ (f : N3) (s : State) (c : Ctx),
    s.Ready (.spawn f) { a := .pair f.a, b := .w f.b, d := .w f.d, x := f.x, group := true, perMember := true,
                         noSteward := true, outside := true } c →
    s.wg? c.g.wg = some c.w →
    (∀ e ∈ c.threads, let v := c.src64 e (.pair f.a)
      v ≠ 0 ∧ v.toNat % 4 = 0 ∧ v.toNat < 2 ^ 56) →
    itemBytes c.w.nb c.w.items + 16 * c.threads.length ≤ (c.w.spw + 1) * 4096 →
    ∃ t x, exec (.spawn f) s = .next t ∧ t.wg? c.g.wg = some x
      ∧ x.items.map Prod.snd = c.w.items.map Prod.snd
          ++ c.threads.map (fun e => Item.spawn (c.src64 e (.pair f.a)) (c.src e (.w f.b)) (c.src e (.w f.d)))
      ∧ x.overflow = c.w.overflow ∧ s.SameFiles t c.gid ∧ s.SameMemory t
      ∧ ∀ e ∈ c.threads, t.stands c.gid e.1 (c.p.pc + wrap64 (4 * (Instr.spawn f).words)))
  ∧ ∀ (s : State) (c : Ctx), s.Ready .castFlush { group := true, noSteward := true } c → s.wg? c.g.wg = some c.w →
    let fits := s.stageWords c.w.loc (stageOf (s.nextSlot c.w.loc)) + 8 * c.w.nb ≤ 2048
    ∃ t, exec .castFlush s = .next t
      ∧ ((∀ pc, s.canForm c.g.wg c.w pc = false) → s.SameFiles t c.gid ∧ s.SameMemory t
          ∧ (∀ e ∈ c.threads, t.stands c.gid e.1 (c.p.pc + 4))
          ∧ ∃ x, t.wg? c.g.wg = some x ∧ x.items = c.w.items ∧ x.overflow = c.w.overflow
            ∧ ∀ pc, pc ∈ x.flush ↔ pc ∈ c.w.flush ∨ pc ∈ c.w.lists)
      ∧ ∀ pc, c.w.lists = [pc] → s.canForm c.g.wg c.w pc = true → s.group? s.nextId = none →
          (fits ∨ s.spillBad c.w.loc (s.nextSlot c.w.loc) = false) →
          s.Forms t c.g.wg c.w pc ∧ (fits → s.SameMemory t)

/-- R294, R309: `mx.sync` of a workgroup that owns the engine, once the commands issued before it have retired: D holds the status of
the three blocks and OWN, SAT, OSAT and FAULT are cleared, and with bit 0 of A the engine is released; commands issued
since stay and claim it again (assumption log 129). A workgroup that does not own it reads 0. -/
def Obligations.EngineSync : Prop :=
  ∀ (f : N2) (s : State) (c : Ctx),
    s.Ready (.mxSync f) { group := true, noSteward := true, a := .w f.a, dst := .w f.d } c →
    let e := (s.core c.g.loc).engine
    (e.owner ≠ .wg c.g.wg →
      ∃ t, exec (.mxSync f) s = .next t ∧ s.RegFrame t c.gid c.Member (Fld.w f.d).names [] [] 0
        ∧ ∀ r ∈ c.threads, t.Holds c.gid r.1 (.w f.d) 0)
    ∧ (e.owner = .wg c.g.wg → (∀ k ∈ e.queue, c.p.syncAt.getD s.nextId ≤ k.id) →
      ∃ t v, exec (.mxSync f) s = .next t ∧ s.GoesOn t c (c.p.pc + 4)
        ∧ (∀ r ∈ c.threads, t.Holds c.gid r.1 (.w f.d) ((v : Word).zeroExtend 128))
        ∧ v.getLsbD 30 = true ∧ v.getLsbD 31 = false ∧ (∀ k, 24 ≤ k → k < 30 → v.getLsbD k = false)
        ∧ (∀ b < 3, let x : BlockStatus := Tab.getD e.blocks b {}
            v.getLsbD (8 * b) = decide (x.mode = 0)
              ∧ (x.mode ≠ 0 → v.getLsbD (8 * b + 1) = decide (x.mode = 2))
              ∧ ∀ k, 2 ≤ k → k < 6 → v.getLsbD (8 * b + k) = x.bits.getLsbD k)
        ∧ (let g := (t.core c.g.loc).engine
           if (c.src c.leader (.w f.a)).getLsbD 0 = true then
             g.acc = [] ∧ g.blocks = [] ∧ g.fifoA = [] ∧ g.fifoB = [] ∧ g.gang = 0
               ∧ (if e.queue = [] then g.owner = .free else g.owner = e.owner ∧ g.queue = e.queue)
           else g.owner = e.owner ∧ g.acc = e.acc
             ∧ ∀ b k, k = 2 ∨ k = 3 ∨ k = 5 → (Tab.getD g.blocks b {}).bits.getLsbD k = false))

/-! ### Operations in flight -/

/-- R256: an atomic performed at HBM of its die: memory holds the operation's result, the destination the old
value; nothing else changes.
R255: `scatter.add` performs one update for an element: the sum of all members that address it.
R257: an ordered add enters the queue of its slice, with its key; memory does not change yet. -/
def Obligations.AtomicUpdatesMemory : Prop :=
  (∀ (s : State) (id rank d : Nat) (o : Op) (m : Member) (f : Frag) (a : AtomF) (g : Group) (th : Thread),
    s.event = some (.loadDataReturn id rank 0) → s.Due id rank 0 o m f → s.Member o m rank g th →
    o.instr = .atom a → (Instr.atom a).wellFormed = true → o.dests = (Fld.ofSz a.sz a.d).names →
    m.far = false → o.suspect = none → o.farError = false → m.frags = [f] → f.Plain o d → f.size = szBytes a.sz →
    (s.frame f.pa).hold = 0 → s.relHeld o m f = false → s.acqWaits o f = false →
    let w := 8 * szBytes a.sz
    let old := s.readPaLe f.pa f.size
    ∃ t, exec .loadDataReturn s = .next t
      ∧ t.readPaLe f.pa f.size = atomRule a.aop.toNat w old (m.b.toNat % 2 ^ w) (m.a.toNat % 2 ^ w)
      ∧ t.Holds o.gid rank (Fld.ofSz a.sz a.d) (BitVec.ofNat 128 old) ∧ t.memberDone id rank
      ∧ (∀ x, (∀ j < f.size, x ≠ f.pa + j) → t.readPa x = s.readPa x)
      ∧ ∀ q r x, ¬ (q = o.gid ∧ r = rank ∧ x ∈ o.dests) → t.regAt q r x = s.regAt q r x)
  ∧ (∀ (s : State) (id rank d : Nat) (o : Op) (m : Member) (f : Frag) (x : GatF),
    s.event = some (.storePerformed id rank 0) → s.Due id rank 0 o m f → o.instr = .scatterAdd x → m.frags = [f] →
    m.far = false → f.Plain o d → f.size = szBytes x.sz → (x.sz = 2 ∨ x.sz = 3) → (s.frame f.pa).hold = 0 →
    s.acqWaits o f = false →
    let on := fun k : Member => k.done = false ∧ ∃ g, k.frags = [g] ∧ g.pa = f.pa
    (∀ k ∈ o.members, k.done = false → ∀ g, k.frags.head? = some g → g.pa = f.pa → k.frags = [g]
      ∧ ({ s with event := none, ops := Tab.del s.ops id } : State).blocked id o k g = false) →
    (o.members.map (·.rank)).Nodup →
    ∃ (t : State) (ks : List Member), exec .storePerformed s = .next t
      ∧ (∀ k, k ∈ ks ↔ k ∈ o.members ∧ on k) ∧ ks.Nodup
      ∧ t.readPaLe f.pa f.size = (s.readPaLe f.pa f.size + (ks.map fun k => k.d.toNat).sum) % 2 ^ (8 * f.size)
      ∧ (∀ a, (∀ j < f.size, a ≠ f.pa + j) → t.readPa a = s.readPa a)
      ∧ (∀ k ∈ ks, t.memberDone id k.rank) ∧ ∀ q r n, t.regAt q r n = s.regAt q r n)
  ∧ ∀ (s : State) (id rank d : Nat) (o : Op) (m : Member) (f : Frag) (x : OrdF),
    s.event = some (.storePerformed id rank 0) → s.Due id rank 0 o m f → o.instr = .atomFaddOrd x → m.frags = [f] →
    hbmDie f.pa = some d → coreDie o.loc = d → s.ordCount d (homeSlice f.pa) < 1064960 →
    ∃ t, exec .storePerformed s = .next t ∧ t.memberDone id rank ∧ s.SameMemory t
      ∧ (t.die d).ordq = (s.die d).ordq ++
          [{ region := o.region, pa := f.pa, windex := (s.opWg o).index.toNat, rank := m.rank, count := m.d.toNat,
             value := lo m.b 0 32, die := d }]
      ∧ ∀ q r n, t.regAt q r n = s.regAt q r n

/-- R41, R43, R85, R209, R246: INSTRUCTION_CONFIRM of an operation that no earlier restored one holds back. Checks that
find nothing confirm the operation with its accesses; the fault that ranks first leaves it logged and a record names
it, or, inside an open latch chain, ends it and stops its path at the chain's first instruction. -/
def Obligations.ConfirmOrFault : Prop :=
  ∀ (s : State) (id : Nat) (o : Op) (ms : List Member) (c : Checked), s.event = some (.instructionConfirm id) →
    s.op? id = some o → o.stage = .issued → o.aside = false → ({ s with event := none } : State).checkOp o = (ms, c) →
    c.stall = false → o.faults = true → s.replayLater id o = false →
    (worst c.hits = none → o.wsStore = false → (located o ms).all (·.done) = false →
      ∃ t p, exec .instructionConfirm s = .next t ∧ t.op? id = some p ∧ p.stage = .confirmed
        ∧ p.members = located o ms ∧ p.instr = o.instr ∧ p.gid = o.gid ∧ p.dests = o.dests
        ∧ (∀ k q n, t.regAt k q n = s.regAt k q n) ∧ ∀ k, k ≠ id → t.op? k = s.op? k)
    ∧ ∀ code mask va pa, worst c.hits = some (code, mask, va, pa) → o.loc < 1024 →
      (∀ a, o.instr ≠ .join a) → o.readsBlock = false →
      (c.s.logHits o.loc c.hits).DieQueue (coreDie o.loc) (o.trap (s.opWg o) code 0 0 0 0).queue (some o.region) →
      ∃ t, exec .instructionConfirm s = .next t
        ∧ (c.s.logHits o.loc c.hits).Recorded t (coreDie o.loc) code.num o.pc mask
        ∧ (∀ k q n, t.regAt k q n = s.regAt k q n)
        ∧ ((∀ g, s.group? o.gid = some g → g.chainOf o = none) →
            (∃ p, t.op? id = some p ∧ p.stage = .faulted) ∧ ∃ x ∈ t.pending, x.party = .op id)
        ∧ ∀ g i p k, s.group? o.gid = some g → g.chainOf o = some i → g.paths[i]? = some p → p.chain = some k →
            t.opEnded id ∧ (∃ x ∈ t.pending, x.party = .path o.gid)
              ∧ ∃ h q n, t.group? o.gid = some h ∧ q ∈ h.paths ∧ q.mask = p.mask ∧ q.pc = k.start
                ∧ q.wait = .trap n ∧ q.chain = none

/-- R35, R40, R154: FAR_RESULT of a member that nothing holds back. An integer form writes its result of the sources
as its unit reads them; a `redecl` moves the value to its place, unit and anchor. -/
def Obligations.FarResultReturns : Prop :=
  ∀ (s : State) (id rank : Nat) (o : Op) (m : Member) (g : Group) (th : Thread),
    s.event = some (.farResult id rank) → s.op? id = some o → s.Member o m rank g th → o.stage = .confirmed →
    o.aside = false → m.done = false → (∀ f ∈ m.frags, f.done = true) → s.farBlocked id o m = false →
    o.suspect = none → o.farError = false →
    (∀ f, intForm o.instr = some f → f.dst.names = o.dests →
      ∃ t v, exec .farResult s = .next t
        ∧ intLaw o.instr (lo (s.memberA o m f) 0 32) (lo (s.memberB o m f) 0 32) (lo (s.memberD o m f) 0 32) v
        ∧ t.Holds o.gid rank f.dst (v.zeroExtend 128) ∧ t.memberDone id rank ∧ s.SameMemory t
        ∧ ∀ q r x, ¬ (q = o.gid ∧ r = rank ∧ x ∈ o.dests) → t.regAt q r x = s.regAt q r x)
    ∧ ∀ f, o.instr = .redecl f → o.dests = [f.d.toNat] → f.f ≠ 1 → (f.f ≠ 0 → m.frags ≠ []) →
      (s.opWg o).clusterMap.getLsbD f.d.toNat = false →
      ∃ t h y, exec .farResult s = .next t ∧ t.group? o.gid = some h ∧ Tab.find? h.threads rank = some y
        ∧ t.memberDone id rank ∧ (∀ q r x, t.regAt q r x = s.regAt q r x)
        ∧ match Tab.find? y.far f.d.toNat with
          | none => f.f = 0
          | some e => ∃ x, m.frags.head? = some x ∧ e.anchor.toNat = m.addr.toNat % 2 ^ 56
              ∧ (f.f = 2 → e.place = .slice ∧ e.unit = homeSlice x.pa)
              ∧ (f.f = 3 → e.place = .memory ∧ e.unit = memUnit x.pa) ∧ f.f ≠ 0

/-- R45, R117, R196, R313, R346: a result whose check has failed once is computed again and counted, and nothing else
comes of it. A second failure raises RECAST, whose DETAIL names the check: precise at LANE, deferred for a logged
operation, a data fault for a K-group of the engine. An instruction that may read an entry of backing store meets the
error response first. Which result a failed check or a droop's window concerns is the model's choice (assumption logs 7
and 68), and so is that the engine goes on after RECAST (assumption log 68). -/
def Obligations.SuspectResults : Prop :=
  (∀ (i : Instr) (f : Form) (s : State) (c : Ctx), IssuesWith i f →
    (s.modCore c.g.loc fun k => { k with laneFails := [], droops := [], farError := false }).Ready i f c →
    c.laneResult = true → (s.core c.g.loc).farError = false →
    (∀ k, (s.core c.g.loc).laneFails = [k] ∧ (s.core c.g.loc).droops = []
        ∨ (s.core c.g.loc).laneFails = [] ∧ (s.core c.g.loc).droops = [1] ∧ k = 1 →
      exec i s = exec i (s.modCore c.g.loc fun x =>
        { x with laneFails := [], droops := [], perf := bump x.perf 0x107 1 }))
    ∧ ∀ j k r, s.laneFailsNow c.g.loc = j :: k :: r → c.g.steward = false →
      s.DieQueue (coreDie c.g.loc) c.queue (some c.w.region) →
      ∃ t, exec i s = .next t ∧ s.Recorded t (coreDie c.g.loc) 21 c.p.pc c.p.mask
        ∧ (let b := (s.die (coreDie c.g.loc)).dfqBase.toNat
           t.readPaLe (b + 64 + 64 * (s.readPaLe b 4 % 4096) + 48) 8 = k % 2 ^ 64)
        ∧ (∀ r, c.p.mask.getLsbD r = true →
            t.waitsAt c.gid r (c.p.chain.elim c.p.pc (·.start)) (.trap s.nextId))
        ∧ ∀ q r n, t.regAt q r n = s.regAt q r n ∧ t.predAt q r n = s.predAt q r n)
  ∧ (∀ (i : Instr) (f : Form) (s : State) (c : Ctx), IssuesWith i f →
    (s.modCore c.g.loc fun k => { k with laneFails := [], droops := [], farError := false }).Ready i f c →
    (s.core c.g.loc).farError = true → c.needsLog = false → s.readsBacked c = true → c.g.steward = false →
    s.DieQueue (coreDie c.g.loc) c.queue (some c.w.region) →
    ∃ t, exec i s = .next t ∧ s.Recorded t (coreDie c.g.loc) 13 c.p.pc c.p.mask
      ∧ ∀ q r n, t.regAt q r n = s.regAt q r n ∧ t.predAt q r n = s.predAt q r n)
  ∧ (∀ (s : State) (id rank k : Nat) (o : Op) (m : Member),
    s.event = some (.farResult id rank) → s.op? id = some o → o.member? rank = some m → o.stage = .confirmed →
    o.aside = false → m.done = false → (∀ f ∈ m.frags, f.done = true) → s.farBlocked id o m = false →
    o.farError = false → o.suspect = some k →
    (o.recasts = 0 → ∃ t, exec .farResult s = .next t ∧ t.op? id = some { o with suspect := none, recasts := 1 }
      ∧ Tab.getD (t.core o.loc).perf 0x107 0 = Tab.getD (s.core o.loc).perf 0x107 0 + 1
      ∧ s.Outside t { ops := [id], cores := [o.loc] })
    ∧ (o.recasts ≠ 0 → o.loc < 1024 → (∀ a, o.instr ≠ .join a) → o.readsBlock = false →
      (∀ g, s.group? o.gid = some g → g.chainOf o = none) →
      s.DieQueue (coreDie o.loc) (o.trap (s.opWg o) .recast 0 0 0 0).queue (some o.region) →
      ∃ t p, exec .farResult s = .next t ∧ s.Recorded t (coreDie o.loc) 21 o.pc o.undone
        ∧ t.op? id = some p ∧ p.stage = .faulted ∧ (∃ x ∈ t.pending, x.party = .op id)
        ∧ ∀ q r n, t.regAt q r n = s.regAt q r n))
  ∧ ∀ (loc j k : Nat) (s : State) (c : EngCmd) (f : MxMmaF) (sp : Bool) (a b : FifoEntry) (ra rb : List FifoEntry),
    s.event = some (.engineKgroupStep loc) → s.Heads loc c → c.product? = some (f, sp) → c.done < kCount f.k →
    c.patOk = true → c.skip = false → f.cb.toNat < 3 → c.task = none →
    (s.core loc).engine.fifoA = a :: ra → (s.core loc).engine.fifoB = b :: rb →
    a.tagged f.pa c.pa = true → b.tagged f.pb c.pb = true → a.lines ≠ [] → b.lines ≠ [] →
    ((s.core loc).engine.block f.cb.toNat).clash c.pcEnt = false → a.tooMany = false → a.badScale = false →
    b.badScale = false → c.paid + 1 = c.passes →
    (s.die (locDie loc)).price (stepPrice c.pa) ≤ 8192 →
    s.licensed loc 0 c.region ((s.die (locDie loc)).price (stepPrice c.pa)) = true →
    (s.core loc).engine.stepFails = [j, k] → s.DieQueue (locDie loc) (some c.region) (some c.region) →
    let e := (s.core loc).engine
    ∃ t, exec .engineKgroupStep s = .next t ∧ s.Recorded t (locDie loc) 21 c.pc 0
      ∧ (let q := (s.die (locDie loc)).dfqBase.toNat
         t.readPaLe (q + 64 + 64 * (s.readPaLe q 4 % 4096) + 48) 8 = k % 2 ^ 64)
      ∧ (t.core loc).engine.fifoA = ra ∧ (t.core loc).engine.fifoB = rb ∧ (t.core loc).engine.acc = e.acc
      ∧ ((t.core loc).engine.block f.cb.toNat).bits = (e.block f.cb.toNat).bits ||| 32

/-- R183, R234, R246, R259, R260: a wait whose comparison holds for all members ends and delivers their values; an
exchange store lands in the shadow bank of its window; an error response discards a store's bytes, logs and
reports; a `join` decrements its block and at zero pushes the continuation. -/
def Obligations.AccessEvents : Prop :=
  (∀ (s s1 : State) (id : Nat) (o : Op) (vs : List (Member × List Byte)), s.event = some (.waitaSatisfied id) →
    s.op? id = some o → o.stage = .confirmed → o.aside = false → o.invs = 0 → o.suspect = none → o.farError = false →
    ({ s with event := none } : State).readAll id o (o.members.filter fun m => !m.done) = some (vs, s1) →
    ((∃ f, o.instr = .waitaEq f ∧ ∀ v ∈ vs, leNat v.2 = v.1.b.toNat)
      ∨ ∃ f, o.instr = .waitaNe f ∧ ∀ v ∈ vs, leNat v.2 ≠ v.1.b.toNat) →
    (vs.map fun v => v.1.rank).Nodup →
    ∃ t, exec .waitaSatisfied s = .next t ∧ t.opEnded id
      ∧ (∀ g, t.group? o.gid = some g → ∀ p ∈ g.paths, p.wait ≠ .op id)
      ∧ ∀ v ∈ vs, ∀ g th, s.Member o v.1 v.1.rank g th → o.dests = (Fld.ofSz (sizeCode o.instr) (destName o.instr)).names →
          t.Holds o.gid v.1.rank (Fld.ofSz (sizeCode o.instr) (destName o.instr))
            (loadValue (sizeCode o.instr) v.2))
  ∧ (∀ (s : State) (id rank bank pos : Nat) (o : Op) (m : Member) (f : Frag) (x : MemF),
    s.event = some (.xstAccepted id rank) → s.Due id rank 0 o m f → o.instr = .xst x → s.xstBefore id o m = false →
    s.windowAt (xstCluster o m) f.pa f.size = some (bank, pos) → m.frags = [f] → f.off + f.size ≤ 16 →
    ∃ t, exec .xstAccepted s = .next t ∧ t.memberDone id rank
      ∧ (∀ j < f.size, Memory.read (t.cluster (xstCluster o m)).spad (bank + pos + j)
          = BitVec.ofNat 8 ((m.dhi ++ m.d).toNat / 256 ^ (f.off + j)))
      ∧ (∀ c a, ¬ (c = xstCluster o m ∧ bank + pos ≤ a ∧ a < bank + pos + f.size) →
          Memory.read (t.cluster c).spad a = Memory.read (s.cluster c).spad a)
      ∧ ∀ q r n, t.regAt q r n = s.regAt q r n)
  ∧ (∀ (s : State) (id rank k : Nat) (o : Op) (m : Member) (f : Frag), s.event = some (.storeErrorResponse id rank k) →
    s.Due id rank k o m f → f.sent = false → o.plainStore = true → o.loc < 1024 →
    (let d := coreDie o.loc
     let s1 := s.logViolation d f.pa 7 0 o.loc
     s1.DieQueue d (o.trap (s.opWg o) .viol 0 0 0 0).queue (some o.region) →
     ∃ t, exec .storeErrorResponse s = .next t ∧ s1.Recorded t d 13 o.pc 0
       ∧ (∀ q r n, t.regAt q r n = s.regAt q r n)
       ∧ (t.op? id = none ∨ ∃ p x y, t.op? id = some p ∧ p.member? rank = some x ∧ x.frags[k]? = some y
          ∧ y.done = true)))
  ∧ ∀ (s : State) (id rank k d : Nat) (o : Op) (m : Member) (f : Frag) (a : Name),
    s.event = some (.storePerformed id rank k) → s.Due id rank k o m f → o.instr = .join a → f.Plain o d → f.size = 64 →
    (s.frame f.pa).hold = 0 → s.tableWaits id o = false →
    let n := s.readPaLe f.pa 4
    n ≠ 0 → s.readPaLe (f.pa + 4) 28 = 0 →
    (n = 1 → countRoom s.dieItems d (Record.ofBytes (s.readPaN (f.pa + 32) 32)).region = true) →
    ∃ t, exec .storePerformed s = .next t ∧ t.memberDone id rank ∧ t.readPaLe f.pa 4 = n - 1
      ∧ (∀ x, (∀ j < 4, x ≠ f.pa + j) → t.readPa x = s.readPa x)
      ∧ (∀ q r x, t.regAt q r x = s.regAt q r x)
      ∧ (2 ≤ n → (t.die d).queues = (s.die d).queues ∧ (t.die d).heldPush = (s.die d).heldPush)
      ∧ (n = 1 → let r := Record.ofBytes (s.readPaN (f.pa + 32) 32)
          if s.ringRoom d r = true then ∃ q ∈ (t.die d).level (s.levelOf d r), q.record = r
          else ∃ q ∈ (t.die d).heldPush, q.2.record = r)

/-! ### Queues, the caster and residency -/

/-- R17, R19, R20, R320 to R323, R356: records enter the staging queue and the ring of their level, age to the next
level, leave the hold of a full ring, are acknowledged, and are popped: a LAUNCH makes its workgroup with its groups,
an invalid record is reported and discarded, a RESUME makes its saved workgroup again in handler state. That an aperture
write is discarded and logged while QEN is clear is assumption log 51, ageing whatever the room of the next ring is 53, NB
and the CLUSTER map of a RESUME from the descriptor at CODE is 50. -/
def Obligations.WorkQueueEvents : Prop :=
  (∀ (d off : Nat) (data : List Byte) (s : State), s.event = some (.apertureWrite d off data) →
    (s.die d).inReset = false → s.posted = [] →
    ∃ t, exec .apertureWrite s = .next t
      ∧ ((s.die d).qen.getLsbD 0 = true → data.length = 32 → off % 32 = 0 → (s.die d).staging.length < 64 →
            countRoom s.dieItems d (Record.ofBytes data).region = true →
          (t.die d).staging = (s.die d).staging ++ [Record.ofBytes data]
          ∧ (t.run (Record.ofBytes data).region).active = true ∧ s.Outside t { dies := [d], runs := true })
      ∧ ((s.die d).qen.getLsbD 0 = false ∨ data.length ≠ 32 ∨ off % 32 ≠ 0 →
          (t.die d).vlTail = (s.die d).vlTail + 1 ∧ (t.die d).staging = (s.die d).staging))
  ∧ (∀ (d : Nat) (s : State) (r : Record) (rs : List Record), s.event = some (.apertureStagingTransfer d) →
    (s.die d).staging = r :: rs → s.ringRoom d r = true →
    ∃ t, exec .apertureStagingTransfer s = .next t ∧ (t.die d).staging = rs ∧ t.queued d r s.nextId
      ∧ s.Outside t { dies := [d], runs := true })
  ∧ (∀ (d id l : Nat) (s : State) (q : QRec), s.event = some (.recordAgeing d id) →
    (s.die d).levelHolding id = some (l, q) → l < 7 →
    q.since + 800 * (l - q.level + 1) ≤ (s.die d).ticks →
    ∃ t, exec .recordAgeing s = .next t ∧ q ∈ (t.die d).level (l + 1) ∧ (∀ x ∈ (t.die d).level l, x.id ≠ id)
      ∧ s.Outside t { dies := [d] })
  ∧ (∀ (d id : Nat) (s : State) (q : QRec), s.event = some (.contRingPushRetry d id) →
    (s.die d).heldPush.find? (fun x => x.1 == id) = some (id, q) → s.ringRoom d q.record = true →
    ((s.pushCounts d id q.record.region).isSome = true ∨ countRoom s.dieItems d q.record.region = true) →
    ∃ t, exec .contRingPushRetry s = .next t ∧ t.queued d q.record id ∧ ∀ x ∈ (t.die d).heldPush, x.1 ≠ id)
  ∧ (∀ (d id e : Nat) (s : State), s.event = some (.contPushAck d id) → e < 6 →
    (s.link e d).head? = some (.ack id) → s.linkOpen e d = true →
    ∃ t, exec .contPushAck s = .next t ∧ (∀ o, t.op? id = some o → ∀ m ∈ o.members, m.done = true)
      ∧ ∃ k < 6, (s.link k d).head? = some (.ack id) ∧ t.link k d = (s.link k d).tail)
  ∧ (∀ (loc : Nat) (s s1 : State) (q : QRec) (k : Kernel), s.event = some (.contPop loc) →
    ({ s with event := none } : State).choose loc = (some (q, .launch k), s1) →
    (∀ n < 48, s1.spillBad loc n = false) →
    let r := q.record
    ∃ t w, exec .contPop s = .next t ∧ t.wg? s1.nextId = some w
      ∧ w.loc = loc ∧ w.region = r.region ∧ w.index.toNat = r.windex % 2 ^ 24 ∧ w.nb = k.nb ∧ w.mode = k.mode
      ∧ w.clusterMap = k.map ∧ w.join.toNat = r.join ∧ w.gmax = r.gmax ∧ w.items = [] ∧ w.barriers = []
      ∧ w.priv = s1.rgnPriv (loc / 256) r.region
      ∧ (∀ i ≤ r.g0, ∃ g, t.group? (s1.nextId + 1 + i) = some g ∧ Launched g s1.nextId loc i r)
      ∧ ∀ l, ∀ x ∈ (t.die (loc / 256)).level l, x.id ≠ q.id)
  ∧ (∀ (loc : Nat) (s s1 : State) (q : QRec) (c : FCode), s.event = some (.contPop loc) →
    ({ s with event := none } : State).choose loc = (some (q, .bad c), s1) →
    (let d := loc / 256
     let b := (s1.die d).dfqBase.toNat
     let a := b + 64 + 64 * (s1.readPaLe b 4 % 4096)
     let x := if (s1.rgn? d q.record.region).isSome then some q.record.region else none
     s1.DieQueue d x x →
     ∃ t, exec .contPop s = .next t ∧ t.readPaLe a 1 = c.num ∧ t.readPaLe (a + 1) 1 = 1
       ∧ t.readPaLe (a + 16) 8 = q.record.w0.toNat ∧ t.readPaLe (a + 40) 8 = q.record.w3.toNat
       ∧ t.readPaLe b 4 = (s1.readPaLe b 4 + 1) % 2 ^ 32 ∧ (∀ l, ∀ x ∈ (t.die d).level l, x.id ≠ q.id)
       ∧ ∀ w, t.wg? w = s1.wg? w))
  ∧ ∀ (loc : Nat) (s s1 : State) (q : QRec) (k : Kernel) (v : Saved) (x : Context), s.event = some (.resumePop loc) →
    ({ s with event := none } : State).choose loc = (some (q, .resume k v x), s1) →
    (∀ n < 48, s1.spillBad loc n = false) →
    ∃ t w, exec .resumePop s = .next t ∧ t.wg? v.id = some w ∧ w.loc = loc ∧ w.region = q.record.region
      ∧ w.nb = k.nb ∧ w.clusterMap = k.map ∧ w.items = v.wg.items ∧ w.overflow = v.wg.overflow
      ∧ (∀ y ∈ t.saved, y.id ≠ v.id)
      ∧ (∀ y ∈ x.groups, ∀ gid old, v.wg.savedGroup y.1 = some (gid, old) → ∃ g, t.group? gid = some g
          ∧ g.wg = v.id ∧ g.loc = loc ∧ g.handler = true ∧ g.hcause = 3 ∧ ∀ p ∈ g.paths, p.pc.toNat = q.record.code)
      ∧ ∀ l, ∀ y ∈ (t.die (loc / 256)).level l, y.id ≠ q.id

/-- R22, R29 to R32, R112, R183, R208, R211, R216: a waiting cast enters spawn memory, a ready list becomes a group,
an overflowed item returns, a finished workgroup ends and decrements its JOIN, stored groups become resident,
translations are walked ahead of their use. -/
def Obligations.CasterAndResidencyEvents : Prop :=
  (∀ (gid rank : Nat) (s : State) (g : Group) (k : Casting) (th : Thread) (w : Workgroup),
    s.event = some (.deferredCast gid rank) → s.group? gid = some g → rank < 32 →
    g.casting.find? (fun x => x.mask.getLsbD rank && x.party.isNone) = some k → k.wait = .none →
    Tab.find? g.threads rank = some th → s.busy th.tid = false → s.wg? g.wg = some w →
    itemBytes w.nb w.items + 320 + 32 * w.nb ≤ (w.spw + 1) * 4096 →
    (∀ e ∈ s.groups, e.2.loc = g.loc → e.2.stored = true → s.spillBad e.2.loc e.2.slot = false) →
    ∃ t x, exec .deferredCast s = .next t ∧ t.wg? g.wg = some x
      ∧ x.items = w.items ++ [(s.nextId, .cast k.pc th.dropLatches)] ∧ x.overflow = w.overflow
      ∧ ∀ h, t.group? gid = some h → Tab.find? h.threads rank = none)
  ∧ (∀ (wg : Nat) (pc : DWord) (s : State) (w : Workgroup), s.event = some (.casterFormGroup wg pc) →
    s.wg? wg = some w → w.lists.find? (fun x => s.listReady wg w x && s.canForm wg w x) = some pc →
    (s.stageWords w.loc (stageOf (s.nextSlot w.loc)) + 8 * w.nb ≤ 2048
      ∨ s.spillBad w.loc (s.nextSlot w.loc) = false) →
    ∃ t, exec .casterFormGroup s = .next t ∧ s.Forms t wg w pc)
  ∧ (∀ (wg : Nat) (pc : DWord) (s : State) (w : Workgroup), s.event = some (.casterTimeout wg pc) →
    s.wg? wg = some w → pc ∈ w.lists →
    ∃ t, exec .casterTimeout s = .next t
      ∧ (w.lists = [pc] → s.canForm wg w pc = true →
          (s.stageWords w.loc (stageOf (s.nextSlot w.loc)) + 8 * w.nb ≤ 2048
            ∨ s.spillBad w.loc (s.nextSlot w.loc) = false) → s.Forms t wg w pc)
      ∧ (s.canForm wg w pc = false → ∃ x, t.wg? wg = some x ∧ pc ∈ x.flush ∧ x.items = w.items
          ∧ x.overflow = w.overflow))
  ∧ (∀ (wg n : Nat) (it : Item) (r : List (Nat × Item)) (s : State) (w : Workgroup),
    s.event = some (.overflowReturn wg) → s.wg? wg = some w → w.overflow = (n, it) :: r →
    itemBytes w.nb w.items + it.size w.nb ≤ (w.spw + 1) * 4096 →
    ∃ t, exec .overflowReturn s = .next t ∧ s.Outside t { wgs := [wg] }
      ∧ t.wg? wg = some { w with items := w.items ++ [(n, it)], overflow := r })
  ∧ (∀ (wg : Nat) (s : State) (w : Workgroup), s.event = some (.workgroupFinish wg) → s.wg? wg = some w →
    s.wgOver wg w = true → w.released = false →
    ∃ t, exec .workgroupFinish s = .next t
      ∧ (w.join = 0 → t.wg? wg = none
          ∧ (∀ a ∈ (t.cluster (locCluster w.loc)).allocs, a.1 ≠ w.scrBase)
          ∧ (t.core w.loc).engine.owner ≠ .wg wg)
      ∧ ∀ pa ty s1, w.join ≠ 0 → w.loc < 1024 →
          (({ s with event := none } : State).releaseWg wg w).check (w.loc / 256) w.loc .writeAt rcSc
            (some (w.loc % 256)) w.join.toNat = (.ok pa ty, s1) →
          hbmDie pa = some (w.loc / 256) → isCwPa pa = false → pa % 64 = 0 → (s1.frame pa).hold = 0 →
          s1.readPaLe pa 4 ≠ 0 → s1.readPaLe (pa + 4) 28 = 0 →
          (s1.readPaLe pa 4 = 1 →
            countRoom s1.dieItems (w.loc / 256) (Record.ofBytes (s1.readPaN (pa + 32) 32)).region = true) →
          t.wg? wg = none ∧ t.readPaLe pa 4 = s1.readPaLe pa 4 - 1)
  ∧ (∀ (loc out inn : Nat) (s : State) (g h : Group), s.event = some (.residencyExchange loc out inn) →
    s.group? out = some g → s.group? inn = some h → g.loc = loc → h.loc = loc → g.steward = false →
    h.steward = false → g.stored = false → h.stored = true → stageOf g.slot = stageOf h.slot → g.paths ≠ [] →
    (∀ p ∈ g.paths, ({ s with event := none } : State).idlePath g p = true) →
    s.stageWords loc (stageOf g.slot) + s.groupWords h ≤ 2048 + s.groupWords g →
    s.spillBad loc g.slot = false → s.spillBad loc h.slot = false →
    ∃ t, exec .residencyExchange s = .next t ∧ t.group? out = some { g with stored := true }
      ∧ t.group? inn = some { h with stored := false } ∧ ∀ k q m, t.regAt k q m = s.regAt k q m)
  ∧ (∀ (loc inn : Nat) (s : State) (h : Group), s.event = some (.residencyTimeout loc inn) →
    s.group? inn = some h → h.loc = loc → h.stored = true → s.spillBad loc h.slot = false →
    s.stageWords loc (stageOf h.slot) + s.groupWords h ≤ 2048 →
    ∃ t, exec .residencyTimeout s = .next t ∧ t.group? inn = some { h with stored := false }
      ∧ ∀ k q m, t.regAt k q m = s.regAt k q m)
  ∧ (∀ (d holder : Nat) (va : DWord) (s : State) (base size frame epa : Nat) (leaf : DWord),
    s.event = some (.translationWalk d holder va) → va.toNat < 2 ^ 56 → (4 ≤ d ∨ s.peerOf d va.toNat = none) →
    s.cached d holder (s.space d).2 va.toNat none = none →
    (s.walk d (s.space d).1 (s.space d).2 va.toNat).1 = .ok base size frame leaf epa →
    let e : Trans := { holder, sid := (s.space d).2, base, size, frame, leaf := leaf ||| 0x800, epa }
    ∃ t, exec .translationWalk s = .next t ∧ e ∈ (t.die d).tlb
      ∧ (∀ h, l2Holder holder = some h → { e with holder := h } ∈ (t.die d).tlb)
      ∧ ∀ x ∈ (t.die d).tlb, x ∈ (s.die d).tlb ∨ x = { e with holder := x.holder })
  ∧ ∀ (d holder k perm sid elen ebase base size frame epa : Nat) (va leaf : DWord) (p : PeerSlot) (s : State),
    s.event = some (.peerTranslation d holder va) → d < 4 → s.peerOf d va.toNat = some (k, p) →
    s.cached d holder (s.die d).sid va.toNat (some k) = none →
    (let h := p.word0.toNat
     let ex := h / 2 ^ 62
     let idx := h / 2 ^ 52 % 1024
     let off := va.toNat - p.word1.toNat
     let e : Trans :=
       { holder, sid := (s.die d).sid, base := va.toNat / 131072 * 131072, size := 131072,
         frame := frame + ((ebase + off) / 131072 * 131072 - base), leaf := leaf ||| 0x800, epa, slot := some k,
         export_ := some (ex * 1024 + idx),
         rights := BitVec.ofNat 3 (perm &&& (p.word2.toNat / 2 ^ 40 % 8)) }
     s.export? ex idx (h % 2 ^ 52) = some (perm, sid, elen, ebase) → off < elen * 2 ^ 23 → ebase + off < 2 ^ 56 →
     (s.walk ex (s.die ex).rootBase.toNat sid (ebase + off)).1 = .ok base size frame leaf epa →
     ∃ t, exec .peerTranslation s = .next t ∧ e ∈ (t.die d).tlb
       ∧ (∀ h, l2Holder holder = some h → { e with holder := h } ∈ (t.die d).tlb)
       ∧ ∀ x ∈ (t.die d).tlb, x ∈ (s.die d).tlb ∨ x = { e with holder := x.holder })

/-! ### Lumens and time -/

/-- R13, R45, R189 to R192, R195, R196, R313: a revolution boundary injects the lumens of budget and ring frequency, counts the
waits and flags the starving cores; the ring then serves core after core; budgets, grants and droop holds. A droop
report makes the results in its window suspect until its hold ends: logged ones, and an open number of the next ones at
LANE and of the engine of the cluster's cores (assumption logs 7 and 68). A budget is held in quarter watts, and one that
software writes is taken at the next interval (assumption log 101). -/
def Obligations.LumenEvents : Prop :=
  (∀ (d : Nat) (s : State), s.event = some (.revolutionBoundary d) → (s.die d).inReset = false →
    (128 ≤ (s.die d).ringPos ∨ (s.die d).revolutions = 0) →
    let x := s.die d
    let f := x.ringfPend.getD x.ringf
    let n := max 240 x.budgetNext * 500000 / f
    ∃ t, exec .revolutionBoundary s = .next t
      ∧ (let y := t.die d
         y.ringf = f ∧ y.ringfPend = none ∧ y.budgetInForce = x.budgetNext ∧ y.injected = n ∧ y.openPool = n - n / 8
           ∧ y.reservePool = n / 8 ∧ y.ringPos = 0 ∧ y.revolutions = x.revolutions + 1 ∧ y.lumUsed = []
           ∧ (let k := ((s.coresOf d).filter fun l => (t.core l).flagged).length
              y.share = if k = 0 then 0 else n / 8 / k)
           ∧ (∀ k v, (k, v) ∈ x.pricePend → (∀ e ∈ x.pricePend, e.1 = k → e.2 = v) → y.price k = v)
           ∧ ∀ k, (∀ e ∈ x.pricePend, e.1 ≠ k) → y.price k = x.price k)
      ∧ (∀ l ∈ s.coresOf d, (t.core l).flagged = true ↔ (t.core l).starveQ ≠ [])
      ∧ (∀ k g, s.group? k = some g → g.loc / 256 = d → g.loc < 1024 → g.steward = false → g.slot < 48 → s.ready k g = true →
          (∀ p ∈ g.paths, p.lumReady = true → ∃ h, t.group? k = some h ∧ ∃ q ∈ h.paths, q.pc = p.pc ∧ q.mask = p.mask
              ∧ p.lumWait + 1 ≤ q.lumWait)
            ∧ ((∃ p ∈ g.paths, p.lumReady = true ∧ 3 ≤ p.lumWait) → k + 1 ∈ (t.core g.loc).starveQ))
      ∧ s.SameMemory t ∧ ∀ e, e ≠ d → t.die e = s.die e)
  ∧ (∀ (d : Nat) (s : State), s.event = some (.ringCycleDraw d) → (s.die d).inReset = false →
    (s.die d).ringPos < 128 → (s.die d).revolutions ≠ 0 →
    let x := s.die d
    let l := 256 * d + x.ringPos
    let c := s.core l
    let r := if c.flagged then min (min x.share (8192 - c.purse)) x.reservePool else 0
    let o := min x.openPool (8192 - (c.purse + r))
    ∃ t, exec .ringCycleDraw s = .next t ∧ (t.core l).purse = c.purse + r + o
      ∧ (t.die d).reservePool = x.reservePool - r ∧ (t.die d).openPool = x.openPool - o
      ∧ (t.die d).ringPos = x.ringPos + 1 ∧ s.Outside t { dies := [d], cores := [l] })
  ∧ (∀ (p : Nat) (s : State), s.event = some (.budgetInterval p) →
    ∃ t, exec .budgetInterval s = .next t ∧ t.powerDraw = p
      ∧ (∀ d < 4, (t.die d).budgetNext = min (4 * (s.die d).budget) (min 1680 (1800 - p)))
      ∧ s.Outside t { dies := [0, 1, 2, 3] })
  ∧ (∀ (l g : Nat) (s : State), s.event = some (.grantLevelChange l g) → g ∈ [16, 32, 48, 64] →
    ∃ t, exec .grantLevelChange s = .next t ∧ (t.core l).grant = g
      ∧ { t.core l with grant := (s.core l).grant, perf := (s.core l).perf } = s.core l ∧ s.Outside t { cores := [l] })
  ∧ (∀ (k : Nat) (s : State), s.event = some (.droopReport k) →
    ∃ t, exec .droopReport s = .next t ∧ (t.cluster k).droop = true
      ∧ (t.cluster k).droopAt = (s.die (k / 32)).ticks
      ∧ (∀ id o, s.op? id = some o → t.op? id =
          some (if locCluster o.loc = k ∧ o.loc < 1024 ∧ o.inWindow = true then { o with suspect := some 1 } else o))
      ∧ (∀ j < 4, let a := s.core (clusterLoc k j)
          let b := t.core (clusterLoc k j)
          b.laneFails = a.laneFails ∧ (b.droops = a.droops ∨ ∃ n, 1 ≤ n ∧ n ≤ 8 ∧ b.droops = a.droops ++ [n])
          ∧ (b.engine = a.engine ∨ b.engine = { a.engine with stepFails := (a.engine.stepFails ++ [1]).take 2 }))
      ∧ s.SameMemory t)
  ∧ ∀ (k : Nat) (s : State), s.event = some (.droopHoldEnd k) → (s.cluster k).droop = true →
    (s.cluster k).droopAt + 64 ≤ (s.die (k / 32)).ticks →
    ∃ t, exec .droopHoldEnd s = .next t ∧ t.cluster k = { s.cluster k with droop := false }
      ∧ (∀ j < 4, let a := s.core (clusterLoc k j)
          t.core (clusterLoc k j) =
            { a with droops := [], engine := { a.engine with stepFails := a.engine.stepFails.filter (· != 1) } })
      ∧ s.Outside t { clusters := [k], cores := [0, 1, 2, 3].map (clusterLoc k) }

/-- R165, R187, R197, R199, R383: a reference tick advances the die's time and its watchdogs, which stand still in
droop hold and while their party waits only for lumens; watchdogs expire; hot-frame lists and completion records are
written; an error response on a completion record is logged and reported as VIOL, and the report waits (assumption log
132). C-die 0's ticks drive the steward cores' watchdogs (assumption log 42), the lists lie at HOTBASE, 256 bytes for
each controller (assumption log 54), and DETAIL of an engine's WDOG record holds its ticks (assumption log 56). -/
def Obligations.TimeEvents : Prop :=
  (∀ (d : Nat) (s : State), s.event = some (.referenceTick d) →
    ∃ t, exec .referenceTick s = .next t ∧ (t.die d).ticks = (s.die d).ticks + 1 ∧ s.SameMemory t
      ∧ (∀ e, e ≠ d → t.die e = s.die e)
      ∧ (∀ k w, s.wg? k = some w → ∃ x, t.wg? k = some x
          ∧ (w.loc / 256 ≠ d → x = w)
          ∧ (w.loc / 256 = d → let c := s.cluster (locCluster w.loc)
              if (c.droop || s.lumensHold k) = true then
                x.wdogAcc = w.wdogAcc ∧ x.wdogHeld = w.wdogHeld + 1
              else x.wdogAcc = w.wdogAcc + 256 * c.freq / 1200 ∧ x.wdogHeld = w.wdogHeld))
      ∧ (d = 0 → ∀ k < 4, Tab.getD (t.xdie 4).wdog k 0 = Tab.getD (s.xdie 4).wdog k 0 + 256))
  ∧ (∀ (k i : Nat) (s : State) (w : Workgroup) (b : RgnBlock), s.event = some (.workgroupWdogExpiry k) →
    s.wg? k = some w → s.rgn? (w.loc / 256) w.region = some b → b.wdog = i → i ≠ 0 → w.wdogFired = false →
    256 * i ≤ w.wdogAcc → s.DieQueue (w.loc / 256) (some w.region) (some w.region) →
    ∃ t, exec .workgroupWdogExpiry s = .next t ∧ s.Recorded t (w.loc / 256) 22 0 0
      ∧ t.wg? k = some { w with wdogFired := true } ∧ ∃ x ∈ t.pending, x.party = .wg k)
  ∧ (∀ (l id : Nat) (s : State) (k : Nat) (y : Task), s.event = some (.engineTaskWdogExpiry l) →
    (s.core l).engine.owner = .task id → s.task? id = some (k, y) → 25600000 ≤ (s.core l).engine.wdogAcc →
    s.DieQueue (l / 256) (some y.region) (some y.region) →
    ∃ t, exec .engineTaskWdogExpiry s = .next t ∧ s.Recorded t (l / 256) 22 y.pc 0 ∧ t.task? id = none
      ∧ (t.core l).engine.owner = .free)
  ∧ (∀ (x c : Nat) (s : State), s.event = some (.stewardWdogExpiry x c) → 2560000000 ≤ Tab.getD (s.xdie x).wdog c 0 →
    ∃ t, exec .stewardWdogExpiry s = .next t ∧ Tab.getD (t.xdie x).wdog c 1 = 0
      ∧ t.mailbox = s.mailbox ++ [.stewardReset x c 0 0]
      ∧ ∀ k g, t.group? k = some g → g.loc ≠ 1024 + 4 * (x - 4) + c)
  ∧ (∀ (d : Nat) (s : State), s.event = some (.hotnessIntervalEnd d) →
    let a := (s.die d).hotBase.toNat
    (∀ k < 8192, hbmDie (a + k) = some d ∧ isHostPa (a + k) = false ∧ (s.frame (a + k)).hold = 0) → ((s.die d).hotCand.map (·.1)).Nodup →
    (∀ e ∈ (s.die d).hotCand, e.1 < 32 ∧ e.2.length ≤ 32 ∧ ∀ n ∈ e.2, n < 2 ^ 31) →
    ∃ t, exec .hotnessIntervalEnd s = .next t ∧ (t.die d).hot = [] ∧ (t.die d).hotCand = []
      ∧ (∀ e ∈ (s.die d).hotCand, ∃ k : List (Nat × Nat), k.Perm (e.2.map fun n => (n, (s.die d).hotEst e.1 n))
          ∧ k.Pairwise (fun x y => y.2 < x.2 ∨ x.2 = y.2 ∧ x.1 ≤ y.1)
          ∧ ∀ i x, k[i]? = some x → t.readPaLe (a + 256 * e.1 + 8 * i) 8 = x.1 + 2 ^ 32 * x.2)
      ∧ ∀ p, (p < a ∨ a + 8192 ≤ p) → t.readPa p = s.readPa p)
  ∧ (∀ (r pa : Nat) (s : State) (b : RgnBlock) (f : Frag) (fs : List Frag) (c : Checked),
    s.event = some (.completionError r) → (s.run r).active = true → (s.run r).party = none → s.treeBusy r = false →
    s.rgn? (s.homeOf r) r = some b → b.crec ≠ 0 →
    ({ s with event := none } : State).unitRange (s.homeOf r) (2048 + s.homeOf r)
      { acc := .write, write := true, size := 32 } b.crec.toNat 32 = c →
    c.stall = false → c.hits = [] → c.frags = f :: fs → f.pa = pa →
    (let d := s.homeOf r
     let s1 := c.s.logUnit d 1 0 .viol pa
     s1.DieQueue d (some r) (some r) →
     ∃ t id, exec .completionReport s = .next t ∧ s1.Recorded t d 13 0 0 ∧ (t.run r).party = some id
       ∧ (∃ x ∈ t.pending, x.id = id ∧ x.party = .tree r) ∧ (t.run r).active = true ∧ (t.run r).seq = (s.run r).seq
       ∧ t.irqs = s.irqs))
  ∧ (∀ (r : Nat) (s : State) (b : RgnBlock), s.event = some (.completionReport r) → (s.run r).active = true →
    (s.run r).party = none → s.treeBusy r = false → s.rgn? (s.homeOf r) r = some b →
    ∃ t, exec .completionReport s = .next t
      ∧ (b.crec = 0 → (t.run r).active = false ∧ (t.run r).seq = (s.run r).seq + 1 ∧ s.SameMemory t
          ∧ t.irqs = s.irqs ++ (if b.irqen = true ∧ b.irqVec ≤ 2047 then [2048 * s.homeOf r + b.irqVec] else []))
      ∧ ∀ (c : Checked) (f g : Frag) (s1 : State), b.crec ≠ 0 →
          ({ s with event := none } : State).unitRange (s.homeOf r) (2048 + s.homeOf r)
            { acc := .write, write := true, size := 32 } b.crec.toNat 32 = c →
          c.stall = false → c.hits = [] → c.frags = [f, g] → f.off = 0 → f.size = 16 → g.off = 16 → g.size = 16 →
          g.pa = f.pa + 16 → (∀ k < 32, hbmDie (f.pa + k) = some (s.homeOf r) ∧ isHostPa (f.pa + k) = false) →
          c.s.unitPuts (s.homeOf r)
            [(f, (s.completionBytes (s.homeOf r) r).take 16), (g, (s.completionBytes (s.homeOf r) r).drop 16)] = .ok s1 →
          (t.run r).active = false ∧ (t.run r).seq = (s.run r).seq + 1
            ∧ t.readPaLe f.pa 2 = r % 2 ^ 16 ∧ t.readPaLe (f.pa + 2) 2 = (if (s.run r).killed then 1 else 0)
            ∧ t.readPaLe (f.pa + 4) 4 = (s.run r).faults % 2 ^ 32
            ∧ t.readPaLe (f.pa + 8) 8 = (s.die (s.homeOf r)).ticks % 2 ^ 64
            ∧ t.readPaLe (f.pa + 16) 8 = ((s.run r).seq + 1) % 2 ^ 64 ∧ t.readPaLe (f.pa + 24) 8 = 0)

/-- R69, R184, R296, R301, R303, R304, R306, R310, R314, R315, R331 to R333: tasks start on free engines, keep a gang's
members after 800 ticks, end with their gate; a sequencer queues the command of its state; a K-group enters the
accumulator with one rounding; the head command takes its effect and retires: a load fills its rectangle, a store writes
its elements through the epilogue, a command on a block of another mode is a data fault; engines suspend at a split
point. That a tile moves in one event, all of it or none, is the model's choice (assumption log 67); so are which K-group
or store a failed check concerns (68), and that a sequencer waits for the `mx.sync` that its state queued (64). -/
def Obligations.TaskAndEngineEvents : Prop :=
  (∀ (ck : Nat) (s : State) (x : Task) (ls : List Nat), s.event = some (.taskStart ck) → s.seqLoading ck = false →
    (s.cluster ck).tasks.find? (fun y => s.taskReady y && (s.place ck y).isSome) = some x → s.place ck x = some ls →
    x.images = [] →
    ∃ t, exec .taskStart s = .next t
      ∧ (∀ c y, t.task? x.id = some (c, y) → y.cores = ls ∧ y.ended = [] ∧ y.suspended = false)
      ∧ (∀ k l, ls[k]? = some l → ls.Nodup → (s.core l).engine.owner = .free
          ∧ (let e := (t.core l).engine
             e.owner = .task x.id ∧ e.gang = x.gangOf k ∧ e.seqS = x.at_ 3 1 % 64 ∧ e.seqKC = x.kStart ∧ e.seqCBC = 0
               ∧ e.acc = [] ∧ e.fifoA = [] ∧ e.fifoB = [] ∧ e.table = (s.core l).engine.table))
      ∧ (∀ l, l ∉ ls → t.core l = s.core l) ∧ ∀ k q m, t.regAt k q m = s.regAt k q m)
  ∧ (∀ (ck since : Nat) (s : State) (x : Task), s.event = some (.gangReserve ck) → s.oldestReady ck = some x →
    (s.cluster ck).oldest = some (x.id, since) → x.gh * x.gw ≠ 1 → since + 800 ≤ (s.die (ck / 32)).ticks →
    ∃ t, exec .gangReserve s = .next t ∧ t.cluster ck = { s.cluster ck with gangRes := some x.id }
      ∧ s.Outside t { clusters := [ck] })
  ∧ (∀ (id c : Nat) (s : State) (x : Task), s.event = some (.taskEnd id) → s.task? id = some (c, x) → x.cores ≠ [] →
    (∀ l ∈ x.cores, l ∈ x.ended) →
    let g := x.at_ 6 2
    ∃ t, exec .taskEnd s = .next t ∧ t.task? id = none
      ∧ (g ≠ 0 → (t.gate x.die (g - 1)).toNat = min (2 ^ 32 - 1) ((s.gate x.die (g - 1)).toNat + 1))
      ∧ (∀ d k, ¬ (g ≠ 0 ∧ d = x.die ∧ k = g - 1) → t.gate d k = s.gate d k)
      ∧ ∀ l, (s.core l).engine.owner = .task id → (t.core l).engine.owner = .free ∧ (t.core l).engine.acc = [])
  ∧ (∀ (loc id ck : Nat) (s : State) (x : Task), s.event = some (.sequencerStep loc) →
    (s.core loc).engine.owner = .task id → s.task? id = some (ck, x) → x.ended.contains loc = false →
    (s.core loc).engine.syncQueued = false →
    let e := (s.core loc).engine
    let w := e.stateWord
    let cb := if stCbsel w = 0 then e.seqCBC else stCbsel w - 1
    let k := min (stKcnt w) (x.kEnd - e.seqKC)
    let n := seqCounts x e w
    ∃ t, exec .sequencerStep s = .next t
      ∧ (stCmd w = 0 → s.Outside t { cores := [loc] } ∧ (t.core loc).engine.queue = e.queue
          ∧ (t.core loc).engine.seqKC = n.1 ∧ (t.core loc).engine.seqCBC = n.2
          ∧ (stCond w = 0 → (t.core loc).engine.seqS = stNext1 w)
          ∧ (stCond w = 1 → (t.core loc).engine.seqS = if x.kEnd ≤ n.1 then stNext1 w else stNext0 w)
          ∧ (stCond w = 2 → (t.core loc).engine.seqS = if stCtr w 39 = true ∧ n.2 = 0 then stNext1 w else stNext0 w)
          ∧ (stCond w = 5 → (t.core loc).engine.seqS = if e.queue = [] then stNext1 w else stNext0 w))
      ∧ (stCmd w = 3 → k ≠ 0 → e.queue.length < 16 → s.Outside t { cores := [loc] }
          ∧ (t.core loc).engine.seqKC = n.1 ∧ (t.core loc).engine.seqCBC = n.2
          ∧ ∃ c m, (t.core loc).engine.queue = e.queue ++ [c] ∧ c.instr = .mxMma m ∧ c.task = some x.id
              ∧ c.pa = x.pa ∧ c.pb = x.pb ∧ c.pcEnt = x.pcEnt ∧ c.k0 = e.seqKC
              ∧ m.cb = BitVec.ofNat 2 cb ∧ m.k = BitVec.ofNat 12 k ∧ m.row0 = 0)
      ∧ (stCmd w = 6 → k ≠ 0 → s.ladleRoom (locCluster loc) (locCore loc) x.region = true →
          ∃ y, t.ladle (locCluster loc) (locCore loc) = s.ladle (locCluster loc) (locCore loc) ++ [y]
            ∧ y.feed = true ∧ y.fifo = false ∧ y.core = loc ∧ y.entry = x.pa ∧ y.task = some x.id
            ∧ y.b = [BitVec.ofNat 32 e.seqKC, BitVec.ofNat 32 k])
      ∧ (stCmd w = 9 → e.queue = [] → e.fifoA = [] → e.fifoB = [] → s.feedsLeft loc x.id = false →
          (∀ l, t.core l = s.core l)
          ∧ ∀ c y, t.task? x.id = some (c, y) → ∃ z, s.task? x.id = some (c, z) ∧ y = { z with ended := z.ended ++ [loc] }))
  ∧ (∀ (loc : Nat) (s : State) (c : EngCmd) (f : MxMmaF) (sp : Bool) (a b : FifoEntry) (ra rb : List FifoEntry),
    s.event = some (.engineKgroupStep loc) → s.Heads loc c → c.product? = some (f, sp) → c.done < kCount f.k →
    c.patOk = true → c.skip = false → f.cb.toNat < 3 →
    (s.core loc).engine.fifoA = a :: ra → (s.core loc).engine.fifoB = b :: rb →
    a.tagged f.pa c.pa = true → b.tagged f.pb c.pb = true → a.lines ≠ [] → b.lines ≠ [] →
    (s.core loc).engine.stepFails.length < 2 →
    ((s.core loc).engine.block f.cb.toNat).clash c.pcEnt = false → a.tooMany = false → a.badScale = false →
    b.badScale = false → c.paid + 1 = c.passes →
    let p := (s.die (locDie loc)).price (stepPrice c.pa)
    p ≤ 8192 → s.licensed loc 0 c.region p = true →
    let e := (s.core loc).engine
    ∃ t, exec .engineKgroupStep s = .next t ∧ (t.core loc).engine.fifoA = ra ∧ (t.core loc).engine.fifoB = rb
      ∧ (t.core loc).engine.queue.head? = some { c with done := c.done + 1, paid := 0 }
      ∧ (t.core loc).purse = (s.core loc).purse - p
      ∧ (∀ i j, j < 192 → ¬ (f.row0.toNat ≤ i ∧ i < f.row0.toNat + patRows c.pa ∧ 64 * f.cb.toNat ≤ j
          ∧ j < 64 * f.cb.toNat + patRows c.pb) → (t.core loc).engine.entry i j = e.entry i j)
      ∧ ∀ i j la lb, i < patRows c.pa → j < patRows c.pb → a.lines[i]? = some la → b.lines[j]? = some lb →
          let old := e.entry (f.row0.toNat + i) (64 * f.cb.toNat + j)
          let new := (t.core loc).engine.entry (f.row0.toNat + i) (64 * f.cb.toNat + j)
          (fixedMode c.pcEnt = true → (∀ v ∈ la.expand, v < 256) → (∀ v ∈ lb.elems, v < 256) →
              fixedLaw (patFmt c.pa) (patFmt c.pb) (patQ c.pcEnt) la lb old new)
          ∧ (fixedMode c.pcEnt = false → patFmt c.pa ≠ 4 → (∀ v ∈ la.expand, v < 65536) → (∀ v ∈ lb.elems, v < 65536) →
              finiteLines (elemFmt (patFmt c.pa)) (elemFmt (patFmt c.pb)) la lb →
              a56Law (elemFmt (patFmt c.pa)) (elemFmt (patFmt c.pb)) la lb old new))
  ∧ (∀ (loc : Nat) (s : State) (c : EngCmd), s.event = some (.engineCommandRetire loc) → s.Heads loc c →
    let e := (s.core loc).engine
    let gone := fun t : State => (t.core loc).engine.queue = e.queue.filter (fun x => x.id != c.id)
    (∀ a, c.instr = .mxGang a → ∃ t, exec .engineCommandRetire s = .next t ∧ gone t ∧ (t.core loc).engine.gang = c.gang
      ∧ (t.core loc).engine.acc = e.acc ∧ s.Outside t { cores := [loc], groups := [c.gid] })
    ∧ (∀ f sp, c.product? = some (f, sp) → kCount f.k ≤ c.done → ∃ t, exec .engineCommandRetire s = .next t ∧ gone t
      ∧ (t.core loc).engine.acc = e.acc ∧ s.Outside t { cores := [loc], groups := [c.gid] })
    ∧ (∀ f, c.instr = .mxZero f → c.task = none ∨ c.started = true → ∃ t, exec .engineCommandRetire s = .next t ∧ gone t
      ∧ (∀ i j, j < 192 → (t.core loc).engine.entry i j =
          if f.row0.toNat ≤ i ∧ j / 64 = f.cb.toNat then 0 else e.entry i j)
      ∧ (∀ b, (t.core loc).engine.block b = if f.row0 = 0 ∧ b = f.cb.toNat then {} else e.block b)
      ∧ (t.core loc).engine.fifoA = e.fifoA ∧ (t.core loc).engine.fifoB = e.fifoB
      ∧ s.Outside t { cores := [loc], groups := [c.gid] })
    ∧ ((∃ f, c.instr = .mxStore f) ∨ (∃ f, c.instr = .mxLoad f) → c.task = none →
      (c.patOk = false ∨ (c.blocks.any fun b => (e.block b).clash c.pcEnt) = true) →
      s.DieQueue (locDie loc) (some c.region) (some c.region) →
      ∃ t, exec .engineCommandRetire s = .next t ∧ s.Recorded t (locDie loc) 15 c.pc 0 ∧ gone t
        ∧ (t.core loc).engine.acc = e.acc ∧ (∀ b ∈ c.blocks, ((t.core loc).engine.block b).bits = (e.block b).bits ||| 32)
        ∧ ∀ k q m, t.regAt k q m = s.regAt k q m)
    ∧ (∀ (f : MxStoreF) (rows : List (Nat × Nat × Nat)) (fs : List (List Frag)) (k : Checked), c.instr = .mxStore f →
      c.task = none ∨ c.started = true → c.patOk = true → (c.blocks.any fun b => (e.block b).clash c.pcEnt) = false →
      e.stepFails = [] → s.feedsBefore c = false → rows = c.rows e.gang →
      ({ s with event := none } : State).unitRanges (locDie loc) loc
        { acc := if f.epi = 3 then .readWrite else .write, write := true, noWs := f.epi == 3,
          size := fmtSize (patOfmt c.pcEnt), matrix := true } (rowRanges rows (fmtSize (patOfmt c.pcEnt))) = (fs, k) →
      k.stall = false → k.hits = [] → twicePart k.frags = [] → (∀ g ∈ k.frags, k.s.PlainPart (locDie loc) g) →
      (f.epi = 3 → ∀ g ∈ k.frags, k.s.wsUnwritten g = false) →
      (k.frags.Pairwise fun x y => x.pa + x.size ≤ y.pa ∨ y.pa + y.size ≤ x.pa) →
      let sz := fmtSize (patOfmt c.pcEnt)
      ∃ t, exec .engineCommandRetire s = .next t ∧ gone t ∧ (t.core loc).engine.acc = e.acc
        ∧ (∃ sat : Nat → Nat → Bool,
            (∀ (i j : Nat) (row : Nat × Nat × Nat) (gs : List Frag) (g : Frag), rows[i]? = some row → fs[i]? = some gs →
              g ∈ gs → j < row.2.2 → g.off ≤ sz * j → sz * j + sz ≤ g.off + g.size →
              let p := g.pa + (sz * j - g.off)
              let b := e.block (f.cb.toNat + j / 64)
              outLaw (patOfmt c.pcEnt)
                (epilogueLaw f.epi.toNat (entrySource (b.mode != 2) b.q (e.entry (f.row0.toNat + i) (64 * f.cb.toNat + j)))
                  (cvtSource (patOfmt c.pcEnt) (BitVec.ofNat 64 (k.s.readPaLe p sz))))
                (t.readPaLe p sz) (sat i j))
            ∧ ∀ n, let x := e.block n
                let y := (t.core loc).engine.block n
                let sets := ∃ i j row, rows[i]? = some row ∧ j < row.2.2 ∧ f.cb.toNat + j / 64 = n ∧ sat i j = true
                y.mode = x.mode ∧ y.q = x.q ∧ (sets → y.bits = x.bits ||| 8) ∧ (¬ sets → y.bits = x.bits))
        ∧ (∀ a, (∀ g ∈ k.frags, ¬ (g.pa ≤ a ∧ a < g.pa + g.size)) → t.readPa a = k.s.readPa a)
        ∧ ∀ k q m, t.regAt k q m = s.regAt k q m)
    ∧ ∀ f rows fs data k s1, c.instr = .mxLoad f → c.task = none ∨ c.started = true → c.patOk = true →
      (c.blocks.any fun b => (e.block b).clash c.pcEnt) = false →
      rows = c.rows e.gang →
      s.unitRanges (locDie loc) loc { acc := .read, size := fmtSize (patOfmt c.pcEnt), matrix := true }
          (rowRanges rows (fmtSize (patOfmt c.pcEnt))) = (fs, k) → k.stall = false → k.hits = [] →
      k.s.unitReadAll (locDie loc) fs = some (data, s1) →
      ∃ t, exec .engineCommandRetire s = .next t
        ∧ (∀ i j (row : Nat × Nat × Nat) (bs : List Byte), rows[i]? = some row → data[i]? = some bs → j < patCols c.pcEnt →
            let v := cvtRead (patOfmt c.pcEnt) (leAt bs (fmtSize (patOfmt c.pcEnt) * j) (fmtSize (patOfmt c.pcEnt)))
            (t.core loc).engine.entry (f.row0.toNat + i) (64 * f.cb.toNat + j) =
              if j < row.2.2 then (intoEntry (fixedMode c.pcEnt) (patQ c.pcEnt) v).1 else 0)
        ∧ (∀ i j, j < 192 → ¬ (f.row0.toNat ≤ i ∧ i < f.row0.toNat + patRows c.pcEnt ∧ 64 * f.cb.toNat ≤ j
            ∧ j < 64 * f.cb.toNat + patCols c.pcEnt) → (t.core loc).engine.entry i j = (s1.core loc).engine.entry i j)
        ∧ ∀ k q m, t.regAt k q m = s.regAt k q m)
  ∧ ∀ (loc : Nat) (s : State), s.event = some (.engineSuspend loc) → (s.core loc).engine.suspend = true →
    let e := (s.core loc).engine
    (∀ w, e.owner = .wg w → e.mayHalt = true → ∃ t, exec .engineSuspend s = .next t
      ∧ (t.core loc).engine = { e with suspend := false, halted := true } ∧ s.Outside t { cores := [loc] })
    ∧ ∀ id ck x, e.owner = .task id → s.task? id = some (ck, x) →
      (∀ l ∈ x.cores, (l ∈ x.ended ∨ (s.core l).engine.mayPause x.sg = true) ∧ (s.core l).engine.owner = .task id) →
      ∃ t c y, exec .engineSuspend s = .next t ∧ t.task? id = some (c, y) ∧ y.cores = [] ∧ y.relaunch = true
        ∧ (∀ l ∈ x.cores, (t.core l).engine.owner = .free)
        ∧ (x.sg = 3 → y.ended = [] ∧ y.images = x.images)
        ∧ (x.sg ≠ 3 → y.suspended = true ∧ y.ended = x.ended)
        ∧ ∀ k l, x.sg ≠ 3 → x.cores[k]? = some l → (t.core l).engine.owner = .free ∧ (t.core l).engine.acc = []
          ∧ ∃ img, (k, img) ∈ y.images ∧ img.acc = (s.core l).engine.acc ∧ img.blocks = (s.core l).engine.blocks
            ∧ img.seqS = (s.core l).engine.seqS ∧ img.seqKC = (s.core l).engine.seqKC

/-- R177, R257, R334, R335, R338 to R340, R366: a ladle starts its oldest command, copies 16 bytes at a time and writes
the done word last, and pushes FIFO entries; a runner starts commands in queue order, moves their bytes, sends a
scale-out peer's region its writes, and ends on an error response; ordered adds are combined in ascending key. A
scale-out peer is sent one operation for each 16 bytes (assumption log 33); the record of an error response asks no
answer (assumption log 66); a ladle's copy moves by ascending address (assumption log 67). -/
def Obligations.LadleAndRunnerEvents : Prop :=
  (∀ (ck l : Nat) (s : State) (x : LadleCmd), s.event = some (.ladleCommandStart ck l) → (s.ladle ck l).head? = some x →
    x.party = none →
    let src := pairNat (x.a.getD 0 0) (x.a.getD 1 0) + x.done
    let dst := pairNat (x.a.getD 2 0) (x.a.getD 3 0) + x.done
    let last := x.len ≤ x.done + 16 ∧ x.dv = false
    ∃ t, exec .ladleCommandStart s = .next t
      ∧ (x.feed = true → (t.ladle ck l).head? = some { x with started := true } ∧ s.Outside t { clusters := [ck] })
      ∧ (x.feed = false → x.len ≤ x.done → x.dv = false → (∀ y ∈ t.ladle ck l, y.id ≠ x.id)
          ∧ s.Outside t { clusters := [ck], groups := [x.gid] })
      ∧ (x.feed = false → x.done < x.len → x.ctl / 4 % 2 = 1 → x.ctl / 8 % 2 = 1 →
          (∀ j < 16, Memory.read (t.cluster ck).spad (dst + j) = Memory.read (s.cluster ck).spad (src + j))
          ∧ (∀ a, ¬ (dst ≤ a ∧ a < dst + 16) → Memory.read (t.cluster ck).spad a = Memory.read (s.cluster ck).spad a)
          ∧ (last → ∀ y ∈ t.ladle ck l, y.id ≠ x.id)
          ∧ (¬ last → (t.ladle ck l).head? = some { x with started := true, done := x.done + 16, stalledOn := [] })
          ∧ s.Outside t { clusters := [ck], groups := [x.gid] })
      ∧ ∀ (c : Checked) (f : Frag), x.feed = false → x.started = true → x.done < x.len → x.ctl / 4 % 2 = 0 →
          x.ctl / 8 % 2 = 1 →
          ({ s with event := none } : State).unitPart (ck / 32) x.core { acc := .read } false (0, 16, src) = c →
          c.stall = false → c.hits = [] → c.frags = [f] → hbmDie f.pa = some (ck / 32) → c.s.wsUnwritten f = false →
          (∀ j < 16, Memory.read (t.cluster ck).spad (dst + j) = c.s.readPa (f.pa + j))
          ∧ (last → ∀ y ∈ t.ladle ck l, y.id ≠ x.id)
          ∧ (¬ last → (t.ladle ck l).head? = some { x with done := x.done + 16, stalledOn := [] })
          ∧ ∀ a, t.readPa a = c.s.readPa a)
  ∧ (∀ (ck l : Nat) (s : State) (x : LadleCmd), s.event = some (.copyDoneWrite ck l) → (s.ladle ck l).head? = some x →
    x.feed = false → x.started = true → x.dv = true → x.party = none → x.len ≤ x.done →
    let off := (x.b.getD 2 0).toNat
    ∃ t, exec .copyDoneWrite s = .next t ∧ leNat (Memory.readN (t.cluster ck).spad off 4) = (x.b.getD 3 0).toNat
      ∧ (∀ a, ¬ (off ≤ a ∧ a < off + 4) → Memory.read (t.cluster ck).spad a = Memory.read (s.cluster ck).spad a)
      ∧ (∀ y ∈ t.ladle ck l, y.id ≠ x.id) ∧ s.Outside t { clusters := [ck], groups := [x.gid] })
  ∧ (∀ (ck l : Nat) (s s1 s2 : State) (x : LadleCmd) (fs ss : List (List Frag)) (c k : Checked) (data scs : List (List Byte)),
    s.event = some (.ladleFeedPush ck l) → (s.ladle ck l).head? = some x → x.feed = true → x.started = true →
    x.party = none → x.entry ≠ [] → x.owned (s.core x.core).engine = true →
    let e := (s.core x.core).engine
    let g := (x.b.getD 0 0).toNat + x.done
    let fmt := patFmt x.entry
    let ix := List.range x.lines
    fifoBytes x.fifo (if x.fifo then e.fifoB else e.fifoA) + entryBytes x.fifo fmt x.spn ≤ 65536 →
    ({ s with event := none } : State).unitRanges (ck / 32) x.core
        { acc := .read, size := fmtSize fmt, matrix := x.task.isSome } (ix.map (x.dataRange e.gang g)) = (fs, c) → c.stall = false → c.hits = [] →
    c.s.unitRanges (ck / 32) x.core { acc := .read, matrix := x.task.isSome } (ix.map (x.scaleRange e.gang g)) = (ss, k) →
    k.stall = false → k.hits = [] → k.s.unitReadAll (ck / 32) fs = some (data, s1) → s1.unitReadAll (ck / 32) ss = some (scs, s2) →
    ∃ (t : State) (y : FifoEntry), exec .ladleFeedPush s = .next t
      ∧ (t.core x.core).engine.fifoA = (if x.fifo then e.fifoA else e.fifoA ++ [y])
      ∧ (t.core x.core).engine.fifoB = (if x.fifo then e.fifoB ++ [y] else e.fifoB)
      ∧ y.pat = x.pat ∧ y.fmt = fmt ∧ y.spn = x.spn ∧ y.lines.length = x.lines
      ∧ (∀ (i : Nat) (bs sc : List Byte), data[i]? = some bs → scs[i]? = some sc → ∃ n : FifoLine, y.lines[i]? = some n
          ∧ n.scale = (BitVec.ofNat 8 (leNat sc)).toInt
          ∧ (x.spn = 0 → n.smask = none ∧ ∀ j < 32, n.elems[j]? = some (leAt bs (j * fmtSize fmt) (fmtSize fmt)))
          ∧ (x.spn ≠ 0 → n.smask = some (BitVec.ofNat 32 (leAt bs 0 4)) ∧ n.elems.length = spnSlots x.spn))
      ∧ (if (x.b.getD 1 0).toNat ≤ x.done + 1 then ∀ z ∈ t.ladle ck l, z.id ≠ x.id
          else (t.ladle ck l).head? = some { x with done := x.done + 1, stalledOn := [] })
      ∧ (∀ a, t.readPa a = k.s.readPa a) ∧ ∀ q r m, t.regAt q r m = s.regAt q r m)
  ∧ (∀ (x q : Nat) (s : State) (c : RunCmd) (r : List RunCmd), s.event = some (.runnerCommandStart x q) →
    s.runQ x q = c :: r → (s.xdie x).active.length < 8 →
    ((s.xdie x).active.filter fun y => y.queue == q).length < 4 →
    (c.ctl.getLsbD 5 = true → ∀ y ∈ (s.xdie x).active, y.queue ≠ q) →
    ∃ t, exec .runnerCommandStart s = .next t ∧ t.runQ x q = r
      ∧ (t.xdie x).active = (s.xdie x).active ++ [{ c with started := true }] ∧ s.Outside t { xdies := [x] })
  ∧ (∀ (x id : Nat) (err : Option Nat) (s : State) (c : RunCmd), s.event = some (.runnerCommandComplete x id err) →
    (s.xdie x).active.find? (fun c => c.id == id) = some c → c.party = none →
    (err = none → c.sKind = 1 → c.dKind = 2 → ∃ t, exec .runnerCommandComplete s = .next t
      ∧ (∀ i < c.len / 16, ∀ j < 16, Memory.read t.safeTier (c.dst.toNat + 16 * i + j)
          = Memory.read s.hostMem ((c.src.toNat + 16 * i) % 2 ^ 47 + j))
      ∧ (∀ a, ¬ (c.dst.toNat ≤ a ∧ a < c.dst.toNat + 16 * (c.len / 16)) → Memory.read t.safeTier a = Memory.read s.safeTier a)
      ∧ (∀ y ∈ (t.xdie x).active, y.id ≠ id) ∧ ∀ a, t.readPa a = s.readPa a)
    ∧ (∀ (a : Checked) (f : Frag), err = none → c.sKind = 0 → c.dKind = 1 → c.len = 16 →
      ({ s with event := none } : State).unitRange c.die (2048 + x) { acc := .read } c.src.toNat 16 = a →
      a.stall = false → a.hits = [] → a.frags = [f] → f.size = 16 → hbmDie f.pa = some c.die → a.s.wsUnwritten f = false →
      ∃ t, exec .runnerCommandComplete s = .next t
        ∧ (∀ j < 16, Memory.read t.hostMem (c.dst.toNat % 2 ^ 47 + j) = a.s.readPa (f.pa + j))
        ∧ (∀ y ∈ (t.xdie x).active, y.id ≠ id) ∧ ∀ d, (t.die d).mem = (a.s.die d).mem)
    ∧ (err = none → c.sKind = 1 → c.dKind = 3 → c.len = 16 → ∃ t, exec .runnerCommandComplete s = .next t
      ∧ t.fabric = s.fabric ++ [⟨c.port, s.peerEntry c.die c.dst.toNat, c.dst.toNat % 2 ^ 48,
          some (Memory.readN s.hostMem (c.src.toNat % 2 ^ 47) 16)⟩]
      ∧ (∀ y ∈ (t.xdie x).active, y.id ≠ id) ∧ s.SameMemory t)
    ∧ ∀ n, err = some n → n < 16 → n < c.len → c.sKind ≠ 0 ∨ c.dKind ≠ 0 → c.die < 4 →
      (let s1 := s.logViolation c.die ((if c.sKind ≠ 0 then c.src.toNat else c.dst.toNat) + n) 1 6 x
       s1.DieQueue c.die (some c.region) (some c.region) →
       ∃ t, exec .runnerCommandComplete s = .next t ∧ s1.Recorded t c.die 13 c.pc 0
         ∧ ∀ y ∈ (t.xdie x).active, y.id ≠ id))
  ∧ ∀ (d sl r : Nat) (s : State) (l : List OrdItem), s.event = some (.orderedAddCombine d sl r) →
    (s.die d).ordq.filter (fun x => x.region == r && homeSlice x.pa == sl) = l → l ≠ [] →
    (∀ x ∈ l, s.regionItems x.die r = 0 ∧ x.pa % 4 = 0 ∧ hbmDie x.pa = some d ∧ (s.frame x.pa).hold = 0
      ∧ ∀ e < 4, Tab.find? (s.die e).peerLines (x.pa / 128) = none) →
    ∃ t, exec .orderedAddCombine s = .next t
      ∧ (∀ x ∈ l, ordLaw (l.filter fun y => y.pa == x.pa) (s.readPaLe x.pa 4) (t.readPaLe x.pa 4))
      ∧ (∀ a, (∀ x ∈ l, ¬ (x.pa ≤ a ∧ a < x.pa + 4)) → t.readPa a = s.readPa a)
      ∧ (t.die d).ordq = (s.die d).ordq.filter fun x => !(x.region == r && homeSlice x.pa == sl)

/-- R10, R237, R242, R284, R367, R369, R373, R377 to R379: read duplicates are registered, invalidated and acknowledged;
a cross-die write is applied once what precedes it has been, else held; clock matrices merge; registers of the control
window take their writes as their table says; ports keep maps, heaters, widths and losses. DUPCMD on another die's frame
gives STATUS 2 (assumption log 22). A port's temperature is the state's, and what a main ring needs for another main
ring's wavelength is open (assumption log 23). -/
def Obligations.LinkAndRegisterEvents : Prop :=
  (∀ (d n h : Nat) (s : State) (u : Dup), s.event = some (.dupInvalidate d n) → hbmDie (n * 131072) = some h →
    (Tab.getD (s.die h).dups n []).find? (fun u => u.holder == d && u.sent && !u.acked) = some u →
    (hbmDie u.copy).isSome = true → s.copyBusy d (u.copy / 131072) = false →
    ∃ t, exec .dupInvalidate s = .next t ∧ (t.frame u.copy).res = true
      ∧ { u with acked := true } ∈ Tab.getD (t.die h).dups n []
      ∧ (∀ x ∈ (t.die d).tlb, ¬ (x.leaf.getLsbD 9 = true ∧ x.frame ≤ u.copy ∧ u.copy < x.frame + x.size))
      ∧ ∀ a, t.readPa a = s.readPa a)
  ∧ (∀ (d n : Nat) (s : State), s.event = some (.dupAck d n) → hbmDie (n * 131072) = some d →
    Tab.getD (s.die d).dups n [] ≠ [] → (∀ u ∈ Tab.getD (s.die d).dups n [], u.acked = true) →
    (s.die d).late = [] →
    ∃ t, exec .dupAck s = .next t ∧ (t.frame (n * 131072)).hold = 0 ∧ Tab.getD (t.die d).dups n [] = []
      ∧ ((s.die d).dupFrame.toNat % 2 ^ 31 = n → (s.die d).dupStatus = 1 → (t.die d).dupStatus = 0)
      ∧ s.Outside t { dies := [d] })
  ∧ (∀ (d e pa : Nat) (bs : List Byte) (v : List Nat) (r : List Msg) (s : State),
    s.event = some (.crossDieWriteReceive d e) → e < 4 → (s.die e).inReset = false → 8 * d + e ∉ s.linkDown →
    s.link d e = .write pa bs v none :: r →
    ∃ t, exec .crossDieWriteReceive s = .next t
      ∧ (s.mayApply d e v = false → t.link d e = r ∧ (t.die e).held = (s.die e).held ++ [(d, .write pa bs v none)]
          ∧ ∀ a, t.readPa a = s.readPa a)
      ∧ (s.mayApply d e v = true → (s.die e).held.any (s.heldDue e) = false →
          (∀ j < bs.length, hbmDie (pa + j) = some e) → bs ≠ [] → isCwPa pa = false →
          (s.frame pa).hold = 0 → t.link d e = r ∧
          (∀ j b, bs[j]? = some b → t.readPa (pa + j) = b)
          ∧ (∀ a, ¬ (pa ≤ a ∧ a < pa + bs.length) → t.readPa a = s.readPa a) ∧ t.clk e e d = v.getD d 0))
  ∧ (∀ (d e : Nat) (b : Tab Nat) (r : List Msg) (s : State), s.event = some (.clockBeatReceive d e) →
    8 * d + e ∉ s.linkDown → s.link d e = .beat b :: r →
    ∃ t, exec .clockBeatReceive s = .next t ∧ t.link d e = r
      ∧ (∀ x ∈ b, x.1 / 6 ≠ e → x.2 ≤ t.clk e (x.1 / 6) (x.1 % 6))
      ∧ (∀ f g, g < 6 → s.clk e f g ≤ t.clk e f g) ∧ (∀ g < 6, t.clk e e g = s.clk e e g)
      ∧ s.Outside t { dies := [e], xdies := [e], links := true })
  ∧ (∀ (e k d pa : Nat) (bs : List Byte) (v : List Nat) (s : State), s.event = some (.heldWriteApply e k) →
    (s.die e).held[k]? = some (d, .write pa bs v none) → (s.die e).inReset = false → s.mayApply d e v = true →
    ((s.die e).held.take k).any (s.heldDue e) = false →
    (∀ j < bs.length, hbmDie (pa + j) = some e) → bs ≠ [] → isCwPa pa = false → (s.frame pa).hold = 0 →
    ∃ t, exec .heldWriteApply s = .next t ∧ (t.die e).held = (s.die e).held.eraseIdx k
      ∧ (∀ j b, bs[j]? = some b → t.readPa (pa + j) = b)
      ∧ (∀ a, ¬ (pa ≤ a ∧ a < pa + bs.length) → t.readPa a = s.readPa a) ∧ t.clk e e d = v.getD d 0)
  ∧ (∀ (d : Nat) (v : Word) (s : State),
    (s.event = some (.budget d v) → ∃ t, exec .budget s = .next t ∧ s.Outside t { dies := [d] }
      ∧ t.die d = { s.die d with budget := max 60 (min 420 v.toNat) })
    ∧ (s.event = some (.qen d v) → ∃ t, exec .qen s = .next t ∧ s.Outside t { dies := [d] }
      ∧ (t.die d).qen.toNat = v.toNat % 2 ∧ (t.die d).queues = (s.die d).queues)
    ∧ (s.event = some (.ringf d v) → ∃ t, exec .ringf s = .next t ∧ s.Outside t { dies := [d] }
      ∧ (t.die d).ringf = (s.die d).ringf
      ∧ (t.die d).ringfPend = if 300 ≤ v.toNat % 2048 ∧ v.toNat % 2048 ≤ 1500 then some (v.toNat % 2048)
          else (s.die d).ringfPend)
    ∧ ∀ c, s.event = some (.clk d c v) → ∃ t, exec .clk s = .next t ∧ s.Outside t { clusters := [32 * d + c] }
      ∧ t.cluster (32 * d + c) = if 300 ≤ v.toNat % 2048 ∧ v.toNat % 2048 ≤ 1500 then
          { s.cluster (32 * d + c) with clkPend := some v } else s.cluster (32 * d + c))
  ∧ (∀ (c : Nat) (v : Word) (s : State), s.event = some (.clkApply c) → (s.cluster c).clkPend = some v →
    (∀ e ∈ s.groups, e.2.steward = true ∨ locCluster e.2.loc ≠ c
      ∨ e.2.handler = true ∧ e.2.hcause.toNat % 16 = 1) →
    ∃ t, exec .clkApply s = .next t ∧ s.Outside t { clusters := [c] } ∧ (t.cluster c).clkPend = none
      ∧ (t.cluster c).freq = v.toNat % 2048
      ∧ (t.cluster c).lr = if v.toNat / 2 ^ 12 % 4 = 3 then (s.cluster c).lr else v.toNat / 2 ^ 12 % 4)
  ∧ (∀ (d : Nat) (s : State),
    let x := s.die d
    let n := x.dupFrame.toNat % 2 ^ 31
    let h := x.dupCopy.toNat / 2 ^ 48 % 4
    let copy := x.dupCopy.toNat % 2 ^ 48
    let good := hbmDie (n * 131072) = some d ∧ (s.frame (n * 131072)).typ = 0 ∧ h ≠ d ∧ (s.die h).offline = false
    (s.event = some (.dupcmdRegister d) → ∃ t, exec .dupcmdRegister s = .next t ∧ s.Outside t { dies := [d] }
      ∧ (good → (t.frame (n * 131072)).hold.getLsbD h = true ∧ (t.die d).dupStatus = 0
          ∧ Tab.getD (t.die d).dups n [] = Tab.getD x.dups n [] ++ [{ holder := h, copy }])
      ∧ (¬ good → t.die d = { x with dupStatus := 2 }))
    ∧ (s.event = some (.dupcmdWithdraw d) → ∃ t, exec .dupcmdWithdraw s = .next t ∧ s.Outside t { dies := [d] }
      ∧ (¬ good → t.die d = { x with dupStatus := 2 })
      ∧ (good → (∃ u ∈ Tab.getD x.dups n [], u.holder = h ∧ u.copy = copy) → (t.die d).dupStatus = 1
          ∧ ∀ u ∈ Tab.getD (t.die d).dups n [], u.holder = h → u.copy = copy → u.sent = true)
      ∧ (good → (∀ u ∈ Tab.getD x.dups n [], ¬ (u.holder = h ∧ u.copy = copy)) → t.die d = { x with dupStatus := 0 })))
  ∧ (∀ (d c : Nat) (v : DWord) (s : State), s.event = some (.spillbase d c v) →
    ∃ t, exec .spillbase s = .next t ∧ (t.die d).spill = Tab.put (s.die d).spill c v
      ∧ ((∀ e ∈ s.groups, e.2.stored = false) → s.Outside t { dies := [d] }
          ∧ t.die d = { s.die d with spill := Tab.put (s.die d).spill c v })
      ∧ ∀ k g, s.groups = [(k, g)] → g.stored = true → coreDie g.loc = d → locCoreOfDie g.loc = c →
          let a := v.toNat + spillImage * g.slot
          (∀ j < spillImage, hbmDie (a + j) = some d ∧ isHostPa (a + j) = false) →
          ∀ j < spillImage, t.readPa (a + j)
            = s.readPa ((Tab.getD (s.die d).spill c 0).toNat + spillImage * g.slot + j))
  ∧ (∀ (d o n : Nat) (v : DWord) (s : State), s.event = some (.controlWindowWrite d o n v) →
    ∃ t, exec .controlWindowWrite s = .next t
      ∧ (cwWidth o ≠ some n → s.Outside t {})
      ∧ ∀ q m f, cwField o = some (q, m, f) → cwWidth o = some n → s.Outside t { dies := [d] }
        ∧ f (t.die d) = if q = true ∧ (s.die d).qen.getLsbD 0 = true then f (s.die d) else v &&& m)
  ∧ ∀ (d k : Nat) (s : State),
    let p := s.port d k
    let same := fun t : State => s.Outside t { dies := [d] } ∧ (∀ j, j ≠ k → t.port d j = s.port d j)
    (∀ i v, s.event = some (.heat d k i v) → ∃ t, exec .heat s = .next t ∧ same t
      ∧ (t.port d k).heatOf i = v.toNat % 4096 ∧ (∀ j, j ≠ i → (t.port d k).heatOf j = p.heatOf j)
      ∧ (∀ j, j ≠ i → (t.port d k).monOf j = p.monOf j) ∧ (p.mapped i = false → (t.port d k).monOf i = 0)
      ∧ (∀ w, waveOf p.wmap i = some w → (t.port d k).MonLaw i w (v.toNat % 4096))
      ∧ (t.port d k).wmap = p.wmap ∧ (t.port d k).warm = p.warm ∧ (t.port d k).base = p.base)
    ∧ (∀ v, s.event = some (.wmap d k v) → ∃ t, exec .wmap s = .next t ∧ same t
      ∧ (let m := v &&& 0x0000FFFFFFFFFFFF
         (¬ (ringsOf m).Nodup → t.port d k = { p with err := true })
         ∧ ((ringsOf m).Nodup → (t.port d k).wmap = m ∨ m = p.wmap ∧ t.port d k = p)
         ∧ ((ringsOf m).Nodup → m ≠ p.wmap → (t.port d k).glint = true
             ∧ (∀ r ∈ ringsOf p.wmap, r ∉ ringsOf m → (t.port d k).heatOf r = 0 ∧ (t.port d k).monOf r = 0)
             ∧ (∀ r, r ∈ ringsOf m ∨ r ∉ ringsOf p.wmap → (t.port d k).heatOf r = p.heatOf r)
             ∧ ∀ r w, waveOf m r = some w → (t.port d k).MonLaw r w (p.heatOf r))))
    ∧ (∀ v, s.event = some (.wactive d k v) → ∃ t, exec .wactive s = .next t ∧ same t
      ∧ t.port d k = if v.toNat % 16 ∈ [12, 6, 3] ∧ v.toNat % 16 ≠ p.wactive then
          { p with wactive := v.toNat % 16, glint := true } else p)
    ∧ (s.event = some (.glintRelease d k) → ∃ t, exec .glintRelease s = .next t ∧ same t
      ∧ t.port d k = { p with glint := false })
    ∧ (s.event = some (.pstatRead d k) → ∃ t, exec .pstatRead s = .next t ∧ same t
      ∧ t.port d k = { p with err := false })
    ∧ (∀ w, s.event = some (.wavelengthDegrade d k w) → p.wactive ∈ [12, 6, 3] →
      ∃ t, exec .wavelengthDegrade s = .next t ∧ same t
        ∧ (p.wactive ≤ w ∨ p.passes w = true → t.port d k = p)
        ∧ (w < p.wactive → p.passes w = false → (t.port d k).deg = true
          ∧ (let n := (t.port d k).wactive
             n ∈ [12, 6, 3] ∧ n ≤ p.wactive ∧ (n = 3 ∨ ∀ i < n, p.locked (ringAt p.wmap i) = true)
               ∧ (∀ m ∈ [12, 6], m ≤ p.wactive → (∀ i < m, p.locked (ringAt p.wmap i) = true) → m ≤ n)
               ∧ (n ≠ p.wactive → (t.port d k).glint = true))))
    ∧ (∀ w, s.event = some (.flitRetransmit d k w) → ∃ t, exec .flitRetransmit s = .next t ∧ same t
      ∧ t.port d k = if w < p.wactive ∧ p.passes w = false then
          { p with retrans := Tab.put p.retrans w (Tab.getD p.retrans w 0 + 1) } else p)
    ∧ ∀ x, s.event = some (.lossOfLock d k x) → ∃ t, exec .lossOfLock s = .next t ∧ same t
      ∧ (let q := t.port d k
         q = { p with warm := x, losses := q.losses }
           ∧ q.losses = p.losses + (List.range 16).countP (fun i => p.locked i && !q.locked i)
           ∧ ∀ i w, waveOf p.wmap i = some w → q.MonLaw i w (p.heatOf i))

/-- R8, R13, R15, R286, R365, R370 to R376: host accesses reach a die's memory, or are refused whole and logged, or wait
while the die is in reset; links lose lanes and retrain; dies go offline, reserves come in; power fails and the
checkpoint is written; warm and cold resets clear what their table says and keep the rest; bring-up replaces the units
that fail self-test and starts the firmware, and its first failure leaves the beacon state. The model's choices here:
the die that a link takes offline (assumption log 45), X-die 4 as the host's (46), a threshold that is reached (57), the
layout of the checkpoint (58), host accesses refused whole (63), bytes of the device's tables (111), what a warm reset
keeps (44, 62), the order of posted writes (118), links trained anew (123), the firmware's code and core (127), what
comes with a cold reset (133). -/
def Obligations.PackageEvents : Prop :=
  (∀ (d a : Nat) (data : List Byte) (s : State), s.event = some (.hostWrite d a data) → s.posted = [] →
    ((s.die d).inReset = true → ∃ t, exec .hostWrite s = .next t
      ∧ t = { s with event := none, posted := [(d, .mem a data)] })
    ∧ ((s.die d).inReset = false → (∀ j < data.length, hbmDie (a + j) = some d ∧ isCwPa (a + j) = false ∧ (s.frame (a + j)).typ.toNat ≤ 1
        ∧ (s.frame (a + j)).strand = false ∧ (s.frame (a + j)).trans = false ∧ (s.frame (a + j)).hold = 0) →
      s.causalReady 4 d = true →
      (∀ x < 4, ∀ j < data.length, Tab.find? (s.die x).peerLines ((a + j) / 128) = none) →
      ∃ t, exec .hostWrite s = .next t ∧ (∀ j b, data[j]? = some b → t.readPa (a + j) = b)
        ∧ (∀ x, ¬ (a ≤ x ∧ x < a + data.length) → t.readPa x = s.readPa x) ∧ ∀ k q m, t.regAt k q m = s.regAt k q m)
    ∧ ∀ f, (s.die d).inReset = false → (s.hostParts a data.length).find? (s.hostBad d true) = some f →
      ∃ t, exec .hostWrite s = .next t ∧ (t.die d).vlTail = (s.die d).vlTail + 1
        ∧ (let e := (s.die d).vlBase.toNat + 16 * ((s.die d).vlTail.toNat % 4096)
           ((∀ k < 16, hbmDie (e + k) = some d ∧ (s.frame (e + k)).hold = 0) → t.readPaLe e 8 = f.pa % 2 ^ 48 ∧ t.readPaLe (e + 8) 1 = 1)
           ∧ ∀ x, ¬ (e ≤ x ∧ x < e + 16) → isHostPa x = false → isHostPa e = false → t.readPa x = s.readPa x))
  ∧ (∀ (d a n : Nat) (s : State), s.event = some (.hostRead d a n) → (s.die d).inReset = false →
    ((∀ j < n, hbmDie (a + j) = some d ∧ isCwPa (a + j) = false ∧ (s.frame (a + j)).typ.toNat ≤ 1
        ∧ (s.frame (a + j)).strand = false ∧ (s.frame (a + j)).trans = false) → s.link d 4 = [] →
      s.linkOpen 4 d = true → s.linkOpen d 4 = true →
      ∃ t bs, exec .hostRead s = .next t ∧ t.hostReads = s.hostReads ++ [bs] ∧ bs.length = n
        ∧ (∀ k < n, bs[k]? = some ((s.tableByte (a + k)).getD (s.readPa (a + k)))) ∧ ∀ x, t.readPa x = s.readPa x)
    ∧ ∀ f, (s.hostParts a n).find? (s.hostBad d false) = some f →
      ∃ t, exec .hostRead s = .next t ∧ t.hostReads = s.hostReads ++ [[]] ∧ (t.die d).vlTail = (s.die d).vlTail + 1)
  ∧ (∀ (d e : Nat) (s : State), s.event = some (.laneLoss d e) →
    let k := 8 * d + e
    let r := Tab.getD s.linkReserve k 2
    let n := Tab.getD s.linkLanes k 32
    ∃ t, exec .laneLoss s = .next t
      ∧ (r ≠ 0 → Tab.getD t.linkReserve k 2 = r - 1 ∧ t.linkLanes = s.linkLanes ∧ k ∈ t.linkDown
          ∧ t.mailbox = s.mailbox ++ [.substituted d 2 e])
      ∧ (r = 0 → n ≠ 8 → Tab.getD t.linkLanes k 32 = (if n > 24 then 24 else if n > 16 then 16 else 8)
          ∧ k ∈ t.linkDown ∧ t.links = s.links)
      ∧ (r = 0 → n = 8 → (t.die (if d < 4 then d else e)).offline = true))
  ∧ (∀ (d e : Nat) (s : State), s.event = some (.linkRetrainDone d e) →
    ∃ t, exec .linkRetrainDone s = .next t ∧ (∀ k, k ∈ t.linkDown ↔ k ∈ s.linkDown ∧ k ≠ 8 * d + e)
      ∧ t.links = s.links)
  ∧ (∀ (d : Nat) (ns : List Nat) (s : State), s.event = some (.dieOffline d ns) → d < 4 → (s.die d).offline = false →
    ∃ t, exec .dieOffline s = .next t ∧ (t.die d).offline = true
      ∧ (∀ pa, hbmDie pa = some d → pa / 131072 ∉ ns → (t.frame pa).trans = true)
      ∧ (∀ n ∈ ns, hbmDie (n * 131072) = some d → (t.frame (n * 131072)).strand = true
          ∧ (t.frame (n * 131072)).trans = false ∧ .stranded d n ∈ t.mailbox)
      ∧ (∀ a, t.readPa a = s.readPa a) ∧ ∀ e, e ≠ d → t.die e = s.die e)
  ∧ (∀ (d k u n : Nat) (s : State), s.event = some (.correctedErrorWindow d k u n) → d < 4 →
    (k = 0 → u < 32) → (k = 1 → u < 64) →
    ∃ t, exec .correctedErrorWindow s = .next t
      ∧ (k < 2 → 64 ≤ n → Tab.getD (s.die d).reserves k 0 < 2 →
          Tab.getD (t.die d).reserves k 0 = Tab.getD (s.die d).reserves k 0 + 1
          ∧ Tab.getD (t.die d).unitsNext (128 * k + u) u = (if k = 0 then 32 else 64) + Tab.getD (s.die d).reserves k 0
          ∧ (t.die d).units = (s.die d).units ∧ t.mailbox = s.mailbox ++ [.substituted d k u])
      ∧ (k < 2 → n < 64 → s.Outside t {})
      ∧ (k = 2 → n < 1000 → s.Outside t {})
      ∧ (k = 2 → 1000 ≤ n → u < 6 → u ≠ d → Tab.getD s.linkReserve (8 * d + u) 2 ≠ 0 →
          Tab.getD t.linkReserve (8 * d + u) 2 = Tab.getD s.linkReserve (8 * d + u) 2 - 1)
      ∧ (k = 3 → (t.port d u).losses = 0 ∧ (t.port d u).wmap = (s.port d u).wmap
          ∧ t.mailbox = s.mailbox ++ if 16 ≤ n then [.substituted d 3 u] else []))
  ∧ (∀ (s : State) (c : MailCmd), s.event = some (.mailboxCommand c) →
    (∀ f, s.power = .beacon f → ∃ t, exec .mailboxCommand s = .next t
      ∧ ∃ r : List Byte, t.mailbox = s.mailbox ++ [.failure r] ∧ r.length = 32 ∧ leNat (r.take 4) = 0x4E434542
        ∧ leNat ((r.drop 4).take 1) = f.step % 256 ∧ leNat ((r.drop 5).take 1) = f.kind % 256
        ∧ leNat ((r.drop 6).take 2) = f.unit % 65536 ∧ leNat ((r.drop 8).take 4) = f.code % 2 ^ 32)
    ∧ (∀ d, c = .dieOffline d → s.power = .running → (s.die d).offline = false →
      ∃ t, exec .mailboxCommand s = .next t ∧ (t.die d).offline = true ∧ t.mailbox = s.mailbox
        ∧ ∀ pa, hbmDie pa = some d → (t.frame pa).trans = true)
    ∧ ∀ d w, c = .budget d w → s.power = .running →
      ∃ t, exec .mailboxCommand s = .next t ∧ s.Outside t { dies := [d] }
        ∧ t.die d = { s.die d with budget := max 60 (min 420 w) })
  ∧ (∀ s : State, s.event = some .powerLoss → ∃ t, exec .powerLoss s = .next t ∧ t = { s with event := none, power := .lost })
  ∧ (∀ (mask : Nat) (ok : Bool) (s : State), s.event = some (.checkpointComplete mask ok) → s.power = .lost →
    s.MemoriesWf →
    ∃ t, exec .checkpointComplete s = .next t
      ∧ leNat (Memory.readN t.safeTier (2 ^ 40) 4) = 0x54464153
      ∧ leNat (Memory.readN t.safeTier (2 ^ 40 + 4) 4) = (if ok then 2 else 3)
      ∧ leNat (Memory.readN t.safeTier (2 ^ 40 + 8) 4) = mask % 256
      ∧ (∀ d pa, d < 4 → hbmDie pa = some d → mask / 2 ^ (2 * d + (stackOf pa).1) % 2 = 1 →
          Memory.read t.safeTier (stackAt d (stackOf pa).1 + (stackOf pa).2) = (s.tableByte pa).getD (s.readPa pa))
      ∧ (∀ a, a < 2 ^ 40 → Memory.read t.safeTier a = Memory.read s.safeTier a) ∧ ∀ a, t.readPa a = s.readPa a)
  ∧ (∀ (d : Nat) (s : State), s.event = some (.warmReset d) → d < 4 → (s.die d).held = [] →
    let s1 := ({ s with event := none } : State).logShootdowns d
    ∃ t, exec .warmReset s = .next t
      ∧ (let x := t.die d
         x.inReset = true ∧ x.qen = 0 ∧ x.sid = 0 ∧ x.queues = [] ∧ x.staging = [] ∧ x.heldPush = [] ∧ x.ordq = []
           ∧ x.gates = [] ∧ x.patterns = [] ∧ x.prices = [] ∧ x.peers = [] ∧ x.tlb = [] ∧ x.walkPtrs = []
           ∧ x.spill = []
           ∧ x.mem = (s1.die d).mem ∧ x.frames = (s1.die d).frames ∧ x.regions = (s1.die d).regions
           ∧ x.ticks = (s1.die d).ticks ∧ x.budget = (s1.die d).budget ∧ x.rootBase = (s1.die d).rootBase)
      ∧ (∀ k g, t.group? k = some g → locDie g.loc ≠ d) ∧ (∀ k w, t.wg? k = some w → locDie w.loc ≠ d)
      ∧ (∀ k g, s.group? k = some g → locDie g.loc ≠ d → t.group? k = some g)
      ∧ (∀ l, locDie l = d → (t.core l).purse = 0 ∧ (t.core l).engine = {} ∧ (t.core l).l1 = (s.core l).l1)
      ∧ (∀ l, locDie l ≠ d → t.core l = s.core l)
      ∧ ∀ c, c / 32 = d → (t.cluster c).tags = [] ∧ (t.cluster c).tasks = [] ∧ (t.cluster c).ladles = []
          ∧ (t.cluster c).spad = (s.cluster c).spad ∧ (t.cluster c).freq = (s.cluster c).freq)
  ∧ (∀ (d : Nat) (s : State), s.event = some (.warmResetEnd d) →
    ∃ t, exec .warmResetEnd s = .next t ∧ t.die d = { s.die d with inReset := false } ∧ s.Outside t { dies := [d] })
  ∧ ∀ (b : BringUp) (s : State), s.event = some (.coldReset b) →
    ∃ t, exec .coldReset s = .next t
      ∧ (fwOk b.firmware = false → t.power = .beacon { step := 1, kind := 7, unit := 0, code := 1 } ∧ s.Cold t 0
          ∧ ∀ g, t.group? g = none)
      ∧ (∀ f, fwOk b.firmware = true → b.failed = some f → f.step ≤ 2 ∨ b.bad = [] → t.power = .beacon f ∧ s.Cold t 0
          ∧ ∀ g, t.group? g = none)
      ∧ (∀ d k u r, fwOk b.firmware = true → b.failed = none → b.bad = (d, k, u) :: r → k < 2 →
          2 ≤ Tab.getD (s.die d).reserves k 0 →
          t.power = .beacon { step := 3, kind := k, unit := if k = 0 then 256 * d + 4 * u else u, code := b.shortCode }
          ∧ s.Cold t 0 ∧ ∀ g, t.group? g = none)
      ∧ (∀ d k u, fwOk b.firmware = true → b.failed = none → b.bad = [(d, k, u)] → k < 2 →
          Tab.getD (s.die d).reserves k 0 < 2 → b.windows = [] → b.res = [] → b.kernel = [] →
          t.power = .running ∧ Tab.getD (t.die d).reserves k 0 = Tab.getD (s.die d).reserves k 0 + 1
          ∧ (t.die d).unit k u = (if k = 0 then 32 else 64) + Tab.getD (s.die d).reserves k 0
          ∧ ∀ e, e ≠ d → (t.die e).units = (s.die e).remap.units)
      ∧ (fwOk b.firmware = true → b.failed = none → b.bad = [] → b.windows = [] → b.res = [] → b.kernel = [] →
          t.power = .running ∧ s.Cold t 1 ∧ t.firmware = fwCode b.firmware
          ∧ ∃ n g, t.group? n = some g ∧ (∀ m, m ≠ n → t.group? m = none) ∧ g.loc = 1024 ∧ g.steward = true
            ∧ ∃ p, g.paths = [p] ∧ p.pc.toNat = leAt b.firmware 0x30 8 % 2 ^ 64 ∧ p.mask = 1)

/-! ### The machine -/

/-- R191, R204, R367, R369 to R371, R377, R384: the state after cold reset and bring-up. No work is anywhere,
the queues are off, tables, purses, gates, clocks and ports have the values of the tables, only region 0 is
live and it is privileged. -/
def Obligations.ResetLeaves : Prop :=
  let s := State.reset
  (∀ g, s.group? g = none) ∧ (∀ w, s.wg? w = none) ∧ (∀ o, s.op? o = none) ∧ s.power = .running
    ∧ (∀ d < 4, (s.die d).qen = 0 ∧ (s.die d).sid = 0 ∧ (s.die d).budget = 420 ∧ (s.die d).ringf = 1200
        ∧ (s.die d).ticks = 0 ∧ (∀ k, s.gate d k = 0) ∧ (∀ k, Tab.find? (s.die d).patterns k = none)
        ∧ (∀ k v, (Tab.getD (s.die d).peers k {}).covers v = false) ∧ (s.die d).tlb = []
        ∧ (∀ l, (s.die d).level l = [])
        ∧ ((List.range 16).map (s.die d).price = [0, 1, 2, 4, 3, 8, 24, 32, 410, 221, 119, 68, 1230, 0, 0, 0])
        ∧ (∀ r, (s.rgn? d r).isSome = true ↔ r = 0) ∧ s.rgnPriv d 0 = true
        ∧ ∀ k, (s.port d k).wactive = 12 ∧ (s.port d k).lockset = 0x01900800
            ∧ (s.port d k).wmap = 0x0000BA9876543210)
    ∧ (∀ l, (s.core l).purse = 0 ∧ (s.core l).grant = 64 ∧ (s.core l).engine.owner = .free
        ∧ (s.core l).engine.table = [])
    ∧ ∀ c, (s.cluster c).freq = 1200 ∧ (s.cluster c).lr = 1 ∧ (s.cluster c).tags = [] ∧ (s.cluster c).tasks = []

/-- The model's memories are canonical: addresses rise strictly and no entry is what an unlisted address reads
as; so they are after reset. -/
def Obligations.ResetMemoryCanonical : Prop := State.reset.MemoriesWf

/-- Every step keeps every memory of the package canonical: equal memories are equal data. -/
def Obligations.StepKeepsMemoryCanonical : Prop :=
  ∀ s t : State, s.MemoriesWf → step s = .next t → t.MemoriesWf

/-- R73 to R92: the bytes of every well-formed instruction decode to it, whatever follows, and to its length of
one to three words. -/
def Obligations.DecodeEncode : Prop :=
  ∀ (i : Instr) (rest : List Byte), i.wellFormed = true → i.isEvent = false →
    1 ≤ (encode i).length ∧ (encode i).length ≤ 3
      ∧ decodeBytes ((encode i).flatMap wordBytes ++ rest) = .ok (i, 4 * (encode i).length)

/-- R73 to R92: words written out from the encoding tables, one of a family, decode to their instructions. -/
def Obligations.DecodesSpecWords : Prop :=
  decodeWords [0xB880C000] = .ok (.wait { k := 2, n := 3 }, [])
    ∧ decodeWords [0xBA63C780] = .ok (.barSync 3, [])
    ∧ decodeWords [0xBDE02780] = .ok (.join 4, [])
    ∧ decodeWords [0xBFE03070] = .ok (.gateAdd { a := 6, b := 7, x := 0 }, [])
    ∧ decodeWords [0xBFE037F1, 0xF0000005] = .ok (.gateWait { a := 6, b := 127, x := 5 }, [])
    ∧ decodeWords [0xC027C780] = .ok (.lumPurse 9, [])

/-- R25, R93: at a path's turn the instruction whose words stand at its PC is executed on the state that the
fetch leaves. R75, R92, R93: a fetch that faults, an extension word first, and words that decode to nothing stop the
path with the code of the fetch, with XLAND or ILL, and with ILL; which paths bear the mark of a transfer is assumption
log 98. An event of the agenda takes place as its row says; the agenda and its cursor are the model's (assumption log 2).
R372, R376: without power, or after a failed bring-up, no instruction runs; the names of these stops are assumption log
91. -/
def Obligations.StepRunsDecoded : Prop :=
  ((∀ (s s1 : State) (c : Ctx) (w : Word) (ws : List Word) (i : Instr) (r : List Word),
    s.agenda = [] → s.power = .running → s.ctx? .nop {} = some c → s.canIssue c = true →
    s.fetchWord c.g c.p.pc.toNat = (.ok w, s1) →
    (∀ s2, s1.fetchMore c.g (c.p.pc.toNat + 4) (Prim.unpack w).extCount = (.ok ws, s2) →
      decodeWords (w :: ws) = .ok (i, r) → step s = exec i s2))
  ∧ (∀ (s s1 : State) (c : Ctx), s.agenda = [] → s.power = .running → s.ctx? .nop {} = some c → s.canIssue c = true →
      (∀ code, s.fetchWord c.g c.p.pc.toNat = (.error code, s1) → code ≠ .preempt →
        step s = .next (s1.trapMask c code c.p.mask c.p.pc 0))
      ∧ (∀ w, s.fetchWord c.g c.p.pc.toNat = (.ok w, s1) → isExtWord w = true →
        step s = .next (s1.trapMask c (if c.p.xfer = true then .xland else .ill) c.p.mask c.p.pc 0))
      ∧ (∀ w code s2, s.fetchWord c.g c.p.pc.toNat = (.ok w, s1) → isExtWord w = false →
        s1.fetchMore c.g (c.p.pc.toNat + 4) (Prim.unpack w).extCount = (.error code, s2) → code ≠ .preempt →
        step s = .next (s2.trapMask c code c.p.mask c.p.pc 0))
      ∧ ∀ w ws s2 x, s.fetchWord c.g c.p.pc.toNat = (.ok w, s1) → isExtWord w = false →
        s1.fetchMore c.g (c.p.pc.toNat + 4) (Prim.unpack w).extCount = (.ok ws, s2) → decodeWords (w :: ws) = .error x →
        step s = .next (s2.trapMask c .ill c.p.mask c.p.pc 0))
  ∧ (∀ (s : State) (e : Ev) (r : List Turn), s.agenda = .ev e :: r → e.wellFormed = true →
      Ev.on s.power e = true → step s = exec e.row { s with agenda := r, event := some e })
  ∧ ∀ (s : State) (g p : Nat), s.agenda = [.issue g p] → step s = step { s with agenda := [], cursor := (g, p) })
  ∧ ((∀ s : State, s.agenda = [] → s.power = .lost → step s = .fault .powerLost)
    ∧ ∀ (s : State) (f : Failure), s.agenda = [] → s.power = .beacon f → step s = .fault .beacon)

end
end

