-- ==== Sys2Proof/Laws/Fields.lean ====
section
/-! SUPPORT. The fields of words and payloads: what each layout of R76 to R86 holds where. -/

namespace Sys2Proof

theorem lo_app_lt {a b : Nat} (x : BitVec a) (y : BitVec b) {k n : Nat} (h : k + n ≤ b) :
    lo (x ++ y) k n = lo y k n := by
  apply BitVec.eq_of_getLsbD_eq
  intro i hi
  have : k + i < b := by omega
  simp [lo, BitVec.getLsbD_extractLsb', BitVec.getLsbD_append, this]

theorem lo_app_ge {a b : Nat} (x : BitVec a) (y : BitVec b) {k n : Nat} (h : b ≤ k) :
    lo (x ++ y) k n = lo x (k - b) n := by
  apply BitVec.eq_of_getLsbD_eq
  intro i hi
  have h1 : ¬ k + i < b := by omega
  have h2 : k + i - b = k - b + i := by omega
  simp [lo, BitVec.getLsbD_extractLsb', BitVec.getLsbD_append, h1, h2]

@[simp] theorem lo_all {a : Nat} (x : BitVec a) : lo x 0 a = x := by
  apply BitVec.eq_of_getLsbD_eq
  intro i hi
  simp [lo, hi]

theorem bit_app_lt {a b : Nat} (x : BitVec a) (y : BitVec b) {k : Nat} (h : k < b) :
    bit (x ++ y) k = bit y k := by simp [bit, BitVec.getLsbD_append, h]

theorem bit_app_ge {a b : Nat} (x : BitVec a) (y : BitVec b) {k : Nat} (h : b ≤ k) :
    bit (x ++ y) k = bit x (k - b) := by
  simp [bit, BitVec.getLsbD_append, Nat.not_lt.mpr h]

theorem bit_all (b : Bool) : bit (BitVec.ofBool b) 0 = b := by cases b <;> rfl

/-- Two neighbouring fields of a number are the field over both. -/
theorem lo_join {w : Nat} (v : BitVec w) {k n m j : Nat} (h : k = j + m) :
    (lo v k n ++ lo v j m : BitVec (n + m)) = lo v j (n + m) := by
  subst h
  apply BitVec.eq_of_getLsbD_eq
  intro i hi
  simp only [lo, BitVec.getLsbD_append, BitVec.getLsbD_extractLsb']
  split
  · next h => simp [h, hi]
  · next h =>
    have h1 : i - m < n := by omega
    have h2 : j + m + (i - m) = j + i := by omega
    simp [h1, h2, hi]

@[simp] theorem mem_lo25 (a : BitVec 3) (b : BitVec 4) (c : BitVec 3) (d : BitVec 18) : lo (a ++ b ++ c ++ d : Payload) 25 3 = a := by
  show lo (a ++ b ++ c ++ d) 25 3 = a
  rw [lo_app_ge _ _ (by decide), lo_app_ge _ _ (by decide), lo_app_ge _ _ (by decide)]
  exact lo_all _

@[simp] theorem mem_lo21 (a : BitVec 3) (b : BitVec 4) (c : BitVec 3) (d : BitVec 18) : lo (a ++ b ++ c ++ d : Payload) 21 4 = b := by
  show lo (a ++ b ++ c ++ d) 21 4 = b
  rw [lo_app_ge _ _ (by decide), lo_app_ge _ _ (by decide), lo_app_lt _ _ (by decide)]
  exact lo_all _

@[simp] theorem mem_lo18 (a : BitVec 3) (b : BitVec 4) (c : BitVec 3) (d : BitVec 18) : lo (a ++ b ++ c ++ d : Payload) 18 3 = c := by
  show lo (a ++ b ++ c ++ d) 18 3 = c
  rw [lo_app_ge _ _ (by decide), lo_app_lt _ _ (by decide)]
  exact lo_all _

@[simp] theorem mem_lo0 (a : BitVec 3) (b : BitVec 4) (c : BitVec 3) (d : BitVec 18) : lo (a ++ b ++ c ++ d : Payload) 0 18 = d := by
  show lo (a ++ b ++ c ++ d) 0 18 = d
  rw [lo_app_lt _ _ (by decide)]
  exact lo_all _

@[simp] theorem off_lo25 (a : BitVec 3) (d : BitVec 18) : lo (a ++ 0#7 ++ d : Payload) 25 3 = a := by
  show lo (a ++ 0#7 ++ d) 25 3 = a
  rw [lo_app_ge _ _ (by decide), lo_app_ge _ _ (by decide)]
  exact lo_all _

@[simp] theorem off_lo18 (a : BitVec 3) (d : BitVec 18) : lo (a ++ 0#7 ++ d : Payload) 18 7 = 0#7 := by
  show lo (a ++ 0#7 ++ d) 18 7 = 0#7
  rw [lo_app_ge _ _ (by decide), lo_app_lt _ _ (by decide)]
  exact lo_all _

@[simp] theorem off_lo0 (a : BitVec 3) (d : BitVec 18) : lo (a ++ 0#7 ++ d : Payload) 0 18 = d := by
  show lo (a ++ 0#7 ++ d) 0 18 = d
  rw [lo_app_lt _ _ (by decide)]
  exact lo_all _

@[simp] theorem fill_lo21 (a : BitVec 7) : lo (a ++ 0#21 : Payload) 21 7 = a := by
  show lo (a ++ 0#21) 21 7 = a
  rw [lo_app_ge _ _ (by decide)]
  exact lo_all _

@[simp] theorem fill_lo0 (a : BitVec 7) : lo (a ++ 0#21 : Payload) 0 21 = 0#21 := by
  show lo (a ++ 0#21) 0 21 = 0#21
  rw [lo_app_lt _ _ (by decide)]
  exact lo_all _

@[simp] theorem gat_lo25 (a : BitVec 3) (b : BitVec 4) (c : BitVec 3) (d : BitVec 2) (e : BitVec 3) : lo (a ++ b ++ c ++ d ++ e ++ 0#13 : Payload) 25 3 = a := by
  show lo (a ++ b ++ c ++ d ++ e ++ 0#13) 25 3 = a
  rw [lo_app_ge _ _ (by decide), lo_app_ge _ _ (by decide), lo_app_ge _ _ (by decide),
    lo_app_ge _ _ (by decide), lo_app_ge _ _ (by decide)]
  exact lo_all _

@[simp] theorem gat_lo21 (a : BitVec 3) (b : BitVec 4) (c : BitVec 3) (d : BitVec 2) (e : BitVec 3) : lo (a ++ b ++ c ++ d ++ e ++ 0#13 : Payload) 21 4 = b := by
  show lo (a ++ b ++ c ++ d ++ e ++ 0#13) 21 4 = b
  rw [lo_app_ge _ _ (by decide), lo_app_ge _ _ (by decide), lo_app_ge _ _ (by decide),
    lo_app_ge _ _ (by decide), lo_app_lt _ _ (by decide)]
  exact lo_all _

@[simp] theorem gat_lo18 (a : BitVec 3) (b : BitVec 4) (c : BitVec 3) (d : BitVec 2) (e : BitVec 3) : lo (a ++ b ++ c ++ d ++ e ++ 0#13 : Payload) 18 3 = c := by
  show lo (a ++ b ++ c ++ d ++ e ++ 0#13) 18 3 = c
  rw [lo_app_ge _ _ (by decide), lo_app_ge _ _ (by decide), lo_app_ge _ _ (by decide),
    lo_app_lt _ _ (by decide)]
  exact lo_all _

@[simp] theorem gat_lo16 (a : BitVec 3) (b : BitVec 4) (c : BitVec 3) (d : BitVec 2) (e : BitVec 3) : lo (a ++ b ++ c ++ d ++ e ++ 0#13 : Payload) 16 2 = d := by
  show lo (a ++ b ++ c ++ d ++ e ++ 0#13) 16 2 = d
  rw [lo_app_ge _ _ (by decide), lo_app_ge _ _ (by decide), lo_app_lt _ _ (by decide)]
  exact lo_all _

@[simp] theorem gat_lo13 (a : BitVec 3) (b : BitVec 4) (c : BitVec 3) (d : BitVec 2) (e : BitVec 3) : lo (a ++ b ++ c ++ d ++ e ++ 0#13 : Payload) 13 3 = e := by
  show lo (a ++ b ++ c ++ d ++ e ++ 0#13) 13 3 = e
  rw [lo_app_ge _ _ (by decide), lo_app_lt _ _ (by decide)]
  exact lo_all _

@[simp] theorem gat_lo0 (a : BitVec 3) (b : BitVec 4) (c : BitVec 3) (d : BitVec 2) (e : BitVec 3) : lo (a ++ b ++ c ++ d ++ e ++ 0#13 : Payload) 0 13 = 0#13 := by
  show lo (a ++ b ++ c ++ d ++ e ++ 0#13) 0 13 = 0#13
  rw [lo_app_lt _ _ (by decide)]
  exact lo_all _

@[simp] theorem count_lo25 (a : BitVec 3) : lo (a ++ 0#25 : Payload) 25 3 = a := by
  show lo (a ++ 0#25) 25 3 = a
  rw [lo_app_ge _ _ (by decide)]
  exact lo_all _

@[simp] theorem count_lo0 (a : BitVec 3) : lo (a ++ 0#25 : Payload) 0 25 = 0#25 := by
  show lo (a ++ 0#25) 0 25 = 0#25
  rw [lo_app_lt _ _ (by decide)]
  exact lo_all _

@[simp] theorem mxMul1_lo20 (a : BitVec 8) (b : BitVec 8) (c : BitVec 8) (d : BitVec 2) : lo (a ++ b ++ c ++ d ++ 0#2 : Payload) 20 8 = a := by
  show lo (a ++ b ++ c ++ d ++ 0#2) 20 8 = a
  rw [lo_app_ge _ _ (by decide), lo_app_ge _ _ (by decide), lo_app_ge _ _ (by decide),
    lo_app_ge _ _ (by decide)]
  exact lo_all _

@[simp] theorem mxMul1_lo12 (a : BitVec 8) (b : BitVec 8) (c : BitVec 8) (d : BitVec 2) : lo (a ++ b ++ c ++ d ++ 0#2 : Payload) 12 8 = b := by
  show lo (a ++ b ++ c ++ d ++ 0#2) 12 8 = b
  rw [lo_app_ge _ _ (by decide), lo_app_ge _ _ (by decide), lo_app_ge _ _ (by decide),
    lo_app_lt _ _ (by decide)]
  exact lo_all _

@[simp] theorem mxMul1_lo4 (a : BitVec 8) (b : BitVec 8) (c : BitVec 8) (d : BitVec 2) : lo (a ++ b ++ c ++ d ++ 0#2 : Payload) 4 8 = c := by
  show lo (a ++ b ++ c ++ d ++ 0#2) 4 8 = c
  rw [lo_app_ge _ _ (by decide), lo_app_ge _ _ (by decide), lo_app_lt _ _ (by decide)]
  exact lo_all _

@[simp] theorem mxMul1_lo2 (a : BitVec 8) (b : BitVec 8) (c : BitVec 8) (d : BitVec 2) : lo (a ++ b ++ c ++ d ++ 0#2 : Payload) 2 2 = d := by
  show lo (a ++ b ++ c ++ d ++ 0#2) 2 2 = d
  rw [lo_app_ge _ _ (by decide), lo_app_lt _ _ (by decide)]
  exact lo_all _

@[simp] theorem mxMul1_lo0 (a : BitVec 8) (b : BitVec 8) (c : BitVec 8) (d : BitVec 2) : lo (a ++ b ++ c ++ d ++ 0#2 : Payload) 0 2 = 0#2 := by
  show lo (a ++ b ++ c ++ d ++ 0#2) 0 2 = 0#2
  rw [lo_app_lt _ _ (by decide)]
  exact lo_all _

@[simp] theorem mxMul2_lo25 (a : BitVec 3) (b : BitVec 7) (c : BitVec 2) (d : BitVec 12) : lo (a ++ b ++ c ++ d ++ 0#4 : Payload) 25 3 = a := by
  show lo (a ++ b ++ c ++ d ++ 0#4) 25 3 = a
  rw [lo_app_ge _ _ (by decide), lo_app_ge _ _ (by decide), lo_app_ge _ _ (by decide),
    lo_app_ge _ _ (by decide)]
  exact lo_all _

@[simp] theorem mxMul2_lo18 (a : BitVec 3) (b : BitVec 7) (c : BitVec 2) (d : BitVec 12) : lo (a ++ b ++ c ++ d ++ 0#4 : Payload) 18 7 = b := by
  show lo (a ++ b ++ c ++ d ++ 0#4) 18 7 = b
  rw [lo_app_ge _ _ (by decide), lo_app_ge _ _ (by decide), lo_app_ge _ _ (by decide),
    lo_app_lt _ _ (by decide)]
  exact lo_all _

@[simp] theorem mxMul2_lo16 (a : BitVec 3) (b : BitVec 7) (c : BitVec 2) (d : BitVec 12) : lo (a ++ b ++ c ++ d ++ 0#4 : Payload) 16 2 = c := by
  show lo (a ++ b ++ c ++ d ++ 0#4) 16 2 = c
  rw [lo_app_ge _ _ (by decide), lo_app_ge _ _ (by decide), lo_app_lt _ _ (by decide)]
  exact lo_all _

@[simp] theorem mxMul2_lo4 (a : BitVec 3) (b : BitVec 7) (c : BitVec 2) (d : BitVec 12) : lo (a ++ b ++ c ++ d ++ 0#4 : Payload) 4 12 = d := by
  show lo (a ++ b ++ c ++ d ++ 0#4) 4 12 = d
  rw [lo_app_ge _ _ (by decide), lo_app_lt _ _ (by decide)]
  exact lo_all _

@[simp] theorem mxMul2_lo0 (a : BitVec 3) (b : BitVec 7) (c : BitVec 2) (d : BitVec 12) : lo (a ++ b ++ c ++ d ++ 0#4 : Payload) 0 4 = 0#4 := by
  show lo (a ++ b ++ c ++ d ++ 0#4) 0 4 = 0#4
  rw [lo_app_lt _ _ (by decide)]
  exact lo_all _

@[simp] theorem cvt_lo24 (a : BitVec 4) (b : BitVec 4) (c : BitVec 2) : lo (a ++ b ++ c ++ 0#18 : Payload) 24 4 = a := by
  show lo (a ++ b ++ c ++ 0#18) 24 4 = a
  rw [lo_app_ge _ _ (by decide), lo_app_ge _ _ (by decide), lo_app_ge _ _ (by decide)]
  exact lo_all _

@[simp] theorem cvt_lo20 (a : BitVec 4) (b : BitVec 4) (c : BitVec 2) : lo (a ++ b ++ c ++ 0#18 : Payload) 20 4 = b := by
  show lo (a ++ b ++ c ++ 0#18) 20 4 = b
  rw [lo_app_ge _ _ (by decide), lo_app_ge _ _ (by decide), lo_app_lt _ _ (by decide)]
  exact lo_all _

@[simp] theorem cvt_lo18 (a : BitVec 4) (b : BitVec 4) (c : BitVec 2) : lo (a ++ b ++ c ++ 0#18 : Payload) 18 2 = c := by
  show lo (a ++ b ++ c ++ 0#18) 18 2 = c
  rw [lo_app_ge _ _ (by decide), lo_app_lt _ _ (by decide)]
  exact lo_all _

@[simp] theorem cvt_lo0 (a : BitVec 4) (b : BitVec 4) (c : BitVec 2) : lo (a ++ b ++ c ++ 0#18 : Payload) 0 18 = 0#18 := by
  show lo (a ++ b ++ c ++ 0#18) 0 18 = 0#18
  rw [lo_app_lt _ _ (by decide)]
  exact lo_all _

@[simp] theorem atom_lo25 (a : BitVec 3) (b : BitVec 4) (c : BitVec 3) (d : BitVec 4) (e : BitVec 14) : lo (a ++ b ++ c ++ d ++ e : Payload) 25 3 = a := by
  show lo (a ++ b ++ c ++ d ++ e) 25 3 = a
  rw [lo_app_ge _ _ (by decide), lo_app_ge _ _ (by decide), lo_app_ge _ _ (by decide),
    lo_app_ge _ _ (by decide)]
  exact lo_all _

@[simp] theorem atom_lo21 (a : BitVec 3) (b : BitVec 4) (c : BitVec 3) (d : BitVec 4) (e : BitVec 14) : lo (a ++ b ++ c ++ d ++ e : Payload) 21 4 = b := by
  show lo (a ++ b ++ c ++ d ++ e) 21 4 = b
  rw [lo_app_ge _ _ (by decide), lo_app_ge _ _ (by decide), lo_app_ge _ _ (by decide),
    lo_app_lt _ _ (by decide)]
  exact lo_all _

@[simp] theorem atom_lo18 (a : BitVec 3) (b : BitVec 4) (c : BitVec 3) (d : BitVec 4) (e : BitVec 14) : lo (a ++ b ++ c ++ d ++ e : Payload) 18 3 = c := by
  show lo (a ++ b ++ c ++ d ++ e) 18 3 = c
  rw [lo_app_ge _ _ (by decide), lo_app_ge _ _ (by decide), lo_app_lt _ _ (by decide)]
  exact lo_all _

@[simp] theorem atom_lo14 (a : BitVec 3) (b : BitVec 4) (c : BitVec 3) (d : BitVec 4) (e : BitVec 14) : lo (a ++ b ++ c ++ d ++ e : Payload) 14 4 = d := by
  show lo (a ++ b ++ c ++ d ++ e) 14 4 = d
  rw [lo_app_ge _ _ (by decide), lo_app_lt _ _ (by decide)]
  exact lo_all _

@[simp] theorem atom_lo0 (a : BitVec 3) (b : BitVec 4) (c : BitVec 3) (d : BitVec 4) (e : BitVec 14) : lo (a ++ b ++ c ++ d ++ e : Payload) 0 14 = e := by
  show lo (a ++ b ++ c ++ d ++ e) 0 14 = e
  rw [lo_app_lt _ _ (by decide)]
  exact lo_all _

@[simp] theorem ordAtom_lo25 (a : BitVec 3) (e : BitVec 14) : lo (a ++ 0#4 ++ 2#3 ++ 11#4 ++ e : Payload) 25 3 = a := by
  show lo (a ++ 0#4 ++ 2#3 ++ 11#4 ++ e) 25 3 = a
  rw [lo_app_ge _ _ (by decide), lo_app_ge _ _ (by decide), lo_app_ge _ _ (by decide),
    lo_app_ge _ _ (by decide)]
  exact lo_all _

@[simp] theorem ordAtom_lo21 (a : BitVec 3) (e : BitVec 14) : lo (a ++ 0#4 ++ 2#3 ++ 11#4 ++ e : Payload) 21 4 = 0#4 := by
  show lo (a ++ 0#4 ++ 2#3 ++ 11#4 ++ e) 21 4 = 0#4
  rw [lo_app_ge _ _ (by decide), lo_app_ge _ _ (by decide), lo_app_ge _ _ (by decide),
    lo_app_lt _ _ (by decide)]
  exact lo_all _

@[simp] theorem ordAtom_lo18 (a : BitVec 3) (e : BitVec 14) : lo (a ++ 0#4 ++ 2#3 ++ 11#4 ++ e : Payload) 18 3 = 2#3 := by
  show lo (a ++ 0#4 ++ 2#3 ++ 11#4 ++ e) 18 3 = 2#3
  rw [lo_app_ge _ _ (by decide), lo_app_ge _ _ (by decide), lo_app_lt _ _ (by decide)]
  exact lo_all _

@[simp] theorem ordAtom_lo14 (a : BitVec 3) (e : BitVec 14) : lo (a ++ 0#4 ++ 2#3 ++ 11#4 ++ e : Payload) 14 4 = 11#4 := by
  show lo (a ++ 0#4 ++ 2#3 ++ 11#4 ++ e) 14 4 = 11#4
  rw [lo_app_ge _ _ (by decide), lo_app_lt _ _ (by decide)]
  exact lo_all _

@[simp] theorem ordAtom_lo0 (a : BitVec 3) (e : BitVec 14) : lo (a ++ 0#4 ++ 2#3 ++ 11#4 ++ e : Payload) 0 14 = e := by
  show lo (a ++ 0#4 ++ 2#3 ++ 11#4 ++ e) 0 14 = e
  rw [lo_app_lt _ _ (by decide)]
  exact lo_all _

@[simp] theorem run_lo25 (a : BitVec 3) (b : BitVec 4) : lo (a ++ b ++ 0#21 : Payload) 25 3 = a := by
  show lo (a ++ b ++ 0#21) 25 3 = a
  rw [lo_app_ge _ _ (by decide), lo_app_ge _ _ (by decide)]
  exact lo_all _

@[simp] theorem run_lo21 (a : BitVec 3) (b : BitVec 4) : lo (a ++ b ++ 0#21 : Payload) 21 4 = b := by
  show lo (a ++ b ++ 0#21) 21 4 = b
  rw [lo_app_ge _ _ (by decide), lo_app_lt _ _ (by decide)]
  exact lo_all _

@[simp] theorem run_lo0 (a : BitVec 3) (b : BitVec 4) : lo (a ++ b ++ 0#21 : Payload) 0 21 = 0#21 := by
  show lo (a ++ b ++ 0#21) 0 21 = 0#21
  rw [lo_app_lt _ _ (by decide)]
  exact lo_all _

@[simp] theorem mxRow_lo25 (a : BitVec 3) (b : BitVec 7) (c : BitVec 2) : lo (a ++ b ++ c ++ 0#16 : Payload) 25 3 = a := by
  show lo (a ++ b ++ c ++ 0#16) 25 3 = a
  rw [lo_app_ge _ _ (by decide), lo_app_ge _ _ (by decide), lo_app_ge _ _ (by decide)]
  exact lo_all _

@[simp] theorem mxRow_lo18 (a : BitVec 3) (b : BitVec 7) (c : BitVec 2) : lo (a ++ b ++ c ++ 0#16 : Payload) 18 7 = b := by
  show lo (a ++ b ++ c ++ 0#16) 18 7 = b
  rw [lo_app_ge _ _ (by decide), lo_app_ge _ _ (by decide), lo_app_lt _ _ (by decide)]
  exact lo_all _

@[simp] theorem mxRow_lo16 (a : BitVec 3) (b : BitVec 7) (c : BitVec 2) : lo (a ++ b ++ c ++ 0#16 : Payload) 16 2 = c := by
  show lo (a ++ b ++ c ++ 0#16) 16 2 = c
  rw [lo_app_ge _ _ (by decide), lo_app_lt _ _ (by decide)]
  exact lo_all _

@[simp] theorem mxRow_lo0 (a : BitVec 3) (b : BitVec 7) (c : BitVec 2) : lo (a ++ b ++ c ++ 0#16 : Payload) 0 16 = 0#16 := by
  show lo (a ++ b ++ c ++ 0#16) 0 16 = 0#16
  rw [lo_app_lt _ _ (by decide)]
  exact lo_all _

@[simp] theorem feed_lo25 (a : BitVec 3) (b : BitVec 8) (f : Bool) : lo (a ++ 0#4 ++ b ++ BitVec.ofBool f ++ 0#12 : Payload) 25 3 = a := by
  show lo (a ++ 0#4 ++ b ++ BitVec.ofBool f ++ 0#12) 25 3 = a
  rw [lo_app_ge _ _ (by decide), lo_app_ge _ _ (by decide), lo_app_ge _ _ (by decide),
    lo_app_ge _ _ (by decide)]
  exact lo_all _

@[simp] theorem feed_lo21 (a : BitVec 3) (b : BitVec 8) (f : Bool) : lo (a ++ 0#4 ++ b ++ BitVec.ofBool f ++ 0#12 : Payload) 21 4 = 0#4 := by
  show lo (a ++ 0#4 ++ b ++ BitVec.ofBool f ++ 0#12) 21 4 = 0#4
  rw [lo_app_ge _ _ (by decide), lo_app_ge _ _ (by decide), lo_app_ge _ _ (by decide),
    lo_app_lt _ _ (by decide)]
  exact lo_all _

@[simp] theorem feed_lo13 (a : BitVec 3) (b : BitVec 8) (f : Bool) : lo (a ++ 0#4 ++ b ++ BitVec.ofBool f ++ 0#12 : Payload) 13 8 = b := by
  show lo (a ++ 0#4 ++ b ++ BitVec.ofBool f ++ 0#12) 13 8 = b
  rw [lo_app_ge _ _ (by decide), lo_app_ge _ _ (by decide), lo_app_lt _ _ (by decide)]
  exact lo_all _

@[simp] theorem feed_bit12 (a : BitVec 3) (b : BitVec 8) (f : Bool) : bit (a ++ 0#4 ++ b ++ BitVec.ofBool f ++ 0#12 : Payload) 12 = f := by
  show bit (a ++ 0#4 ++ b ++ BitVec.ofBool f ++ 0#12) 12 = f
  rw [bit_app_ge _ _ (by decide), bit_app_lt _ _ (by decide)]
  exact bit_all _

@[simp] theorem feed_lo0 (a : BitVec 3) (b : BitVec 8) (f : Bool) : lo (a ++ 0#4 ++ b ++ BitVec.ofBool f ++ 0#12 : Payload) 0 12 = 0#12 := by
  show lo (a ++ 0#4 ++ b ++ BitVec.ofBool f ++ 0#12) 0 12 = 0#12
  rw [lo_app_lt _ _ (by decide)]
  exact lo_all _

@[simp] theorem mxPc_lo12 (a : BitVec 8) (b : BitVec 2) : lo (0#16 ++ a ++ b ++ 0#2 : Payload) 12 16 = 0#16 := by
  show lo (0#16 ++ a ++ b ++ 0#2) 12 16 = 0#16
  rw [lo_app_ge _ _ (by decide), lo_app_ge _ _ (by decide), lo_app_ge _ _ (by decide)]
  exact lo_all _

@[simp] theorem mxPc_lo4 (a : BitVec 8) (b : BitVec 2) : lo (0#16 ++ a ++ b ++ 0#2 : Payload) 4 8 = a := by
  show lo (0#16 ++ a ++ b ++ 0#2) 4 8 = a
  rw [lo_app_ge _ _ (by decide), lo_app_ge _ _ (by decide), lo_app_lt _ _ (by decide)]
  exact lo_all _

@[simp] theorem mxPc_lo2 (a : BitVec 8) (b : BitVec 2) : lo (0#16 ++ a ++ b ++ 0#2 : Payload) 2 2 = b := by
  show lo (0#16 ++ a ++ b ++ 0#2) 2 2 = b
  rw [lo_app_ge _ _ (by decide), lo_app_lt _ _ (by decide)]
  exact lo_all _

@[simp] theorem mxPc_lo0 (a : BitVec 8) (b : BitVec 2) : lo (0#16 ++ a ++ b ++ 0#2 : Payload) 0 2 = 0#2 := by
  show lo (0#16 ++ a ++ b ++ 0#2) 0 2 = 0#2
  rw [lo_app_lt _ _ (by decide)]
  exact lo_all _

@[simp] theorem mxEpi_lo25 (a : BitVec 3) (b : BitVec 7) (c : BitVec 2) (d : BitVec 4) : lo (a ++ b ++ c ++ 0#12 ++ d : Payload) 25 3 = a := by
  show lo (a ++ b ++ c ++ 0#12 ++ d) 25 3 = a
  rw [lo_app_ge _ _ (by decide), lo_app_ge _ _ (by decide), lo_app_ge _ _ (by decide),
    lo_app_ge _ _ (by decide)]
  exact lo_all _

@[simp] theorem mxEpi_lo18 (a : BitVec 3) (b : BitVec 7) (c : BitVec 2) (d : BitVec 4) : lo (a ++ b ++ c ++ 0#12 ++ d : Payload) 18 7 = b := by
  show lo (a ++ b ++ c ++ 0#12 ++ d) 18 7 = b
  rw [lo_app_ge _ _ (by decide), lo_app_ge _ _ (by decide), lo_app_ge _ _ (by decide),
    lo_app_lt _ _ (by decide)]
  exact lo_all _

@[simp] theorem mxEpi_lo16 (a : BitVec 3) (b : BitVec 7) (c : BitVec 2) (d : BitVec 4) : lo (a ++ b ++ c ++ 0#12 ++ d : Payload) 16 2 = c := by
  show lo (a ++ b ++ c ++ 0#12 ++ d) 16 2 = c
  rw [lo_app_ge _ _ (by decide), lo_app_ge _ _ (by decide), lo_app_lt _ _ (by decide)]
  exact lo_all _

@[simp] theorem mxEpi_lo4 (a : BitVec 3) (b : BitVec 7) (c : BitVec 2) (d : BitVec 4) : lo (a ++ b ++ c ++ 0#12 ++ d : Payload) 4 12 = 0#12 := by
  show lo (a ++ b ++ c ++ 0#12 ++ d) 4 12 = 0#12
  rw [lo_app_ge _ _ (by decide), lo_app_lt _ _ (by decide)]
  exact lo_all _

@[simp] theorem mxEpi_lo0 (a : BitVec 3) (b : BitVec 7) (c : BitVec 2) (d : BitVec 4) : lo (a ++ b ++ c ++ 0#12 ++ d : Payload) 0 4 = d := by
  show lo (a ++ b ++ c ++ 0#12 ++ d) 0 4 = d
  rw [lo_app_lt _ _ (by decide)]
  exact lo_all _

@[simp] theorem hi24_lo4 (a : BitVec 4) : lo (0#24 ++ a : Payload) 4 24 = 0#24 := by
  show lo (0#24 ++ a) 4 24 = 0#24
  rw [lo_app_ge _ _ (by decide)]
  exact lo_all _

@[simp] theorem hi24_lo0 (a : BitVec 4) : lo (0#24 ++ a : Payload) 0 4 = a := by
  show lo (0#24 ++ a) 0 4 = a
  rw [lo_app_lt _ _ (by decide)]
  exact lo_all _

@[simp] theorem fhn_lo2 (a : BitVec 2) (f : Bool) (g : Bool) : lo (a ++ BitVec.ofBool f ++ BitVec.ofBool g : BitVec 4) 2 2 = a := by
  show lo (a ++ BitVec.ofBool f ++ BitVec.ofBool g) 2 2 = a
  rw [lo_app_ge _ _ (by decide), lo_app_ge _ _ (by decide)]
  exact lo_all _

@[simp] theorem fhn_bit1 (a : BitVec 2) (f : Bool) (g : Bool) : bit (a ++ BitVec.ofBool f ++ BitVec.ofBool g : BitVec 4) 1 = f := by
  show bit (a ++ BitVec.ofBool f ++ BitVec.ofBool g) 1 = f
  rw [bit_app_ge _ _ (by decide), bit_app_lt _ _ (by decide)]
  exact bit_all _

@[simp] theorem fhn_bit0 (a : BitVec 2) (f : Bool) (g : Bool) : bit (a ++ BitVec.ofBool f ++ BitVec.ofBool g : BitVec 4) 0 = g := by
  show bit (a ++ BitVec.ofBool f ++ BitVec.ofBool g) 0 = g
  rw [bit_app_lt _ _ (by decide)]
  exact bit_all _

@[simp] theorem predCond_lo4 (a : BitVec 3) (b : BitVec 4) : lo (a ++ b : Name) 4 3 = a := by
  show lo (a ++ b) 4 3 = a
  rw [lo_app_ge _ _ (by decide)]
  exact lo_all _

@[simp] theorem predCond_lo0 (a : BitVec 3) (b : BitVec 4) : lo (a ++ b : Name) 0 4 = b := by
  show lo (a ++ b) 0 4 = b
  rw [lo_app_lt _ _ (by decide)]
  exact lo_all _

@[simp] theorem pred0_lo4 (a : BitVec 3) : lo (a ++ 0#4 : Name) 4 3 = a := by
  show lo (a ++ 0#4) 4 3 = a
  rw [lo_app_ge _ _ (by decide)]
  exact lo_all _

@[simp] theorem pred0_lo0 (a : BitVec 3) : lo (a ++ 0#4 : Name) 0 4 = 0#4 := by
  show lo (a ++ 0#4) 0 4 = 0#4
  rw [lo_app_lt _ _ (by decide)]
  exact lo_all _

@[simp] theorem walk_lo3 (a : BitVec 3) : lo (14#4 ++ a : Name) 3 4 = 14#4 := by
  show lo (14#4 ++ a) 3 4 = 14#4
  rw [lo_app_ge _ _ (by decide)]
  exact lo_all _

@[simp] theorem walk_lo0 (a : BitVec 3) : lo (14#4 ++ a : Name) 0 3 = a := by
  show lo (14#4 ++ a) 0 3 = a
  rw [lo_app_lt _ _ (by decide)]
  exact lo_all _

@[simp] theorem fence_lo3 (a : BitVec 4) (b : BitVec 2) : lo (a ++ b ++ 0#1 : Name) 3 4 = a := by
  show lo (a ++ b ++ 0#1) 3 4 = a
  rw [lo_app_ge _ _ (by decide), lo_app_ge _ _ (by decide)]
  exact lo_all _

@[simp] theorem fence_lo1 (a : BitVec 4) (b : BitVec 2) : lo (a ++ b ++ 0#1 : Name) 1 2 = b := by
  show lo (a ++ b ++ 0#1) 1 2 = b
  rw [lo_app_ge _ _ (by decide), lo_app_lt _ _ (by decide)]
  exact lo_all _

@[simp] theorem fence_lo0 (a : BitVec 4) (b : BitVec 2) : lo (a ++ b ++ 0#1 : Name) 0 1 = 0#1 := by
  show lo (a ++ b ++ 0#1) 0 1 = 0#1
  rw [lo_app_lt _ _ (by decide)]
  exact lo_all _

@[simp] theorem pfence_lo4 (a : BitVec 3) (b : BitVec 3) : lo (a ++ b ++ 0#1 : Name) 4 3 = a := by
  show lo (a ++ b ++ 0#1) 4 3 = a
  rw [lo_app_ge _ _ (by decide), lo_app_ge _ _ (by decide)]
  exact lo_all _

@[simp] theorem pfence_lo1 (a : BitVec 3) (b : BitVec 3) : lo (a ++ b ++ 0#1 : Name) 1 3 = b := by
  show lo (a ++ b ++ 0#1) 1 3 = b
  rw [lo_app_ge _ _ (by decide), lo_app_lt _ _ (by decide)]
  exact lo_all _

@[simp] theorem pfence_lo0 (a : BitVec 3) (b : BitVec 3) : lo (a ++ b ++ 0#1 : Name) 0 1 = 0#1 := by
  show lo (a ++ b ++ 0#1) 0 1 = 0#1
  rw [lo_app_lt _ _ (by decide)]
  exact lo_all _

@[simp] theorem link_lo1 (a : BitVec 6) (b : BitVec 1) : lo (a ++ b : Name) 1 6 = a := by
  show lo (a ++ b) 1 6 = a
  rw [lo_app_ge _ _ (by decide)]
  exact lo_all _

@[simp] theorem link_lo0 (a : BitVec 6) (b : BitVec 1) : lo (a ++ b : Name) 0 1 = b := by
  show lo (a ++ b) 0 1 = b
  rw [lo_app_lt _ _ (by decide)]
  exact lo_all _

@[simp] theorem jump_lo1 (b : BitVec 1) : lo (0#6 ++ b : Name) 1 6 = 0#6 := by
  show lo (0#6 ++ b) 1 6 = 0#6
  rw [lo_app_ge _ _ (by decide)]
  exact lo_all _

@[simp] theorem jump_lo0 (b : BitVec 1) : lo (0#6 ++ b : Name) 0 1 = b := by
  show lo (0#6 ++ b) 0 1 = b
  rw [lo_app_lt _ _ (by decide)]
  exact lo_all _

@[simp] theorem bar_lo3 (a : BitVec 4) : lo (a ++ 0#3 : Name) 3 4 = a := by
  show lo (a ++ 0#3) 3 4 = a
  rw [lo_app_ge _ _ (by decide)]
  exact lo_all _

@[simp] theorem bar_lo0 (a : BitVec 4) : lo (a ++ 0#3 : Name) 0 3 = 0#3 := by
  show lo (a ++ 0#3) 0 3 = 0#3
  rw [lo_app_lt _ _ (by decide)]
  exact lo_all _

@[simp] theorem branch_lo4 (a : BitVec 3) (f : Bool) (b : BitVec 2) (c : BitVec 1) : lo (a ++ BitVec.ofBool f ++ b ++ c : Name) 4 3 = a := by
  show lo (a ++ BitVec.ofBool f ++ b ++ c) 4 3 = a
  rw [lo_app_ge _ _ (by decide), lo_app_ge _ _ (by decide), lo_app_ge _ _ (by decide)]
  exact lo_all _

@[simp] theorem branch_bit3 (a : BitVec 3) (f : Bool) (b : BitVec 2) (c : BitVec 1) : bit (a ++ BitVec.ofBool f ++ b ++ c : Name) 3 = f := by
  show bit (a ++ BitVec.ofBool f ++ b ++ c) 3 = f
  rw [bit_app_ge _ _ (by decide), bit_app_ge _ _ (by decide), bit_app_lt _ _ (by decide)]
  exact bit_all _

@[simp] theorem branch_lo1 (a : BitVec 3) (f : Bool) (b : BitVec 2) (c : BitVec 1) : lo (a ++ BitVec.ofBool f ++ b ++ c : Name) 1 2 = b := by
  show lo (a ++ BitVec.ofBool f ++ b ++ c) 1 2 = b
  rw [lo_app_ge _ _ (by decide), lo_app_lt _ _ (by decide)]
  exact lo_all _

@[simp] theorem branch_lo0 (a : BitVec 3) (f : Bool) (b : BitVec 2) (c : BitVec 1) : lo (a ++ BitVec.ofBool f ++ b ++ c : Name) 0 1 = c := by
  show lo (a ++ BitVec.ofBool f ++ b ++ c) 0 1 = c
  rw [lo_app_lt _ _ (by decide)]
  exact lo_all _

@[simp] theorem sel_lo3 (a : BitVec 3) : lo (0#1 ++ a : BitVec 4) 3 1 = 0#1 := by
  show lo (0#1 ++ a) 3 1 = 0#1
  rw [lo_app_ge _ _ (by decide)]
  exact lo_all _

@[simp] theorem sel_lo0 (a : BitVec 3) : lo (0#1 ++ a : BitVec 4) 0 3 = a := by
  show lo (0#1 ++ a) 0 3 = a
  rw [lo_app_lt _ _ (by decide)]
  exact lo_all _

@[simp] theorem lea_lo2 (a : BitVec 2) : lo (0#2 ++ a : BitVec 4) 2 2 = 0#2 := by
  show lo (0#2 ++ a) 2 2 = 0#2
  rw [lo_app_ge _ _ (by decide)]
  exact lo_all _

@[simp] theorem lea_lo0 (a : BitVec 2) : lo (0#2 ++ a : BitVec 4) 0 2 = a := by
  show lo (0#2 ++ a) 0 2 = a
  rw [lo_app_lt _ _ (by decide)]
  exact lo_all _

/-! ### The words themselves -/

@[simp] theorem unpack_pack (p : Prim) : Prim.unpack p.pack = p := by
  obtain ⟨s, op, d, a, b, f⟩ := p
  simp only [Prim.unpack, Prim.mk.injEq]
  refine ⟨?_, ?_, ?_, ?_, ?_, ?_⟩
  · show bit (BitVec.ofBool s ++ op ++ d ++ a ++ b ++ f) 31 = s
    rw [bit_app_ge _ _ (by decide), bit_app_ge _ _ (by decide), bit_app_ge _ _ (by decide),
      bit_app_ge _ _ (by decide), bit_app_ge _ _ (by decide)]
    exact bit_all _
  · show lo (BitVec.ofBool s ++ op ++ d ++ a ++ b ++ f) 25 6 = op
    rw [lo_app_ge _ _ (by decide), lo_app_ge _ _ (by decide), lo_app_ge _ _ (by decide),
      lo_app_ge _ _ (by decide), lo_app_lt _ _ (by decide)]
    exact lo_all _
  · show lo (BitVec.ofBool s ++ op ++ d ++ a ++ b ++ f) 18 7 = d
    rw [lo_app_ge _ _ (by decide), lo_app_ge _ _ (by decide), lo_app_ge _ _ (by decide),
      lo_app_lt _ _ (by decide)]
    exact lo_all _
  · show lo (BitVec.ofBool s ++ op ++ d ++ a ++ b ++ f) 11 7 = a
    rw [lo_app_ge _ _ (by decide), lo_app_ge _ _ (by decide), lo_app_lt _ _ (by decide)]
    exact lo_all _
  · show lo (BitVec.ofBool s ++ op ++ d ++ a ++ b ++ f) 4 7 = b
    rw [lo_app_ge _ _ (by decide), lo_app_lt _ _ (by decide)]
    exact lo_all _
  · show lo (BitVec.ofBool s ++ op ++ d ++ a ++ b ++ f) 0 4 = f
    rw [lo_app_lt _ _ (by decide)]
    exact lo_all _

/-- A first word is an extension word only in the group set from OP 0x38 up (R74). -/
theorem isExtWord_pack (p : Prim) : isExtWord p.pack = (p.s && lo p.op 3 3 == 7#3) := by
  obtain ⟨s, op, d, a, b, f⟩ := p
  have h : lo (Prim.pack ⟨s, op, d, a, b, f⟩) 28 4 = BitVec.ofBool s ++ lo op 3 3 := by
    show lo (BitVec.ofBool s ++ op ++ d ++ a ++ b ++ f) 28 4 = _
    rw [lo_app_ge _ _ (by decide), lo_app_ge _ _ (by decide), lo_app_ge _ _ (by decide),
      lo_app_ge _ _ (by decide)]
    cases s <;> revert op <;> decide
  simp only [isExtWord, h]
  clear h
  cases s <;> revert op <;> decide

@[simp] theorem isExtWord_extWord (m : Payload) : isExtWord (extWord m) = true := by
  have h : lo (extWord m) 28 4 = 15#4 := by
    show lo (15#4 ++ m) 28 4 = 15#4
    rw [lo_app_ge _ _ (by decide)]
    exact lo_all _
  simp [isExtWord, h]

@[simp] theorem lo_extWord (m : Payload) : lo (extWord m) 0 28 = m := by
  show lo (15#4 ++ m) 0 28 = m
  rw [lo_app_lt _ _ (by decide)]
  exact lo_all _

/-- The offset of a branch word put together again (R78). -/
@[simp] theorem join19 (v : BitVec 19) :
    (lo v 18 1 ++ lo v 11 7 ++ lo v 4 7 ++ lo v 0 4 : BitVec 19) = v := by
  show (lo v 18 1 ++ lo v 11 7 ++ lo v 4 7 ++ lo v 0 4 : BitVec (1 + 7 + 7 + 4)) = v
  rw [lo_join v (k := 18) (j := 11) (by rfl), lo_join v (k := 11) (by rfl), lo_join v (k := 4) (by rfl)]
  exact lo_all v

@[simp] theorem join14 (v : BitVec 14) : (lo v 7 7 ++ lo v 0 7 : BitVec 14) = v := by
  show (lo v 7 7 ++ lo v 0 7 : BitVec (7 + 7)) = v
  rw [lo_join v (by rfl)]; exact lo_all v

@[simp] theorem join21 (v : BitVec 21) : (lo v 14 7 ++ lo v 7 7 ++ lo v 0 7 : BitVec 21) = v := by
  show (lo v 14 7 ++ lo v 7 7 ++ lo v 0 7 : BitVec (7 + 7 + 7)) = v
  rw [lo_join v (k := 14) (by rfl), lo_join v (k := 7) (by rfl)]; exact lo_all v

@[simp] theorem join8 (v : BitVec 8) : (lo v 4 4 ++ lo v 0 4 : BitVec 8) = v := by
  show (lo v 4 4 ++ lo v 0 4 : BitVec (4 + 4)) = v
  rw [lo_join v (by rfl)]; exact lo_all v

@[simp] theorem join32 (v : Word) : (lo v 28 4 ++ lo v 0 28 : Word) = v := by
  show (lo v 28 4 ++ lo v 0 28 : BitVec (4 + 28)) = v
  rw [lo_join v (by rfl)]; exact lo_all v

/-! ### Forms that may name `x` -/

theorem withX_extX (s : Bool) (op : BitVec 6) (d a b : Name) (f : BitVec 4) (x : Payload)
    (k : Payload → Instr) (h : xFits a b x = true) :
    Prim.withX ⟨s, op, d, a, b, f⟩ (extX a b x) k = some (k x) := by
  unfold xFits at h
  unfold Prim.withX extX
  cases ha : a.isX <;> cases hb : b.isX <;> simp_all

@[simp] theorem length_extX (a b : Name) (x : Payload) :
    (extX a b x).length = if a.isX || b.isX then 1 else 0 := by
  unfold extX; split <;> simp_all

theorem onlyIf_nil {c : Bool} (h : c = true) (i : Instr) : onlyIf c [] i = some i := by
  subst h; rfl

@[simp] theorem z7_isZ : z7.isZ = true := by decide
@[simp] theorem z7_isX : z7.isX = false := by decide

@[simp] theorem fhn_fn (f : BitVec 2) (h n : Bool) : lo (fhn f h n) 2 2 = f := fhn_lo2 f h n
@[simp] theorem fhn_h (f : BitVec 2) (h n : Bool) : bit (fhn f h n) 1 = h := fhn_bit1 f h n
@[simp] theorem fhn_n (f : BitVec 2) (h n : Bool) : bit (fhn f h n) 0 = n := fhn_bit0 f h n

/-! The fields of an F of 0 (R76). -/

@[simp] theorem fn_zero : lo 0#4 2 2 = 0#2 := rfl
@[simp] theorem h_zero : bit 0#4 1 = false := rfl
@[simp] theorem n_zero : bit 0#4 0 = false := rfl

namespace Laws.RoundTrip

/-- The first word and the payloads read back: what is left to show of a form. -/
theorem of_parts {i : Instr} {p : Prim} {es : List Payload} (he : encodeParts i = some (p, es))
    (hx : p.extCount = es.length) (hn : (p.s && lo p.op 3 3 == 7#3) = false)
    (hd : decodeParts p es = some i) (ws : List Word) : decodeWords (encode i ++ ws) = .ok (i, ws) := by
  have ht : (es.map extWord ++ ws).take es.length = es.map extWord := by
    rw [List.take_append_of_le_length (by simp)]; simp
  have hdr : (es.map extWord ++ ws).drop es.length = ws := by
    rw [List.drop_append_of_le_length (by simp)]; simp
  simp [encode, he, decodeWords, isExtWord_pack, hn, hx, ht, hdr, hd, Function.comp_def]

end Laws.RoundTrip

end Sys2Proof
end

