-- ==== Sys2Proof/Laws/Table.lean ====
section
/-! SUPPORT. Finite tables and byte memories: what a look-up finds after a change, and that every
memory operation keeps the canonical form. -/

namespace Sys2Proof.Machine

/-! ### Tables -/

section
variable {α : Type}

@[simp] theorem Tab.find?_nil (n : Nat) : Tab.find? ([] : Tab α) n = none := rfl

theorem Tab.find?_cons (k : Nat) (v : α) (t : Tab α) (n : Nat) :
    Tab.find? ((k, v) :: t) n = if k = n then some v else Tab.find? t n := rfl

@[simp] theorem Tab.find?_put_self (t : Tab α) (n : Nat) (v : α) : Tab.find? (Tab.put t n v) n = some v := by
  induction t with
  | nil => simp [Tab.put, Tab.find?]
  | cons e t ih =>
    obtain ⟨k, w⟩ := e
    simp only [Tab.put]
    split_ifs with h1 h2
    · simp [Tab.find?]
    · simp [Tab.find?]
    · simp [Tab.find?, Ne.symm h2, ih]

theorem Tab.find?_put_ne (t : Tab α) {n m : Nat} (v : α) (h : n ≠ m) :
    Tab.find? (Tab.put t n v) m = Tab.find? t m := by
  induction t with
  | nil => simp [Tab.put, Tab.find?, h]
  | cons e t ih =>
    obtain ⟨k, w⟩ := e
    simp only [Tab.put]
    split_ifs with h1 h2
    · simp [Tab.find?, h]
    · subst h2; simp [Tab.find?, h]
    · simp only [Tab.find?]; split_ifs <;> first | rfl | exact ih

theorem Tab.find?_put (t : Tab α) (n m : Nat) (v : α) :
    Tab.find? (Tab.put t n v) m = if n = m then some v else Tab.find? t m := by
  split_ifs with h
  · subst h; simp
  · exact Tab.find?_put_ne t v h

theorem Tab.getD_put (t : Tab α) (n m : Nat) (v d : α) :
    Tab.getD (Tab.put t n v) m d = if n = m then v else Tab.getD t m d := by
  simp only [Tab.getD, Tab.find?_put]; split_ifs <;> rfl

/-- An entry that a filter by key leaves out does not show. -/
theorem Tab.filter_put (t : Tab α) (n : Nat) (v : α) (p : Nat → Bool) (h : p n = false) :
    List.filter (fun e : Nat × α => p e.1) (Tab.put t n v) = List.filter (fun e : Nat × α => p e.1) t := by
  induction t with
  | nil => simp [Tab.put, h]
  | cons e t ih =>
    obtain ⟨k, w⟩ := e
    simp only [Tab.put]
    split_ifs with h1 h2
    · simp [List.filter_cons, h]
    · subst h2; simp [List.filter_cons, h]
    · simp only [List.filter_cons, ih]

@[simp] theorem Tab.getD_put_self (t : Tab α) (n : Nat) (v d : α) : Tab.getD (Tab.put t n v) n d = v := by
  simp [Tab.getD_put]

theorem Tab.getD_put_ne (t : Tab α) {n m : Nat} (v d : α) (h : n ≠ m) :
    Tab.getD (Tab.put t n v) m d = Tab.getD t m d := by simp [Tab.getD_put, h]

theorem Tab.find?_del (t : Tab α) (n m : Nat) :
    Tab.find? (Tab.del t n) m = if n = m then none else Tab.find? t m := by
  induction t with
  | nil => simp [Tab.del]
  | cons e t ih =>
    obtain ⟨k, w⟩ := e
    simp only [Tab.del]
    split_ifs with h1 h2 h2
    · simpa [h2] using ih
    · subst h1; simp [Tab.find?, h2, ih]
    · subst h2; simp [Tab.find?, h1, ih]
    · simp only [Tab.find?]; split_ifs <;> simp [ih, h2]

theorem Tab.find?_upd (t : Tab α) (n m : Nat) (f : α → α) :
    Tab.find? (Tab.upd t n f) m = if n = m then (Tab.find? t m).map f else Tab.find? t m := by
  unfold Tab.upd
  cases h : Tab.find? t n with
  | none => split_ifs with e <;> simp_all
  | some v =>
    simp only [Tab.find?_put]
    split_ifs with e <;> simp_all

theorem Tab.find?_mapV (t : Tab α) (f : Nat → α → α) (n : Nat) :
    Tab.find? (Tab.mapV t f) n = (Tab.find? t n).map (f n) := by
  induction t with
  | nil => simp [Tab.mapV]
  | cons e t ih =>
    obtain ⟨k, w⟩ := e
    simp only [Tab.mapV, List.map_cons, Tab.find?] at ih ⊢
    split_ifs with h
    · subst h; rfl
    · exact ih

end

/-! ### Byte memories -/

@[simp] theorem Memory.read_nil (a : Nat) : Memory.read [] a = memDefault := rfl

theorem Memory.read_drop (m : Memory) (a b : Nat) :
    Memory.read (Memory.drop m a) b = if a = b then memDefault else Memory.read m b := by
  induction m with
  | nil => simp [Memory.drop, Memory.read]
  | cons e m ih =>
    obtain ⟨k, v⟩ := e
    simp only [Memory.drop]
    split_ifs with h1 h2 h2
    · simpa [h2] using ih
    · subst h1; simp [Memory.read, h2, ih]
    · subst h2; simp [Memory.read, h1, ih]
    · simp only [Memory.read]; split_ifs <;> simp [ih, h2]

theorem Memory.read_insert (m : Memory) (a b : Nat) (v : Byte) :
    Memory.read (Memory.insert m a v) b = if a = b then v else Memory.read m b := by
  induction m with
  | nil => simp [Memory.insert, Memory.read]
  | cons e m ih =>
    obtain ⟨k, w⟩ := e
    simp only [Memory.insert]
    split_ifs with h1 h2 h3 h3 h4
    · simp [Memory.read, h2]
    · simp [Memory.read, h2]
    · subst h3; simp [Memory.read]
    all_goals (simp only [Memory.read]; split_ifs <;> simp_all)

/-- Read after write. -/
theorem Memory.read_write (m : Memory) (a b : Nat) (v : Byte) :
    Memory.read (Memory.write m a v) b = if a = b then v else Memory.read m b := by
  unfold Memory.write
  split_ifs with h1 h2 h2
  · subst h1; simp [Memory.read_drop, h2]
  · simp [Memory.read_drop, h2]
  · simp [Memory.read_insert, h2]
  · simp [Memory.read_insert, h2]

@[simp] theorem Memory.read_write_self (m : Memory) (a : Nat) (v : Byte) :
    Memory.read (Memory.write m a v) a = v := by simp [Memory.read_write]

theorem Memory.read_write_ne (m : Memory) {a b : Nat} (v : Byte) (h : a ≠ b) :
    Memory.read (Memory.write m a v) b = Memory.read m b := by simp [Memory.read_write, h]

/-- A write of several bytes leaves every address outside them. -/
theorem Memory.read_writeN_out (vs : List Byte) (m : Memory) (a b : Nat)
    (h : b < a ∨ a + vs.length ≤ b) : Memory.read (Memory.writeN m a vs) b = Memory.read m b := by
  induction vs generalizing m a with
  | nil => rfl
  | cons v vs ih =>
    simp only [List.length_cons] at h
    rw [Memory.writeN, ih _ _ (by omega), Memory.read_write_ne _ _ (by omega)]

/-- A write of several bytes sets each of them. -/
theorem Memory.read_writeN_in (vs : List Byte) (m : Memory) (a k : Nat) (h : k < vs.length) :
    Memory.read (Memory.writeN m a vs) (a + k) = vs[k] := by
  induction vs generalizing m a k with
  | nil => simp at h
  | cons v vs ih =>
    rw [Memory.writeN]
    cases k with
    | zero => rw [Memory.read_writeN_out _ _ _ _ (by omega)]; simp
    | succ k =>
      have := ih (Memory.write m a v) (a + 1) k (by simpa using h)
      rw [show a + (k + 1) = a + 1 + k by omega, this]; simp

@[simp] theorem Memory.length_readN (m : Memory) (a n : Nat) : (Memory.readN m a n).length = n := by
  induction n generalizing a with
  | zero => rfl
  | succ n ih => simp [Memory.readN, ih]

/-- Bytes read back after they were written. -/
theorem Memory.readN_writeN (vs : List Byte) (m : Memory) (a : Nat) :
    Memory.readN (Memory.writeN m a vs) a vs.length = vs := by
  induction vs generalizing m a with
  | nil => rfl
  | cons v vs ih =>
    simp only [List.length_cons, Memory.readN, Memory.writeN, ih]
    rw [Memory.read_writeN_out _ _ _ _ (by omega)]; simp

/-! ### The canonical form -/

theorem Memory.wfFrom_mono {m : Memory} {lo hi : Nat} (h : lo ≤ hi) (w : Memory.wfFrom hi m = true) :
    Memory.wfFrom lo m = true := by
  cases m with
  | nil => rfl
  | cons e m =>
    obtain ⟨a, v⟩ := e
    simp only [Memory.wfFrom, Bool.and_eq_true, decide_eq_true_eq] at w ⊢
    exact ⟨⟨by omega, w.1.2⟩, w.2⟩

theorem Memory.wfFrom_drop {m : Memory} {lo : Nat} (a : Nat) (w : Memory.wfFrom lo m = true) :
    Memory.wfFrom lo (Memory.drop m a) = true := by
  induction m generalizing lo with
  | nil => rfl
  | cons e m ih =>
    obtain ⟨k, v⟩ := e
    simp only [Memory.wfFrom, Bool.and_eq_true, decide_eq_true_eq] at w
    simp only [Memory.drop]
    split_ifs
    · exact ih (Memory.wfFrom_mono (by omega) w.2)
    · simp only [Memory.wfFrom, Bool.and_eq_true, decide_eq_true_eq]
      exact ⟨w.1, ih w.2⟩

theorem Memory.wfFrom_insert {m : Memory} {lo : Nat} (a : Nat) {v : Byte} (hv : v ≠ memDefault)
    (hl : lo ≤ a) (w : Memory.wfFrom lo m = true) : Memory.wfFrom lo (Memory.insert m a v) = true := by
  induction m generalizing lo with
  | nil => simp [Memory.insert, Memory.wfFrom, hv, hl]
  | cons e m ih =>
    obtain ⟨k, u⟩ := e
    simp only [Memory.wfFrom, Bool.and_eq_true, decide_eq_true_eq, bne_iff_ne] at w
    simp only [Memory.insert]
    split_ifs with h1 h2
    · simp only [Memory.wfFrom, Bool.and_eq_true, decide_eq_true_eq, bne_iff_ne]
      exact ⟨⟨hl, hv⟩, ⟨by omega, w.1.2⟩, w.2⟩
    · subst h2
      simp only [Memory.wfFrom, Bool.and_eq_true, decide_eq_true_eq, bne_iff_ne]
      exact ⟨⟨hl, hv⟩, w.2⟩
    · simp only [Memory.wfFrom, Bool.and_eq_true, decide_eq_true_eq, bne_iff_ne]
      exact ⟨w.1, ih (by omega) w.2⟩

/-- A write keeps the canonical form. -/
theorem Memory.wf_write {m : Memory} (a : Nat) (v : Byte) (w : m.wf = true) :
    (Memory.write m a v).wf = true := by
  unfold Memory.write Memory.wf at *
  split_ifs with h
  · exact Memory.wfFrom_drop a w
  · exact Memory.wfFrom_insert a h (by omega) w

/-- Writes keep the canonical form. -/
theorem Memory.wf_writeN (vs : List Byte) {m : Memory} (a : Nat) (w : m.wf = true) :
    (Memory.writeN m a vs).wf = true := by
  induction vs generalizing m a with
  | nil => exact w
  | cons v vs ih => exact ih (a + 1) (Memory.wf_write a v w)

end Sys2Proof.Machine
end

