-- ==== Sys2Proof/Laws/Registers.lean ====
section
/-! SUPPORT. What reading a register finds after each operation that an issue is made of (R35, R110,
R115). -/

namespace Sys2Proof.Machine

/-! ### Groups and workgroups after an update -/

@[simp] theorem State.group?_modGroup_self (s : State) (g : Nat) (f : Group → Group) :
    (s.modGroup g f).group? g = (s.group? g).map f := by
  simp [State.group?, State.modGroup, Tab.find?_upd]

theorem State.group?_modGroup (s : State) (g h : Nat) (f : Group → Group) :
    (s.modGroup g f).group? h = if g = h then (s.group? h).map f else s.group? h := by
  simp [State.group?, State.modGroup, Tab.find?_upd]

@[simp] theorem State.group?_setGroup_self (s : State) (g : Nat) (x : Group) :
    (s.setGroup g x).group? g = some x := by
  simp [State.group?, State.setGroup]

theorem State.group?_setGroup (s : State) (g h : Nat) (x : Group) :
    (s.setGroup g x).group? h = if g = h then some x else s.group? h := by
  simp [State.group?, State.setGroup, Tab.find?_put]

@[simp] theorem State.wg?_modGroup (s : State) (g w : Nat) (f : Group → Group) :
    (s.modGroup g f).wg? w = s.wg? w := rfl

@[simp] theorem State.wg?_setGroup (s : State) (g w : Nat) (x : Group) :
    (s.setGroup g x).wg? w = s.wg? w := rfl

@[simp] theorem State.group?_setWg (s : State) (g w : Nat) (x : Workgroup) :
    (s.setWg w x).group? g = s.group? g := rfl

/-! ### What a register's value depends on -/

theorem readV_congr {w w' : Workgroup} {t t' : Thread} (n : Nat) (hl : t'.lane = t.lane)
    (hf : t'.far = t.far) (hm : w'.clusterMap = w.clusterMap) (hr : w'.clusterRegs = w.clusterRegs) :
    readV w' t' n = readV w t n := by
  unfold readV; rw [hl, hf, hm, hr]

theorem placeOf_congr {w w' : Workgroup} {t t' : Thread} (n : Nat) (hf : t'.far = t.far)
    (hm : w'.clusterMap = w.clusterMap) : placeOf w' t' n = placeOf w t n := by
  unfold placeOf; rw [hf, hm]

/-- The register files of two threads agree. -/
def Thread.SameRegs (t t' : Thread) : Prop := t'.lane = t.lane ∧ t'.far = t.far

/-- A group changed so that no thread's registers change. -/
structure Group.KeepsRegs (f : Group → Group) : Prop where
  wg : ∀ g, (f g).wg = g.wg
  loc : ∀ g, (f g).loc = g.loc
  steward : ∀ g, (f g).steward = g.steward
  some_ : ∀ g r t, Tab.find? g.threads r = some t →
    ∃ t', Tab.find? (f g).threads r = some t' ∧ t.SameRegs t'
  none_ : ∀ g r, Tab.find? g.threads r = none → Tab.find? (f g).threads r = none

theorem wgOf_congr {s t : State} {g g' : Group} (hw : ∀ w, t.wg? w = s.wg? w) (h1 : g'.wg = g.wg)
    (h2 : g'.loc = g.loc) (h3 : g'.steward = g.steward) : t.wgOf g' = s.wgOf g := by
  unfold State.wgOf; rw [h1, h2, h3, hw]

/-- Changing a group without touching registers leaves every register. -/
theorem State.regAt_modGroup {f : Group → Group} (hf : Group.KeepsRegs f) (s : State) (g h r n : Nat) :
    (s.modGroup g f).regAt h r n = s.regAt h r n := by
  unfold State.regAt
  rw [State.group?_modGroup]
  split_ifs with e
  · subst e
    cases hg : s.group? g with
    | none => rfl
    | some x =>
      simp only [Option.map_some, Option.bind_eq_bind, Option.bind_some]
      have hw : (s.modGroup g f).wgOf (f x) = s.wgOf x :=
        wgOf_congr (fun _ => rfl) (hf.wg x) (hf.loc x) (hf.steward x)
      cases ht : Tab.find? x.threads r with
      | none => simp [hf.none_ x r ht]
      | some t =>
        obtain ⟨t', h1, h2, h3⟩ := hf.some_ x r t ht
        have hv : readV (s.wgOf x) t' n = readV (s.wgOf x) t n := readV_congr n h2 h3 rfl rfl
        simp [h1, hw, hv]
  · cases hg : s.group? h with
    | none => rfl
    | some x =>
      have hw : (s.modGroup g f).wgOf x = s.wgOf x := wgOf_congr (fun _ => rfl) rfl rfl rfl
      simp [hw]

theorem Group.keepsRegs_of_threads {f : Group → Group} (h1 : ∀ g, (f g).wg = g.wg)
    (h2 : ∀ g, (f g).loc = g.loc) (h3 : ∀ g, (f g).steward = g.steward)
    (h4 : ∀ g, (f g).threads = g.threads) : Group.KeepsRegs f where
  wg := h1
  loc := h2
  steward := h3
  some_ g r t ht := ⟨t, by rw [h4, ht], rfl, rfl⟩
  none_ g r ht := by rw [h4, ht]

theorem Group.keepsRegs_modThreads {f : Nat → Thread → Thread} (h : ∀ r (t : Thread), t.SameRegs (f r t)) (m : Word) :
    Group.KeepsRegs fun g => g.modThreads m f where
  wg _ := rfl
  loc _ := rfl
  steward _ := rfl
  some_ g r t ht := by
    refine ⟨if m.getLsbD r then f r t else t, ?_, ?_⟩
    · simp [Group.modThreads, Tab.find?_mapV, ht]
    · split_ifs
      · exact h r t
      · exact ⟨rfl, rfl⟩
  none_ g r ht := by simp [Group.modThreads, Tab.find?_mapV, ht]

theorem Group.keepsRegs_updThread {f : Thread → Thread} (h : ∀ t : Thread, t.SameRegs (f t)) (k : Nat) :
    Group.KeepsRegs fun g => { g with threads := Tab.upd g.threads k f } where
  wg _ := rfl
  loc _ := rfl
  steward _ := rfl
  some_ g r t ht := by
    refine ⟨if k = r then f t else t, ?_, ?_⟩
    · simp only [Tab.find?_upd, ht]; split_ifs <;> rfl
    · split_ifs
      · exact h t
      · exact ⟨rfl, rfl⟩
  none_ g r ht := by simp only [Tab.find?_upd, ht]; split_ifs <;> rfl

/-- A state with the same groups and workgroups has the same registers. -/
theorem State.regAt_congr {s t : State} (hg : t.groups = s.groups) (hw : t.wgs = s.wgs) (g r n : Nat) :
    t.regAt g r n = s.regAt g r n := by
  unfold State.regAt State.group? State.wgOf State.wg?
  rw [hg, hw]

/-! ### One write (R35) -/

theorem readV_writeV (w : Workgroup) (t : Thread) (n m : Nat) (v : Word) :
    readV (writeV w t n v).1 (writeV w t n v).2 m = if n = m then v else readV w t m := by
  unfold writeV
  cases hf : Tab.find? t.far n with
  | some f =>
    simp only
    by_cases e : n = m
    · subst e; simp [readV]
    · simp [readV, Tab.find?_put, e]
  | none =>
    simp only
    split_ifs with hc e e
    · subst e; simp [readV, hf, hc]
    · simp [readV, Tab.getD_put, e]
    · subst e; simp [readV, hf, hc]
    · simp [readV, Tab.getD_put, e]

theorem placeOf_writeV (w : Workgroup) (t : Thread) (n m : Nat) (v : Word) :
    placeOf (writeV w t n v).1 (writeV w t n v).2 m = placeOf w t m := by
  unfold writeV
  cases hf : Tab.find? t.far n with
  | some f =>
    by_cases e : n = m
    · subst e; simp [placeOf, hf]
    · simp [placeOf, Tab.find?_put, e]
  | none => simp only; split_ifs <;> rfl

/-- A name at LANE, SLICE or MEMORY is the thread's own: writing it leaves the workgroup. -/
theorem writeV_wg {w : Workgroup} {t : Thread} {n : Nat} (v : Word) (h : (placeOf w t n).1 ≠ .cluster) :
    (writeV w t n v).1 = w := by
  unfold writeV
  unfold placeOf at h
  cases hf : Tab.find? t.far n with
  | some f => rfl
  | none => simp only [hf] at h ⊢; split_ifs at h ⊢ <;> simp_all

/-- What a write needs of the place of its name: not CLUSTER, for the thread that is written. -/
def State.OwnName (s : State) (gid r n : Nat) : Prop :=
  ∀ g t, s.group? gid = some g → Tab.find? g.threads r = some t → (placeOf (s.wgOf g) t n).1 ≠ .cluster

theorem State.wg?_writeName {s : State} {gid r n : Nat} (v : Word) (h : s.OwnName gid r n) :
    (s.writeName gid r n v).wgs = s.wgs := by
  unfold State.writeName
  cases hg : s.group? gid with
  | none => rfl
  | some g =>
    cases ht : Tab.find? g.threads r with
    | none => simp [ht]
    | some t =>
      have hp := beq_eq_false_iff_ne.mpr (h g t hg ht)
      simp only [ht, hp, Bool.false_and, Bool.false_eq_true, if_false, State.setGroup]

theorem State.group?_writeName {s : State} {gid r n : Nat} (v : Word) (h : s.OwnName gid r n) (k : Nat) :
    (s.writeName gid r n v).group? k = if gid = k then (s.group? k).map fun g =>
      { g with threads := Tab.upd g.threads r fun t => (writeV (s.wgOf g) t n v).2 } else s.group? k := by
  unfold State.writeName
  cases hg : s.group? gid with
  | none => split_ifs with e <;> simp_all
  | some g =>
    cases ht : Tab.find? g.threads r with
    | none =>
      simp only [ht]
      split_ifs with e
      · subst e; simp [hg, Tab.upd, ht]
      · rfl
    | some t =>
      have hp := beq_eq_false_iff_ne.mpr (h g t hg ht)
      simp only [ht, hp, Bool.false_and, Bool.false_eq_true, if_false, State.group?_setGroup]
      split_ifs with e
      · subst e; simp [hg, Tab.upd, ht]
      · rfl

/-- A register after one write of a name that is the thread's own. -/
theorem State.regAt_writeName {s : State} {gid r n : Nat} (v : Word) (h : s.OwnName gid r n) (k q m : Nat) :
    (s.writeName gid r n v).regAt k q m =
      if gid = k ∧ r = q ∧ n = m then (s.regAt k q m).map fun _ => v else s.regAt k q m := by
  have hw := State.wg?_writeName v h
  unfold State.regAt
  rw [State.group?_writeName v h]
  by_cases e : gid = k
  · subst e
    cases hg : s.group? gid with
    | none => simp
    | some g =>
      have hwo : ∀ g' : Group, g'.wg = g.wg → g'.loc = g.loc → g'.steward = g.steward →
          (s.writeName gid r n v).wgOf g' = s.wgOf g :=
        fun g' a b c => wgOf_congr (fun w => by simp [State.wg?, hw]) a b c
      simp only [if_true, Option.map_some, Option.bind_eq_bind, Option.bind_some, Tab.find?_upd]
      cases ht : Tab.find? g.threads q with
      | none => simp
      | some t =>
        by_cases e2 : r = q
        · subst e2
          simp only [if_true, Option.map_some, Option.bind_some, true_and]
          rw [hwo (g' := { g with threads := Tab.upd g.threads r fun t => (writeV (s.wgOf g) t n v).2 })
            rfl rfl rfl]
          have := readV_writeV (s.wgOf g) t n m v
          rw [writeV_wg v (h g t hg ht)] at this
          rw [this]; split_ifs <;> rfl
        · simp [e2, hwo]
  · simp only [e, if_false, false_and]
    cases hg : s.group? k with
    | none => simp
    | some g =>
      have : (s.writeName gid r n v).wgOf g = s.wgOf g :=
        wgOf_congr (fun w => by simp [State.wg?, hw]) rfl rfl rfl
      simp [this]

/-- Writes leave the places of names. -/
theorem State.OwnName.writeName {s : State} {gid r n : Nat} {v : Word} (h : s.OwnName gid r n) {q m : Nat}
    (h2 : s.OwnName gid q m) : (s.writeName gid r n v).OwnName gid q m := by
  intro g' t' hg' ht'
  rw [State.group?_writeName v h, if_pos rfl] at hg'
  cases hg : s.group? gid with
  | none => simp [hg] at hg'
  | some g =>
    simp only [hg, Option.map_some, Option.some.injEq] at hg'
    subst hg'
    have hwo : (s.writeName gid r n v).wgOf { g with threads := Tab.upd g.threads r fun t => (writeV (s.wgOf g) t n v).2 }
        = s.wgOf g := wgOf_congr (fun w => by simp [State.wg?, State.wg?_writeName v h]) rfl rfl rfl
    rw [hwo]
    simp only [Tab.find?_upd] at ht'
    split_ifs at ht' with e
    · subst e
      cases ht : Tab.find? g.threads r with
      | none => simp [ht] at ht'
      | some t =>
        simp only [ht, Option.map_some, Option.some.injEq] at ht'
        subst ht'
        have := placeOf_writeV (s.wgOf g) t n m v
        rw [writeV_wg v (h g t hg ht)] at this
        rw [this]; exact h2 g t hg ht
    · exact h2 g t' hg ht'

end Sys2Proof.Machine
end

