-- ==== Sys2Proof/Laws/Issue.lean ====
section
/-! SUPPORT. What every issue does and leaves (R25 to R27, R191, R201): normal issue, retiring, and the
writing of results. -/

namespace Sys2Proof.Machine

/-- An instruction that is ready and does not wait takes its effect. -/
theorem State.issueOr_ready {s : State} {i : Instr} {f : Form} {c : Ctx} (h : s.Ready i f c)
    {w : Ctx → State → Option State} (hw : w c s = none) (k : Ctx → State → State) : s.issueOr i f w k = k c s := by
  have hp : ¬ s.priceOf c > 8192 := Nat.not_lt.mpr h.priced
  have hf : s.laneFault c = none := by simp [State.laneFault, h.sound]
  have hc : s.laneChecked c = s := by simp [State.laneChecked, h.sound]
  simp [State.issueOr, h.ctx, h.turn, h.legal, h.allowed, hp, h.placed, h.free, h.licensed, hf, hc, hw]

theorem State.issueIf_ready {s : State} {i : Instr} {f : Form} {c : Ctx} (h : s.Ready i f c)
    {w : Ctx → State → Bool} (hw : w c s = false) (k : Ctx → State → State) : s.issueIf i f w k = k c s :=
  State.issueOr_ready h (by simp [hw]) k

theorem State.issue_ready {s : State} {i : Instr} {f : Form} {c : Ctx} (h : s.Ready i f c)
    (k : Ctx → State → State) : s.issue i f k = k c s := State.issueIf_ready h rfl k

theorem State.Ready.form {s : State} {i : Instr} {f : Form} {c : Ctx} (h : s.Ready i f c) : c.f = f := by
  have := h.ctx
  unfold State.ctx? at this
  split at this
  · simp at this
  · split at this <;> simp_all
    rw [← this]

theorem State.Ready.instr {s : State} {i : Instr} {f : Form} {c : Ctx} (h : s.Ready i f c) : c.i = i := by
  have := h.ctx
  unfold State.ctx? at this
  split at this
  · simp at this
  · split at this <;> simp_all
    rw [← this]

/-- The context is the path at the cursor. -/
theorem State.Ready.group {s : State} {i : Instr} {f : Form} {c : Ctx} (h : s.Ready i f c) :
    s.group? c.gid = some c.g ∧ c.g.paths[c.pi]? = some c.p ∧ c.w = s.wgOf c.g := by
  have := h.ctx
  unfold State.ctx? at this
  split at this
  · simp at this
  · next g hg =>
    split at this
    · next p hp =>
      simp only [Option.some.injEq] at this
      subst this
      exact ⟨hg, hp, rfl⟩
    · simp at this

/-! ### What stays as it was -/

theorem State.Still.refl (s : State) (g : Nat) : s.Still s g := by
  constructor <;> intros <;> rfl

theorem State.Still.trans {s t u : State} {g : Nat} (h : s.Still t g) (k : t.Still u g) : s.Still u g where
  dies d := (k.dies d).trans (h.dies d)
  cores l := (k.cores l).trans (h.cores l)
  clusters c := (k.clusters c).trans (h.clusters c)
  xdies x := (k.xdies x).trans (h.xdies x)
  wgs w := (k.wgs w).trans (h.wgs w)
  groups a ha := (k.groups a ha).trans (h.groups a ha)
  group := k.group.trans h.group
  ops o := (k.ops o).trans (h.ops o)
  runs r := (k.runs r).trans (h.runs r)
  pending := k.pending.trans h.pending
  heldRecs := k.heldRecs.trans h.heldRecs
  saved := k.saved.trans h.saved
  hostMem := k.hostMem.trans h.hostMem
  safeTier := k.safeTier.trans h.safeTier
  links := k.links.trans h.links
  power := k.power.trans h.power
  irqs := k.irqs.trans h.irqs
  mailbox := k.mailbox.trans h.mailbox
  posted := k.posted.trans h.posted
  fabric := k.fabric.trans h.fabric
  rels := k.rels.trans h.rels
  firmware := k.firmware.trans h.firmware

/-- A change of the group that leaves its special registers. -/
theorem State.still_modGroup {f : Group → Group} (hf : ∀ g, (f g).rest = g.rest) (s : State) (g : Nat) :
    s.Still (s.modGroup g f) g := by
  have hg : ((s.modGroup g f).group? g).map Group.rest = (s.group? g).map Group.rest := by
    rw [State.group?_modGroup_self, Option.map_map]
    congr 1
    funext x
    exact hf x
  have ho : ∀ h, h ≠ g → (s.modGroup g f).group? h = s.group? h := fun h e => by
    rw [State.group?_modGroup, if_neg (Ne.symm e)]
  constructor <;> first | exact hg | exact ho | (intros; rfl)

theorem State.die_setDie (s : State) (d e : Nat) (x : Die) :
    (s.setDie d x).die e = if d = e then x else s.die e := by
  simp [State.die, State.setDie, Tab.getD_put]

theorem State.die_modDie (s : State) (d e : Nat) (f : Die → Die) :
    (s.modDie d f).die e = if d = e then f (s.die d) else s.die e := State.die_setDie _ _ _ _

theorem State.core_modCore (s : State) (l m : Nat) (f : Core → Core) :
    (s.modCore l f).core m = if l = m then f (s.core l) else s.core m := by
  simp [State.core, State.modCore, Tab.getD_put]

theorem State.still_debit (s : State) (loc region p g : Nat) :
    s.Still (s.debit loc region p) g := by
  unfold State.debit
  split_ifs
  · exact State.Still.refl s g
  · simp only
    constructor <;> intros <;> try rfl
    · rw [State.die_modDie]
      split_ifs with h
      · subst h; rfl
      · rfl
    · next l =>
      simp only [State.core, State.modDie, State.setDie, State.modCore, Tab.getD_put]
      split_ifs with h
      · subst h; rfl
      · rfl

/-- The operand collector's counters do not show in what is left of a core. -/
theorem Core.rest_perf (c : Core) (n m : Nat) (h : n ∈ [0x101, 0x102, 0x103]) :
    Core.rest { c with perf := bump c.perf n m } = Core.rest c := by
  unfold Core.rest bump
  simp only [Core.mk.injEq, true_and, and_true]
  exact Tab.filter_put c.perf n _ (fun k => !([0x100, 0x101, 0x102, 0x103, 0x104].contains k)) (by simp at h ⊢; omega)

theorem State.still_collected (s : State) (c : Ctx) (g : Nat) : s.Still (s.collected c) g := by
  unfold State.collected
  simp only
  split_ifs
  · exact State.Still.refl s g
  · constructor <;> intros <;> try rfl
    next l =>
      rw [State.core_modCore]
      split_ifs with h
      · subst h
        exact (Core.rest_perf { s.core c.g.loc with perf := bump (bump (s.core c.g.loc).perf _ _) _ _ } 0x103 _
          (by decide)).trans ((Core.rest_perf { s.core c.g.loc with perf := bump (s.core c.g.loc).perf _ _ } 0x102 _
          (by decide)).trans (Core.rest_perf (s.core c.g.loc) 0x101 _ (by decide)))
      · rfl

theorem State.still_nextGroup (s : State) (g : Nat) : s.Still s.nextGroup g := by
  constructor <;> intros <;> rfl

theorem State.still_moveOn (s : State) (g : Nat) : s.Still s.moveOn g := by
  unfold State.moveOn
  split_ifs
  · split
    · split_ifs
      · constructor <;> intros <;> rfl
      · exact s.still_nextGroup g
    · exact s.still_nextGroup g
  · exact s.still_nextGroup g

theorem State.still_poll (s : State) (g : Nat) : s.Still s.poll g := by
  unfold State.poll
  split_ifs
  · exact State.Still.refl s g
  · simp only
    split
    · constructor <;> intros <;> rfl
    · exact State.Still.refl s g

theorem Group.rest_settle (g : Group) : g.settle.rest = g.rest := by
  unfold Group.settle
  simp only
  split
  · rfl
  · split
    · rfl
    · split_ifs <;> rfl

theorem Group.rest_issued (g : Group) (k : Nat) : (g.issued k).rest = g.rest := by
  unfold Group.issued Group.rest bump
  simp only [Group.mk.injEq, true_and, and_true]
  exact Tab.filter_put g.perf 0 _ (fun k => k != 0) rfl

theorem Group.rest_modPath (g : Group) (k : Nat) (f : Path → Path) : (g.modPath k f).rest = g.rest := rfl

theorem State.still_afterIssue (s : State) (c : Ctx) (g : Nat) : s.Still (s.afterIssue c) g := by
  unfold State.afterIssue
  split_ifs
  · exact s.still_moveOn g
  · exact s.still_nextGroup g

/-- Retiring leaves everything but the group's paths, its counts and the purse. -/
theorem State.still_retire (s : State) (c : Ctx) {moved : Group → Group} (hm : ∀ g, (moved g).rest = g.rest) :
    s.Still (s.retire c moved) c.gid := by
  unfold State.retire
  refine (s.still_debit c.g.loc c.w.region (s.priceOf c) c.gid).trans ?_
  refine (State.still_collected _ c c.gid).trans ?_
  refine (State.still_modGroup (fun g => ?_) _ _).trans
    ((State.still_afterIssue _ c _).trans (State.still_poll _ _))
  rw [Group.rest_settle, hm, Group.rest_modPath, Group.rest_issued]

/-! ### Registers through retiring -/

theorem State.regAt_debit (s : State) (loc region p g r n : Nat) :
    (s.debit loc region p).regAt g r n = s.regAt g r n := by
  unfold State.debit
  split_ifs
  · rfl
  · exact State.regAt_congr rfl rfl g r n

theorem State.groups_collected (s : State) (c : Ctx) :
    (s.collected c).groups = s.groups ∧ (s.collected c).wgs = s.wgs := by
  unfold State.collected; simp only; split_ifs <;> exact ⟨rfl, rfl⟩

theorem State.regAt_collected (s : State) (c : Ctx) (g r n : Nat) :
    (s.collected c).regAt g r n = s.regAt g r n :=
  State.regAt_congr (s.groups_collected c).1 (s.groups_collected c).2 g r n

theorem State.regAt_nextGroup (s : State) (g r n : Nat) : s.nextGroup.regAt g r n = s.regAt g r n :=
  State.regAt_congr rfl rfl g r n

theorem State.regAt_moveOn (s : State) (g r n : Nat) : s.moveOn.regAt g r n = s.regAt g r n := by
  unfold State.moveOn
  split_ifs
  · split
    · split_ifs
      · exact State.regAt_congr rfl rfl g r n
      · exact s.regAt_nextGroup g r n
    · exact s.regAt_nextGroup g r n
  · exact s.regAt_nextGroup g r n

theorem State.regAt_poll (s : State) (g r n : Nat) : s.poll.regAt g r n = s.regAt g r n := by
  unfold State.poll
  split_ifs
  · rfl
  · simp only
    split
    · exact State.regAt_congr rfl rfl g r n
    · rfl

@[simp] theorem Group.settle_threads (g : Group) : g.settle.threads = g.threads := by
  unfold Group.settle; simp only; split
  · rfl
  · split
    · rfl
    · split_ifs <;> rfl

@[simp] theorem Group.settle_wg (g : Group) : g.settle.wg = g.wg := by
  unfold Group.settle; simp only; split
  · rfl
  · split
    · rfl
    · split_ifs <;> rfl

@[simp] theorem Group.settle_loc (g : Group) : g.settle.loc = g.loc := by
  unfold Group.settle; simp only; split
  · rfl
  · split
    · rfl
    · split_ifs <;> rfl

@[simp] theorem Group.settle_steward (g : Group) : g.settle.steward = g.steward := by
  unfold Group.settle; simp only; split
  · rfl
  · split
    · rfl
    · split_ifs <;> rfl

theorem State.regAt_afterIssue (s : State) (c : Ctx) (g r n : Nat) :
    (s.afterIssue c).regAt g r n = s.regAt g r n := by
  unfold State.afterIssue
  split_ifs
  · exact s.regAt_moveOn g r n
  · exact s.regAt_nextGroup g r n

theorem Group.keepsRegs_issued (k n : Nat) (f : Path → Path) : Group.KeepsRegs fun g => (g.issued k).modPath n f :=
  Group.keepsRegs_of_threads (fun _ => rfl) (fun _ => rfl) (fun _ => rfl) fun _ => rfl

theorem Group.keepsRegs_settle : Group.KeepsRegs Group.settle :=
  Group.keepsRegs_of_threads Group.settle_wg Group.settle_loc Group.settle_steward Group.settle_threads

theorem Group.KeepsRegs.comp {f h : Group → Group} (hf : Group.KeepsRegs f) (hh : Group.KeepsRegs h) :
    Group.KeepsRegs fun g => f (h g) where
  wg g := (hf.wg _).trans (hh.wg g)
  loc g := (hf.loc _).trans (hh.loc g)
  steward g := (hf.steward _).trans (hh.steward g)
  some_ g r t ht := by
    obtain ⟨t', h1, h2, h3⟩ := hh.some_ g r t ht
    obtain ⟨u, k1, k2, k3⟩ := hf.some_ _ r t' h1
    exact ⟨u, k1, k2.trans h2, k3.trans h3⟩
  none_ g r ht := hf.none_ _ r (hh.none_ g r ht)

/-- Retiring changes no register if the group's move changes none. -/
theorem State.regAt_retire (s : State) (c : Ctx) {moved : Group → Group} (hm : Group.KeepsRegs moved)
    (g r n : Nat) : (s.retire c moved).regAt g r n = s.regAt g r n := by
  unfold State.retire
  simp only [State.regAt_poll, State.regAt_afterIssue]
  rw [State.regAt_modGroup (Group.keepsRegs_settle.comp (hm.comp (Group.keepsRegs_issued _ _ _))), State.regAt_collected,
    State.regAt_debit]

theorem Ctx.keepsRegs_seq (c : Ctx) : Group.KeepsRegs fun g => c.closeChain (g.modPath c.pi c.seqPath) := by
  unfold Ctx.closeChain
  split_ifs
  · have h := Group.keepsRegs_modThreads (f := fun _ t => t.dropLatches) (fun _ _ => ⟨rfl, rfl⟩) c.p.mask
    exact ⟨fun g => h.wg _, fun g => h.loc _, fun g => h.steward _,
      fun g r t ht => h.some_ (g.modPath c.pi c.seqPath) r t ht, fun g r ht => h.none_ (g.modPath c.pi c.seqPath) r ht⟩
  · exact Group.keepsRegs_of_threads (fun _ => rfl) (fun _ => rfl) (fun _ => rfl) (fun _ => rfl)

/-- Going on with the next instruction changes no register. -/
theorem State.regAt_next_ (s : State) (c : Ctx) (g r n : Nat) : (s.next_ c).regAt g r n = s.regAt g r n :=
  State.regAt_retire s c c.keepsRegs_seq g r n

/-- Going on with the next instruction leaves everything outside the group. -/
theorem State.still_next_ (s : State) (c : Ctx) : s.Still (s.next_ c) c.gid := by
  apply State.still_retire
  intro g
  unfold Ctx.closeChain
  split_ifs <;> rfl

end Sys2Proof.Machine
end

