-- ==== Sys2Proof/Laws/Lane.lean ====
section
/-! SUPPORT. The results of register-to-register forms: what their destinations hold after the issue
(R35, R110, R117, R128). -/

namespace Sys2Proof.Machine

/-! ### Threads of the issuing path -/

theorem Ctx.mem_threads {c : Ctx} {r : Nat} {t : Thread} :
    (r, t) ∈ c.threads ↔ r ∈ ranksOf c.p.mask ∧ Tab.find? c.g.threads r = some t := by
  unfold Ctx.threads
  simp only [List.mem_filterMap, Option.map_eq_some_iff, Prod.mk.injEq]
  constructor
  · rintro ⟨a, ha, t', ht, rfl, rfl⟩; exact ⟨ha, ht⟩
  · rintro ⟨ha, ht⟩; exact ⟨r, ha, t, ht, rfl, rfl⟩

theorem ranksOf_nodup (m : Word) : (ranksOf m).Nodup := List.nodup_range.filter _

theorem Ctx.threads_ranks_nodup (c : Ctx) : (c.threads.map (·.1)).Nodup := by
  have : c.threads.map (·.1) = (ranksOf c.p.mask).filter fun r => (Tab.find? c.g.threads r).isSome := by
    unfold Ctx.threads
    induction ranksOf c.p.mask with
    | nil => rfl
    | cons r l ih =>
      simp only [List.filterMap_cons, List.filter_cons]
      cases Tab.find? c.g.threads r <;> simp [ih]
  rw [this]
  exact (ranksOf_nodup _).filter _

/-! ### Results written member by member -/

theorem State.regAt_writeNames_out {gid r : Nat} (vs : List Word) (n : Nat) (s : State)
    (h : ∀ m ∈ upFrom n vs.length, s.OwnName gid r m) (k q m : Nat)
    (hm : ¬ (gid = k ∧ r = q ∧ m ∈ upFrom n vs.length)) :
    (s.writeNames gid r n vs).regAt k q m = s.regAt k q m := by
  induction vs generalizing n s with
  | nil => rfl
  | cons v vs ih =>
    have h0 : s.OwnName gid r n := h n (by simp [upFrom])
    rw [State.writeNames, ih]
    · rw [State.regAt_writeName v h0, if_neg]
      rintro ⟨a, b, c⟩
      exact hm ⟨a, b, by simp [upFrom, c]⟩
    · intro x hx
      exact h0.writeName (h x (by simp [upFrom, hx]))
    · rintro ⟨a, b, c⟩
      exact hm ⟨a, b, by simp [upFrom, c]⟩

theorem upFrom_ge {n k m : Nat} (h : m ∈ upFrom n k) : n ≤ m := by
  induction k generalizing n with
  | zero => simp [upFrom] at h
  | succ k ih =>
    simp only [upFrom, List.mem_cons] at h
    rcases h with h | h
    · omega
    · have := ih h; omega

theorem State.regAt_writeNames_in {gid r : Nat} (vs : List Word) (n : Nat) (s : State)
    (h : ∀ m ∈ upFrom n vs.length, s.OwnName gid r m) (j : Nat) (hj : j < vs.length) :
    (s.writeNames gid r n vs).regAt gid r (n + j) = (s.regAt gid r (n + j)).map fun _ => vs[j] := by
  induction vs generalizing n s j with
  | nil => simp at hj
  | cons v vs ih =>
    have h0 : s.OwnName gid r n := h n (by simp [upFrom])
    have h1 : ∀ x ∈ upFrom (n + 1) vs.length, (s.writeName gid r n v).OwnName gid r x :=
      fun x hx => h0.writeName (h x (by simp [upFrom, hx]))
    rw [State.writeNames]
    cases j with
    | zero =>
      rw [State.regAt_writeNames_out vs (n + 1) _ h1]
      · simp [State.regAt_writeName v h0]
      · rintro ⟨_, _, c⟩; have := upFrom_ge c; omega
    | succ j =>
      have := ih (n + 1) (s.writeName gid r n v) h1 j (by simpa using hj)
      rw [show n + (j + 1) = n + 1 + j by omega, this, State.regAt_writeName v h0, if_neg (by omega)]
      simp

theorem State.OwnName.writeNames {gid r q m : Nat} (vs : List Word) (n : Nat) {s : State}
    (h : ∀ x ∈ upFrom n vs.length, s.OwnName gid r x) (h2 : s.OwnName gid q m) :
    (s.writeNames gid r n vs).OwnName gid q m := by
  induction vs generalizing n s with
  | nil => exact h2
  | cons v vs ih =>
    have h0 : s.OwnName gid r n := h n (by simp [upFrom])
    exact ih (n + 1) (fun x hx => h0.writeName (h x (by simp [upFrom, hx]))) (h0.writeName h2)

/-- The names of a field are consecutive, as many as its words. -/
theorem Fld.names_eq (f : Fld) (v : BitVec 128) :
    f.names = [] ∨ ∃ n, f.names = upFrom n (wordsOf v f).length ∧ f.names.head? = some n := by
  cases f <;> simp only [Fld.names, wordsOf] <;> try split_ifs
  all_goals simp [upFrom]

theorem State.regAt_writeFld_out {gid r : Nat} {f : Fld} (v : BitVec 128) (s : State)
    (h : ∀ m ∈ f.names, s.OwnName gid r m) (k q m : Nat) (hm : ¬ (gid = k ∧ r = q ∧ m ∈ f.names)) :
    (s.writeFld gid r f v).regAt k q m = s.regAt k q m := by
  rcases f.names_eq v with h0 | ⟨n, h1, h2⟩
  · simp [State.writeFld, h0]
  · cases hn : f.names with
    | nil => simp [State.writeFld, hn]
    | cons a l =>
      have ha : a = n := by simpa [hn] using h2
      subst ha
      simp only [State.writeFld, hn]
      rw [h1] at h hm
      exact State.regAt_writeNames_out _ _ _ h k q m hm

theorem State.regAt_writeFld_in {gid r n : Nat} {f : Fld} (v : BitVec 128) (s : State)
    (h : ∀ m ∈ f.names, s.OwnName gid r m) (hn : f.names.head? = some n) (j : Nat)
    (hj : j < (wordsOf v f).length) :
    (s.writeFld gid r f v).regAt gid r (n + j) = (s.regAt gid r (n + j)).map fun _ => (wordsOf v f)[j] := by
  rcases f.names_eq v with h0 | ⟨n', h1, h2⟩
  · simp [h0] at hn
  · cases hl : f.names with
    | nil => simp [hl] at hn
    | cons a l =>
      have ha : a = n := by simpa [hl] using hn
      subst ha
      have : n' = a := by simpa [hl] using h2.symm
      subst this
      simp only [State.writeFld, hl]
      rw [h1] at h
      exact State.regAt_writeNames_in _ _ _ h j hj

theorem State.OwnName.writeFld {gid r q m : Nat} {f : Fld} (v : BitVec 128) {s : State}
    (h : ∀ x ∈ f.names, s.OwnName gid r x) (h2 : s.OwnName gid q m) : (s.writeFld gid r f v).OwnName gid q m := by
  rcases f.names_eq v with h0 | ⟨n, h1, h3⟩
  · simpa [State.writeFld, h0] using h2
  · cases hn : f.names with
    | nil => simpa [State.writeFld, hn] using h2
    | cons a l =>
      have ha : a = n := by simpa [hn] using h3
      subst ha
      simp only [State.writeFld, hn]
      rw [h1] at h
      exact h2.writeNames _ _ h

/-- The results of several members: the fold over them. -/
def State.writeFields (s : State) (gid : Nat) (f : Fld) (rs : List (Nat × BitVec 128)) : State :=
  rs.foldl (fun s r => s.writeFld gid r.1 f r.2) s

theorem State.regAt_writeFields_out {gid : Nat} {f : Fld} (rs : List (Nat × BitVec 128)) (s : State)
    (h : ∀ r ∈ rs.map (·.1), ∀ m ∈ f.names, s.OwnName gid r m) (k q m : Nat)
    (hm : ¬ (gid = k ∧ q ∈ rs.map (·.1) ∧ m ∈ f.names)) : (s.writeFields gid f rs).regAt k q m = s.regAt k q m := by
  induction rs generalizing s with
  | nil => rfl
  | cons e rs ih =>
    have h0 : ∀ m ∈ f.names, s.OwnName gid e.1 m := h e.1 (by simp)
    have h1 : ∀ r ∈ rs.map (·.1), ∀ m ∈ f.names, (s.writeFld gid e.1 f e.2).OwnName gid r m :=
      fun r hr m hm => State.OwnName.writeFld _ h0 (h r (by simp at hr ⊢; exact Or.inr hr) m hm)
    show ((s.writeFld gid e.1 f e.2).writeFields gid f rs).regAt k q m = _
    rw [ih _ h1, State.regAt_writeFld_out _ _ h0]
    · rintro ⟨a, b, c⟩; exact hm ⟨a, by simp [b], c⟩
    · rintro ⟨a, b, c⟩; exact hm ⟨a, by simp at b ⊢; exact Or.inr b, c⟩

theorem State.regAt_writeFields_in {gid n r : Nat} {f : Fld} {v : BitVec 128} (rs : List (Nat × BitVec 128))
    (s : State) (h : ∀ r ∈ rs.map (·.1), ∀ m ∈ f.names, s.OwnName gid r m) (hd : (rs.map (·.1)).Nodup)
    (hr : (r, v) ∈ rs) (hn : f.names.head? = some n) (j : Nat) (hj : j < (wordsOf v f).length) :
    (s.writeFields gid f rs).regAt gid r (n + j) = (s.regAt gid r (n + j)).map fun _ => (wordsOf v f)[j] := by
  induction rs generalizing s with
  | nil => simp at hr
  | cons e rs ih =>
    have h0 : ∀ m ∈ f.names, s.OwnName gid e.1 m := h e.1 (by simp)
    have h1 : ∀ r ∈ rs.map (·.1), ∀ m ∈ f.names, (s.writeFld gid e.1 f e.2).OwnName gid r m :=
      fun r hr m hm => State.OwnName.writeFld _ h0 (h r (by simp at hr ⊢; exact Or.inr hr) m hm)
    simp only [List.map_cons, List.nodup_cons] at hd
    show ((s.writeFld gid e.1 f e.2).writeFields gid f rs).regAt gid r (n + j) = _
    rcases List.mem_cons.mp hr with he | hr
    · subst he
      rw [State.regAt_writeFields_out _ _ h1 _ _ _ (fun c => hd.1 c.2.1)]
      exact State.regAt_writeFld_in v s h0 hn j hj
    · rw [ih _ h1 hd.2 hr, State.regAt_writeFld_out _ _ h0]
      rintro ⟨-, b, -⟩
      exact hd.1 (by rw [b]; exact List.mem_map.mpr ⟨_, hr, rfl⟩)

/-! ### The effect of a lane-set form -/

theorem Group.tag_same (g : Group) (w : Workgroup) (k r n : Nat) (v : Word) :
    (g.tag w k r n v).rest = g.rest ∧ (g.tag w k r n v).threads = g.threads ∧ (g.tag w k r n v).fpx = g.fpx := by
  unfold Group.tag Group.untag; simp only; split_ifs <;> exact ⟨rfl, rfl, rfl⟩

theorem Group.tags_same (vs : List Word) (g : Group) (w : Workgroup) (k r n : Nat) :
    (g.tags w k r n vs).rest = g.rest ∧ (g.tags w k r n vs).threads = g.threads
      ∧ (g.tags w k r n vs).fpx = g.fpx := by
  induction vs generalizing g n with
  | nil => exact ⟨rfl, rfl, rfl⟩
  | cons v vs ih =>
    obtain ⟨a, b, c⟩ := ih (g.tag w k r n v) (n + 1)
    obtain ⟨a', b', c'⟩ := g.tag_same w k r n v
    exact ⟨a.trans a', b.trans b', c.trans c'⟩

/-- The uniform tags that a result writes touch no thread, no flag and no special register. -/
theorem Group.tagAll_same (rs : List (Nat × BitVec 128)) (g : Group) (w : Workgroup) (k n : Nat) (f : Fld) :
    let t := rs.foldl (fun g r => Group.tags g w k r.1 n (wordsOf r.2 f)) g
    t.rest = g.rest ∧ t.threads = g.threads ∧ t.fpx = g.fpx := by
  induction rs generalizing g with
  | nil => exact ⟨rfl, rfl, rfl⟩
  | cons r rs ih =>
    obtain ⟨a, b, c⟩ := ih (g.tags w k r.1 n (wordsOf r.2 f))
    obtain ⟨a', b', c'⟩ := Group.tags_same (wordsOf r.2 f) g w k r.1 n
    exact ⟨a.trans a', b.trans b', c.trans c'⟩

theorem State.regAt_writeResults (s : State) (c : Ctx) (f : Fld) (rs : List (Nat × BitVec 128)) (k q m : Nat) :
    (s.writeResults c f rs).regAt k q m = (s.writeFields c.gid f rs).regAt k q m := by
  unfold State.writeResults
  cases f.names with
  | nil => rfl
  | cons n l =>
    have h := fun g => Group.tagAll_same rs g c.w s.cycle n f
    exact State.regAt_modGroup (Group.keepsRegs_of_threads (fun g => by simpa [Group.rest] using congrArg Group.wg (h g).1)
      (fun g => by simpa [Group.rest] using congrArg Group.loc (h g).1)
      (fun g => by simpa [Group.rest] using congrArg Group.steward (h g).1) fun g => (h g).2.1) _ _ _ _ _

theorem State.regAt_orFpx (s : State) (g : Nat) (fl : Fpx) (k q m : Nat) :
    (s.orFpx g fl).regAt k q m = s.regAt k q m :=
  State.regAt_modGroup (f := fun g => { g with fpx := g.fpx ||| fl })
    (Group.keepsRegs_of_threads (fun _ => rfl) (fun _ => rfl) (fun _ => rfl) (fun _ => rfl)) _ _ _ _ _

theorem State.regAt_modThread {f : Thread → Thread} (hf : ∀ t : Thread, t.SameRegs (f t)) (s : State)
    (g r k q m : Nat) : (s.modThread g r f).regAt k q m = s.regAt k q m :=
  State.regAt_modGroup (Group.keepsRegs_updThread hf r) _ _ _ _ _

theorem latch_sameRegs (f : Form) (a r : Word) (t : Thread) : t.SameRegs (latch f a r t) := by
  unfold latch; split_ifs <;> exact ⟨rfl, rfl⟩

theorem State.regAt_latchAll (s : State) (c : Ctx) (vs : List (Nat × Word × Word)) (k q m : Nat) :
    (s.latchAll c vs).regAt k q m = s.regAt k q m := by
  unfold State.latchAll
  split_ifs
  · induction vs generalizing s with
    | nil => rfl
    | cons v vs ih =>
      rw [List.foldl_cons, ih]
      exact State.regAt_modThread (latch_sameRegs _ _ _) _ _ _ _ _ _
  · rfl

theorem State.regAt_launch (s : State) (c : Ctx) (ms : List Machine.Member) (ds : List Nat) (p : Option Nat)
    (a : APath) (sc : Nat) (fl : Fpx) (k q m : Nat) : (s.launch c ms ds p a sc fl).2.regAt k q m = s.regAt k q m := by
  unfold State.launch
  simp only
  rw [State.regAt_modGroup]
  · exact State.regAt_congr rfl rfl _ _ _
  · apply Group.keepsRegs_of_threads <;> intro g <;> unfold Group.sbAdd <;> split_ifs <;> rfl

theorem walkReads_sameRegs (f : Form) (t : Thread) : t.SameRegs (walkReads f t).2.2 := by
  have h : ∀ (t : Thread) (n : Name), t.SameRegs (readWalker t n).2 := by
    intro t n; unfold readWalker; simp only; split_ifs <;> exact ⟨rfl, rfl⟩
  unfold walkReads
  cases f.a.walker? <;> cases f.b.walker? <;> simp only
  · exact ⟨rfl, rfl⟩
  · exact h _ _
  · exact h _ _
  · exact ⟨(h _ _).1.trans (h _ _).1, (h _ _).2.trans (h _ _).2⟩

theorem State.regAt_advanceWalkers (s : State) (c : Ctx) (k q m : Nat) :
    (s.advanceWalkers c).regAt k q m = s.regAt k q m :=
  State.regAt_modGroup (Group.keepsRegs_modThreads (fun _ t => walkReads_sameRegs c.f t) _) _ _ _ _ _

/-- The places of names in a group that is changed without touching registers. -/
theorem State.OwnName.modGroup {f : Group → Group} (hf : Group.KeepsRegs f) {s : State} {gid r n : Nat}
    (h : s.OwnName gid r n) : (s.modGroup gid f).OwnName gid r n := by
  intro g t hg ht
  rw [State.group?_modGroup_self] at hg
  cases hx : s.group? gid with
  | none => simp [hx] at hg
  | some x =>
    simp only [hx, Option.map_some, Option.some.injEq] at hg
    subst hg
    have hw : (s.modGroup gid f).wgOf (f x) = s.wgOf x := wgOf_congr (fun _ => rfl) (hf.wg x) (hf.loc x) (hf.steward x)
    rw [hw]
    cases hy : Tab.find? x.threads r with
    | none => rw [hf.none_ x r hy] at ht; simp at ht
    | some y =>
      obtain ⟨y', h1, h2, h3⟩ := hf.some_ x r y hy
      rw [h1, Option.some.injEq] at ht
      subst ht
      rw [placeOf_congr n h3 rfl]
      exact h x y hx hy

/-- The context is that of the state: its group at the cursor, and the group's workgroup. -/
structure Ctx.Of (c : Ctx) (s : State) : Prop where
  group : s.group? c.gid = some c.g
  wg : c.w = s.wgOf c.g

theorem State.Ready.of {s : State} {i : Instr} {f : Form} {c : Ctx} (h : s.Ready i f c) : c.Of s :=
  ⟨h.group.1, h.group.2.2⟩

/-- Members that execute at LANE write names of their own. -/
def Ctx.OwnDst (c : Ctx) : Prop :=
  ∀ e ∈ c.threads, (c.execPlace e.2).1 = .lane → ∀ n ∈ c.f.dst.names, (placeOf c.w e.2 n).1 ≠ .cluster

theorem Ctx.Of.ownName {c : Ctx} {s : State} (h : c.Of s) {r n : Nat} {t : Thread} (ht : (r, t) ∈ c.threads)
    (hp : (placeOf c.w t n).1 ≠ .cluster) : s.OwnName c.gid r n := by
  intro g t' hg ht'
  rw [h.group, Option.some.injEq] at hg
  subst hg
  rw [(Ctx.mem_threads.mp ht).2, Option.some.injEq] at ht'
  subst ht'
  rw [← h.wg]; exact hp

/-- The members whose result is written at issue, as `runLane` takes them. -/
def Ctx.now (c : Ctx) :
    List ((Nat × Thread) × Option (DWord × BitVec 2) × Option (DWord × BitVec 2) × Thread) :=
  (c.threads.map fun e => (e, walkReads c.f e.2)).filter fun p =>
    (c.execPlace p.1.2).1 == .lane && p.2.1.isNone && p.2.2.1.isNone

/-- Their results. -/
def Ctx.results (c : Ctx) (op : LaneOp) : List (Nat × BitVec 128) :=
  c.now.map fun p =>
    (p.1.1, (op.eval ((c.env p.1).val c.f.a) ((c.env p.1).val c.f.b) (c.third p.1)).1)

theorem Ctx.Plain.lane {c : Ctx} {t : Thread} (h : c.Plain t) : (c.execPlace t).1 = .lane := by
  have h1 := h.here
  have h2 := h.unmoved
  unfold Ctx.execPlace
  cases hn : c.f.dst.names with
  | nil => rfl
  | cons n l => simp [Ctx.place, h1 n (by simp [hn]), h2 n (by simp [hn])]

theorem Ctx.mem_results {c : Ctx} {op : LaneOp} {r : Nat} {t : Thread} (ht : (r, t) ∈ c.threads)
    (hp : c.Plain t) :
    (r, (op.eval ((c.env (r, t)).val c.f.a) ((c.env (r, t)).val c.f.b) (c.third (r, t))).1) ∈ c.results op := by
  unfold Ctx.results Ctx.now
  refine List.mem_map.mpr ⟨((r, t), walkReads c.f t), ?_, rfl⟩
  refine List.mem_filter.mpr ⟨List.mem_map.mpr ⟨(r, t), ht, rfl⟩, ?_⟩
  simp [hp.lane, hp.noA, hp.noB]

theorem Ctx.results_ranks {c : Ctx} {op : LaneOp} :
    (c.results op).map (·.1) = c.now.map fun p => p.1.1 := by
  unfold Ctx.results; simp [List.map_map, Function.comp_def]

theorem Ctx.results_nodup {c : Ctx} {op : LaneOp} : ((c.results op).map (·.1)).Nodup := by
  rw [Ctx.results_ranks]
  have h : (c.threads.map fun e => (e, walkReads c.f e.2)).map (fun p => p.1.1) = c.threads.map (·.1) := by
    simp [List.map_map, Function.comp_def]
  have := c.threads_ranks_nodup
  rw [← h] at this
  exact this.sublist (List.filter_sublist.map _)

theorem Ctx.mem_now {c : Ctx} {r : Nat} (h : r ∈ c.now.map fun p => p.1.1) :
    ∃ t, (r, t) ∈ c.threads ∧ (c.execPlace t).1 = .lane := by
  obtain ⟨p, hp, rfl⟩ := List.mem_map.mp h
  unfold Ctx.now at hp
  obtain ⟨h1, h2⟩ := List.mem_filter.mp hp
  obtain ⟨e, he, rfl⟩ := List.mem_map.mp h1
  refine ⟨e.2, he, ?_⟩
  simp only [Bool.and_eq_true, beq_iff_eq] at h2
  exact h2.1.1

/-- The registers after a lane-set form are those after its results are written. -/
theorem State.regAt_runLane {s : State} {c : Ctx} {op : LaneOp} (hd : c.f.dstP = none) (k q m : Nat) :
    ∃ s1 : State, (s.runLane op c).regAt k q m = (s1.writeFields c.gid c.f.dst (c.results op)).regAt k q m
      ∧ (∀ k q m, s1.regAt k q m = s.regAt k q m) ∧ (∀ r n, s.OwnName c.gid r n → s1.OwnName c.gid r n) := by
  refine ⟨(if c.inChain then s.freeWord.2 else s).advanceWalkers c, ?_, ?_, ?_⟩
  · unfold State.runLane
    simp only [hd]
    rw [State.regAt_next_]
    have hl : ∀ (b : Bool) (u v : State), v.regAt k q m = u.regAt k q m →
        (if b then u else v).regAt k q m = u.regAt k q m := by intro b u v e; cases b <;> simp [e]
    have hr : ∀ (b : Bool) (u v : State), u.regAt k q m = v.regAt k q m →
        (if b then u else v).regAt k q m = v.regAt k q m := by intro b u v e; cases b <;> simp [e]
    rw [hl _ _ _ (State.regAt_launch ..), State.regAt_latchAll, hr _ _ _ (State.regAt_orFpx ..), State.regAt_writeResults]
    congr 2
    unfold Ctx.results Ctx.now
    simp [List.map_map, Function.comp_def]
  · intro k q m
    rw [State.regAt_advanceWalkers]
    cases c.inChain <;> rfl
  · intro r n h
    apply State.OwnName.modGroup (Group.keepsRegs_modThreads (fun _ t => walkReads_sameRegs c.f t) _)
    cases c.inChain <;> exact h

/-- What a lane-set form writes: for a member at LANE with register sources, the words of the result in the
names of the destination. -/
theorem State.runLane_value {s : State} {c : Ctx} {op : LaneOp} (hc : c.Of s) (hd : c.f.dstP = none)
    (ho : c.OwnDst) {r n : Nat} {t : Thread} (ht : (r, t) ∈ c.threads) (hp : c.Plain t)
    (hn : c.f.dst.names.head? = some n) (j : Nat)
    {v : BitVec 128} (hv : v = (op.eval ((c.env (r, t)).val c.f.a) ((c.env (r, t)).val c.f.b) (c.third (r, t))).1)
    (hj : j < (wordsOf v c.f.dst).length) :
    (s.runLane op c).regAt c.gid r (n + j) = (s.regAt c.gid r (n + j)).map fun _ => (wordsOf v c.f.dst)[j] := by
  obtain ⟨s1, h1, h2, h3⟩ := State.regAt_runLane (s := s) (c := c) (op := op) hd c.gid r (n + j)
  rw [h1, ← h2]
  refine State.regAt_writeFields_in _ s1 ?_ Ctx.results_nodup (hv ▸ Ctx.mem_results ht hp) hn j hj
  intro q hq m hm
  rw [Ctx.results_ranks] at hq
  obtain ⟨t', ht', hl⟩ := Ctx.mem_now hq
  exact h3 _ _ (hc.ownName ht' (ho _ ht' hl m hm))

/-- What a lane-set form leaves: every name that it does not write, of every thread. -/
theorem State.runLane_frame {s : State} {c : Ctx} {op : LaneOp} (hc : c.Of s) (hd : c.f.dstP = none)
    (ho : c.OwnDst) (k q m : Nat) (h : ¬ (k = c.gid ∧ (∃ t, (q, t) ∈ c.threads) ∧ m ∈ c.f.dst.names)) :
    (s.runLane op c).regAt k q m = s.regAt k q m := by
  obtain ⟨s1, h1, h2, h3⟩ := State.regAt_runLane (s := s) (c := c) (op := op) hd k q m
  rw [h1, State.regAt_writeFields_out, h2]
  · intro q hq m hm
    rw [Ctx.results_ranks] at hq
    obtain ⟨t', ht', hl⟩ := Ctx.mem_now hq
    exact h3 _ _ (hc.ownName ht' (ho _ ht' hl m hm))
  · rintro ⟨a, b, d⟩
    rw [Ctx.results_ranks] at b
    obtain ⟨t', ht', -⟩ := Ctx.mem_now b
    exact h ⟨a.symm, ⟨t', ht'⟩, d⟩

end Sys2Proof.Machine
end

