-- ==== Sys2Proof/Laws/Frames.lean ====
section
/-! SUPPORT. What the issue of a form that writes registers alone leaves as it was: every other
register, predicate and walker, memory, and everything outside the group (R117, R128). -/

namespace Sys2Proof.Machine

/-! ### Observations after a change of a group -/

/-- A part of a thread, for a rank of a group. -/
def State.partAt {α : Type} (s : State) (part : Thread → α) (g r : Nat) : Option α :=
  ((s.group? g).bind fun x => Tab.find? x.threads r).map part

theorem State.predAt_eq (s : State) (g r p : Nat) : s.predAt g r p = s.partAt (fun t => predOf t p) g r := by
  unfold State.predAt State.partAt
  cases s.group? g with
  | none => rfl
  | some x => cases h : Tab.find? x.threads r <;> simp [h]

theorem State.walkerAt_eq (s : State) (g r k : Nat) :
    s.walkerAt g r k = s.partAt (fun t => Tab.getD t.walkers k {}) g r := by
  unfold State.walkerAt State.partAt
  cases s.group? g with
  | none => rfl
  | some x => cases h : Tab.find? x.threads r <;> simp [h]

/-- A change of a group keeps a part of its threads. -/
def Group.KeepsPart {α : Type} (part : Thread → α) (f : Group → Group) : Prop :=
  ∀ g r, (Tab.find? (f g).threads r).map part = (Tab.find? g.threads r).map part

theorem State.partAt_modGroup {α : Type} {part : Thread → α} {f : Group → Group} (h : Group.KeepsPart part f)
    (s : State) (g k r : Nat) : (s.modGroup g f).partAt part k r = s.partAt part k r := by
  unfold State.partAt
  rw [State.group?_modGroup]
  split_ifs with e
  · cases s.group? k with
    | none => rfl
    | some x => simpa using h x r
  · rfl

theorem Group.KeepsPart.of_threads {α : Type} {part : Thread → α} {f : Group → Group}
    (h : ∀ g, (f g).threads = g.threads) : Group.KeepsPart part f := fun g r => by rw [h]

theorem Group.KeepsPart.modThreads {α : Type} {part : Thread → α} {f : Nat → Thread → Thread}
    (h : ∀ r t, part (f r t) = part t) (m : Word) : Group.KeepsPart part fun g => g.modThreads m f := by
  intro g r
  simp only [Group.modThreads, Tab.find?_mapV, Option.map_map]
  congr 1
  funext t
  simp only [Function.comp]
  split_ifs
  · exact h r t
  · rfl

theorem Group.KeepsPart.updThread {α : Type} {part : Thread → α} {f : Thread → Thread}
    (h : ∀ t, part (f t) = part t) (k : Nat) :
    Group.KeepsPart part fun g => { g with threads := Tab.upd g.threads k f } := by
  intro g r
  simp only [Tab.find?_upd]
  split_ifs
  · rw [Option.map_map]; congr 1; funext t; exact h t
  · rfl

theorem Group.KeepsPart.comp {α : Type} {part : Thread → α} {f h : Group → Group} (hf : Group.KeepsPart part f)
    (hh : Group.KeepsPart part h) : Group.KeepsPart part fun g => f (h g) :=
  fun g r => (hf (h g) r).trans (hh g r)

/-- Parts of threads that no register write changes. -/
structure PartOfThread {α : Type} (part : Thread → α) : Prop where
  write : ∀ w t n v, part (writeV w t n v).2 = part t
  chain : ∀ (t : Thread) b1 b2 o0 o1 o2, part { t with b1, b2, o0, o1, o2 } = part t

theorem partOfThread_pred (p : Nat) : PartOfThread fun t => predOf t p where
  write w t n v := by
    unfold writeV
    cases Tab.find? t.far n with
    | some _ => rfl
    | none => simp only; split_ifs <;> rfl
  chain _ _ _ _ _ _ := rfl

theorem partOfThread_walker (k : Nat) : PartOfThread fun t => Tab.getD t.walkers k {} where
  write w t n v := by
    unfold writeV
    cases Tab.find? t.far n with
    | some _ => rfl
    | none => simp only; split_ifs <;> rfl
  chain _ _ _ _ _ _ := rfl

theorem State.partAt_congr {α : Type} {part : Thread → α} {s t : State} (h : ∀ g, t.group? g = s.group? g) (g r : Nat) :
    t.partAt part g r = s.partAt part g r := by
  unfold State.partAt; rw [h]

theorem State.partAt_writeName {α : Type} {part : Thread → α} (hp : PartOfThread part) {s : State} {gid r n : Nat}
    (v : Word) (h : s.OwnName gid r n) (k q : Nat) : (s.writeName gid r n v).partAt part k q = s.partAt part k q := by
  unfold State.partAt
  rw [State.group?_writeName v h]
  split_ifs
  · cases s.group? k with
    | none => rfl
    | some x =>
      simp only [Option.map_some, Option.bind_some, Tab.find?_upd]
      split_ifs
      · cases Tab.find? x.threads q with
        | none => rfl
        | some t => simp [hp.write]
      · rfl
  · rfl

/-! ### Memory -/

theorem State.Still.sameMemory {s t : State} {g : Nat} (h : s.Still t g) : s.SameMemory t where
  phys pa := by
    unfold State.readPa
    cases hbmDie pa with
    | none => simp only [h.hostMem]
    | some d =>
      have : (t.die d).rest.mem = (s.die d).rest.mem := by rw [h.dies d]
      simp only [Die.rest] at this
      simp only [this, h.hostMem]
  safe a := by rw [h.safeTier]
  spads c off := by rw [h.clusters]
  lines l := by
    have := congrArg Core.l1 (h.cores l)
    simpa [Core.rest] using this

/-! ### Frames compose -/

theorem State.RegFrame.trans {s t u : State} {g : Nat} {who : Nat → Prop} {ns ps ws : List Nat} {f1 f2 : Fpx}
    (h : s.RegFrame t g who ns ps ws f1) (k : t.RegFrame u g who ns ps ws f2) :
    s.RegFrame u g who ns ps ws (f1 ||| f2) where
  still := h.still.trans k.still
  memory := (h.still.trans k.still).sameMemory
  regs a b m hm := (k.regs a b m hm).trans (h.regs a b m hm)
  preds a b m hm := (k.preds a b m hm).trans (h.preds a b m hm)
  walkers a b m hm := (k.walkers a b m hm).trans (h.walkers a b m hm)
  flags := by
    rw [k.flags, h.flags, Option.map_map]
    congr 1; funext x; simp [BitVec.or_assoc]

theorem State.RegFrame.seq {s t u : State} {g : Nat} {who : Nat → Prop} {ns ps ws : List Nat} {f1 f2 f3 : Fpx}
    (h : s.RegFrame t g who ns ps ws f1) (k : t.RegFrame u g who ns ps ws f2) (e : f1 ||| f2 = f3) :
    s.RegFrame u g who ns ps ws f3 := e ▸ h.trans k

theorem State.RegFrame.refl (s : State) (g : Nat) (who : Nat → Prop) (ns ps ws : List Nat) :
    s.RegFrame s g who ns ps ws 0 where
  still := State.Still.refl s g
  memory := (State.Still.refl s g).sameMemory
  regs _ _ _ _ := rfl
  preds _ _ _ _ := rfl
  walkers _ _ _ _ := rfl
  flags := by cases s.fpxAt g <;> simp

/-- A change of the group that touches no thread's files and no special register. -/
theorem State.regFrame_modGroup {f : Group → Group} (h1 : ∀ g, (f g).rest = g.rest) (h2 : Group.KeepsRegs f)
    (h3 : ∀ p, Group.KeepsPart (fun t => predOf t p) f)
    (h4 : ∀ k, Group.KeepsPart (fun t => Tab.getD t.walkers k {}) f) {fl : Fpx} (h5 : ∀ g, (f g).fpx = g.fpx ||| fl)
    (s : State) (g : Nat) (who : Nat → Prop) (ns ps ws : List Nat) :
    s.RegFrame (s.modGroup g f) g who ns ps ws fl where
  still := State.still_modGroup h1 s g
  memory := (State.still_modGroup h1 s g).sameMemory
  regs k q m _ := State.regAt_modGroup h2 _ _ _ _ _
  preds k q m _ := by rw [State.predAt_eq, State.predAt_eq, State.partAt_modGroup (h3 m)]
  walkers k q m _ := by rw [State.walkerAt_eq, State.walkerAt_eq, State.partAt_modGroup (h4 m)]
  flags := by
    unfold State.fpxAt
    rw [State.group?_modGroup_self, Option.map_map, Option.map_map]
    congr 1; funext x; exact h5 x

/-- A change of the group that leaves its threads. -/
theorem State.regFrame_ofThreads {f : Group → Group} (h1 : ∀ g, (f g).rest = g.rest)
    (h2 : ∀ g, (f g).threads = g.threads) {fl : Fpx} (h5 : ∀ g, (f g).fpx = g.fpx ||| fl)
    (s : State) (g : Nat) (who : Nat → Prop) (ns ps ws : List Nat) :
    s.RegFrame (s.modGroup g f) g who ns ps ws fl :=
  State.regFrame_modGroup h1
    (Group.keepsRegs_of_threads (fun x => by have := congrArg Group.wg (h1 x); simpa [Group.rest] using this)
      (fun x => by have := congrArg Group.loc (h1 x); simpa [Group.rest] using this)
      (fun x => by have := congrArg Group.steward (h1 x); simpa [Group.rest] using this) h2)
    (fun _ => Group.KeepsPart.of_threads h2) (fun _ => Group.KeepsPart.of_threads h2) h5 s g who ns ps ws

/-- States with the same groups and workgroups, the rest still. -/
theorem State.regFrame_of_groups {s t : State} (g : Nat) (h : s.Still t g) (hg : t.groups = s.groups) (hw : t.wgs = s.wgs)
    (who : Nat → Prop) (ns ps ws : List Nat) : s.RegFrame t g who ns ps ws 0 where
  still := h
  memory := h.sameMemory
  regs _ _ _ _ := State.regAt_congr hg hw _ _ _
  preds _ _ _ _ := by
    rw [State.predAt_eq, State.predAt_eq]; exact State.partAt_congr (fun k => by simp [State.group?, hg]) _ _
  walkers _ _ _ _ := by
    rw [State.walkerAt_eq, State.walkerAt_eq]; exact State.partAt_congr (fun k => by simp [State.group?, hg]) _ _
  flags := by unfold State.fpxAt State.group?; rw [hg]; cases Tab.find? s.groups g <;> simp

/-! ### Retiring -/

theorem State.groups_debit (s : State) (loc region p : Nat) :
    (s.debit loc region p).groups = s.groups ∧ (s.debit loc region p).wgs = s.wgs := by
  unfold State.debit; split_ifs <;> exact ⟨rfl, rfl⟩

theorem State.groups_moveOn (s : State) : s.moveOn.groups = s.groups ∧ s.moveOn.wgs = s.wgs := by
  unfold State.moveOn
  split_ifs
  · split
    · split_ifs <;> exact ⟨rfl, rfl⟩
    · exact ⟨rfl, rfl⟩
  · exact ⟨rfl, rfl⟩

theorem State.groups_poll (s : State) : s.poll.groups = s.groups ∧ s.poll.wgs = s.wgs := by
  unfold State.poll
  split_ifs
  · exact ⟨rfl, rfl⟩
  · simp only; split <;> exact ⟨rfl, rfl⟩

theorem State.groups_afterIssue (s : State) (c : Ctx) :
    (s.afterIssue c).groups = s.groups ∧ (s.afterIssue c).wgs = s.wgs := by
  unfold State.afterIssue
  split_ifs
  · exact s.groups_moveOn
  · exact ⟨rfl, rfl⟩

@[simp] theorem Group.settle_fpx (g : Group) : g.settle.fpx = g.fpx := by
  unfold Group.settle; simp only; split
  · rfl
  · split
    · rfl
    · split_ifs <;> rfl

theorem Group.issued_fpx (g : Group) (k n : Nat) (f : Path → Path) : ((g.issued k).modPath n f).fpx = g.fpx := rfl

theorem Group.issued_threads (g : Group) (k n : Nat) (f : Path → Path) :
    ((g.issued k).modPath n f).threads = g.threads := rfl

/-- Retiring changes no register, predicate, walker or flag if the group's move changes none. -/
theorem State.regFrame_retire (s : State) (c : Ctx) {moved : Group → Group} (h1 : ∀ g, (moved g).rest = g.rest)
    (h2 : Group.KeepsRegs moved) (h3 : ∀ p, Group.KeepsPart (fun t => predOf t p) moved)
    (h4 : ∀ k, Group.KeepsPart (fun t => Tab.getD t.walkers k {}) moved) (h5 : ∀ g, (moved g).fpx = g.fpx)
    (who : Nat → Prop) (ns ps ws : List Nat) : s.RegFrame (s.retire c moved) c.gid who ns ps ws 0 := by
  unfold State.retire
  have a := (State.regFrame_of_groups c.gid (s.still_debit c.g.loc c.w.region (s.priceOf c) c.gid)
    (s.groups_debit _ _ _).1 (s.groups_debit _ _ _).2 who ns ps ws).seq
    (State.regFrame_of_groups c.gid (State.still_collected (s.debit c.g.loc c.w.region (s.priceOf c)) c c.gid)
      (State.groups_collected _ c).1 (State.groups_collected _ c).2 who ns ps ws) (f3 := 0) rfl
  have b := State.regFrame_modGroup
    (f := fun g => (moved ((g.issued s.cycle).modPath c.pi Path.licensed)).settle) (fl := 0)
    (fun g => by rw [Group.rest_settle, h1, Group.rest_modPath, Group.rest_issued])
    (Group.keepsRegs_settle.comp (h2.comp (Group.keepsRegs_issued _ _ _)))
    (fun p => (Group.KeepsPart.of_threads Group.settle_threads).comp
      ((h3 p).comp (Group.KeepsPart.of_threads fun g => Group.issued_threads g _ _ _)))
    (fun p => (Group.KeepsPart.of_threads Group.settle_threads).comp
      ((h4 p).comp (Group.KeepsPart.of_threads fun g => Group.issued_threads g _ _ _)))
    (fun g => by simp [h5, Group.issued_fpx])
    ((s.debit c.g.loc c.w.region (s.priceOf c)).collected c) c.gid who ns ps ws
  have k : ∀ u : State, u.RegFrame (u.afterIssue c).poll c.gid who ns ps ws 0 := fun u =>
    State.regFrame_of_groups c.gid ((State.still_afterIssue u c c.gid).trans (State.still_poll _ _))
      ((State.groups_poll _).1.trans (State.groups_afterIssue u c).1)
      ((State.groups_poll _).2.trans (State.groups_afterIssue u c).2) who ns ps ws
  exact (a.trans b).trans (k _)

theorem State.regFrame_next_ (s : State) (c : Ctx) (who : Nat → Prop) (ns ps ws : List Nat) :
    s.RegFrame (s.next_ c) c.gid who ns ps ws 0 := by
  refine State.regFrame_retire s c (fun g => ?_) c.keepsRegs_seq (fun p => ?_) (fun k => ?_) (fun g => ?_) who ns ps ws
  · unfold Ctx.closeChain; split_ifs <;> rfl
  · unfold Ctx.closeChain
    split_ifs
    · exact (Group.KeepsPart.modThreads (f := fun _ t => t.dropLatches) (fun _ _ => rfl) c.p.mask).comp
        (Group.KeepsPart.of_threads (f := fun g => g.modPath c.pi c.seqPath) fun _ => rfl)
    · exact Group.KeepsPart.of_threads fun _ => rfl
  · unfold Ctx.closeChain
    split_ifs
    · exact (Group.KeepsPart.modThreads (f := fun _ t => t.dropLatches) (fun _ _ => rfl) c.p.mask).comp
        (Group.KeepsPart.of_threads (f := fun g => g.modPath c.pi c.seqPath) fun _ => rfl)
    · exact Group.KeepsPart.of_threads fun _ => rfl
  · unfold Ctx.closeChain; split_ifs <;> rfl

/-! ### Writing results -/

theorem State.still_writeName {s : State} {gid r n : Nat} (v : Word) (h : s.OwnName gid r n) :
    s.Still (s.writeName gid r n v) gid := by
  unfold State.writeName
  cases hg : s.group? gid with
  | none => exact State.Still.refl s gid
  | some g =>
    cases ht : Tab.find? g.threads r with
    | none => simp only [ht]; exact State.Still.refl s gid
    | some t =>
      have hp := beq_eq_false_iff_ne.mpr (h g t hg ht)
      simp only [ht, hp, Bool.false_and, Bool.false_eq_true, if_false]
      constructor <;> first | (intros; rfl) | skip
      · intro k hk; rw [State.group?_setGroup, if_neg (Ne.symm hk)]
      · rw [State.group?_setGroup_self, hg]; rfl

theorem State.fpxAt_writeName {s : State} {gid r n : Nat} (v : Word) (h : s.OwnName gid r n) (k : Nat) :
    (s.writeName gid r n v).fpxAt k = s.fpxAt k := by
  unfold State.fpxAt
  rw [State.group?_writeName v h]
  split_ifs
  · cases s.group? k <;> rfl
  · rfl

theorem State.regFrame_writeName {s : State} {gid r n : Nat} (v : Word) (h : s.OwnName gid r n)
    {who : Nat → Prop} (hw : who r) {ns : List Nat} (hn : n ∈ ns) (ps ws : List Nat) :
    s.RegFrame (s.writeName gid r n v) gid who ns ps ws 0 where
  still := State.still_writeName v h
  memory := (State.still_writeName v h).sameMemory
  regs k q m hm := by
    rw [State.regAt_writeName v h, if_neg]
    rintro ⟨rfl, rfl, rfl⟩; exact hm ⟨rfl, hw, hn⟩
  preds k q m _ := by
    rw [State.predAt_eq, State.predAt_eq]; exact State.partAt_writeName (partOfThread_pred m) v h _ _
  walkers k q m _ := by
    rw [State.walkerAt_eq, State.walkerAt_eq]; exact State.partAt_writeName (partOfThread_walker m) v h _ _
  flags := by rw [State.fpxAt_writeName v h]; cases s.fpxAt gid <;> simp

theorem State.regFrame_writeNames {gid r : Nat} (vs : List Word) (n : Nat) (s : State)
    (h : ∀ m ∈ upFrom n vs.length, s.OwnName gid r m) {who : Nat → Prop} (hw : who r) {ns : List Nat}
    (hn : ∀ m ∈ upFrom n vs.length, m ∈ ns) (ps ws : List Nat) :
    s.RegFrame (s.writeNames gid r n vs) gid who ns ps ws 0 := by
  induction vs generalizing n s with
  | nil => exact State.RegFrame.refl s gid who ns ps ws
  | cons v vs ih =>
    have h0 : s.OwnName gid r n := h n (by simp [upFrom])
    exact (State.regFrame_writeName v h0 hw (hn n (by simp [upFrom])) ps ws).seq
      (ih (n + 1) _ (fun x hx => h0.writeName (h x (by simp [upFrom, hx])))
        (fun x hx => hn x (by simp [upFrom, hx]))) rfl

theorem State.regFrame_writeFld {gid r : Nat} {f : Fld} (v : BitVec 128) (s : State)
    (h : ∀ m ∈ f.names, s.OwnName gid r m) {who : Nat → Prop} (hw : who r) (ps ws : List Nat) :
    s.RegFrame (s.writeFld gid r f v) gid who f.names ps ws 0 := by
  rcases f.names_eq v with h0 | ⟨n, h1, h2⟩
  · simp only [State.writeFld, h0]; exact State.RegFrame.refl s gid who [] ps ws
  · cases hn : f.names with
    | nil => simp only [State.writeFld, hn]; exact State.RegFrame.refl s gid who [] ps ws
    | cons a l =>
      have ha : a = n := by simpa [hn] using h2
      subst ha
      simp only [State.writeFld, hn]
      rw [h1] at h
      exact State.regFrame_writeNames _ _ _ h hw (fun m hm => by rw [← hn, h1]; exact hm) ps ws

theorem State.regFrame_writeFields {gid : Nat} {f : Fld} (rs : List (Nat × BitVec 128)) (s : State)
    (h : ∀ r ∈ rs.map (·.1), ∀ m ∈ f.names, s.OwnName gid r m) {who : Nat → Prop}
    (hw : ∀ r ∈ rs.map (·.1), who r) (ps ws : List Nat) :
    s.RegFrame (s.writeFields gid f rs) gid who f.names ps ws 0 := by
  induction rs generalizing s with
  | nil => exact State.RegFrame.refl s gid who _ ps ws
  | cons e rs ih =>
    have h0 : ∀ m ∈ f.names, s.OwnName gid e.1 m := h e.1 (by simp)
    have h1 : ∀ r ∈ rs.map (·.1), ∀ m ∈ f.names, (s.writeFld gid e.1 f e.2).OwnName gid r m :=
      fun r hr m hm => State.OwnName.writeFld _ h0 (h r (by simp at hr ⊢; exact Or.inr hr) m hm)
    exact (State.regFrame_writeFld e.2 s h0 (hw e.1 (by simp)) ps ws).seq
      (ih _ h1 fun r hr => hw r (by simp at hr ⊢; exact Or.inr hr)) rfl

theorem State.regFrame_writeResults (s : State) (c : Ctx) (f : Fld) (rs : List (Nat × BitVec 128))
    (h : ∀ r ∈ rs.map (·.1), ∀ m ∈ f.names, s.OwnName c.gid r m) {who : Nat → Prop}
    (hw : ∀ r ∈ rs.map (·.1), who r) (ps ws : List Nat) :
    s.RegFrame (s.writeResults c f rs) c.gid who f.names ps ws 0 := by
  have a := State.regFrame_writeFields rs s h hw ps ws
  unfold State.writeResults
  cases hn : f.names with
  | nil => rw [hn] at a; exact a
  | cons n l =>
    rw [hn] at a
    have h := fun g => Group.tagAll_same rs g c.w s.cycle n f
    exact a.seq (State.regFrame_ofThreads (fl := 0) (fun g => (h g).1) (fun g => (h g).2.1)
      (fun g => by simpa using (h g).2.2) _ _ _ _ _ _) rfl

theorem State.regFrame_orFpx (s : State) (g : Nat) (fl : Fpx) (who : Nat → Prop) (ns ps ws : List Nat) :
    s.RegFrame (s.orFpx g fl) g who ns ps ws fl :=
  State.regFrame_ofThreads (f := fun g => { g with fpx := g.fpx ||| fl }) (fun _ => rfl) (fun _ => rfl)
    (fun _ => rfl) s g who ns ps ws

theorem State.regFrame_modThread {f : Thread → Thread} (h1 : ∀ t : Thread, t.SameRegs (f t))
    (h2 : ∀ t p, predOf (f t) p = predOf t p) (h3 : ∀ t, (f t).walkers = t.walkers) (s : State) (g r : Nat)
    (who : Nat → Prop) (ns ps ws : List Nat) : s.RegFrame (s.modThread g r f) g who ns ps ws 0 :=
  State.regFrame_modGroup (f := fun g => { g with threads := Tab.upd g.threads r f }) (fun _ => rfl)
    (Group.keepsRegs_updThread h1 r) (fun p => Group.KeepsPart.updThread (fun t => h2 t p) r)
    (fun k => Group.KeepsPart.updThread (fun t => by simp [h3]) r) (fun _ => by simp) s g who ns ps ws

theorem State.regFrame_latchAll (s : State) (c : Ctx) (vs : List (Nat × Word × Word)) (who : Nat → Prop)
    (ns ps ws : List Nat) : s.RegFrame (s.latchAll c vs) c.gid who ns ps ws 0 := by
  unfold State.latchAll
  split_ifs
  · induction vs generalizing s with
    | nil => exact State.RegFrame.refl s c.gid who ns ps ws
    | cons v vs ih =>
      exact (State.regFrame_modThread (latch_sameRegs _ _ _)
        (fun t p => by unfold latch; split_ifs <;> rfl) (fun t => by unfold latch; split_ifs <;> rfl)
        s c.gid v.1 who ns ps ws).seq (ih _) rfl
  · exact State.RegFrame.refl s c.gid who ns ps ws

/-- One predicate of a thread written. -/
theorem predOf_setPred (t : Thread) (p q : Nat) (v : Bool) (hp : p < 8) :
    predOf (setPred t p v) q = if p = q then v else predOf t q := by
  unfold predOf setPred
  by_cases hq : q < 8
  · interval_cases p <;> interval_cases q <;> cases v <;> simp
  · have : p ≠ q := by omega
    rw [if_neg this]
    cases v <;> simp [BitVec.getLsbD_of_ge _ _ (Nat.not_lt.mp hq)]

/-! ### Lane-set and group-set forms -/

theorem Ctx.Plain.walkReads {c : Ctx} {t : Thread} (h : c.Plain t) : (walkReads c.f t).2.2 = t := by
  have h1 := h.noA
  have h2 := h.noB
  have r : ∀ (u : Thread) n, (readWalker u n).1 = none → (readWalker u n).2 = u := by
    intro u n; unfold readWalker; simp only; split_ifs <;> simp
  unfold Machine.walkReads at *
  cases ha : c.f.a.walker? <;> cases hb : c.f.b.walker? <;> simp_all

theorem walkReads_preds (f : Form) (t : Thread) : (walkReads f t).2.2.preds = t.preds := by
  have r : ∀ (u : Thread) n, (readWalker u n).2.preds = u.preds := by
    intro u n; unfold readWalker; simp only; split_ifs <;> rfl
  unfold walkReads
  cases f.a.walker? <;> cases f.b.walker? <;> simp [r]

theorem State.regFrame_advanceWalkers {s : State} {c : Ctx} (hc : c.Of s) (hp : c.AllPlain) (who : Nat → Prop)
    (ns ps ws : List Nat) : s.RegFrame (s.advanceWalkers c) c.gid who ns ps ws 0 where
  still := State.still_modGroup (f := fun g => g.modThreads c.p.mask fun _ t => (walkReads c.f t).2.2) (fun _ => rfl) s c.gid
  memory := (State.still_modGroup (f := fun g => g.modThreads c.p.mask fun _ t => (walkReads c.f t).2.2)
    (fun _ => rfl) s c.gid).sameMemory
  regs k q m _ := State.regAt_advanceWalkers s c k q m
  preds k q m _ := by
    rw [State.predAt_eq, State.predAt_eq]
    exact State.partAt_modGroup (Group.KeepsPart.modThreads (f := fun _ t => (Machine.walkReads c.f t).2.2)
      (fun _ t => by unfold predOf; rw [walkReads_preds]) c.p.mask) _ _ _ _
  walkers k q m _ := by
    rw [State.walkerAt_eq, State.walkerAt_eq]
    unfold State.partAt State.advanceWalkers
    rw [State.group?_modGroup]
    split_ifs with e
    · subst e
      rw [hc.group]
      simp only [Option.map_some, Option.bind_some, Group.modThreads, Tab.find?_mapV, Option.map_map]
      cases ht : Tab.find? c.g.threads q with
      | none => rfl
      | some t =>
        simp only [Option.map_some, Function.comp, Option.some.injEq]
        split_ifs with hm
        · rw [(hp (q, t) (Ctx.mem_threads.mpr ⟨?_, ht⟩)).walkReads]
          unfold ranksOf
          refine List.mem_filter.mpr ⟨List.mem_range.mpr ?_, hm⟩
          by_contra hq
          simp [BitVec.getLsbD_of_ge _ _ (Nat.not_lt.mp hq)] at hm
        · rfl
    · rfl
  flags := by
    unfold State.fpxAt State.advanceWalkers
    rw [State.group?_modGroup_self]
    cases s.group? c.gid <;> simp [Group.modThreads]

theorem Ctx.AllPlain.now {c : Ctx} (h : c.AllPlain) :
    c.now = c.threads.map fun e => (e, walkReads c.f e.2) := by
  unfold Ctx.now
  refine List.filter_eq_self.mpr fun p hp => ?_
  obtain ⟨e, he, rfl⟩ := List.mem_map.mp hp
  simp [(h e he).lane, (h e he).noA, (h e he).noB]

theorem Ctx.AllPlain.ownDst {c : Ctx} (h : c.AllPlain) : c.OwnDst := fun e he _ n hn => by
  rw [(h e he).here n hn]; simp

/-- The flags of the members of a lane-set form. -/
def Ctx.laneFlags (c : Ctx) (op : LaneOp) : Fpx :=
  (c.now.map fun p => (op.eval ((c.env p.1).val c.f.a) ((c.env p.1).val c.f.b) (c.third p.1)).2).foldl (· ||| ·) 0

theorem State.regFrame_freeWord (s : State) (g : Nat) (who : Nat → Prop) (ns ps ws : List Nat) :
    s.RegFrame s.freeWord.2 g who ns ps ws 0 :=
  State.regFrame_of_groups (s := s) (t := s.freeWord.2) g (by constructor <;> intros <;> rfl) rfl rfl who ns ps ws

/-- A lane-set form whose members all execute at LANE writes D of its members and ORs their flags. -/
theorem State.regFrame_runLane {s : State} {c : Ctx} {op : LaneOp} (hc : c.Of s) (hd : c.f.dstP = none)
    (hp : c.AllPlain) :
    s.RegFrame (s.runLane op c) c.gid c.Member c.f.dst.names [] [] (c.laneFlags op) := by
  have hl : ((c.threads.map fun e => (e, walkReads c.f e.2)).filter fun p =>
      !((c.execPlace p.1.2).1 == .lane && p.2.1.isNone && p.2.2.1.isNone)) = [] := by
    refine List.filter_eq_nil_iff.mpr fun p hpm => ?_
    obtain ⟨e, he, rfl⟩ := List.mem_map.mp hpm
    simp [(hp e he).lane, (hp e he).noA, (hp e he).noB]
  unfold State.runLane
  simp only [hd, hl, List.isEmpty_nil, if_true]
  have a0 : s.RegFrame (if c.inChain then s.freeWord.2 else s) c.gid c.Member c.f.dst.names [] [] 0 := by
    cases c.inChain
    · exact State.RegFrame.refl s _ _ _ _ _
    · exact s.regFrame_freeWord _ _ _ _ _
  have hc0 : c.Of (if c.inChain then s.freeWord.2 else s) := by
    cases c.inChain
    · exact hc
    · exact ⟨hc.group, hc.wg⟩
  have a1 := a0.seq (State.regFrame_advanceWalkers hc0 hp c.Member c.f.dst.names [] []) rfl
  refine State.RegFrame.seq (f1 := c.laneFlags op) ?_ (State.regFrame_next_ _ c _ _ _ _) (by simp)
  refine State.RegFrame.seq (f1 := c.laneFlags op) ?_ (State.regFrame_latchAll _ c _ _ _ _ _) (by simp)
  refine State.RegFrame.seq (f1 := 0) (a1.seq (State.regFrame_writeResults _ c c.f.dst _ ?_ ?_ [] []) rfl)
    (State.regFrame_orFpx _ c.gid _ _ _ _ _) ?_
  · intro q hq m hm
    have hq' : q ∈ c.now.map fun p => p.1.1 := by
      unfold Ctx.now; simpa [List.map_map, Function.comp_def] using hq
    obtain ⟨t', ht', hlane⟩ := Ctx.mem_now hq'
    have := hc0.ownName ht' (hp.ownDst _ ht' hlane m hm)
    exact this.modGroup (Group.keepsRegs_modThreads (fun _ t => walkReads_sameRegs c.f t) _)
  · intro q hq
    have hq' : q ∈ c.now.map fun p => p.1.1 := by
      unfold Ctx.now; simpa [List.map_map, Function.comp_def] using hq
    obtain ⟨t', ht', -⟩ := Ctx.mem_now hq'
    exact ⟨t', ht'⟩
  · unfold Ctx.laneFlags Ctx.now
    simp [List.foldl_map]

end Sys2Proof.Machine
end

