-- ==== Sys2Proof/Laws/State.lean ====
section
/-! SUPPORT. What each update of the state leaves alone, field by field, and what it gives where it writes. -/

namespace Sys2Proof.Machine

/-! ### Where an update writes -/

theorem State.xdie_modXdie (s : State) (d e : Nat) (f : Xdie → Xdie) :
    (s.modXdie d f).xdie e = if d = e then f (s.xdie d) else s.xdie e := by
  simp only [State.xdie, State.modXdie, Tab.getD_put]

theorem State.cluster_modCluster (s : State) (c e : Nat) (f : Cluster → Cluster) :
    (s.modCluster c f).cluster e = if c = e then f (s.cluster c) else s.cluster e := by
  simp only [State.cluster, State.modCluster, Tab.getD_put]

theorem State.run_modRun (s : State) (r e : Nat) (f : RegionRun → RegionRun) :
    (s.modRun r f).run e = if r = e then f (s.run r) else s.run e := by
  simp only [State.run, State.modRun, Tab.getD_put]

theorem State.op?_setOp (s : State) (o e : Nat) (x : Op) :
    (s.setOp o x).op? e = if o = e then some x else s.op? e := by
  simp only [State.op?, State.setOp, Tab.find?_put]

theorem State.op?_delOp (s : State) (o e : Nat) : (s.delOp o).op? e = if o = e then none else s.op? e := by
  simp only [State.op?, State.delOp, Tab.find?_del]

theorem State.wg?_setWg (s : State) (w e : Nat) (x : Workgroup) :
    (s.setWg w x).wg? e = if w = e then some x else s.wg? e := by
  simp only [State.wg?, State.setWg, Tab.find?_put]

theorem State.wg?_modWg (s : State) (w e : Nat) (f : Workgroup → Workgroup) :
    (s.modWg w f).wg? e = if w = e then (s.wg? e).map f else s.wg? e := by
  simp only [State.wg?, State.modWg, Tab.find?_upd]

theorem State.op?_modOp (s : State) (o e : Nat) (f : Op → Op) :
    (s.modOp o f).op? e = if o = e then (s.op? e).map f else s.op? e := by
  simp only [State.op?, State.modOp, Tab.find?_upd]

/-! ### A C-die replaced -/

section
variable (s : State) (d : Nat) (x : Die)

@[simp] theorem State.setDie_xdies : (s.setDie d x).xdies = s.xdies := rfl
@[simp] theorem State.setDie_clusters : (s.setDie d x).clusters = s.clusters := rfl
@[simp] theorem State.setDie_cores : (s.setDie d x).cores = s.cores := rfl
@[simp] theorem State.setDie_wgs : (s.setDie d x).wgs = s.wgs := rfl
@[simp] theorem State.setDie_groups : (s.setDie d x).groups = s.groups := rfl
@[simp] theorem State.setDie_ops : (s.setDie d x).ops = s.ops := rfl
@[simp] theorem State.setDie_regionRuns : (s.setDie d x).regionRuns = s.regionRuns := rfl
@[simp] theorem State.setDie_pending : (s.setDie d x).pending = s.pending := rfl
@[simp] theorem State.setDie_heldRecs : (s.setDie d x).heldRecs = s.heldRecs := rfl
@[simp] theorem State.setDie_saved : (s.setDie d x).saved = s.saved := rfl
@[simp] theorem State.setDie_hostMem : (s.setDie d x).hostMem = s.hostMem := rfl
@[simp] theorem State.setDie_safeTier : (s.setDie d x).safeTier = s.safeTier := rfl
@[simp] theorem State.setDie_links : (s.setDie d x).links = s.links := rfl
@[simp] theorem State.setDie_linkBeats : (s.setDie d x).linkBeats = s.linkBeats := rfl
@[simp] theorem State.setDie_linkLanes : (s.setDie d x).linkLanes = s.linkLanes := rfl
@[simp] theorem State.setDie_linkReserve : (s.setDie d x).linkReserve = s.linkReserve := rfl
@[simp] theorem State.setDie_linkDown : (s.setDie d x).linkDown = s.linkDown := rfl
@[simp] theorem State.setDie_power : (s.setDie d x).power = s.power := rfl
@[simp] theorem State.setDie_powerDraw : (s.setDie d x).powerDraw = s.powerDraw := rfl
@[simp] theorem State.setDie_irqs : (s.setDie d x).irqs = s.irqs := rfl
@[simp] theorem State.setDie_mailbox : (s.setDie d x).mailbox = s.mailbox := rfl
@[simp] theorem State.setDie_hostReads : (s.setDie d x).hostReads = s.hostReads := rfl
@[simp] theorem State.setDie_posted : (s.setDie d x).posted = s.posted := rfl
@[simp] theorem State.setDie_fabric : (s.setDie d x).fabric = s.fabric := rfl
@[simp] theorem State.setDie_agenda : (s.setDie d x).agenda = s.agenda := rfl
@[simp] theorem State.setDie_event : (s.setDie d x).event = s.event := rfl
@[simp] theorem State.setDie_cursor : (s.setDie d x).cursor = s.cursor := rfl
@[simp] theorem State.setDie_tried : (s.setDie d x).tried = s.tried := rfl
@[simp] theorem State.setDie_cycle : (s.setDie d x).cycle = s.cycle := rfl
@[simp] theorem State.setDie_nextId : (s.setDie d x).nextId = s.nextId := rfl
@[simp] theorem State.setDie_fresh : (s.setDie d x).fresh = s.fresh := rfl

end

/-! ### A C-die changed -/

section
variable (s : State) (d : Nat) (f : Die → Die)

@[simp] theorem State.modDie_xdies : (s.modDie d f).xdies = s.xdies := rfl
@[simp] theorem State.modDie_clusters : (s.modDie d f).clusters = s.clusters := rfl
@[simp] theorem State.modDie_cores : (s.modDie d f).cores = s.cores := rfl
@[simp] theorem State.modDie_wgs : (s.modDie d f).wgs = s.wgs := rfl
@[simp] theorem State.modDie_groups : (s.modDie d f).groups = s.groups := rfl
@[simp] theorem State.modDie_ops : (s.modDie d f).ops = s.ops := rfl
@[simp] theorem State.modDie_regionRuns : (s.modDie d f).regionRuns = s.regionRuns := rfl
@[simp] theorem State.modDie_pending : (s.modDie d f).pending = s.pending := rfl
@[simp] theorem State.modDie_heldRecs : (s.modDie d f).heldRecs = s.heldRecs := rfl
@[simp] theorem State.modDie_saved : (s.modDie d f).saved = s.saved := rfl
@[simp] theorem State.modDie_hostMem : (s.modDie d f).hostMem = s.hostMem := rfl
@[simp] theorem State.modDie_safeTier : (s.modDie d f).safeTier = s.safeTier := rfl
@[simp] theorem State.modDie_links : (s.modDie d f).links = s.links := rfl
@[simp] theorem State.modDie_linkBeats : (s.modDie d f).linkBeats = s.linkBeats := rfl
@[simp] theorem State.modDie_linkLanes : (s.modDie d f).linkLanes = s.linkLanes := rfl
@[simp] theorem State.modDie_linkReserve : (s.modDie d f).linkReserve = s.linkReserve := rfl
@[simp] theorem State.modDie_linkDown : (s.modDie d f).linkDown = s.linkDown := rfl
@[simp] theorem State.modDie_power : (s.modDie d f).power = s.power := rfl
@[simp] theorem State.modDie_powerDraw : (s.modDie d f).powerDraw = s.powerDraw := rfl
@[simp] theorem State.modDie_irqs : (s.modDie d f).irqs = s.irqs := rfl
@[simp] theorem State.modDie_mailbox : (s.modDie d f).mailbox = s.mailbox := rfl
@[simp] theorem State.modDie_hostReads : (s.modDie d f).hostReads = s.hostReads := rfl
@[simp] theorem State.modDie_posted : (s.modDie d f).posted = s.posted := rfl
@[simp] theorem State.modDie_fabric : (s.modDie d f).fabric = s.fabric := rfl
@[simp] theorem State.modDie_agenda : (s.modDie d f).agenda = s.agenda := rfl
@[simp] theorem State.modDie_event : (s.modDie d f).event = s.event := rfl
@[simp] theorem State.modDie_cursor : (s.modDie d f).cursor = s.cursor := rfl
@[simp] theorem State.modDie_tried : (s.modDie d f).tried = s.tried := rfl
@[simp] theorem State.modDie_cycle : (s.modDie d f).cycle = s.cycle := rfl
@[simp] theorem State.modDie_nextId : (s.modDie d f).nextId = s.nextId := rfl
@[simp] theorem State.modDie_fresh : (s.modDie d f).fresh = s.fresh := rfl

end

/-! ### An X-die changed -/

section
variable (s : State) (d : Nat) (f : Xdie → Xdie)

@[simp] theorem State.modXdie_dies : (s.modXdie d f).dies = s.dies := rfl
@[simp] theorem State.modXdie_clusters : (s.modXdie d f).clusters = s.clusters := rfl
@[simp] theorem State.modXdie_cores : (s.modXdie d f).cores = s.cores := rfl
@[simp] theorem State.modXdie_wgs : (s.modXdie d f).wgs = s.wgs := rfl
@[simp] theorem State.modXdie_groups : (s.modXdie d f).groups = s.groups := rfl
@[simp] theorem State.modXdie_ops : (s.modXdie d f).ops = s.ops := rfl
@[simp] theorem State.modXdie_regionRuns : (s.modXdie d f).regionRuns = s.regionRuns := rfl
@[simp] theorem State.modXdie_pending : (s.modXdie d f).pending = s.pending := rfl
@[simp] theorem State.modXdie_heldRecs : (s.modXdie d f).heldRecs = s.heldRecs := rfl
@[simp] theorem State.modXdie_saved : (s.modXdie d f).saved = s.saved := rfl
@[simp] theorem State.modXdie_hostMem : (s.modXdie d f).hostMem = s.hostMem := rfl
@[simp] theorem State.modXdie_safeTier : (s.modXdie d f).safeTier = s.safeTier := rfl
@[simp] theorem State.modXdie_links : (s.modXdie d f).links = s.links := rfl
@[simp] theorem State.modXdie_linkBeats : (s.modXdie d f).linkBeats = s.linkBeats := rfl
@[simp] theorem State.modXdie_linkLanes : (s.modXdie d f).linkLanes = s.linkLanes := rfl
@[simp] theorem State.modXdie_linkReserve : (s.modXdie d f).linkReserve = s.linkReserve := rfl
@[simp] theorem State.modXdie_linkDown : (s.modXdie d f).linkDown = s.linkDown := rfl
@[simp] theorem State.modXdie_power : (s.modXdie d f).power = s.power := rfl
@[simp] theorem State.modXdie_powerDraw : (s.modXdie d f).powerDraw = s.powerDraw := rfl
@[simp] theorem State.modXdie_irqs : (s.modXdie d f).irqs = s.irqs := rfl
@[simp] theorem State.modXdie_mailbox : (s.modXdie d f).mailbox = s.mailbox := rfl
@[simp] theorem State.modXdie_hostReads : (s.modXdie d f).hostReads = s.hostReads := rfl
@[simp] theorem State.modXdie_posted : (s.modXdie d f).posted = s.posted := rfl
@[simp] theorem State.modXdie_fabric : (s.modXdie d f).fabric = s.fabric := rfl
@[simp] theorem State.modXdie_agenda : (s.modXdie d f).agenda = s.agenda := rfl
@[simp] theorem State.modXdie_event : (s.modXdie d f).event = s.event := rfl
@[simp] theorem State.modXdie_cursor : (s.modXdie d f).cursor = s.cursor := rfl
@[simp] theorem State.modXdie_tried : (s.modXdie d f).tried = s.tried := rfl
@[simp] theorem State.modXdie_cycle : (s.modXdie d f).cycle = s.cycle := rfl
@[simp] theorem State.modXdie_nextId : (s.modXdie d f).nextId = s.nextId := rfl
@[simp] theorem State.modXdie_fresh : (s.modXdie d f).fresh = s.fresh := rfl

end

/-! ### A cluster changed -/

section
variable (s : State) (c : Nat) (f : Cluster → Cluster)

@[simp] theorem State.modCluster_dies : (s.modCluster c f).dies = s.dies := rfl
@[simp] theorem State.modCluster_xdies : (s.modCluster c f).xdies = s.xdies := rfl
@[simp] theorem State.modCluster_cores : (s.modCluster c f).cores = s.cores := rfl
@[simp] theorem State.modCluster_wgs : (s.modCluster c f).wgs = s.wgs := rfl
@[simp] theorem State.modCluster_groups : (s.modCluster c f).groups = s.groups := rfl
@[simp] theorem State.modCluster_ops : (s.modCluster c f).ops = s.ops := rfl
@[simp] theorem State.modCluster_regionRuns : (s.modCluster c f).regionRuns = s.regionRuns := rfl
@[simp] theorem State.modCluster_pending : (s.modCluster c f).pending = s.pending := rfl
@[simp] theorem State.modCluster_heldRecs : (s.modCluster c f).heldRecs = s.heldRecs := rfl
@[simp] theorem State.modCluster_saved : (s.modCluster c f).saved = s.saved := rfl
@[simp] theorem State.modCluster_hostMem : (s.modCluster c f).hostMem = s.hostMem := rfl
@[simp] theorem State.modCluster_safeTier : (s.modCluster c f).safeTier = s.safeTier := rfl
@[simp] theorem State.modCluster_links : (s.modCluster c f).links = s.links := rfl
@[simp] theorem State.modCluster_linkBeats : (s.modCluster c f).linkBeats = s.linkBeats := rfl
@[simp] theorem State.modCluster_linkLanes : (s.modCluster c f).linkLanes = s.linkLanes := rfl
@[simp] theorem State.modCluster_linkReserve : (s.modCluster c f).linkReserve = s.linkReserve := rfl
@[simp] theorem State.modCluster_linkDown : (s.modCluster c f).linkDown = s.linkDown := rfl
@[simp] theorem State.modCluster_power : (s.modCluster c f).power = s.power := rfl
@[simp] theorem State.modCluster_powerDraw : (s.modCluster c f).powerDraw = s.powerDraw := rfl
@[simp] theorem State.modCluster_irqs : (s.modCluster c f).irqs = s.irqs := rfl
@[simp] theorem State.modCluster_mailbox : (s.modCluster c f).mailbox = s.mailbox := rfl
@[simp] theorem State.modCluster_hostReads : (s.modCluster c f).hostReads = s.hostReads := rfl
@[simp] theorem State.modCluster_posted : (s.modCluster c f).posted = s.posted := rfl
@[simp] theorem State.modCluster_fabric : (s.modCluster c f).fabric = s.fabric := rfl
@[simp] theorem State.modCluster_agenda : (s.modCluster c f).agenda = s.agenda := rfl
@[simp] theorem State.modCluster_event : (s.modCluster c f).event = s.event := rfl
@[simp] theorem State.modCluster_cursor : (s.modCluster c f).cursor = s.cursor := rfl
@[simp] theorem State.modCluster_tried : (s.modCluster c f).tried = s.tried := rfl
@[simp] theorem State.modCluster_cycle : (s.modCluster c f).cycle = s.cycle := rfl
@[simp] theorem State.modCluster_nextId : (s.modCluster c f).nextId = s.nextId := rfl
@[simp] theorem State.modCluster_fresh : (s.modCluster c f).fresh = s.fresh := rfl

end

/-! ### A core changed -/

section
variable (s : State) (l : Nat) (f : Core → Core)

@[simp] theorem State.modCore_dies : (s.modCore l f).dies = s.dies := rfl
@[simp] theorem State.modCore_xdies : (s.modCore l f).xdies = s.xdies := rfl
@[simp] theorem State.modCore_clusters : (s.modCore l f).clusters = s.clusters := rfl
@[simp] theorem State.modCore_wgs : (s.modCore l f).wgs = s.wgs := rfl
@[simp] theorem State.modCore_groups : (s.modCore l f).groups = s.groups := rfl
@[simp] theorem State.modCore_ops : (s.modCore l f).ops = s.ops := rfl
@[simp] theorem State.modCore_regionRuns : (s.modCore l f).regionRuns = s.regionRuns := rfl
@[simp] theorem State.modCore_pending : (s.modCore l f).pending = s.pending := rfl
@[simp] theorem State.modCore_heldRecs : (s.modCore l f).heldRecs = s.heldRecs := rfl
@[simp] theorem State.modCore_saved : (s.modCore l f).saved = s.saved := rfl
@[simp] theorem State.modCore_hostMem : (s.modCore l f).hostMem = s.hostMem := rfl
@[simp] theorem State.modCore_safeTier : (s.modCore l f).safeTier = s.safeTier := rfl
@[simp] theorem State.modCore_links : (s.modCore l f).links = s.links := rfl
@[simp] theorem State.modCore_linkBeats : (s.modCore l f).linkBeats = s.linkBeats := rfl
@[simp] theorem State.modCore_linkLanes : (s.modCore l f).linkLanes = s.linkLanes := rfl
@[simp] theorem State.modCore_linkReserve : (s.modCore l f).linkReserve = s.linkReserve := rfl
@[simp] theorem State.modCore_linkDown : (s.modCore l f).linkDown = s.linkDown := rfl
@[simp] theorem State.modCore_power : (s.modCore l f).power = s.power := rfl
@[simp] theorem State.modCore_powerDraw : (s.modCore l f).powerDraw = s.powerDraw := rfl
@[simp] theorem State.modCore_irqs : (s.modCore l f).irqs = s.irqs := rfl
@[simp] theorem State.modCore_mailbox : (s.modCore l f).mailbox = s.mailbox := rfl
@[simp] theorem State.modCore_hostReads : (s.modCore l f).hostReads = s.hostReads := rfl
@[simp] theorem State.modCore_posted : (s.modCore l f).posted = s.posted := rfl
@[simp] theorem State.modCore_fabric : (s.modCore l f).fabric = s.fabric := rfl
@[simp] theorem State.modCore_agenda : (s.modCore l f).agenda = s.agenda := rfl
@[simp] theorem State.modCore_event : (s.modCore l f).event = s.event := rfl
@[simp] theorem State.modCore_cursor : (s.modCore l f).cursor = s.cursor := rfl
@[simp] theorem State.modCore_tried : (s.modCore l f).tried = s.tried := rfl
@[simp] theorem State.modCore_cycle : (s.modCore l f).cycle = s.cycle := rfl
@[simp] theorem State.modCore_nextId : (s.modCore l f).nextId = s.nextId := rfl
@[simp] theorem State.modCore_fresh : (s.modCore l f).fresh = s.fresh := rfl

end

/-! ### An engine changed -/

section
variable (s : State) (l : Nat) (f : Engine → Engine)

@[simp] theorem State.modEngine_dies : (s.modEngine l f).dies = s.dies := rfl
@[simp] theorem State.modEngine_xdies : (s.modEngine l f).xdies = s.xdies := rfl
@[simp] theorem State.modEngine_clusters : (s.modEngine l f).clusters = s.clusters := rfl
@[simp] theorem State.modEngine_wgs : (s.modEngine l f).wgs = s.wgs := rfl
@[simp] theorem State.modEngine_groups : (s.modEngine l f).groups = s.groups := rfl
@[simp] theorem State.modEngine_ops : (s.modEngine l f).ops = s.ops := rfl
@[simp] theorem State.modEngine_regionRuns : (s.modEngine l f).regionRuns = s.regionRuns := rfl
@[simp] theorem State.modEngine_pending : (s.modEngine l f).pending = s.pending := rfl
@[simp] theorem State.modEngine_heldRecs : (s.modEngine l f).heldRecs = s.heldRecs := rfl
@[simp] theorem State.modEngine_saved : (s.modEngine l f).saved = s.saved := rfl
@[simp] theorem State.modEngine_hostMem : (s.modEngine l f).hostMem = s.hostMem := rfl
@[simp] theorem State.modEngine_safeTier : (s.modEngine l f).safeTier = s.safeTier := rfl
@[simp] theorem State.modEngine_links : (s.modEngine l f).links = s.links := rfl
@[simp] theorem State.modEngine_linkBeats : (s.modEngine l f).linkBeats = s.linkBeats := rfl
@[simp] theorem State.modEngine_linkLanes : (s.modEngine l f).linkLanes = s.linkLanes := rfl
@[simp] theorem State.modEngine_linkReserve : (s.modEngine l f).linkReserve = s.linkReserve := rfl
@[simp] theorem State.modEngine_linkDown : (s.modEngine l f).linkDown = s.linkDown := rfl
@[simp] theorem State.modEngine_power : (s.modEngine l f).power = s.power := rfl
@[simp] theorem State.modEngine_powerDraw : (s.modEngine l f).powerDraw = s.powerDraw := rfl
@[simp] theorem State.modEngine_irqs : (s.modEngine l f).irqs = s.irqs := rfl
@[simp] theorem State.modEngine_mailbox : (s.modEngine l f).mailbox = s.mailbox := rfl
@[simp] theorem State.modEngine_hostReads : (s.modEngine l f).hostReads = s.hostReads := rfl
@[simp] theorem State.modEngine_posted : (s.modEngine l f).posted = s.posted := rfl
@[simp] theorem State.modEngine_fabric : (s.modEngine l f).fabric = s.fabric := rfl
@[simp] theorem State.modEngine_agenda : (s.modEngine l f).agenda = s.agenda := rfl
@[simp] theorem State.modEngine_event : (s.modEngine l f).event = s.event := rfl
@[simp] theorem State.modEngine_cursor : (s.modEngine l f).cursor = s.cursor := rfl
@[simp] theorem State.modEngine_tried : (s.modEngine l f).tried = s.tried := rfl
@[simp] theorem State.modEngine_cycle : (s.modEngine l f).cycle = s.cycle := rfl
@[simp] theorem State.modEngine_nextId : (s.modEngine l f).nextId = s.nextId := rfl
@[simp] theorem State.modEngine_fresh : (s.modEngine l f).fresh = s.fresh := rfl

end

/-! ### A group set -/

section
variable (s : State) (g : Nat) (x : Group)

@[simp] theorem State.setGroup_dies : (s.setGroup g x).dies = s.dies := rfl
@[simp] theorem State.setGroup_xdies : (s.setGroup g x).xdies = s.xdies := rfl
@[simp] theorem State.setGroup_clusters : (s.setGroup g x).clusters = s.clusters := rfl
@[simp] theorem State.setGroup_cores : (s.setGroup g x).cores = s.cores := rfl
@[simp] theorem State.setGroup_wgs : (s.setGroup g x).wgs = s.wgs := rfl
@[simp] theorem State.setGroup_ops : (s.setGroup g x).ops = s.ops := rfl
@[simp] theorem State.setGroup_regionRuns : (s.setGroup g x).regionRuns = s.regionRuns := rfl
@[simp] theorem State.setGroup_pending : (s.setGroup g x).pending = s.pending := rfl
@[simp] theorem State.setGroup_heldRecs : (s.setGroup g x).heldRecs = s.heldRecs := rfl
@[simp] theorem State.setGroup_saved : (s.setGroup g x).saved = s.saved := rfl
@[simp] theorem State.setGroup_hostMem : (s.setGroup g x).hostMem = s.hostMem := rfl
@[simp] theorem State.setGroup_safeTier : (s.setGroup g x).safeTier = s.safeTier := rfl
@[simp] theorem State.setGroup_links : (s.setGroup g x).links = s.links := rfl
@[simp] theorem State.setGroup_linkBeats : (s.setGroup g x).linkBeats = s.linkBeats := rfl
@[simp] theorem State.setGroup_linkLanes : (s.setGroup g x).linkLanes = s.linkLanes := rfl
@[simp] theorem State.setGroup_linkReserve : (s.setGroup g x).linkReserve = s.linkReserve := rfl
@[simp] theorem State.setGroup_linkDown : (s.setGroup g x).linkDown = s.linkDown := rfl
@[simp] theorem State.setGroup_power : (s.setGroup g x).power = s.power := rfl
@[simp] theorem State.setGroup_powerDraw : (s.setGroup g x).powerDraw = s.powerDraw := rfl
@[simp] theorem State.setGroup_irqs : (s.setGroup g x).irqs = s.irqs := rfl
@[simp] theorem State.setGroup_mailbox : (s.setGroup g x).mailbox = s.mailbox := rfl
@[simp] theorem State.setGroup_hostReads : (s.setGroup g x).hostReads = s.hostReads := rfl
@[simp] theorem State.setGroup_posted : (s.setGroup g x).posted = s.posted := rfl
@[simp] theorem State.setGroup_fabric : (s.setGroup g x).fabric = s.fabric := rfl
@[simp] theorem State.setGroup_agenda : (s.setGroup g x).agenda = s.agenda := rfl
@[simp] theorem State.setGroup_event : (s.setGroup g x).event = s.event := rfl
@[simp] theorem State.setGroup_cursor : (s.setGroup g x).cursor = s.cursor := rfl
@[simp] theorem State.setGroup_tried : (s.setGroup g x).tried = s.tried := rfl
@[simp] theorem State.setGroup_cycle : (s.setGroup g x).cycle = s.cycle := rfl
@[simp] theorem State.setGroup_nextId : (s.setGroup g x).nextId = s.nextId := rfl
@[simp] theorem State.setGroup_fresh : (s.setGroup g x).fresh = s.fresh := rfl

end

/-! ### A group changed -/

section
variable (s : State) (g : Nat) (f : Group → Group)

@[simp] theorem State.modGroup_dies : (s.modGroup g f).dies = s.dies := rfl
@[simp] theorem State.modGroup_xdies : (s.modGroup g f).xdies = s.xdies := rfl
@[simp] theorem State.modGroup_clusters : (s.modGroup g f).clusters = s.clusters := rfl
@[simp] theorem State.modGroup_cores : (s.modGroup g f).cores = s.cores := rfl
@[simp] theorem State.modGroup_wgs : (s.modGroup g f).wgs = s.wgs := rfl
@[simp] theorem State.modGroup_ops : (s.modGroup g f).ops = s.ops := rfl
@[simp] theorem State.modGroup_regionRuns : (s.modGroup g f).regionRuns = s.regionRuns := rfl
@[simp] theorem State.modGroup_pending : (s.modGroup g f).pending = s.pending := rfl
@[simp] theorem State.modGroup_heldRecs : (s.modGroup g f).heldRecs = s.heldRecs := rfl
@[simp] theorem State.modGroup_saved : (s.modGroup g f).saved = s.saved := rfl
@[simp] theorem State.modGroup_hostMem : (s.modGroup g f).hostMem = s.hostMem := rfl
@[simp] theorem State.modGroup_safeTier : (s.modGroup g f).safeTier = s.safeTier := rfl
@[simp] theorem State.modGroup_links : (s.modGroup g f).links = s.links := rfl
@[simp] theorem State.modGroup_linkBeats : (s.modGroup g f).linkBeats = s.linkBeats := rfl
@[simp] theorem State.modGroup_linkLanes : (s.modGroup g f).linkLanes = s.linkLanes := rfl
@[simp] theorem State.modGroup_linkReserve : (s.modGroup g f).linkReserve = s.linkReserve := rfl
@[simp] theorem State.modGroup_linkDown : (s.modGroup g f).linkDown = s.linkDown := rfl
@[simp] theorem State.modGroup_power : (s.modGroup g f).power = s.power := rfl
@[simp] theorem State.modGroup_powerDraw : (s.modGroup g f).powerDraw = s.powerDraw := rfl
@[simp] theorem State.modGroup_irqs : (s.modGroup g f).irqs = s.irqs := rfl
@[simp] theorem State.modGroup_mailbox : (s.modGroup g f).mailbox = s.mailbox := rfl
@[simp] theorem State.modGroup_hostReads : (s.modGroup g f).hostReads = s.hostReads := rfl
@[simp] theorem State.modGroup_posted : (s.modGroup g f).posted = s.posted := rfl
@[simp] theorem State.modGroup_fabric : (s.modGroup g f).fabric = s.fabric := rfl
@[simp] theorem State.modGroup_agenda : (s.modGroup g f).agenda = s.agenda := rfl
@[simp] theorem State.modGroup_event : (s.modGroup g f).event = s.event := rfl
@[simp] theorem State.modGroup_cursor : (s.modGroup g f).cursor = s.cursor := rfl
@[simp] theorem State.modGroup_tried : (s.modGroup g f).tried = s.tried := rfl
@[simp] theorem State.modGroup_cycle : (s.modGroup g f).cycle = s.cycle := rfl
@[simp] theorem State.modGroup_nextId : (s.modGroup g f).nextId = s.nextId := rfl
@[simp] theorem State.modGroup_fresh : (s.modGroup g f).fresh = s.fresh := rfl

end

/-! ### A workgroup set -/

section
variable (s : State) (w : Nat) (x : Workgroup)

@[simp] theorem State.setWg_dies : (s.setWg w x).dies = s.dies := rfl
@[simp] theorem State.setWg_xdies : (s.setWg w x).xdies = s.xdies := rfl
@[simp] theorem State.setWg_clusters : (s.setWg w x).clusters = s.clusters := rfl
@[simp] theorem State.setWg_cores : (s.setWg w x).cores = s.cores := rfl
@[simp] theorem State.setWg_groups : (s.setWg w x).groups = s.groups := rfl
@[simp] theorem State.setWg_ops : (s.setWg w x).ops = s.ops := rfl
@[simp] theorem State.setWg_regionRuns : (s.setWg w x).regionRuns = s.regionRuns := rfl
@[simp] theorem State.setWg_pending : (s.setWg w x).pending = s.pending := rfl
@[simp] theorem State.setWg_heldRecs : (s.setWg w x).heldRecs = s.heldRecs := rfl
@[simp] theorem State.setWg_saved : (s.setWg w x).saved = s.saved := rfl
@[simp] theorem State.setWg_hostMem : (s.setWg w x).hostMem = s.hostMem := rfl
@[simp] theorem State.setWg_safeTier : (s.setWg w x).safeTier = s.safeTier := rfl
@[simp] theorem State.setWg_links : (s.setWg w x).links = s.links := rfl
@[simp] theorem State.setWg_linkBeats : (s.setWg w x).linkBeats = s.linkBeats := rfl
@[simp] theorem State.setWg_linkLanes : (s.setWg w x).linkLanes = s.linkLanes := rfl
@[simp] theorem State.setWg_linkReserve : (s.setWg w x).linkReserve = s.linkReserve := rfl
@[simp] theorem State.setWg_linkDown : (s.setWg w x).linkDown = s.linkDown := rfl
@[simp] theorem State.setWg_power : (s.setWg w x).power = s.power := rfl
@[simp] theorem State.setWg_powerDraw : (s.setWg w x).powerDraw = s.powerDraw := rfl
@[simp] theorem State.setWg_irqs : (s.setWg w x).irqs = s.irqs := rfl
@[simp] theorem State.setWg_mailbox : (s.setWg w x).mailbox = s.mailbox := rfl
@[simp] theorem State.setWg_hostReads : (s.setWg w x).hostReads = s.hostReads := rfl
@[simp] theorem State.setWg_posted : (s.setWg w x).posted = s.posted := rfl
@[simp] theorem State.setWg_fabric : (s.setWg w x).fabric = s.fabric := rfl
@[simp] theorem State.setWg_agenda : (s.setWg w x).agenda = s.agenda := rfl
@[simp] theorem State.setWg_event : (s.setWg w x).event = s.event := rfl
@[simp] theorem State.setWg_cursor : (s.setWg w x).cursor = s.cursor := rfl
@[simp] theorem State.setWg_tried : (s.setWg w x).tried = s.tried := rfl
@[simp] theorem State.setWg_cycle : (s.setWg w x).cycle = s.cycle := rfl
@[simp] theorem State.setWg_nextId : (s.setWg w x).nextId = s.nextId := rfl
@[simp] theorem State.setWg_fresh : (s.setWg w x).fresh = s.fresh := rfl

end

/-! ### A workgroup changed -/

section
variable (s : State) (w : Nat) (f : Workgroup → Workgroup)

@[simp] theorem State.modWg_dies : (s.modWg w f).dies = s.dies := rfl
@[simp] theorem State.modWg_xdies : (s.modWg w f).xdies = s.xdies := rfl
@[simp] theorem State.modWg_clusters : (s.modWg w f).clusters = s.clusters := rfl
@[simp] theorem State.modWg_cores : (s.modWg w f).cores = s.cores := rfl
@[simp] theorem State.modWg_groups : (s.modWg w f).groups = s.groups := rfl
@[simp] theorem State.modWg_ops : (s.modWg w f).ops = s.ops := rfl
@[simp] theorem State.modWg_regionRuns : (s.modWg w f).regionRuns = s.regionRuns := rfl
@[simp] theorem State.modWg_pending : (s.modWg w f).pending = s.pending := rfl
@[simp] theorem State.modWg_heldRecs : (s.modWg w f).heldRecs = s.heldRecs := rfl
@[simp] theorem State.modWg_saved : (s.modWg w f).saved = s.saved := rfl
@[simp] theorem State.modWg_hostMem : (s.modWg w f).hostMem = s.hostMem := rfl
@[simp] theorem State.modWg_safeTier : (s.modWg w f).safeTier = s.safeTier := rfl
@[simp] theorem State.modWg_links : (s.modWg w f).links = s.links := rfl
@[simp] theorem State.modWg_linkBeats : (s.modWg w f).linkBeats = s.linkBeats := rfl
@[simp] theorem State.modWg_linkLanes : (s.modWg w f).linkLanes = s.linkLanes := rfl
@[simp] theorem State.modWg_linkReserve : (s.modWg w f).linkReserve = s.linkReserve := rfl
@[simp] theorem State.modWg_linkDown : (s.modWg w f).linkDown = s.linkDown := rfl
@[simp] theorem State.modWg_power : (s.modWg w f).power = s.power := rfl
@[simp] theorem State.modWg_powerDraw : (s.modWg w f).powerDraw = s.powerDraw := rfl
@[simp] theorem State.modWg_irqs : (s.modWg w f).irqs = s.irqs := rfl
@[simp] theorem State.modWg_mailbox : (s.modWg w f).mailbox = s.mailbox := rfl
@[simp] theorem State.modWg_hostReads : (s.modWg w f).hostReads = s.hostReads := rfl
@[simp] theorem State.modWg_posted : (s.modWg w f).posted = s.posted := rfl
@[simp] theorem State.modWg_fabric : (s.modWg w f).fabric = s.fabric := rfl
@[simp] theorem State.modWg_agenda : (s.modWg w f).agenda = s.agenda := rfl
@[simp] theorem State.modWg_event : (s.modWg w f).event = s.event := rfl
@[simp] theorem State.modWg_cursor : (s.modWg w f).cursor = s.cursor := rfl
@[simp] theorem State.modWg_tried : (s.modWg w f).tried = s.tried := rfl
@[simp] theorem State.modWg_cycle : (s.modWg w f).cycle = s.cycle := rfl
@[simp] theorem State.modWg_nextId : (s.modWg w f).nextId = s.nextId := rfl
@[simp] theorem State.modWg_fresh : (s.modWg w f).fresh = s.fresh := rfl

end

/-! ### An operation set -/

section
variable (s : State) (o : Nat) (x : Op)

@[simp] theorem State.setOp_dies : (s.setOp o x).dies = s.dies := rfl
@[simp] theorem State.setOp_xdies : (s.setOp o x).xdies = s.xdies := rfl
@[simp] theorem State.setOp_clusters : (s.setOp o x).clusters = s.clusters := rfl
@[simp] theorem State.setOp_cores : (s.setOp o x).cores = s.cores := rfl
@[simp] theorem State.setOp_wgs : (s.setOp o x).wgs = s.wgs := rfl
@[simp] theorem State.setOp_groups : (s.setOp o x).groups = s.groups := rfl
@[simp] theorem State.setOp_regionRuns : (s.setOp o x).regionRuns = s.regionRuns := rfl
@[simp] theorem State.setOp_pending : (s.setOp o x).pending = s.pending := rfl
@[simp] theorem State.setOp_heldRecs : (s.setOp o x).heldRecs = s.heldRecs := rfl
@[simp] theorem State.setOp_saved : (s.setOp o x).saved = s.saved := rfl
@[simp] theorem State.setOp_hostMem : (s.setOp o x).hostMem = s.hostMem := rfl
@[simp] theorem State.setOp_safeTier : (s.setOp o x).safeTier = s.safeTier := rfl
@[simp] theorem State.setOp_links : (s.setOp o x).links = s.links := rfl
@[simp] theorem State.setOp_linkBeats : (s.setOp o x).linkBeats = s.linkBeats := rfl
@[simp] theorem State.setOp_linkLanes : (s.setOp o x).linkLanes = s.linkLanes := rfl
@[simp] theorem State.setOp_linkReserve : (s.setOp o x).linkReserve = s.linkReserve := rfl
@[simp] theorem State.setOp_linkDown : (s.setOp o x).linkDown = s.linkDown := rfl
@[simp] theorem State.setOp_power : (s.setOp o x).power = s.power := rfl
@[simp] theorem State.setOp_powerDraw : (s.setOp o x).powerDraw = s.powerDraw := rfl
@[simp] theorem State.setOp_irqs : (s.setOp o x).irqs = s.irqs := rfl
@[simp] theorem State.setOp_mailbox : (s.setOp o x).mailbox = s.mailbox := rfl
@[simp] theorem State.setOp_hostReads : (s.setOp o x).hostReads = s.hostReads := rfl
@[simp] theorem State.setOp_posted : (s.setOp o x).posted = s.posted := rfl
@[simp] theorem State.setOp_fabric : (s.setOp o x).fabric = s.fabric := rfl
@[simp] theorem State.setOp_agenda : (s.setOp o x).agenda = s.agenda := rfl
@[simp] theorem State.setOp_event : (s.setOp o x).event = s.event := rfl
@[simp] theorem State.setOp_cursor : (s.setOp o x).cursor = s.cursor := rfl
@[simp] theorem State.setOp_tried : (s.setOp o x).tried = s.tried := rfl
@[simp] theorem State.setOp_cycle : (s.setOp o x).cycle = s.cycle := rfl
@[simp] theorem State.setOp_nextId : (s.setOp o x).nextId = s.nextId := rfl
@[simp] theorem State.setOp_fresh : (s.setOp o x).fresh = s.fresh := rfl

end

/-! ### An operation gone -/

section
variable (s : State) (o : Nat)

@[simp] theorem State.delOp_dies : (s.delOp o).dies = s.dies := rfl
@[simp] theorem State.delOp_xdies : (s.delOp o).xdies = s.xdies := rfl
@[simp] theorem State.delOp_clusters : (s.delOp o).clusters = s.clusters := rfl
@[simp] theorem State.delOp_cores : (s.delOp o).cores = s.cores := rfl
@[simp] theorem State.delOp_wgs : (s.delOp o).wgs = s.wgs := rfl
@[simp] theorem State.delOp_groups : (s.delOp o).groups = s.groups := rfl
@[simp] theorem State.delOp_regionRuns : (s.delOp o).regionRuns = s.regionRuns := rfl
@[simp] theorem State.delOp_pending : (s.delOp o).pending = s.pending := rfl
@[simp] theorem State.delOp_heldRecs : (s.delOp o).heldRecs = s.heldRecs := rfl
@[simp] theorem State.delOp_saved : (s.delOp o).saved = s.saved := rfl
@[simp] theorem State.delOp_hostMem : (s.delOp o).hostMem = s.hostMem := rfl
@[simp] theorem State.delOp_safeTier : (s.delOp o).safeTier = s.safeTier := rfl
@[simp] theorem State.delOp_links : (s.delOp o).links = s.links := rfl
@[simp] theorem State.delOp_linkBeats : (s.delOp o).linkBeats = s.linkBeats := rfl
@[simp] theorem State.delOp_linkLanes : (s.delOp o).linkLanes = s.linkLanes := rfl
@[simp] theorem State.delOp_linkReserve : (s.delOp o).linkReserve = s.linkReserve := rfl
@[simp] theorem State.delOp_linkDown : (s.delOp o).linkDown = s.linkDown := rfl
@[simp] theorem State.delOp_power : (s.delOp o).power = s.power := rfl
@[simp] theorem State.delOp_powerDraw : (s.delOp o).powerDraw = s.powerDraw := rfl
@[simp] theorem State.delOp_irqs : (s.delOp o).irqs = s.irqs := rfl
@[simp] theorem State.delOp_mailbox : (s.delOp o).mailbox = s.mailbox := rfl
@[simp] theorem State.delOp_hostReads : (s.delOp o).hostReads = s.hostReads := rfl
@[simp] theorem State.delOp_posted : (s.delOp o).posted = s.posted := rfl
@[simp] theorem State.delOp_fabric : (s.delOp o).fabric = s.fabric := rfl
@[simp] theorem State.delOp_agenda : (s.delOp o).agenda = s.agenda := rfl
@[simp] theorem State.delOp_event : (s.delOp o).event = s.event := rfl
@[simp] theorem State.delOp_cursor : (s.delOp o).cursor = s.cursor := rfl
@[simp] theorem State.delOp_tried : (s.delOp o).tried = s.tried := rfl
@[simp] theorem State.delOp_cycle : (s.delOp o).cycle = s.cycle := rfl
@[simp] theorem State.delOp_nextId : (s.delOp o).nextId = s.nextId := rfl
@[simp] theorem State.delOp_fresh : (s.delOp o).fresh = s.fresh := rfl

end

/-! ### An operation changed -/

section
variable (s : State) (o : Nat) (f : Op → Op)

@[simp] theorem State.modOp_dies : (s.modOp o f).dies = s.dies := rfl
@[simp] theorem State.modOp_xdies : (s.modOp o f).xdies = s.xdies := rfl
@[simp] theorem State.modOp_clusters : (s.modOp o f).clusters = s.clusters := rfl
@[simp] theorem State.modOp_cores : (s.modOp o f).cores = s.cores := rfl
@[simp] theorem State.modOp_wgs : (s.modOp o f).wgs = s.wgs := rfl
@[simp] theorem State.modOp_groups : (s.modOp o f).groups = s.groups := rfl
@[simp] theorem State.modOp_regionRuns : (s.modOp o f).regionRuns = s.regionRuns := rfl
@[simp] theorem State.modOp_pending : (s.modOp o f).pending = s.pending := rfl
@[simp] theorem State.modOp_heldRecs : (s.modOp o f).heldRecs = s.heldRecs := rfl
@[simp] theorem State.modOp_saved : (s.modOp o f).saved = s.saved := rfl
@[simp] theorem State.modOp_hostMem : (s.modOp o f).hostMem = s.hostMem := rfl
@[simp] theorem State.modOp_safeTier : (s.modOp o f).safeTier = s.safeTier := rfl
@[simp] theorem State.modOp_links : (s.modOp o f).links = s.links := rfl
@[simp] theorem State.modOp_linkBeats : (s.modOp o f).linkBeats = s.linkBeats := rfl
@[simp] theorem State.modOp_linkLanes : (s.modOp o f).linkLanes = s.linkLanes := rfl
@[simp] theorem State.modOp_linkReserve : (s.modOp o f).linkReserve = s.linkReserve := rfl
@[simp] theorem State.modOp_linkDown : (s.modOp o f).linkDown = s.linkDown := rfl
@[simp] theorem State.modOp_power : (s.modOp o f).power = s.power := rfl
@[simp] theorem State.modOp_powerDraw : (s.modOp o f).powerDraw = s.powerDraw := rfl
@[simp] theorem State.modOp_irqs : (s.modOp o f).irqs = s.irqs := rfl
@[simp] theorem State.modOp_mailbox : (s.modOp o f).mailbox = s.mailbox := rfl
@[simp] theorem State.modOp_hostReads : (s.modOp o f).hostReads = s.hostReads := rfl
@[simp] theorem State.modOp_posted : (s.modOp o f).posted = s.posted := rfl
@[simp] theorem State.modOp_fabric : (s.modOp o f).fabric = s.fabric := rfl
@[simp] theorem State.modOp_agenda : (s.modOp o f).agenda = s.agenda := rfl
@[simp] theorem State.modOp_event : (s.modOp o f).event = s.event := rfl
@[simp] theorem State.modOp_cursor : (s.modOp o f).cursor = s.cursor := rfl
@[simp] theorem State.modOp_tried : (s.modOp o f).tried = s.tried := rfl
@[simp] theorem State.modOp_cycle : (s.modOp o f).cycle = s.cycle := rfl
@[simp] theorem State.modOp_nextId : (s.modOp o f).nextId = s.nextId := rfl
@[simp] theorem State.modOp_fresh : (s.modOp o f).fresh = s.fresh := rfl

end

/-! ### A region's run data changed -/

section
variable (s : State) (r : Nat) (f : RegionRun → RegionRun)

@[simp] theorem State.modRun_dies : (s.modRun r f).dies = s.dies := rfl
@[simp] theorem State.modRun_xdies : (s.modRun r f).xdies = s.xdies := rfl
@[simp] theorem State.modRun_clusters : (s.modRun r f).clusters = s.clusters := rfl
@[simp] theorem State.modRun_cores : (s.modRun r f).cores = s.cores := rfl
@[simp] theorem State.modRun_wgs : (s.modRun r f).wgs = s.wgs := rfl
@[simp] theorem State.modRun_groups : (s.modRun r f).groups = s.groups := rfl
@[simp] theorem State.modRun_ops : (s.modRun r f).ops = s.ops := rfl
@[simp] theorem State.modRun_pending : (s.modRun r f).pending = s.pending := rfl
@[simp] theorem State.modRun_heldRecs : (s.modRun r f).heldRecs = s.heldRecs := rfl
@[simp] theorem State.modRun_saved : (s.modRun r f).saved = s.saved := rfl
@[simp] theorem State.modRun_hostMem : (s.modRun r f).hostMem = s.hostMem := rfl
@[simp] theorem State.modRun_safeTier : (s.modRun r f).safeTier = s.safeTier := rfl
@[simp] theorem State.modRun_links : (s.modRun r f).links = s.links := rfl
@[simp] theorem State.modRun_linkBeats : (s.modRun r f).linkBeats = s.linkBeats := rfl
@[simp] theorem State.modRun_linkLanes : (s.modRun r f).linkLanes = s.linkLanes := rfl
@[simp] theorem State.modRun_linkReserve : (s.modRun r f).linkReserve = s.linkReserve := rfl
@[simp] theorem State.modRun_linkDown : (s.modRun r f).linkDown = s.linkDown := rfl
@[simp] theorem State.modRun_power : (s.modRun r f).power = s.power := rfl
@[simp] theorem State.modRun_powerDraw : (s.modRun r f).powerDraw = s.powerDraw := rfl
@[simp] theorem State.modRun_irqs : (s.modRun r f).irqs = s.irqs := rfl
@[simp] theorem State.modRun_mailbox : (s.modRun r f).mailbox = s.mailbox := rfl
@[simp] theorem State.modRun_hostReads : (s.modRun r f).hostReads = s.hostReads := rfl
@[simp] theorem State.modRun_posted : (s.modRun r f).posted = s.posted := rfl
@[simp] theorem State.modRun_fabric : (s.modRun r f).fabric = s.fabric := rfl
@[simp] theorem State.modRun_agenda : (s.modRun r f).agenda = s.agenda := rfl
@[simp] theorem State.modRun_event : (s.modRun r f).event = s.event := rfl
@[simp] theorem State.modRun_cursor : (s.modRun r f).cursor = s.cursor := rfl
@[simp] theorem State.modRun_tried : (s.modRun r f).tried = s.tried := rfl
@[simp] theorem State.modRun_cycle : (s.modRun r f).cycle = s.cycle := rfl
@[simp] theorem State.modRun_nextId : (s.modRun r f).nextId = s.nextId := rfl
@[simp] theorem State.modRun_fresh : (s.modRun r f).fresh = s.fresh := rfl

end

end Sys2Proof.Machine
end

