-- ==== Sys2Proof/Laws/Memory.lean ====
section
/-! SUPPORT. The canonical form of the package's memories (log 3): what leaves every memory as it is, and
that the writes keep the form. -/

namespace Sys2Proof.Machine

/-- The memories of `t` are those of `s`. -/
structure State.SameMems (s t : State) : Prop where
  dies : ∀ d, (t.die d).mem = (s.die d).mem
  spads : ∀ c, (t.cluster c).spad = (s.cluster c).spad
  host : t.hostMem = s.hostMem
  safe : t.safeTier = s.safeTier

theorem State.SameMems.refl (s : State) : s.SameMems s := ⟨fun _ => rfl, fun _ => rfl, rfl, rfl⟩

theorem State.SameMems.trans {s t u : State} (h : s.SameMems t) (k : t.SameMems u) : s.SameMems u where
  dies d := (k.dies d).trans (h.dies d)
  spads c := (k.spads c).trans (h.spads c)
  host := k.host.trans h.host
  safe := k.safe.trans h.safe

/-- Memories that are the same keep the form. -/
theorem State.MemoriesWf.same {s t : State} (w : s.MemoriesWf) (h : s.SameMems t) : t.MemoriesWf where
  dies d := by rw [h.dies]; exact w.dies d
  within d := by rw [h.dies]; exact w.within d
  spads c := by rw [h.spads]; exact w.spads c
  host := by rw [h.host]; exact w.host
  safe := by rw [h.safe]; exact w.safe

/-- A frame of a group says that the memories are the same. -/
theorem State.Still.sameMems {s t : State} {g : Nat} (h : s.Still t g) : s.SameMems t where
  dies d := (congrArg Die.mem (h.dies d) : (t.die d).rest.mem = (s.die d).rest.mem)
  spads c := by rw [h.clusters]
  host := h.hostMem
  safe := h.safeTier

theorem State.RegFrame.sameMems {s t : State} {g : Nat} {who : Nat → Prop} {ns ps ws : List Nat} {fl : Fpx}
    (h : s.RegFrame t g who ns ps ws fl) : s.SameMems t := h.still.sameMems

/-! ### Updates that leave the memories -/

theorem State.sameMems_modDie {f : Die → Die} (hf : ∀ x, (f x).mem = x.mem) (s : State) (d : Nat) :
    s.SameMems (s.modDie d f) where
  dies e := by
    rw [State.die_modDie]
    split_ifs with h
    · subst h; exact hf _
    · rfl
  spads _ := rfl
  host := rfl
  safe := rfl

theorem State.sameMems_modCluster {f : Cluster → Cluster} (hf : ∀ x, (f x).spad = x.spad) (s : State) (c : Nat) :
    s.SameMems (s.modCluster c f) where
  dies _ := rfl
  spads e := by
    rw [State.cluster_modCluster]
    split_ifs with h
    · subst h; exact hf _
    · rfl
  host := rfl
  safe := rfl

theorem State.sameMems_modXdie (s : State) (d : Nat) (f : Xdie → Xdie) : s.SameMems (s.modXdie d f) :=
  ⟨fun _ => rfl, fun _ => rfl, rfl, rfl⟩
theorem State.sameMems_modCore (s : State) (l : Nat) (f : Core → Core) : s.SameMems (s.modCore l f) :=
  ⟨fun _ => rfl, fun _ => rfl, rfl, rfl⟩
theorem State.sameMems_modEngine (s : State) (l : Nat) (f : Engine → Engine) : s.SameMems (s.modEngine l f) :=
  ⟨fun _ => rfl, fun _ => rfl, rfl, rfl⟩
theorem State.sameMems_setGroup (s : State) (g : Nat) (x : Group) : s.SameMems (s.setGroup g x) :=
  ⟨fun _ => rfl, fun _ => rfl, rfl, rfl⟩
theorem State.sameMems_modGroup (s : State) (g : Nat) (f : Group → Group) : s.SameMems (s.modGroup g f) :=
  ⟨fun _ => rfl, fun _ => rfl, rfl, rfl⟩
theorem State.sameMems_setWg (s : State) (w : Nat) (x : Workgroup) : s.SameMems (s.setWg w x) :=
  ⟨fun _ => rfl, fun _ => rfl, rfl, rfl⟩
theorem State.sameMems_modWg (s : State) (w : Nat) (f : Workgroup → Workgroup) : s.SameMems (s.modWg w f) :=
  ⟨fun _ => rfl, fun _ => rfl, rfl, rfl⟩
theorem State.sameMems_setOp (s : State) (o : Nat) (x : Op) : s.SameMems (s.setOp o x) :=
  ⟨fun _ => rfl, fun _ => rfl, rfl, rfl⟩
theorem State.sameMems_modOp (s : State) (o : Nat) (f : Op → Op) : s.SameMems (s.modOp o f) :=
  ⟨fun _ => rfl, fun _ => rfl, rfl, rfl⟩
theorem State.sameMems_delOp (s : State) (o : Nat) : s.SameMems (s.delOp o) :=
  ⟨fun _ => rfl, fun _ => rfl, rfl, rfl⟩
theorem State.sameMems_modRun (s : State) (r : Nat) (f : RegionRun → RegionRun) : s.SameMems (s.modRun r f) :=
  ⟨fun _ => rfl, fun _ => rfl, rfl, rfl⟩
theorem State.sameMems_newId (s : State) : s.SameMems s.newId.2 := ⟨fun _ => rfl, fun _ => rfl, rfl, rfl⟩
theorem State.sameMems_freeWord (s : State) : s.SameMems s.freeWord.2 := ⟨fun _ => rfl, fun _ => rfl, rfl, rfl⟩

theorem State.sameMems_modFrame (s : State) (pa : Nat) (f : Frame → Frame) : s.SameMems (s.modFrame pa f) := by
  unfold State.modFrame
  split
  · refine State.sameMems_modDie ?_ s _
    intro _; rfl
  · exact .refl s

theorem State.sameMems_moveOn (s : State) : s.SameMems s.moveOn := (s.still_moveOn 0).sameMems
theorem State.sameMems_poll (s : State) : s.SameMems s.poll := (s.still_poll 0).sameMems

theorem State.sameMems_turnOver (s : State) : s.SameMems s.turnOver := by
  unfold State.turnOver
  split_ifs
  · exact ⟨s.sameMems_moveOn.dies, s.sameMems_moveOn.spads, s.sameMems_moveOn.host, s.sameMems_moveOn.safe⟩
  · simp only
    split
    · exact ⟨s.sameMems_moveOn.dies, s.sameMems_moveOn.spads, s.sameMems_moveOn.host, s.sameMems_moveOn.safe⟩
    · exact s.sameMems_moveOn

/-! ### Writes -/

theorem Memory.mem_drop {m : Memory} {a : Nat} {c : Host.Cell} (h : c ∈ Memory.drop m a) : c ∈ m := by
  induction m with
  | nil => exact h
  | cons e m ih =>
    obtain ⟨k, v⟩ := e
    simp only [Memory.drop] at h
    split_ifs at h
    · exact .tail _ (ih h)
    · rcases List.mem_cons.1 h with rfl | h
      · exact .head _
      · exact .tail _ (ih h)

theorem Memory.mem_insert {m : Memory} {a : Nat} {v : Byte} {c : Host.Cell} (h : c ∈ Memory.insert m a v) :
    c ∈ m ∨ c.1 = a := by
  induction m with
  | nil => simp only [Memory.insert, List.mem_singleton] at h; exact .inr (by rw [h])
  | cons e m ih =>
    obtain ⟨k, u⟩ := e
    simp only [Memory.insert] at h
    split_ifs at h
    · rcases List.mem_cons.1 h with rfl | h
      · exact .inr rfl
      · exact .inl h
    · rcases List.mem_cons.1 h with rfl | h
      · exact .inr rfl
      · exact .inl (.tail _ h)
    · rcases List.mem_cons.1 h with rfl | h
      · exact .inl (.head _)
      · exact (ih h).imp (.tail _) id

/-- A write lists no address but those listed and its own. -/
theorem Memory.mem_write {m : Memory} {a : Nat} {v : Byte} {c : Host.Cell} (h : c ∈ Memory.write m a v) :
    c ∈ m ∨ c.1 = a := by
  unfold Memory.write at h
  split_ifs at h
  · exact .inl (Memory.mem_drop h)
  · exact Memory.mem_insert h

/-- A byte written to physical memory keeps the form. -/
theorem State.MemoriesWf.writePa {s : State} (w : s.MemoriesWf) (pa : Nat) (b : Byte) : (s.writePa pa b).MemoriesWf := by
  unfold State.writePa
  split_ifs
  · exact ⟨w.dies, w.within, w.spads, Memory.wf_write _ _ w.host, w.safe⟩
  · split
    · next d hd =>
      refine ⟨fun e => ?_, fun e c hc => ?_, w.spads, w.host, w.safe⟩
      · rw [State.die_modDie]
        split_ifs
        · exact Memory.wf_write _ _ (w.dies d)
        · exact w.dies e
      · rw [State.die_modDie] at hc
        split_ifs at hc with h
        · subst h
          rcases Memory.mem_write hc with h | h
          · exact w.within _ c h
          · rw [h]; exact hd
        · exact w.within e c hc
    · exact w

/-- Bytes written to physical memory keep the form. -/
theorem State.MemoriesWf.writePaN (bs : List Byte) {s : State} (w : s.MemoriesWf) (pa : Nat) :
    (s.writePaN pa bs).MemoriesWf := by
  induction bs generalizing s pa with
  | nil => exact w
  | cons b bs ih => exact ih (w.writePa pa b) (pa + 1)

theorem State.sameMems_foldl {α : Type} {f : State → α → State} (hf : ∀ (s : State) (x : α), s.SameMems (f s x)) (l : List α) (s : State) :
    s.SameMems (l.foldl f s) := by
  induction l generalizing s with
  | nil => exact .refl s
  | cons x l ih => exact (hf s x).trans (ih (f s x))

/-- The slice caches and the hot counters are no memory. -/
theorem Die.sliceTouch_mem (x : Die) (pa : Nat) (w : Bool) : (x.sliceTouch pa w).mem = x.mem := by
  unfold Die.sliceTouch Die.hbmAccess
  simp only
  split_ifs
  · rfl
  · rfl
  · split <;> rfl

theorem State.sameMems_hotTouch (s : State) (pa : Nat) (w : Bool) : s.SameMems (s.hotTouch pa w) := by
  unfold State.hotTouch
  split
  · exact .refl s
  · exact State.sameMems_modDie (fun x => x.sliceTouch_mem pa w) s _

theorem State.sameMems_touchAll (s : State) (pa n : Nat) (w : Bool) : s.SameMems (s.touchAll pa n w) :=
  State.sameMems_foldl (fun s u => s.sameMems_hotTouch (64 * u) w) _ s

/-- Bytes written through the home slices keep the form. -/
theorem State.MemoriesWf.putPa {s : State} (w : s.MemoriesWf) (pa : Nat) (bs : List Byte) : (s.putPa pa bs).MemoriesWf :=
  (w.writePaN bs pa).same (State.sameMems_touchAll _ _ _ _)

/-- A write of the device's own units keeps the form (R242). -/
theorem State.MemoriesWf.devWrite {s : State} (w : s.MemoriesWf) (d pa : Nat) (bs : List Byte) :
    (s.devWrite d pa bs).MemoriesWf := by
  unfold State.devWrite
  split_ifs
  · exact w
  · split
    · next s1 h =>
      have k : s.SameMems s1 := by
        unfold State.dupStall at h
        split at h
        · split_ifs at h
          cases h
          exact State.sameMems_modDie (by intro _; rfl) s _
        · cases h
      unfold State.keepLate
      split
      · exact (w.same k).same (State.sameMems_modDie (by intro _; rfl) s1 _)
      · exact w.same k
    · exact w.putPa pa bs

/-- An entry of the violation log keeps the form. -/
theorem State.MemoriesWf.logViolation {s : State} (w : s.MemoriesWf) (d pa cause kind unit : Nat) :
    (s.logViolation d pa cause kind unit).MemoriesWf := by
  unfold State.logViolation
  extract_lets d x a s1
  have w1 : s1.MemoriesWf := w.devWrite d a _
  clear_value s1
  refine w1.same (State.sameMems_modDie ?_ s1 d)
  intro _; rfl

/-- A scratchpad changed into one of the form keeps the form. -/
theorem State.MemoriesWf.modCluster {s : State} (w : s.MemoriesWf) {f : Cluster → Cluster}
    (hf : ∀ x, x.spad.wf = true → (f x).spad.wf = true) (c : Nat) : (s.modCluster c f).MemoriesWf := by
  refine ⟨w.dies, w.within, fun e => ?_, w.host, w.safe⟩
  rw [State.cluster_modCluster]
  split_ifs
  · exact hf _ (w.spads c)
  · exact w.spads e

/-- Bytes written to a scratchpad keep the form. -/
theorem State.MemoriesWf.writeSpad {s : State} (w : s.MemoriesWf) (c a : Nat) (bs : List Byte) :
    (s.modCluster c fun x => { x with spad := Memory.writeN x.spad a bs }).MemoriesWf :=
  w.modCluster (fun _ h => Memory.wf_writeN bs a h) c

/-! ### Parts of memories -/

theorem Memory.wfFrom_cons {m : Memory} {lo a : Nat} {v : Byte} :
    Memory.wfFrom lo ((a, v) :: m) = true ↔ lo ≤ a ∧ v ≠ memDefault ∧ Memory.wfFrom (a + 1) m = true := by
  simp [Memory.wfFrom, and_assoc]

theorem Memory.lt_of_mem {m : Memory} {a : Nat} (w : Memory.wfFrom (a + 1) m = true) {c : Host.Cell} (h : c ∈ m) :
    a < c.1 := by
  induction m generalizing a with
  | nil => cases h
  | cons e m ih =>
    obtain ⟨k, v⟩ := e
    obtain ⟨h1, -, h3⟩ := Memory.wfFrom_cons.1 w
    rcases List.mem_cons.1 h with rfl | h
    · exact h1
    · have := ih h3 h; omega

/-- A part of a memory has the form. -/
theorem Memory.wfFrom_filter {m : Memory} {lo : Nat} (p : Host.Cell → Bool) (w : Memory.wfFrom lo m = true) :
    Memory.wfFrom lo (List.filter p m) = true := by
  induction m generalizing lo with
  | nil => rfl
  | cons e m ih =>
    obtain ⟨a, v⟩ := e
    obtain ⟨h1, h2, h3⟩ := Memory.wfFrom_cons.1 w
    rw [List.filter_cons]
    split_ifs
    · exact Memory.wfFrom_cons.2 ⟨h1, h2, ih h3⟩
    · exact ih (Memory.wfFrom_mono (by omega) h3)

/-- The block of a new workgroup, cleared, leaves the form (R20). -/
theorem State.MemoriesWf.takeSpad {s : State} (w : s.MemoriesWf) (c off n : Nat) : (s.takeSpad c off n).MemoriesWf := by
  refine w.modCluster ?_ c
  intro x h; exact Memory.wfFrom_filter _ h

/-- Two memories, the second above every address of the first. -/
theorem Memory.wfFrom_append {m n : Memory} {lo hi : Nat} (hm : Memory.wfFrom lo m = true) (hn : Memory.wfFrom hi n = true)
    (h : lo ≤ hi) (hb : ∀ c ∈ m, c.1 < hi) : Memory.wfFrom lo (m ++ n) = true := by
  induction m generalizing lo with
  | nil => exact Memory.wfFrom_mono h hn
  | cons e m ih =>
    obtain ⟨a, v⟩ := e
    obtain ⟨h1, h2, h3⟩ := Memory.wfFrom_cons.1 hm
    exact Memory.wfFrom_cons.2 ⟨h1, h2, ih h3 (hb (a, v) (.head _)) fun c hc => hb c (.tail _ hc)⟩

/-- The part of a memory at or above an address. -/
theorem Memory.wfFrom_above {m : Memory} {lo : Nat} (k : Nat) (w : Memory.wfFrom lo m = true) :
    Memory.wfFrom k (List.filter (fun c : Host.Cell => decide (k ≤ c.1)) m) = true := by
  induction m generalizing lo with
  | nil => rfl
  | cons e m ih =>
    obtain ⟨a, v⟩ := e
    obtain ⟨h1, h2, h3⟩ := Memory.wfFrom_cons.1 w
    rw [List.filter_cons]
    split_ifs with h
    · refine Memory.wfFrom_cons.2 ⟨by simpa using h, h2, Memory.wfFrom_filter _ h3⟩
    · exact ih h3

/-- A memory moved by a rising map. -/
theorem Memory.wfFrom_map {m : Memory} {lo lo' : Nat} (f : Nat → Nat) (w : Memory.wfFrom lo m = true)
    (h0 : ∀ c ∈ m, lo' ≤ f c.1) (hf : ∀ c ∈ m, ∀ e ∈ m, c.1 < e.1 → f c.1 < f e.1) :
    Memory.wfFrom lo' (m.map fun c => (f c.1, c.2)) = true := by
  induction m generalizing lo lo' with
  | nil => rfl
  | cons e m ih =>
    obtain ⟨a, v⟩ := e
    obtain ⟨h1, h2, h3⟩ := Memory.wfFrom_cons.1 w
    refine Memory.wfFrom_cons.2 ⟨h0 (a, v) (.head _), h2, ih h3 (fun c hc => ?_) fun c hc e he => ?_⟩
    · exact hf (a, v) (.head _) c (.tail _ hc) (Memory.lt_of_mem h3 hc)
    · exact hf c (.tail _ hc) e (.tail _ he)

/-- One stack copied to the safe tier (R376) leaves the form. -/
theorem Memory.wf_copyStack {safe mem : Memory} {d t : Nat} (ws : safe.wf = true) (wm : mem.wf = true)
    (hd : ∀ c ∈ mem, hbmDie c.1 = some d) : (copyStack safe mem d t).wf = true := by
  have size : ∀ c ∈ mem, ∃ o, c.1 = d * 103079215104 + o ∧ o < 103079215104 := fun c hc => by
    have h := hd c hc
    simp only [hbmDie] at h
    split_ifs at h with h4
    have h := Option.some.inj h
    simp only [Config.frameBytes, Config.framesPerDie] at h h4
    exact ⟨c.1 - d * 103079215104, by omega, by omega⟩
  have off : ∀ c ∈ mem, (stackOf c.1).2 < stackBytes := fun c hc => by
    obtain ⟨o, h1, h2⟩ := size c hc
    simp only [stackOf, stackBytes, Config.frameBytes, Config.framesPerDie]
    omega
  unfold copyStack
  simp only
  have hn : Memory.wfFrom (stackAt d t) ((List.filter (fun c : Host.Cell => (stackOf c.1).1 == t) mem).map fun c =>
      (stackAt d t + (stackOf c.1).2, c.2)) = true := by
    refine Memory.wfFrom_map (fun a => stackAt d t + (stackOf a).2) (Memory.wfFrom_filter _ wm) (fun c _ => by omega) ?_
    intro c hc e he h
    have hc' := List.mem_filter.1 hc
    have he' := List.mem_filter.1 he
    obtain ⟨o, h1, h2⟩ := size c hc'.1
    obtain ⟨p, h3, h4⟩ := size e he'.1
    have h5 := beq_iff_eq.1 hc'.2
    have h6 := beq_iff_eq.1 he'.2
    simp only [stackOf, Config.frameBytes, Config.framesPerDie] at h5 h6 ⊢
    omega
  refine Memory.wfFrom_append (hi := stackAt d t + stackBytes) ?_ (Memory.wfFrom_above _ ws) (by omega) ?_
  · refine Memory.wfFrom_append (Memory.wfFrom_filter _ ws) hn (by omega) fun c hc => ?_
    have := (List.mem_filter.1 hc).2
    simpa using this
  · intro c hc
    rcases List.mem_append.1 hc with h | h
    · have := (List.mem_filter.1 h).2
      simp only [decide_eq_true_eq] at this
      omega
    · obtain ⟨e, he, rfl⟩ := List.mem_map.1 h
      have := off e (List.mem_filter.1 he).1
      simp only
      omega

/-- The HBM of a die with the device's tables in it has the form, and lies in the die. -/
theorem State.MemoriesWf.tableMem {s : State} (w : s.MemoriesWf) (d : Nat) :
    (s.tableMem d).wf = true ∧ ∀ c ∈ s.tableMem d, hbmDie c.1 = some d := by
  have go : ∀ (l : List Host.Cell), (∀ c ∈ l, hbmDie c.1 = some d) → ∀ (m : Memory), m.wf = true →
      (∀ c ∈ m, hbmDie c.1 = some d) →
      (l.foldl (fun m c => Memory.write m c.1 c.2) m).wf = true
        ∧ ∀ c ∈ l.foldl (fun m c => Memory.write m c.1 c.2) m, hbmDie c.1 = some d := fun l => by
    induction l with
    | nil => exact fun _ m h k => ⟨h, k⟩
    | cons x l ih =>
      intro hl m h k
      refine ih (fun c hc => hl c (.tail _ hc)) _ (Memory.wf_write _ _ h) fun c hc => ?_
      rcases Memory.mem_write hc with e | e
      · exact k c e
      · rw [e]; exact hl x (.head _)
  refine go _ (fun c hc => ?_) _ (w.dies d) (w.within d)
  have cell : ∀ n base, c ∈ s.tableCells d n base → hbmDie c.1 = some d := fun n base h => by
    unfold State.tableCells at h
    split_ifs at h
    · cases h
    · obtain ⟨i, -, hi⟩ := List.mem_filterMap.1 h
      split at hi
      · split_ifs at hi with e
        cases hi
        simpa using e
      · cases hi
  rcases List.mem_append.1 hc with h | h
  · exact cell _ _ h
  · exact cell _ _ h

/-- A checkpoint (R376) leaves the form. -/
theorem State.MemoriesWf.checkpoint {s : State} (w : s.MemoriesWf) (mask : Nat) (ok : Bool) :
    (s.checkpoint mask ok).MemoriesWf := by
  have go : ∀ (ks : List Nat) (m : Memory), m.wf = true →
      (ks.foldl (fun m k => copyStack m (s.tableMem (k / 2)) (k / 2) (k % 2)) m).wf = true := fun ks => by
    induction ks with
    | nil => exact fun _ h => h
    | cons k ks ih => exact fun m h => ih _ (Memory.wf_copyStack h (w.tableMem _).1 (w.tableMem _).2)
  unfold State.checkpoint
  split
  · exact ⟨w.dies, w.within, w.spads, w.host, Memory.wf_writeN _ _ (go _ _ w.safe)⟩
  · exact w

/-- What a cold reset leaves (R370) has the form. -/
theorem State.MemoriesWf.coldClear {s : State} (w : s.MemoriesWf) : s.coldClear.MemoriesWf := by
  have same : ∀ d, (s.coldClear.die d).mem = (s.die d).mem := fun d => by
    have h : s.coldClear.dies = Tab.mapV s.dies fun k x =>
        { Die.reset k with mem := x.mem, reserves := x.reserves, units := x.remap.units } := rfl
    simp only [State.die, Tab.getD, h, Tab.find?_mapV]
    cases Tab.find? s.dies d <;> rfl
  exact ⟨fun d => by rw [same]; exact w.dies d, fun d => by rw [same]; exact w.within d, fun _ => rfl, w.host, w.safe⟩

/-- Units replaced from the reserves leave the memories. -/
theorem State.sameMems_replaceUnits (l : List (Nat × Nat × Nat)) {s t : State} (h : s.replaceUnits l = .ok t) :
    s.SameMems t := by
  induction l generalizing s with
  | nil => cases h; exact .refl _
  | cons x l ih =>
    unfold State.replaceUnits at h
    split at h
    · next s1 e =>
      refine State.SameMems.trans ?_ (ih h)
      unfold State.replaceUnit at e
      extract_lets d k r n k' at e
      by_cases h2 : (x.2.1 == 2) = true
      · rw [if_pos h2] at e
        by_cases hr : (r != 0) = true
        · rw [if_pos hr] at e; cases e; exact ⟨fun _ => rfl, fun _ => rfl, rfl, rfl⟩
        · rw [if_neg hr] at e
          by_cases hn : (n == 8) = true
          · rw [if_pos hn] at e; cases e
          · rw [if_neg hn] at e; cases e; exact ⟨fun _ => rfl, fun _ => rfl, rfl, rfl⟩
      · rw [if_neg h2] at e
        by_cases hk : k' < 2
        · rw [if_pos hk] at e; cases e; exact State.sameMems_modDie (by intro _; rfl) s _
        · rw [if_neg hk] at e; cases e
    · cases h

theorem State.sameMems_modPort (s : State) (d k : Nat) (f : Port → Port) : s.SameMems (s.modPort d k f) :=
  State.sameMems_modDie (by intro _; rfl) s d

theorem State.sameMems_portWrite (s : State) (d k b : Nat) (v : DWord) : s.SameMems (s.portWrite d k b v) := by
  unfold State.portWrite State.setHeat State.setWmap State.setWactive
  simp only
  split_ifs <;> first | exact .refl s | exact s.sameMems_modPort d k _

theorem State.sameMems_setQ {f : Die → Die} (hf : ∀ x, (f x).mem = x.mem) (s : State) (d : Nat) :
    s.SameMems (s.setQ d f) := by
  unfold State.setQ
  split_ifs
  · exact .refl s
  · exact State.sameMems_modDie hf s d

theorem State.MemoriesWf.foldl {α : Type} {f : State → α → State} (hf : ∀ (s : State) (x : α), s.MemoriesWf → (f s x).MemoriesWf)
    (l : List α) {s : State} (w : s.MemoriesWf) : (l.foldl f s).MemoriesWf := by
  induction l generalizing s with
  | nil => exact w
  | cons x l ih => exact ih (hf s x w)

/-- Spill images moved keep the form. -/
theorem State.MemoriesWf.setSpill {s : State} (w : s.MemoriesWf) (d core : Nat) (v : DWord) :
    (s.setSpill d core v).MemoriesWf := by
  unfold State.setSpill
  extract_lets stored old s1
  refine State.MemoriesWf.same (s := s1) ?_ (State.sameMems_modDie (by intro _; rfl) s1 d)
  exact State.MemoriesWf.foldl (fun t e h => State.MemoriesWf.writePaN _ h _) stored w

/-- A write of a control window that is no command keeps the form. -/
theorem State.MemoriesWf.cwWrite {s : State} (w : s.MemoriesWf) (d o : Nat) (v : DWord) (h : cwCommand o = false) :
    (s.cwWrite d o v).MemoriesWf := by
  unfold cwCommand writeOnly at h
  simp only [Bool.or_eq_false_iff, beq_eq_false_iff_ne] at h
  unfold State.cwWrite
  split
  · exact w.same (s.sameMems_portWrite _ _ _ _)
  split
  · refine w.same ?_
    unfold State.setClkReg
    simp only
    split_ifs
    · exact .refl s
    · exact State.sameMems_modCluster (by intro _; rfl) s _
  split
  · exact w.setSpill _ _ _
  split
  · refine w.same ?_
    unfold State.cqWrite
    simp only
    split_ifs <;> first | exact .refl s | exact State.sameMems_setQ (by intro _; rfl) s d
  · split <;> first
      | exact w
      | exact w.same (State.sameMems_setQ (by intro _; rfl) s d)
      | exact w.same (State.sameMems_modDie (by intro _; rfl) s d)
      | exact absurd rfl h.1.1
      | exact absurd rfl h.1.2
      | exact absurd rfl h.2
      | skip
    refine w.same ?_
    unfold State.setRingf
    simp only
    split_ifs
    · exact .refl s
    · exact State.sameMems_modDie (by intro _; rfl) s d

/-- Bring-up (R371) keeps the form. -/
theorem State.MemoriesWf.bringUp {s : State} (w : s.MemoriesWf) (b : BringUp) : (s.bringUp b).MemoriesWf := by
  have beacon : ∀ {t : State} (f : Failure), t.MemoriesWf → (t.inBeacon f).MemoriesWf :=
    fun f h => h.same ⟨fun _ => rfl, fun _ => rfl, rfl, rfl⟩
  have windows : ∀ {t : State}, t.MemoriesWf → (b.windows.foldl
      (fun s x => if cwCommand x.2.1 then s else s.cwWrite x.1 x.2.1 x.2.2) t).MemoriesWf := fun h =>
    State.MemoriesWf.foldl (fun t x h => by
      by_cases e : cwCommand x.2.1 = true
      · rw [if_pos e]; exact h
      · rw [if_neg e]; exact h.cwWrite _ _ _ (by simpa using e)) _ h
  have kernel : ∀ {t : State}, t.MemoriesWf → (b.kernel.foldl (fun s x => s.writePaN x.1 x.2) t).MemoriesWf := fun h =>
    State.MemoriesWf.foldl (fun t x h => h.writePaN _ _) _ h
  have on : ∀ {t : State}, t.MemoriesWf → (t.bringOn b).MemoriesWf := fun {t} h => by
    have h1 : (t.startSteward b.firmware).MemoriesWf := h.same ⟨fun _ => rfl, fun _ => rfl, rfl, rfl⟩
    have h2 := (windows h1).same (State.sameMems_foldl
      (f := fun s n => s.modFrame (n * Config.frameBytes) fun f => { f with res := true })
      (fun s n => s.sameMems_modFrame _ _) b.res _)
    exact (kernel h2).same (State.sameMems_foldl (f := fun s d => s.setQen d 1)
      (fun s d => State.sameMems_modDie (by intro _; rfl) s d) State.dies4 _)
  unfold State.bringUp
  split_ifs
  · exact beacon _ w
  · split
    · split_ifs
      · exact beacon _ w
      · split
        · exact beacon _ w
        · next s1 e => exact beacon _ (w.same (State.sameMems_replaceUnits _ e))
    · split
      · exact beacon _ w
      · next s1 e => exact on (w.same (State.sameMems_replaceUnits _ e))

/-- A cold reset (R370, R371) keeps the form. -/
theorem State.MemoriesWf.coldReset {s : State} (w : s.MemoriesWf) (b : BringUp) : (s.coldReset b).MemoriesWf :=
  w.coldClear.bringUp b

/-! ### Writes at a home and by an owner -/

theorem State.sameMems_setClk (s : State) (d e f n : Nat) : s.SameMems (s.setClk d e f n) := by
  unfold State.setClk
  split_ifs
  · refine State.sameMems_modDie ?_ s _
    intro _; rfl
  · exact s.sameMems_modXdie _ _

theorem State.sameMems_sendWrite (s : State) (d e : Nat) (m : List Nat → Msg) : s.SameMems (s.sendWrite d e m) := by
  unfold State.sendWrite
  simp only
  have h := s.sameMems_setClk d e d (s.clk d e d + 1)
  unfold State.beat
  split_ifs <;> exact ⟨h.dies, h.spads, h.host, h.safe⟩

theorem State.sameMems_dropOwn (s : State) (pa : Nat) (op : Option Nat) : s.SameMems (s.dropOwn pa op) := by
  unfold State.dropOwn
  cases s.opDie op with
  | none => exact .refl s
  | some d =>
    show s.SameMems (s.dropCopy d pa)
    unfold State.dropCopy
    split_ifs
    · exact State.sameMems_modDie (by intro _; rfl) s d
    · exact .refl s

theorem State.sameMems_sendInvs (s : State) (pa : Nat) (op : Option Nat) : s.SameMems (s.sendInvs pa op) := by
  unfold State.sendInvs
  extract_lets r
  refine (s.sameMems_dropOwn pa op).trans ?_
  change r.SameMems _
  split
  · exact .refl r
  · next h _ =>
    simp only
    have k := State.sameMems_foldl (fun s x => s.sameMems_sendWrite h x fun v => .inv (pa / 128) v op)
      (State.dies4.filter fun x => x != h && (Tab.find? (r.die x).peerLines (pa / 128)).isSome) r
    split
    · exact ⟨k.dies, k.spads, k.host, k.safe⟩
    · exact k

/-- Bytes written at their home keep the form (R237, R283). -/
theorem State.MemoriesWf.homeWrite {s : State} (w : s.MemoriesWf) (pa : Nat) (bs : List Byte) (op : Option Nat) :
    (s.homeWrite pa bs op).MemoriesWf :=
  (w.putPa pa bs).same (State.sameMems_sendInvs _ pa op)

theorem State.MemoriesWf.cleanL1 {s : State} (w : s.MemoriesWf) (loc line : Nat) : (s.cleanL1 loc line).MemoriesWf := by
  unfold State.cleanL1
  split
  · exact (w.putPa _ _).same (State.sameMems_modCore _ _ _)
  · exact w

/-- A line put into an L1 keeps the form (R235). -/
theorem State.MemoriesWf.allocL1 {s : State} (w : s.MemoriesWf) (loc line : Nat) (bs : List Byte) (d : Bool) :
    (s.allocL1 loc line bs d).MemoriesWf := by
  unfold State.allocL1
  simp only
  have h : (s.setL1 loc line bs d).MemoriesWf := w.same (State.sameMems_modCore _ _ _)
  split_ifs
  · exact h
  · exact ((h.same (State.sameMems_freeWord _)).cleanL1 _ _).same (State.sameMems_modCore _ _ _)

/-- A store by the owner keeps the form (R249). -/
theorem State.MemoriesWf.ipWrite {s : State} (w : s.MemoriesWf) (loc pa : Nat) (bs : List Byte) (m : IpMode) :
    (s.ipWrite loc pa bs m).MemoriesWf := by
  unfold State.ipWrite
  simp only
  split
  · exact ((w.cleanL1 loc _).same (State.sameMems_modCore _ _ _)).putPa pa bs
  · split_ifs
    · exact w.putPa pa bs
    · exact w.same (State.sameMems_modCore _ _ _)
  · split_ifs
    · exact (w.same (State.sameMems_touchAll _ _ _ _)).allocL1 _ _ _ _
    · exact w.allocL1 _ _ _ _

/-- A port that the table does not list is at its reset value, and carries (R371, R378). -/
theorem State.portStuck_eq (s : State) (d k : Nat) : s.portStuck d k = (s.port d k).stuck := by
  have h : ({} : Port).stuck = false := by decide +kernel
  unfold State.portStuck State.port Tab.getD
  cases Tab.find? (s.die d).ports k with
  | none => exact h.symm
  | some p => rfl

end Sys2Proof.Machine
end

