-- ==== Sys2Proof/Laws/PerInstr.lean ====
section
/-! SUPPORT. Decoding what was encoded, one lemma per constructor (R73 to R92). -/

section

set_option Elab.async false
set_option linter.unusedSimpArgs false

namespace Sys2Proof.Laws.RoundTrip

/-- A well-formed instruction's words decode to it, whatever words follow. -/
def Statement (i : Instr) : Prop :=
  i.wellFormed = true → i.isEvent = false → ∀ ws, decodeWords (encode i ++ ws) = .ok (i, ws)

theorem add (f : L3) : Statement (.add f) := by
  intro (hw : (f.ok) = true) _
  have hx : xFits f.a f.b f.x = true := by simp_all [L3.ok]
  exact of_parts (i := .add f) (p := ⟨false, 0x00, f.d, f.a, f.b, fhn 0 f.h f.n⟩) (es := extX f.a f.b f.x) rfl
    (by simp [Prim.extCount, Prim.extKind]) (by simp)
    (by simp [decodeParts, decodeLane, lane00, Prim.fn, Prim.noHN, Prim.h, Prim.n, withX_extX _ _ _ _ _ _ _ _ hx])

theorem sub (f : L3) : Statement (.sub f) := by
  intro (hw : (f.ok) = true) _
  have hx : xFits f.a f.b f.x = true := by simp_all [L3.ok]
  exact of_parts (i := .sub f) (p := ⟨false, 0x00, f.d, f.a, f.b, fhn 1 f.h f.n⟩) (es := extX f.a f.b f.x) rfl
    (by simp [Prim.extCount, Prim.extKind]) (by simp)
    (by simp [decodeParts, decodeLane, lane00, Prim.fn, Prim.noHN, Prim.h, Prim.n, withX_extX _ _ _ _ _ _ _ _ hx])

theorem add64 (f : N3) : Statement (.add64 f) := by
  intro (hw : (f.ok64) = true) _
  have hx : xFits f.a f.b f.x = true := by simp_all [N3.ok64]
  exact of_parts (i := .add64 f) (p := ⟨false, 0x00, f.d, f.a, f.b, fhn 2 false false⟩) (es := extX f.a f.b f.x) rfl
    (by simp [Prim.extCount, Prim.extKind]) (by simp)
    (by simp [decodeParts, decodeLane, lane00, Prim.fn, Prim.noHN, Prim.h, Prim.n, withX_extX _ _ _ _ _ _ _ _ hx])

theorem sub64 (f : N3) : Statement (.sub64 f) := by
  intro (hw : (f.ok64) = true) _
  have hx : xFits f.a f.b f.x = true := by simp_all [N3.ok64]
  exact of_parts (i := .sub64 f) (p := ⟨false, 0x00, f.d, f.a, f.b, fhn 3 false false⟩) (es := extX f.a f.b f.x) rfl
    (by simp [Prim.extCount, Prim.extKind]) (by simp)
    (by simp [decodeParts, decodeLane, lane00, Prim.fn, Prim.noHN, Prim.h, Prim.n, withX_extX _ _ _ _ _ _ _ _ hx])

theorem mul (f : L3) : Statement (.mul f) := by
  intro (hw : (f.ok) = true) _
  have hx : xFits f.a f.b f.x = true := by simp_all [L3.ok]
  exact of_parts (i := .mul f) (p := ⟨false, 0x01, f.d, f.a, f.b, fhn 0 f.h f.n⟩) (es := extX f.a f.b f.x) rfl
    (by simp [Prim.extCount, Prim.extKind]) (by simp)
    (by simp [decodeParts, decodeLane, lane01, Prim.fn, Prim.h, Prim.n, withX_extX _ _ _ _ _ _ _ _ hx])

theorem mulhiS (f : L3) : Statement (.mulhiS f) := by
  intro (hw : (f.ok) = true) _
  have hx : xFits f.a f.b f.x = true := by simp_all [L3.ok]
  exact of_parts (i := .mulhiS f) (p := ⟨false, 0x01, f.d, f.a, f.b, fhn 1 f.h f.n⟩) (es := extX f.a f.b f.x) rfl
    (by simp [Prim.extCount, Prim.extKind]) (by simp)
    (by simp [decodeParts, decodeLane, lane01, Prim.fn, Prim.h, Prim.n, withX_extX _ _ _ _ _ _ _ _ hx])

theorem mulhiU (f : L3) : Statement (.mulhiU f) := by
  intro (hw : (f.ok) = true) _
  have hx : xFits f.a f.b f.x = true := by simp_all [L3.ok]
  exact of_parts (i := .mulhiU f) (p := ⟨false, 0x01, f.d, f.a, f.b, fhn 2 f.h f.n⟩) (es := extX f.a f.b f.x) rfl
    (by simp [Prim.extCount, Prim.extKind]) (by simp)
    (by simp [decodeParts, decodeLane, lane01, Prim.fn, Prim.h, Prim.n, withX_extX _ _ _ _ _ _ _ _ hx])

theorem mad (f : L3) : Statement (.mad f) := by
  intro (hw : (f.ok) = true) _
  have hx : xFits f.a f.b f.x = true := by simp_all [L3.ok]
  exact of_parts (i := .mad f) (p := ⟨false, 0x02, f.d, f.a, f.b, fhn 0 f.h f.n⟩) (es := extX f.a f.b f.x) rfl
    (by simp [Prim.extCount, Prim.extKind]) (by simp)
    (by simp [decodeParts, decodeLane, lane02, Prim.fn, Prim.h, Prim.n, withX_extX _ _ _ _ _ _ _ _ hx])

theorem divS (f : L3) : Statement (.divS f) := by
  intro (hw : (f.ok) = true) _
  have hx : xFits f.a f.b f.x = true := by simp_all [L3.ok]
  exact of_parts (i := .divS f) (p := ⟨false, 0x03, f.d, f.a, f.b, fhn 0 f.h f.n⟩) (es := extX f.a f.b f.x) rfl
    (by simp [Prim.extCount, Prim.extKind]) (by simp)
    (by simp [decodeParts, decodeLane, lane03, Prim.fn, Prim.h, Prim.n, withX_extX _ _ _ _ _ _ _ _ hx])

theorem divU (f : L3) : Statement (.divU f) := by
  intro (hw : (f.ok) = true) _
  have hx : xFits f.a f.b f.x = true := by simp_all [L3.ok]
  exact of_parts (i := .divU f) (p := ⟨false, 0x03, f.d, f.a, f.b, fhn 1 f.h f.n⟩) (es := extX f.a f.b f.x) rfl
    (by simp [Prim.extCount, Prim.extKind]) (by simp)
    (by simp [decodeParts, decodeLane, lane03, Prim.fn, Prim.h, Prim.n, withX_extX _ _ _ _ _ _ _ _ hx])

theorem remS (f : L3) : Statement (.remS f) := by
  intro (hw : (f.ok) = true) _
  have hx : xFits f.a f.b f.x = true := by simp_all [L3.ok]
  exact of_parts (i := .remS f) (p := ⟨false, 0x03, f.d, f.a, f.b, fhn 2 f.h f.n⟩) (es := extX f.a f.b f.x) rfl
    (by simp [Prim.extCount, Prim.extKind]) (by simp)
    (by simp [decodeParts, decodeLane, lane03, Prim.fn, Prim.h, Prim.n, withX_extX _ _ _ _ _ _ _ _ hx])

theorem remU (f : L3) : Statement (.remU f) := by
  intro (hw : (f.ok) = true) _
  have hx : xFits f.a f.b f.x = true := by simp_all [L3.ok]
  exact of_parts (i := .remU f) (p := ⟨false, 0x03, f.d, f.a, f.b, fhn 3 f.h f.n⟩) (es := extX f.a f.b f.x) rfl
    (by simp [Prim.extCount, Prim.extKind]) (by simp)
    (by simp [decodeParts, decodeLane, lane03, Prim.fn, Prim.h, Prim.n, withX_extX _ _ _ _ _ _ _ _ hx])

theorem minS (f : L3) : Statement (.minS f) := by
  intro (hw : (f.ok) = true) _
  have hx : xFits f.a f.b f.x = true := by simp_all [L3.ok]
  exact of_parts (i := .minS f) (p := ⟨false, 0x04, f.d, f.a, f.b, fhn 0 f.h f.n⟩) (es := extX f.a f.b f.x) rfl
    (by simp [Prim.extCount, Prim.extKind]) (by simp)
    (by simp [decodeParts, decodeLane, lane04, Prim.fn, Prim.h, Prim.n, withX_extX _ _ _ _ _ _ _ _ hx])

theorem minU (f : L3) : Statement (.minU f) := by
  intro (hw : (f.ok) = true) _
  have hx : xFits f.a f.b f.x = true := by simp_all [L3.ok]
  exact of_parts (i := .minU f) (p := ⟨false, 0x04, f.d, f.a, f.b, fhn 1 f.h f.n⟩) (es := extX f.a f.b f.x) rfl
    (by simp [Prim.extCount, Prim.extKind]) (by simp)
    (by simp [decodeParts, decodeLane, lane04, Prim.fn, Prim.h, Prim.n, withX_extX _ _ _ _ _ _ _ _ hx])

theorem maxS (f : L3) : Statement (.maxS f) := by
  intro (hw : (f.ok) = true) _
  have hx : xFits f.a f.b f.x = true := by simp_all [L3.ok]
  exact of_parts (i := .maxS f) (p := ⟨false, 0x04, f.d, f.a, f.b, fhn 2 f.h f.n⟩) (es := extX f.a f.b f.x) rfl
    (by simp [Prim.extCount, Prim.extKind]) (by simp)
    (by simp [decodeParts, decodeLane, lane04, Prim.fn, Prim.h, Prim.n, withX_extX _ _ _ _ _ _ _ _ hx])

theorem maxU (f : L3) : Statement (.maxU f) := by
  intro (hw : (f.ok) = true) _
  have hx : xFits f.a f.b f.x = true := by simp_all [L3.ok]
  exact of_parts (i := .maxU f) (p := ⟨false, 0x04, f.d, f.a, f.b, fhn 3 f.h f.n⟩) (es := extX f.a f.b f.x) rfl
    (by simp [Prim.extCount, Prim.extKind]) (by simp)
    (by simp [decodeParts, decodeLane, lane04, Prim.fn, Prim.h, Prim.n, withX_extX _ _ _ _ _ _ _ _ hx])

theorem and (f : L3) : Statement (.and f) := by
  intro (hw : (f.ok) = true) _
  have hx : xFits f.a f.b f.x = true := by simp_all [L3.ok]
  exact of_parts (i := .and f) (p := ⟨false, 0x05, f.d, f.a, f.b, fhn 0 f.h f.n⟩) (es := extX f.a f.b f.x) rfl
    (by simp [Prim.extCount, Prim.extKind]) (by simp)
    (by simp [decodeParts, decodeLane, lane05, Prim.fn, Prim.h, Prim.n, withX_extX _ _ _ _ _ _ _ _ hx])

theorem or (f : L3) : Statement (.or f) := by
  intro (hw : (f.ok) = true) _
  have hx : xFits f.a f.b f.x = true := by simp_all [L3.ok]
  exact of_parts (i := .or f) (p := ⟨false, 0x05, f.d, f.a, f.b, fhn 1 f.h f.n⟩) (es := extX f.a f.b f.x) rfl
    (by simp [Prim.extCount, Prim.extKind]) (by simp)
    (by simp [decodeParts, decodeLane, lane05, Prim.fn, Prim.h, Prim.n, withX_extX _ _ _ _ _ _ _ _ hx])

theorem xor (f : L3) : Statement (.xor f) := by
  intro (hw : (f.ok) = true) _
  have hx : xFits f.a f.b f.x = true := by simp_all [L3.ok]
  exact of_parts (i := .xor f) (p := ⟨false, 0x05, f.d, f.a, f.b, fhn 2 f.h f.n⟩) (es := extX f.a f.b f.x) rfl
    (by simp [Prim.extCount, Prim.extKind]) (by simp)
    (by simp [decodeParts, decodeLane, lane05, Prim.fn, Prim.h, Prim.n, withX_extX _ _ _ _ _ _ _ _ hx])

theorem shl (f : L3) : Statement (.shl f) := by
  intro (hw : (f.ok) = true) _
  have hx : xFits f.a f.b f.x = true := by simp_all [L3.ok]
  exact of_parts (i := .shl f) (p := ⟨false, 0x06, f.d, f.a, f.b, fhn 0 f.h f.n⟩) (es := extX f.a f.b f.x) rfl
    (by simp [Prim.extCount, Prim.extKind]) (by simp)
    (by simp [decodeParts, decodeLane, lane06, Prim.fn, Prim.h, Prim.n, withX_extX _ _ _ _ _ _ _ _ hx])

theorem shr (f : L3) : Statement (.shr f) := by
  intro (hw : (f.ok) = true) _
  have hx : xFits f.a f.b f.x = true := by simp_all [L3.ok]
  exact of_parts (i := .shr f) (p := ⟨false, 0x06, f.d, f.a, f.b, fhn 1 f.h f.n⟩) (es := extX f.a f.b f.x) rfl
    (by simp [Prim.extCount, Prim.extKind]) (by simp)
    (by simp [decodeParts, decodeLane, lane06, Prim.fn, Prim.h, Prim.n, withX_extX _ _ _ _ _ _ _ _ hx])

theorem sar (f : L3) : Statement (.sar f) := by
  intro (hw : (f.ok) = true) _
  have hx : xFits f.a f.b f.x = true := by simp_all [L3.ok]
  exact of_parts (i := .sar f) (p := ⟨false, 0x06, f.d, f.a, f.b, fhn 2 f.h f.n⟩) (es := extX f.a f.b f.x) rfl
    (by simp [Prim.extCount, Prim.extKind]) (by simp)
    (by simp [decodeParts, decodeLane, lane06, Prim.fn, Prim.h, Prim.n, withX_extX _ _ _ _ _ _ _ _ hx])

theorem rot (f : L3) : Statement (.rot f) := by
  intro (hw : (f.ok) = true) _
  have hx : xFits f.a f.b f.x = true := by simp_all [L3.ok]
  exact of_parts (i := .rot f) (p := ⟨false, 0x06, f.d, f.a, f.b, fhn 3 f.h f.n⟩) (es := extX f.a f.b f.x) rfl
    (by simp [Prim.extCount, Prim.extKind]) (by simp)
    (by simp [decodeParts, decodeLane, lane06, Prim.fn, Prim.h, Prim.n, withX_extX _ _ _ _ _ _ _ _ hx])

theorem bfxU (f : L3) : Statement (.bfxU f) := by
  intro (hw : (f.ok) = true) _
  have hx : xFits f.a f.b f.x = true := by simp_all [L3.ok]
  exact of_parts (i := .bfxU f) (p := ⟨false, 0x07, f.d, f.a, f.b, fhn 0 f.h f.n⟩) (es := extX f.a f.b f.x) rfl
    (by simp [Prim.extCount, Prim.extKind]) (by simp)
    (by simp [decodeParts, decodeLane, lane07, Prim.fn, Prim.h, Prim.n, withX_extX _ _ _ _ _ _ _ _ hx])

theorem bfxS (f : L3) : Statement (.bfxS f) := by
  intro (hw : (f.ok) = true) _
  have hx : xFits f.a f.b f.x = true := by simp_all [L3.ok]
  exact of_parts (i := .bfxS f) (p := ⟨false, 0x07, f.d, f.a, f.b, fhn 1 f.h f.n⟩) (es := extX f.a f.b f.x) rfl
    (by simp [Prim.extCount, Prim.extKind]) (by simp)
    (by simp [decodeParts, decodeLane, lane07, Prim.fn, Prim.h, Prim.n, withX_extX _ _ _ _ _ _ _ _ hx])

theorem bfi (f : L3) : Statement (.bfi f) := by
  intro (hw : (f.ok) = true) _
  have hx : xFits f.a f.b f.x = true := by simp_all [L3.ok]
  exact of_parts (i := .bfi f) (p := ⟨false, 0x07, f.d, f.a, f.b, fhn 2 f.h f.n⟩) (es := extX f.a f.b f.x) rfl
    (by simp [Prim.extCount, Prim.extKind]) (by simp)
    (by simp [decodeParts, decodeLane, lane07, Prim.fn, Prim.h, Prim.n, withX_extX _ _ _ _ _ _ _ _ hx])

theorem popc (f : L2) : Statement (.popc f) := by
  intro (hw : (f.ok) = true) _
  exact of_parts (i := .popc f) (p := ⟨false, 0x08, f.d, f.a, z7, fhn 0 f.h f.n⟩) (es := []) rfl
    (by simp [Prim.extCount, Prim.extKind]) (by simp)
    (by simp [decodeParts, decodeLane, lane08, Prim.fn, Prim.h, Prim.n, onlyIf])

theorem clz (f : L2) : Statement (.clz f) := by
  intro (hw : (f.ok) = true) _
  exact of_parts (i := .clz f) (p := ⟨false, 0x08, f.d, f.a, z7, fhn 1 f.h f.n⟩) (es := []) rfl
    (by simp [Prim.extCount, Prim.extKind]) (by simp)
    (by simp [decodeParts, decodeLane, lane08, Prim.fn, Prim.h, Prim.n, onlyIf])

theorem ctz (f : L2) : Statement (.ctz f) := by
  intro (hw : (f.ok) = true) _
  exact of_parts (i := .ctz f) (p := ⟨false, 0x08, f.d, f.a, z7, fhn 2 f.h f.n⟩) (es := []) rfl
    (by simp [Prim.extCount, Prim.extKind]) (by simp)
    (by simp [decodeParts, decodeLane, lane08, Prim.fn, Prim.h, Prim.n, onlyIf])

theorem brev (f : L2) : Statement (.brev f) := by
  intro (hw : (f.ok) = true) _
  exact of_parts (i := .brev f) (p := ⟨false, 0x08, f.d, f.a, z7, fhn 3 f.h f.n⟩) (es := []) rfl
    (by simp [Prim.extCount, Prim.extKind]) (by simp)
    (by simp [decodeParts, decodeLane, lane08, Prim.fn, Prim.h, Prim.n, onlyIf])

theorem abs (f : L2) : Statement (.abs f) := by
  intro (hw : (f.ok) = true) _
  exact of_parts (i := .abs f) (p := ⟨false, 0x09, f.d, f.a, z7, fhn 0 f.h f.n⟩) (es := []) rfl
    (by simp [Prim.extCount, Prim.extKind]) (by simp)
    (by simp [decodeParts, decodeLane, lane09, Prim.fn, Prim.h, Prim.n, onlyIf])

theorem cmp (f : LCmp) : Statement (.cmp f) := by
  intro (hw : (okCond f.c && xFits f.a f.b f.x) = true) _
  have hx : xFits f.a f.b f.x = true := by simp_all []
  exact of_parts (i := .cmp f) (p := ⟨false, 0x0A, f.p ++ f.c, f.a, f.b, fhn 0 f.h false⟩) (es := extX f.a f.b f.x) rfl
    (by simp [Prim.extCount, Prim.extKind]) (by simp)
    (by simp [decodeParts, decodeLane, lane0A, Prim.fn, Prim.dHi, Prim.dLo, Prim.h, Prim.n, withX_extX _ _ _ _ _ _ _ _ hx])

theorem selLo (f : LSel) : Statement (.selLo f) := by
  intro (hw : (f.d.dstN f.n && xFits f.a f.b f.x) = true) _
  have hx : xFits f.a f.b f.x = true := by simp_all []
  exact of_parts (i := .selLo f) (p := ⟨false, 0x0B, f.d, f.a, f.b, fhn f.p f.h f.n⟩) (es := extX f.a f.b f.x) rfl
    (by simp [Prim.extCount, Prim.extKind]) (by simp)
    (by simp [decodeParts, decodeLane, lane0B, Prim.fn, Prim.h, Prim.n, withX_extX _ _ _ _ _ _ _ _ hx])

theorem selHi (f : LSel) : Statement (.selHi f) := by
  intro (hw : (f.d.dstN f.n && xFits f.a f.b f.x) = true) _
  have hx : xFits f.a f.b f.x = true := by simp_all []
  exact of_parts (i := .selHi f) (p := ⟨false, 0x0C, f.d, f.a, f.b, fhn f.p f.h f.n⟩) (es := extX f.a f.b f.x) rfl
    (by simp [Prim.extCount, Prim.extKind]) (by simp)
    (by simp [decodeParts, decodeLane, lane0C, Prim.fn, Prim.h, Prim.n, withX_extX _ _ _ _ _ _ _ _ hx])

theorem mov (f : LMov) : Statement (.mov f) := by
  intro (hw : (f.d.dstN f.n && (f.a.isX || f.x == 0)) = true) _
  have hx : xFits f.a z7 f.x = true := by simp_all [xFits]
  exact of_parts (i := .mov f) (p := ⟨false, 0x0D, f.d, f.a, z7, fhn 0 f.h f.n⟩) (es := extX f.a z7 f.x) rfl
    (by simp [Prim.extCount, Prim.extKind, Prim.fn]) (by simp)
    (by simp [decodeParts, decodeLane, lane0D, Prim.fn, Prim.h, Prim.n, with1, withW, with2, extW, withX_extX _ _ _ _ _ _ _ _ hx])

theorem movx (f : LMovx) : Statement (.movx f) := by
  intro (hw : (f.d.dstN f.n) = true) _
  exact of_parts (i := .movx f) (p := ⟨false, 0x0D, f.d, z7, z7, fhn 1 f.h f.n⟩) (es := [f.imm]) rfl
    (by simp [Prim.extCount, Prim.extKind, Prim.fn]) (by simp)
    (by simp [decodeParts, decodeLane, lane0D, Prim.fn, Prim.h, Prim.n, with1, withW, with2, extW])

theorem movxW (f : LMovxW) : Statement (.movxW f) := by
  intro (hw : (f.d.dstN f.n) = true) _
  exact of_parts (i := .movxW f) (p := ⟨false, 0x0D, f.d, z7, z7, fhn 2 f.h f.n⟩) (es := extW f.imm) rfl
    (by simp [Prim.extCount, Prim.extKind, Prim.fn, extW]) (by simp)
    (by simp [decodeParts, decodeLane, lane0D, Prim.fn, Prim.h, Prim.n, with1, withW, with2, extW])

theorem lea64 (f : N3S) : Statement (.lea64 f) := by
  intro (hw : (f.okLane) = true) _
  have hx : xFits f.a f.b f.x = true := by simp_all [N3S.okLane]
  exact of_parts (i := .lea64 f) (p := ⟨false, 0x0E, f.d, f.a, f.b, fhn f.s false false⟩) (es := extX f.a f.b f.x) rfl
    (by simp [Prim.extCount, Prim.extKind]) (by simp)
    (by simp [decodeParts, decodeLane, lane0E, Prim.fn, Prim.noHN, Prim.h, Prim.n, withX_extX _ _ _ _ _ _ _ _ hx])

theorem pand (f : P3) : Statement (.pand f) := by
  intro hw _
  exact of_parts (i := .pand f) (p := ⟨false, 0x0F, f.p ++ 0#4, f.q ++ 0#4, f.r ++ 0#4, fhn 0 false false⟩) (es := []) rfl
    (by simp [Prim.extCount, Prim.extKind]) (by simp)
    (by simp [decodeParts, decodeLane, lane0F, Prim.fn, Prim.noHN, Prim.dHi, Prim.dLo, Prim.aHi, Prim.aLo, Prim.bHi, Prim.bLo, Prim.h, Prim.n, onlyIf])

theorem por (f : P3) : Statement (.por f) := by
  intro hw _
  exact of_parts (i := .por f) (p := ⟨false, 0x0F, f.p ++ 0#4, f.q ++ 0#4, f.r ++ 0#4, fhn 1 false false⟩) (es := []) rfl
    (by simp [Prim.extCount, Prim.extKind]) (by simp)
    (by simp [decodeParts, decodeLane, lane0F, Prim.fn, Prim.noHN, Prim.dHi, Prim.dLo, Prim.aHi, Prim.aLo, Prim.bHi, Prim.bLo, Prim.h, Prim.n, onlyIf])

theorem pnot (f : P2) : Statement (.pnot f) := by
  intro hw _
  exact of_parts (i := .pnot f) (p := ⟨false, 0x0F, f.p ++ 0#4, f.q ++ 0#4, 0, fhn 2 false false⟩) (es := []) rfl
    (by simp [Prim.extCount, Prim.extKind]) (by simp)
    (by simp [decodeParts, decodeLane, lane0F, Prim.fn, Prim.noHN, Prim.dHi, Prim.dLo, Prim.aHi, Prim.aLo, Prim.bHi, Prim.bLo, Prim.h, Prim.n, onlyIf])

theorem pmov (f : P2) : Statement (.pmov f) := by
  intro hw _
  exact of_parts (i := .pmov f) (p := ⟨false, 0x0F, f.p ++ 0#4, f.q ++ 0#4, 0, fhn 3 false false⟩) (es := []) rfl
    (by simp [Prim.extCount, Prim.extKind]) (by simp)
    (by simp [decodeParts, decodeLane, lane0F, Prim.fn, Prim.noHN, Prim.dHi, Prim.dLo, Prim.aHi, Prim.aLo, Prim.bHi, Prim.bLo, Prim.h, Prim.n, onlyIf])

theorem fadd (f : L3R) : Statement (.fadd f) := by
  intro (hw : (f.ok) = true) _
  have hx : xFits f.a f.b f.x = true := by simp_all [L3R.ok]
  exact of_parts (i := .fadd f) (p := ⟨false, 0x10, f.d, f.a, f.b, fhn f.r f.h f.n⟩) (es := extX f.a f.b f.x) rfl
    (by simp [Prim.extCount, Prim.extKind]) (by simp)
    (by simp [decodeParts, decodeLane, lane10, Prim.fn, Prim.h, Prim.n, withX_extX _ _ _ _ _ _ _ _ hx])

theorem fsub (f : L3R) : Statement (.fsub f) := by
  intro (hw : (f.ok) = true) _
  have hx : xFits f.a f.b f.x = true := by simp_all [L3R.ok]
  exact of_parts (i := .fsub f) (p := ⟨false, 0x11, f.d, f.a, f.b, fhn f.r f.h f.n⟩) (es := extX f.a f.b f.x) rfl
    (by simp [Prim.extCount, Prim.extKind]) (by simp)
    (by simp [decodeParts, decodeLane, lane11, Prim.fn, Prim.h, Prim.n, withX_extX _ _ _ _ _ _ _ _ hx])

theorem fmul (f : L3R) : Statement (.fmul f) := by
  intro (hw : (f.ok) = true) _
  have hx : xFits f.a f.b f.x = true := by simp_all [L3R.ok]
  exact of_parts (i := .fmul f) (p := ⟨false, 0x12, f.d, f.a, f.b, fhn f.r f.h f.n⟩) (es := extX f.a f.b f.x) rfl
    (by simp [Prim.extCount, Prim.extKind]) (by simp)
    (by simp [decodeParts, decodeLane, lane12, Prim.fn, Prim.h, Prim.n, withX_extX _ _ _ _ _ _ _ _ hx])

theorem ffma (f : L3R) : Statement (.ffma f) := by
  intro (hw : (f.ok) = true) _
  have hx : xFits f.a f.b f.x = true := by simp_all [L3R.ok]
  exact of_parts (i := .ffma f) (p := ⟨false, 0x13, f.d, f.a, f.b, fhn f.r f.h f.n⟩) (es := extX f.a f.b f.x) rfl
    (by simp [Prim.extCount, Prim.extKind]) (by simp)
    (by simp [decodeParts, decodeLane, lane13, Prim.fn, Prim.h, Prim.n, withX_extX _ _ _ _ _ _ _ _ hx])

theorem fmin (f : L3) : Statement (.fmin f) := by
  intro (hw : (f.ok) = true) _
  have hx : xFits f.a f.b f.x = true := by simp_all [L3.ok]
  exact of_parts (i := .fmin f) (p := ⟨false, 0x14, f.d, f.a, f.b, fhn 0 f.h f.n⟩) (es := extX f.a f.b f.x) rfl
    (by simp [Prim.extCount, Prim.extKind]) (by simp)
    (by simp [decodeParts, decodeLane, lane14, Prim.fn, Prim.h, Prim.n, withX_extX _ _ _ _ _ _ _ _ hx])

theorem fmax (f : L3) : Statement (.fmax f) := by
  intro (hw : (f.ok) = true) _
  have hx : xFits f.a f.b f.x = true := by simp_all [L3.ok]
  exact of_parts (i := .fmax f) (p := ⟨false, 0x14, f.d, f.a, f.b, fhn 1 f.h f.n⟩) (es := extX f.a f.b f.x) rfl
    (by simp [Prim.extCount, Prim.extKind]) (by simp)
    (by simp [decodeParts, decodeLane, lane14, Prim.fn, Prim.h, Prim.n, withX_extX _ _ _ _ _ _ _ _ hx])

theorem fcmp (f : LCmp) : Statement (.fcmp f) := by
  intro (hw : (f.c.toNat ≤ 7 && xFits f.a f.b f.x) = true) _
  have hx : xFits f.a f.b f.x = true := by simp_all []
  exact of_parts (i := .fcmp f) (p := ⟨false, 0x15, f.p ++ f.c, f.a, f.b, fhn 0 f.h false⟩) (es := extX f.a f.b f.x) rfl
    (by simp [Prim.extCount, Prim.extKind]) (by simp)
    (by simp [decodeParts, decodeLane, lane15, Prim.fn, Prim.dHi, Prim.dLo, Prim.h, Prim.n, withX_extX _ _ _ _ _ _ _ _ hx])

theorem frcp (f : L2R) : Statement (.frcp f) := by
  intro (hw : (f.ok) = true) _
  exact of_parts (i := .frcp f) (p := ⟨false, 0x16, f.d, f.a, z7, fhn f.r f.h f.n⟩) (es := []) rfl
    (by simp [Prim.extCount, Prim.extKind]) (by simp)
    (by simp [decodeParts, decodeLane, lane16, Prim.fn, Prim.h, Prim.n, onlyIf])

theorem frsq (f : L2R) : Statement (.frsq f) := by
  intro (hw : (f.ok) = true) _
  exact of_parts (i := .frsq f) (p := ⟨false, 0x17, f.d, f.a, z7, fhn f.r f.h f.n⟩) (es := []) rfl
    (by simp [Prim.extCount, Prim.extKind]) (by simp)
    (by simp [decodeParts, decodeLane, lane17, Prim.fn, Prim.h, Prim.n, onlyIf])

theorem fsqrt (f : L2R) : Statement (.fsqrt f) := by
  intro (hw : (f.ok) = true) _
  exact of_parts (i := .fsqrt f) (p := ⟨false, 0x18, f.d, f.a, z7, fhn f.r f.h f.n⟩) (es := []) rfl
    (by simp [Prim.extCount, Prim.extKind]) (by simp)
    (by simp [decodeParts, decodeLane, lane18, Prim.fn, Prim.h, Prim.n, onlyIf])

theorem fexp2 (f : L2R) : Statement (.fexp2 f) := by
  intro (hw : (f.ok) = true) _
  exact of_parts (i := .fexp2 f) (p := ⟨false, 0x19, f.d, f.a, z7, fhn f.r f.h f.n⟩) (es := []) rfl
    (by simp [Prim.extCount, Prim.extKind]) (by simp)
    (by simp [decodeParts, decodeLane, lane19, Prim.fn, Prim.h, Prim.n, onlyIf])

theorem flog2 (f : L2R) : Statement (.flog2 f) := by
  intro (hw : (f.ok) = true) _
  exact of_parts (i := .flog2 f) (p := ⟨false, 0x1A, f.d, f.a, z7, fhn f.r f.h f.n⟩) (es := []) rfl
    (by simp [Prim.extCount, Prim.extKind]) (by simp)
    (by simp [decodeParts, decodeLane, lane1A, Prim.fn, Prim.h, Prim.n, onlyIf])

theorem hadd2F16 (f : L3) : Statement (.hadd2F16 f) := by
  intro (hw : (f.ok) = true) _
  have hx : xFits f.a f.b f.x = true := by simp_all [L3.ok]
  exact of_parts (i := .hadd2F16 f) (p := ⟨false, 0x1B, f.d, f.a, f.b, fhn 0 f.h f.n⟩) (es := extX f.a f.b f.x) rfl
    (by simp [Prim.extCount, Prim.extKind]) (by simp)
    (by simp [decodeParts, decodeLane, lane1B, Prim.fn, Prim.h, Prim.n, withX_extX _ _ _ _ _ _ _ _ hx])

theorem hmul2F16 (f : L3) : Statement (.hmul2F16 f) := by
  intro (hw : (f.ok) = true) _
  have hx : xFits f.a f.b f.x = true := by simp_all [L3.ok]
  exact of_parts (i := .hmul2F16 f) (p := ⟨false, 0x1B, f.d, f.a, f.b, fhn 1 f.h f.n⟩) (es := extX f.a f.b f.x) rfl
    (by simp [Prim.extCount, Prim.extKind]) (by simp)
    (by simp [decodeParts, decodeLane, lane1B, Prim.fn, Prim.h, Prim.n, withX_extX _ _ _ _ _ _ _ _ hx])

theorem hadd2Bf16 (f : L3) : Statement (.hadd2Bf16 f) := by
  intro (hw : (f.ok) = true) _
  have hx : xFits f.a f.b f.x = true := by simp_all [L3.ok]
  exact of_parts (i := .hadd2Bf16 f) (p := ⟨false, 0x1B, f.d, f.a, f.b, fhn 2 f.h f.n⟩) (es := extX f.a f.b f.x) rfl
    (by simp [Prim.extCount, Prim.extKind]) (by simp)
    (by simp [decodeParts, decodeLane, lane1B, Prim.fn, Prim.h, Prim.n, withX_extX _ _ _ _ _ _ _ _ hx])

theorem hmul2Bf16 (f : L3) : Statement (.hmul2Bf16 f) := by
  intro (hw : (f.ok) = true) _
  have hx : xFits f.a f.b f.x = true := by simp_all [L3.ok]
  exact of_parts (i := .hmul2Bf16 f) (p := ⟨false, 0x1B, f.d, f.a, f.b, fhn 3 f.h f.n⟩) (es := extX f.a f.b f.x) rfl
    (by simp [Prim.extCount, Prim.extKind]) (by simp)
    (by simp [decodeParts, decodeLane, lane1B, Prim.fn, Prim.h, Prim.n, withX_extX _ _ _ _ _ _ _ _ hx])

theorem hfma2F16 (f : L3) : Statement (.hfma2F16 f) := by
  intro (hw : (f.ok) = true) _
  have hx : xFits f.a f.b f.x = true := by simp_all [L3.ok]
  exact of_parts (i := .hfma2F16 f) (p := ⟨false, 0x1C, f.d, f.a, f.b, fhn 0 f.h f.n⟩) (es := extX f.a f.b f.x) rfl
    (by simp [Prim.extCount, Prim.extKind]) (by simp)
    (by simp [decodeParts, decodeLane, lane1C, Prim.fn, Prim.h, Prim.n, withX_extX _ _ _ _ _ _ _ _ hx])

theorem hfma2Bf16 (f : L3) : Statement (.hfma2Bf16 f) := by
  intro (hw : (f.ok) = true) _
  have hx : xFits f.a f.b f.x = true := by simp_all [L3.ok]
  exact of_parts (i := .hfma2Bf16 f) (p := ⟨false, 0x1C, f.d, f.a, f.b, fhn 2 f.h f.n⟩) (es := extX f.a f.b f.x) rfl
    (by simp [Prim.extCount, Prim.extKind]) (by simp)
    (by simp [decodeParts, decodeLane, lane1C, Prim.fn, Prim.h, Prim.n, withX_extX _ _ _ _ _ _ _ _ hx])

theorem dadd (f : N3R) : Statement (.dadd f) := by
  intro (hw : (f.ok) = true) _
  exact of_parts (i := .dadd f) (p := ⟨false, 0x1D, f.d, f.a, f.b, fhn f.r false false⟩) (es := []) rfl
    (by simp [Prim.extCount, Prim.extKind]) (by simp)
    (by simp [decodeParts, decodeLane, lane1D, Prim.fn, Prim.noHN, Prim.h, Prim.n, onlyIf])

theorem dmul (f : N3R) : Statement (.dmul f) := by
  intro (hw : (f.ok) = true) _
  exact of_parts (i := .dmul f) (p := ⟨false, 0x1E, f.d, f.a, f.b, fhn f.r false false⟩) (es := []) rfl
    (by simp [Prim.extCount, Prim.extKind]) (by simp)
    (by simp [decodeParts, decodeLane, lane1E, Prim.fn, Prim.noHN, Prim.h, Prim.n, onlyIf])

theorem dfma (f : N3R) : Statement (.dfma f) := by
  intro (hw : (f.ok) = true) _
  exact of_parts (i := .dfma f) (p := ⟨false, 0x1F, f.d, f.a, f.b, fhn f.r false false⟩) (es := []) rfl
    (by simp [Prim.extCount, Prim.extKind]) (by simp)
    (by simp [decodeParts, decodeLane, lane1F, Prim.fn, Prim.noHN, Prim.h, Prim.n, onlyIf])

theorem cvt (f : CvtF) : Statement (.cvt f) := by
  intro (hw : (f.ok) = true) _
  exact of_parts (i := .cvt f) (p := ⟨false, 0x20, f.d, f.a, z7, fhn 0 f.h f.n⟩) (es := [f.src ++ f.dst ++ f.rm ++ 0#18]) rfl
    (by simp [Prim.extCount, Prim.extKind, Prim.fn]) (by simp)
    (by simp [decodeParts, decodeLane, lane20, Prim.fn, Prim.noHN, Prim.h, Prim.n, onlyIf, with1])

theorem cvtD8x4 (f : N2) : Statement (.cvtD8x4 f) := by
  intro (hw : (f.d.dst && f.a.quadV) = true) _
  exact of_parts (i := .cvtD8x4 f) (p := ⟨false, 0x20, f.d, f.a, z7, fhn 1 false false⟩) (es := []) rfl
    (by simp [Prim.extCount, Prim.extKind, Prim.fn]) (by simp)
    (by simp [decodeParts, decodeLane, lane20, Prim.fn, Prim.noHN, Prim.h, Prim.n, onlyIf, with1])

theorem cvtF32x4 (f : N2) : Statement (.cvtF32x4 f) := by
  intro (hw : (f.d.quadV && f.a.laneSrc) = true) _
  exact of_parts (i := .cvtF32x4 f) (p := ⟨false, 0x20, f.d, f.a, z7, fhn 2 false false⟩) (es := []) rfl
    (by simp [Prim.extCount, Prim.extKind, Prim.fn]) (by simp)
    (by simp [decodeParts, decodeLane, lane20, Prim.fn, Prim.noHN, Prim.h, Prim.n, onlyIf, with1])

theorem shflIdx (f : ShflF) : Statement (.shflIdx f) := by
  intro (hw : (f.ok) = true) _
  exact of_parts (i := .shflIdx f) (p := ⟨false, 0x21, f.d, f.a, f.b, fhn 0 f.h f.n⟩) (es := [f.fill ++ 0#21]) rfl
    (by simp [Prim.extCount, Prim.extKind]) (by simp)
    (by simp [decodeParts, decodeLane, lane21, Prim.fn, Prim.h, Prim.n, with1])

theorem shflUp (f : ShflF) : Statement (.shflUp f) := by
  intro (hw : (f.ok) = true) _
  exact of_parts (i := .shflUp f) (p := ⟨false, 0x21, f.d, f.a, f.b, fhn 1 f.h f.n⟩) (es := [f.fill ++ 0#21]) rfl
    (by simp [Prim.extCount, Prim.extKind]) (by simp)
    (by simp [decodeParts, decodeLane, lane21, Prim.fn, Prim.h, Prim.n, with1])

theorem shflDown (f : ShflF) : Statement (.shflDown f) := by
  intro (hw : (f.ok) = true) _
  exact of_parts (i := .shflDown f) (p := ⟨false, 0x21, f.d, f.a, f.b, fhn 2 f.h f.n⟩) (es := [f.fill ++ 0#21]) rfl
    (by simp [Prim.extCount, Prim.extKind]) (by simp)
    (by simp [decodeParts, decodeLane, lane21, Prim.fn, Prim.h, Prim.n, with1])

theorem shflXor (f : ShflF) : Statement (.shflXor f) := by
  intro (hw : (f.ok) = true) _
  exact of_parts (i := .shflXor f) (p := ⟨false, 0x21, f.d, f.a, f.b, fhn 3 f.h f.n⟩) (es := [f.fill ++ 0#21]) rfl
    (by simp [Prim.extCount, Prim.extKind]) (by simp)
    (by simp [decodeParts, decodeLane, lane21, Prim.fn, Prim.h, Prim.n, with1])

theorem voteAny (f : VoteP) : Statement (.voteAny f) := by
  intro hw _
  exact of_parts (i := .voteAny f) (p := ⟨false, 0x22, f.p ++ 0#4, f.q ++ 0#4, z7, fhn 0 f.h false⟩) (es := []) rfl
    (by simp [Prim.extCount, Prim.extKind]) (by simp)
    (by simp [decodeParts, decodeLane, lane22, Prim.fn, Prim.dHi, Prim.dLo, Prim.aHi, Prim.aLo, Prim.h, Prim.n, onlyIf])

theorem voteAll (f : VoteP) : Statement (.voteAll f) := by
  intro hw _
  exact of_parts (i := .voteAll f) (p := ⟨false, 0x22, f.p ++ 0#4, f.q ++ 0#4, z7, fhn 1 f.h false⟩) (es := []) rfl
    (by simp [Prim.extCount, Prim.extKind]) (by simp)
    (by simp [decodeParts, decodeLane, lane22, Prim.fn, Prim.dHi, Prim.dLo, Prim.aHi, Prim.aLo, Prim.h, Prim.n, onlyIf])

theorem voteBallot (f : VoteB) : Statement (.voteBallot f) := by
  intro (hw : (f.d.dstN f.n) = true) _
  exact of_parts (i := .voteBallot f) (p := ⟨false, 0x22, f.d, f.q ++ 0#4, z7, fhn 2 f.h f.n⟩) (es := []) rfl
    (by simp [Prim.extCount, Prim.extKind]) (by simp)
    (by simp [decodeParts, decodeLane, lane22, Prim.fn, Prim.dHi, Prim.dLo, Prim.aHi, Prim.aLo, Prim.h, Prim.n, onlyIf])

theorem reduxAdd (f : L2) : Statement (.reduxAdd f) := by
  intro (hw : (f.ok) = true) _
  exact of_parts (i := .reduxAdd f) (p := ⟨false, 0x23, f.d, f.a, z7, fhn 0 f.h f.n⟩) (es := []) rfl
    (by simp [Prim.extCount, Prim.extKind]) (by simp)
    (by simp [decodeParts, decodeLane, lane23, Prim.fn, Prim.h, Prim.n, onlyIf])

theorem reduxMin (f : L2) : Statement (.reduxMin f) := by
  intro (hw : (f.ok) = true) _
  exact of_parts (i := .reduxMin f) (p := ⟨false, 0x23, f.d, f.a, z7, fhn 1 f.h f.n⟩) (es := []) rfl
    (by simp [Prim.extCount, Prim.extKind]) (by simp)
    (by simp [decodeParts, decodeLane, lane23, Prim.fn, Prim.h, Prim.n, onlyIf])

theorem reduxMax (f : L2) : Statement (.reduxMax f) := by
  intro (hw : (f.ok) = true) _
  exact of_parts (i := .reduxMax f) (p := ⟨false, 0x23, f.d, f.a, z7, fhn 2 f.h f.n⟩) (es := []) rfl
    (by simp [Prim.extCount, Prim.extKind]) (by simp)
    (by simp [decodeParts, decodeLane, lane23, Prim.fn, Prim.h, Prim.n, onlyIf])

theorem match_ (f : L2) : Statement (.match_ f) := by
  intro (hw : (f.ok) = true) _
  exact of_parts (i := .match_ f) (p := ⟨false, 0x24, f.d, f.a, z7, fhn 0 f.h f.n⟩) (es := []) rfl
    (by simp [Prim.extCount, Prim.extKind]) (by simp)
    (by simp [decodeParts, decodeLane, lane24, Prim.fn, Prim.h, Prim.n, onlyIf])

theorem wBind (f : WBindF) : Statement (.wBind f) := by
  intro (hw : (f.a.pairV && f.b.quadV) = true) _
  exact of_parts (i := .wBind f) (p := ⟨false, 0x25, 14#4 ++ f.k, f.a, f.b, 0⟩) (es := []) rfl
    (by simp [Prim.extCount, Prim.extKind]) (by simp)
    (by simp [decodeParts, decodeLane, lane25, Prim.fn, Prim.noHN, Prim.h, Prim.n, onlyIf])

theorem wSkip (f : WSkipF) : Statement (.wSkip f) := by
  intro (hw : (f.a.isV) = true) _
  exact of_parts (i := .wSkip f) (p := ⟨false, 0x26, 14#4 ++ f.k, f.a, z7, 0⟩) (es := []) rfl
    (by simp [Prim.extCount, Prim.extKind]) (by simp)
    (by simp [decodeParts, decodeLane, lane26, Prim.fn, Prim.noHN, Prim.h, Prim.n, onlyIf])

theorem bw (f : BrF) : Statement (.bw f) := by
  intro hw _
  exact of_parts (i := .bw f) (p := brPrim false 0x27 f.p f.ps f.cp f.off) (es := []) rfl
    (by simp [Prim.extCount, Prim.extKind, brPrim]) (by simp [brPrim])
    (by simp [decodeParts, decodeLane, lane27, Prim.dHi, Prim.ps, Prim.cp, Prim.off, onlyIf, brPrim])

theorem ld (f : MemF) : Statement (.ld f) := by
  intro (hw : (f.okLoad) = true) _
  exact of_parts (i := .ld f) (p := ⟨false, 0x28, f.d, f.a, z7, fhn 0 false false⟩) (es := [f.sb ++ f.scope ++ f.sz ++ f.off]) rfl
    (by simp [Prim.extCount, Prim.extKind]) (by simp)
    (by simp [decodeParts, decodeLane, lane28, Prim.fn, Prim.noHN, Prim.h, Prim.n, with1])

theorem ldNc (f : MemF) : Statement (.ldNc f) := by
  intro (hw : (f.okLoad) = true) _
  exact of_parts (i := .ldNc f) (p := ⟨false, 0x28, f.d, f.a, z7, fhn 1 false false⟩) (es := [f.sb ++ f.scope ++ f.sz ++ f.off]) rfl
    (by simp [Prim.extCount, Prim.extKind]) (by simp)
    (by simp [decodeParts, decodeLane, lane28, Prim.fn, Prim.noHN, Prim.h, Prim.n, with1])

theorem ldByp (f : MemF) : Statement (.ldByp f) := by
  intro (hw : (f.okLoad) = true) _
  exact of_parts (i := .ldByp f) (p := ⟨false, 0x28, f.d, f.a, z7, fhn 2 false false⟩) (es := [f.sb ++ f.scope ++ f.sz ++ f.off]) rfl
    (by simp [Prim.extCount, Prim.extKind]) (by simp)
    (by simp [decodeParts, decodeLane, lane28, Prim.fn, Prim.noHN, Prim.h, Prim.n, with1])

theorem st (f : MemF) : Statement (.st f) := by
  intro (hw : (f.okStore) = true) _
  exact of_parts (i := .st f) (p := ⟨false, 0x29, f.d, f.a, z7, fhn 0 false false⟩) (es := [f.sb ++ f.scope ++ f.sz ++ f.off]) rfl
    (by simp [Prim.extCount, Prim.extKind]) (by simp)
    (by simp [decodeParts, decodeLane, lane29, Prim.fn, Prim.noHN, Prim.h, Prim.n, with1])

theorem stNc (f : MemF) : Statement (.stNc f) := by
  intro (hw : (f.okStore) = true) _
  exact of_parts (i := .stNc f) (p := ⟨false, 0x29, f.d, f.a, z7, fhn 1 false false⟩) (es := [f.sb ++ f.scope ++ f.sz ++ f.off]) rfl
    (by simp [Prim.extCount, Prim.extKind]) (by simp)
    (by simp [decodeParts, decodeLane, lane29, Prim.fn, Prim.noHN, Prim.h, Prim.n, with1])

theorem stByp (f : MemF) : Statement (.stByp f) := by
  intro (hw : (f.okStore) = true) _
  exact of_parts (i := .stByp f) (p := ⟨false, 0x29, f.d, f.a, z7, fhn 2 false false⟩) (es := [f.sb ++ f.scope ++ f.sz ++ f.off]) rfl
    (by simp [Prim.extCount, Prim.extKind]) (by simp)
    (by simp [decodeParts, decodeLane, lane29, Prim.fn, Prim.noHN, Prim.h, Prim.n, with1])

theorem ldAcq (f : MemF) : Statement (.ldAcq f) := by
  intro (hw : (f.okLoad) = true) _
  exact of_parts (i := .ldAcq f) (p := ⟨false, 0x2A, f.d, f.a, z7, fhn 0 false false⟩) (es := [f.sb ++ f.scope ++ f.sz ++ f.off]) rfl
    (by simp [Prim.extCount, Prim.extKind]) (by simp)
    (by simp [decodeParts, decodeLane, lane2A, Prim.fn, Prim.noHN, Prim.h, Prim.n, with1])

theorem stRel (f : MemF) : Statement (.stRel f) := by
  intro (hw : (f.okStore) = true) _
  exact of_parts (i := .stRel f) (p := ⟨false, 0x2A, f.d, f.a, z7, fhn 1 false false⟩) (es := [f.sb ++ f.scope ++ f.sz ++ f.off]) rfl
    (by simp [Prim.extCount, Prim.extKind]) (by simp)
    (by simp [decodeParts, decodeLane, lane2A, Prim.fn, Prim.noHN, Prim.h, Prim.n, with1])

theorem ldProbe (f : ProbeF) : Statement (.ldProbe f) := by
  intro (hw : (f.ok) = true) _
  exact of_parts (i := .ldProbe f) (p := ⟨false, 0x2B, f.d, f.a, f.p ++ 0#4, 0⟩) (es := [f.sb ++ f.scope ++ f.sz ++ f.off]) rfl
    (by simp [Prim.extCount, Prim.extKind]) (by simp)
    (by simp [decodeParts, decodeLane, lane2B, Prim.fn, Prim.noHN, Prim.bHi, Prim.bLo, Prim.h, Prim.n, with1])

theorem gather (f : GatF) : Statement (.gather f) := by
  intro (hw : (f.ok 6) = true) _
  exact of_parts (i := .gather f) (p := ⟨false, 0x2C, f.d, f.a, f.b, fhn 0 false false⟩) (es := [f.sb ++ f.scope ++ f.sz ++ f.rmp ++ f.sh ++ 0#13]) rfl
    (by simp [Prim.extCount, Prim.extKind]) (by simp)
    (by simp [decodeParts, decodeLane, lane2C, Prim.fn, Prim.noHN, Prim.h, Prim.n, with1])

theorem scatter (f : GatF) : Statement (.scatter f) := by
  intro (hw : (f.ok 4) = true) _
  exact of_parts (i := .scatter f) (p := ⟨false, 0x2D, f.d, f.a, f.b, fhn 0 false false⟩) (es := [f.sb ++ f.scope ++ f.sz ++ f.rmp ++ f.sh ++ 0#13]) rfl
    (by simp [Prim.extCount, Prim.extKind]) (by simp)
    (by simp [decodeParts, decodeLane, lane2D, Prim.fn, Prim.noHN, Prim.h, Prim.n, with1])

theorem scatterAdd (f : GatF) : Statement (.scatterAdd f) := by
  intro (hw : (f.okAdd) = true) _
  exact of_parts (i := .scatterAdd f) (p := ⟨false, 0x2D, f.d, f.a, f.b, fhn 1 false false⟩) (es := [f.sb ++ f.scope ++ f.sz ++ f.rmp ++ f.sh ++ 0#13]) rfl
    (by simp [Prim.extCount, Prim.extKind]) (by simp)
    (by simp [decodeParts, decodeLane, lane2D, Prim.fn, Prim.noHN, Prim.h, Prim.n, with1])

theorem atom (f : AtomF) : Statement (.atom f) := by
  intro (hw : (f.ok) = true) _
  have ha : ¬ f.aop = 11#4 := by intro h; simp [AtomF.ok, h] at hw
  exact of_parts (i := .atom f) (p := ⟨false, 0x2E, f.d, f.a, f.b, 0⟩) (es := [f.sb ++ f.scope ++ f.sz ++ f.aop ++ f.off]) rfl
    (by simp [Prim.extCount, Prim.extKind]) (by simp)
    (by simp [decodeParts, decodeLane, lane2E, Prim.fn, Prim.noHN, Prim.h, Prim.n, with1, decodeAtom, ha])

theorem atomFaddOrd (f : OrdF) : Statement (.atomFaddOrd f) := by
  intro (hw : (f.a.pairV && f.b.groupSrc) = true) _
  exact of_parts (i := .atomFaddOrd f) (p := ⟨false, 0x2E, z7, f.a, f.b, 0⟩) (es := [f.sb ++ 0#4 ++ 2#3 ++ 11#4 ++ f.off]) rfl
    (by simp [Prim.extCount, Prim.extKind]) (by simp)
    (by simp [decodeParts, decodeLane, lane2E, Prim.fn, Prim.noHN, Prim.h, Prim.n, with1, decodeAtom])

theorem lds (f : MemF) : Statement (.lds f) := by
  intro (hw : (f.okLds) = true) _
  exact of_parts (i := .lds f) (p := ⟨false, 0x2F, f.d, f.a, z7, fhn 0 false false⟩) (es := [f.sb ++ f.scope ++ f.sz ++ f.off]) rfl
    (by simp [Prim.extCount, Prim.extKind]) (by simp)
    (by simp [decodeParts, decodeLane, lane2F, Prim.fn, Prim.noHN, Prim.h, Prim.n, with1])

theorem sts (f : MemF) : Statement (.sts f) := by
  intro (hw : (f.okSts) = true) _
  exact of_parts (i := .sts f) (p := ⟨false, 0x2F, f.d, f.a, z7, fhn 1 false false⟩) (es := [f.sb ++ f.scope ++ f.sz ++ f.off]) rfl
    (by simp [Prim.extCount, Prim.extKind]) (by simp)
    (by simp [decodeParts, decodeLane, lane2F, Prim.fn, Prim.noHN, Prim.h, Prim.n, with1])

theorem xst (f : MemF) : Statement (.xst f) := by
  intro (hw : (f.okXst) = true) _
  exact of_parts (i := .xst f) (p := ⟨false, 0x2F, f.d, f.a, z7, fhn 2 false false⟩) (es := [f.sb ++ f.scope ++ f.sz ++ f.off]) rfl
    (by simp [Prim.extCount, Prim.extKind]) (by simp)
    (by simp [decodeParts, decodeLane, lane2F, Prim.fn, Prim.noHN, Prim.h, Prim.n, with1])

theorem waitaEq (f : WaitaF) : Statement (.waitaEq f) := by
  intro (hw : (f.ok) = true) _
  exact of_parts (i := .waitaEq f) (p := ⟨false, 0x30, f.d, f.a, f.b, fhn 0 false false⟩) (es := [f.sb ++ f.scope ++ f.sz ++ f.off]) rfl
    (by simp [Prim.extCount, Prim.extKind]) (by simp)
    (by simp [decodeParts, decodeLane, lane30, Prim.fn, Prim.noHN, Prim.h, Prim.n, with1])

theorem waitaNe (f : WaitaF) : Statement (.waitaNe f) := by
  intro (hw : (f.ok) = true) _
  exact of_parts (i := .waitaNe f) (p := ⟨false, 0x30, f.d, f.a, f.b, fhn 1 false false⟩) (es := [f.sb ++ f.scope ++ f.sz ++ f.off]) rfl
    (by simp [Prim.extCount, Prim.extKind]) (by simp)
    (by simp [decodeParts, decodeLane, lane30, Prim.fn, Prim.noHN, Prim.h, Prim.n, with1])

theorem fence (f : FenceF) : Statement (.fence f) := by
  intro (hw : (okScope f.scope && f.kind.toNat ≤ 2) = true) _
  exact of_parts (i := .fence f) (p := ⟨false, 0x31, f.scope ++ f.kind ++ 0#1, 0, 0, 0⟩) (es := []) rfl
    (by simp [Prim.extCount, Prim.extKind]) (by simp)
    (by simp [decodeParts, decodeLane, lane31, Prim.low18, onlyIf])

theorem pfence (f : PfenceF) : Statement (.pfence f) := by
  intro (hw : (f.f.toNat ≤ 4 && f.t.toNat ≤ 4) = true) _
  exact of_parts (i := .pfence f) (p := ⟨false, 0x32, f.f ++ f.t ++ 0#1, 0, 0, 0⟩) (es := []) rfl
    (by simp [Prim.extCount, Prim.extKind]) (by simp)
    (by simp [decodeParts, decodeLane, lane32, Prim.low18, onlyIf])

theorem spb (f : CacheF) : Statement (.spb f) := by
  intro (hw : (f.a.pairV) = true) _
  exact of_parts (i := .spb f) (p := ⟨false, 0x33, z7, f.a, z7, fhn 0 false false⟩) (es := [f.sb ++ 0#7 ++ f.off]) rfl
    (by simp [Prim.extCount, Prim.extKind]) (by simp)
    (by simp [decodeParts, decodeLane, lane33, Prim.fn, Prim.noHN, Prim.h, Prim.n, with1])

theorem fla (f : CacheF) : Statement (.fla f) := by
  intro (hw : (f.a.pairV) = true) _
  exact of_parts (i := .fla f) (p := ⟨false, 0x33, z7, f.a, z7, fhn 1 false false⟩) (es := [f.sb ++ 0#7 ++ f.off]) rfl
    (by simp [Prim.extCount, Prim.extKind]) (by simp)
    (by simp [decodeParts, decodeLane, lane33, Prim.fn, Prim.noHN, Prim.h, Prim.n, with1])

theorem wb (f : CacheF) : Statement (.wb f) := by
  intro (hw : (f.a.pairV) = true) _
  exact of_parts (i := .wb f) (p := ⟨false, 0x34, z7, f.a, z7, fhn 0 false false⟩) (es := [f.sb ++ 0#7 ++ f.off]) rfl
    (by simp [Prim.extCount, Prim.extKind]) (by simp)
    (by simp [decodeParts, decodeLane, lane34, Prim.fn, Prim.noHN, Prim.h, Prim.n, with1])

theorem inv (f : CacheF) : Statement (.inv f) := by
  intro (hw : (f.a.pairV) = true) _
  exact of_parts (i := .inv f) (p := ⟨false, 0x34, z7, f.a, z7, fhn 1 false false⟩) (es := [f.sb ++ 0#7 ++ f.off]) rfl
    (by simp [Prim.extCount, Prim.extKind]) (by simp)
    (by simp [decodeParts, decodeLane, lane34, Prim.fn, Prim.noHN, Prim.h, Prim.n, with1])

theorem pref (f : CacheF) : Statement (.pref f) := by
  intro (hw : (f.a.pairV) = true) _
  exact of_parts (i := .pref f) (p := ⟨false, 0x34, z7, f.a, z7, fhn 2 false false⟩) (es := [f.sb ++ 0#7 ++ f.off]) rfl
    (by simp [Prim.extCount, Prim.extKind]) (by simp)
    (by simp [decodeParts, decodeLane, lane34, Prim.fn, Prim.noHN, Prim.h, Prim.n, with1])

theorem wsClear (f : WsClrF) : Statement (.wsClear f) := by
  intro (hw : (f.a.pairV && f.b.groupSrc) = true) _
  exact of_parts (i := .wsClear f) (p := ⟨false, 0x35, z7, f.a, f.b, 0⟩) (es := [f.sb ++ 0#7 ++ f.off]) rfl
    (by simp [Prim.extCount, Prim.extKind]) (by simp)
    (by simp [decodeParts, decodeLane, lane35, Prim.fn, Prim.noHN, Prim.h, Prim.n, with1])

theorem redecl (f : RedeclF) : Statement (.redecl f) := by
  intro (hw : (f.ok) = true) _
  exact of_parts (i := .redecl f) (p := ⟨false, 0x38, f.d, f.a, z7, fhn f.f false false⟩) (es := []) rfl
    (by simp [Prim.extCount, Prim.extKind]) (by simp)
    (by simp [decodeParts, decodeLane, lane38, Prim.fn, Prim.noHN, Prim.h, Prim.n, onlyIf])

theorem plc (f : N2) : Statement (.plc f) := by
  intro (hw : (f.d.pairV && f.a.isV) = true) _
  exact of_parts (i := .plc f) (p := ⟨false, 0x39, f.d, f.a, z7, 0⟩) (es := []) rfl
    (by simp [Prim.extCount, Prim.extKind]) (by simp)
    (by simp [decodeParts, decodeLane, lane39, Prim.fn, Prim.noHN, Prim.h, Prim.n, onlyIf])

theorem bra (f : BrF) : Statement (.bra f) := by
  intro hw _
  exact of_parts (i := .bra f) (p := brPrim false 0x3A f.p f.ps f.cp f.off) (es := []) rfl
    (by simp [Prim.extCount, Prim.extKind, brPrim]) (by simp [brPrim])
    (by simp [decodeParts, decodeLane, lane3A, Prim.dHi, Prim.ps, Prim.cp, Prim.off, onlyIf, brPrim])

theorem exit : Statement (.exit) := by
  intro hw _
  exact of_parts (i := .exit) (p := ⟨false, 0x3B, z7, z7, z7, fhn 0 false false⟩) (es := []) rfl
    (by simp [Prim.extCount, Prim.extKind]) (by simp)
    (by simp [decodeParts, decodeLane, lane3B, Prim.fn, Prim.noHN, Prim.allZ, Prim.h, Prim.n, onlyIf])

theorem nop : Statement (.nop) := by
  intro hw _
  exact of_parts (i := .nop) (p := ⟨false, 0x3C, z7, z7, z7, fhn 0 false false⟩) (es := []) rfl
    (by simp [Prim.extCount, Prim.extKind]) (by simp)
    (by simp [decodeParts, decodeLane, lane3C, Prim.fn, Prim.noHN, Prim.allZ, Prim.h, Prim.n, onlyIf])

theorem yield : Statement (.yield) := by
  intro hw _
  exact of_parts (i := .yield) (p := ⟨false, 0x3C, z7, z7, z7, fhn 1 false false⟩) (es := []) rfl
    (by simp [Prim.extCount, Prim.extKind]) (by simp)
    (by simp [decodeParts, decodeLane, lane3C, Prim.fn, Prim.noHN, Prim.allZ, Prim.h, Prim.n, onlyIf])

theorem ret (f : Name) : Statement (.ret f) := by
  intro (hw : (f.pairV) = true) _
  exact of_parts (i := .ret f) (p := ⟨false, 0x3D, z7, f, z7, 0⟩) (es := []) rfl
    (by simp [Prim.extCount, Prim.extKind]) (by simp)
    (by simp [decodeParts, decodeLane, lane3D, Prim.fn, Prim.noHN, Prim.h, Prim.n, onlyIf])

theorem gAdd (f : N3) : Statement (.gAdd f) := by
  intro (hw : (f.okG) = true) _
  have hx : xFits f.a f.b f.x = true := by simp_all [N3.okG]
  exact of_parts (i := .gAdd f) (p := ⟨true, 0x00, f.d, f.a, f.b, 0⟩) (es := extX f.a f.b f.x) rfl
    (by simp [Prim.extCount, Prim.extKind]) (by simp; decide)
    (by simp [decodeParts, decodeGroup, group00, withX_extX _ _ _ _ _ _ _ _ hx])

theorem gSub (f : N3) : Statement (.gSub f) := by
  intro (hw : (f.okG) = true) _
  have hx : xFits f.a f.b f.x = true := by simp_all [N3.okG]
  exact of_parts (i := .gSub f) (p := ⟨true, 0x00, f.d, f.a, f.b, 1⟩) (es := extX f.a f.b f.x) rfl
    (by simp [Prim.extCount, Prim.extKind]) (by simp; decide)
    (by simp [decodeParts, decodeGroup, group00, withX_extX _ _ _ _ _ _ _ _ hx])

theorem gAdd64 (f : N3) : Statement (.gAdd64 f) := by
  intro (hw : (f.ok64) = true) _
  have hx : xFits f.a f.b f.x = true := by simp_all [N3.ok64]
  exact of_parts (i := .gAdd64 f) (p := ⟨true, 0x00, f.d, f.a, f.b, 2⟩) (es := extX f.a f.b f.x) rfl
    (by simp [Prim.extCount, Prim.extKind]) (by simp; decide)
    (by simp [decodeParts, decodeGroup, group00, withX_extX _ _ _ _ _ _ _ _ hx])

theorem gSub64 (f : N3) : Statement (.gSub64 f) := by
  intro (hw : (f.ok64) = true) _
  have hx : xFits f.a f.b f.x = true := by simp_all [N3.ok64]
  exact of_parts (i := .gSub64 f) (p := ⟨true, 0x00, f.d, f.a, f.b, 3⟩) (es := extX f.a f.b f.x) rfl
    (by simp [Prim.extCount, Prim.extKind]) (by simp; decide)
    (by simp [decodeParts, decodeGroup, group00, withX_extX _ _ _ _ _ _ _ _ hx])

theorem gMul (f : N3) : Statement (.gMul f) := by
  intro (hw : (f.okG) = true) _
  have hx : xFits f.a f.b f.x = true := by simp_all [N3.okG]
  exact of_parts (i := .gMul f) (p := ⟨true, 0x01, f.d, f.a, f.b, 0⟩) (es := extX f.a f.b f.x) rfl
    (by simp [Prim.extCount, Prim.extKind]) (by simp; decide)
    (by simp [decodeParts, decodeGroup, group01, withX_extX _ _ _ _ _ _ _ _ hx])

theorem gMulhiS (f : N3) : Statement (.gMulhiS f) := by
  intro (hw : (f.okG) = true) _
  have hx : xFits f.a f.b f.x = true := by simp_all [N3.okG]
  exact of_parts (i := .gMulhiS f) (p := ⟨true, 0x01, f.d, f.a, f.b, 1⟩) (es := extX f.a f.b f.x) rfl
    (by simp [Prim.extCount, Prim.extKind]) (by simp; decide)
    (by simp [decodeParts, decodeGroup, group01, withX_extX _ _ _ _ _ _ _ _ hx])

theorem gMulhiU (f : N3) : Statement (.gMulhiU f) := by
  intro (hw : (f.okG) = true) _
  have hx : xFits f.a f.b f.x = true := by simp_all [N3.okG]
  exact of_parts (i := .gMulhiU f) (p := ⟨true, 0x01, f.d, f.a, f.b, 2⟩) (es := extX f.a f.b f.x) rfl
    (by simp [Prim.extCount, Prim.extKind]) (by simp; decide)
    (by simp [decodeParts, decodeGroup, group01, withX_extX _ _ _ _ _ _ _ _ hx])

theorem gAnd (f : N3) : Statement (.gAnd f) := by
  intro (hw : (f.okG) = true) _
  have hx : xFits f.a f.b f.x = true := by simp_all [N3.okG]
  exact of_parts (i := .gAnd f) (p := ⟨true, 0x02, f.d, f.a, f.b, 0⟩) (es := extX f.a f.b f.x) rfl
    (by simp [Prim.extCount, Prim.extKind]) (by simp; decide)
    (by simp [decodeParts, decodeGroup, group02, withX_extX _ _ _ _ _ _ _ _ hx])

theorem gOr (f : N3) : Statement (.gOr f) := by
  intro (hw : (f.okG) = true) _
  have hx : xFits f.a f.b f.x = true := by simp_all [N3.okG]
  exact of_parts (i := .gOr f) (p := ⟨true, 0x02, f.d, f.a, f.b, 1⟩) (es := extX f.a f.b f.x) rfl
    (by simp [Prim.extCount, Prim.extKind]) (by simp; decide)
    (by simp [decodeParts, decodeGroup, group02, withX_extX _ _ _ _ _ _ _ _ hx])

theorem gXor (f : N3) : Statement (.gXor f) := by
  intro (hw : (f.okG) = true) _
  have hx : xFits f.a f.b f.x = true := by simp_all [N3.okG]
  exact of_parts (i := .gXor f) (p := ⟨true, 0x02, f.d, f.a, f.b, 2⟩) (es := extX f.a f.b f.x) rfl
    (by simp [Prim.extCount, Prim.extKind]) (by simp; decide)
    (by simp [decodeParts, decodeGroup, group02, withX_extX _ _ _ _ _ _ _ _ hx])

theorem gShl (f : N3) : Statement (.gShl f) := by
  intro (hw : (f.okG) = true) _
  have hx : xFits f.a f.b f.x = true := by simp_all [N3.okG]
  exact of_parts (i := .gShl f) (p := ⟨true, 0x03, f.d, f.a, f.b, 0⟩) (es := extX f.a f.b f.x) rfl
    (by simp [Prim.extCount, Prim.extKind]) (by simp; decide)
    (by simp [decodeParts, decodeGroup, group03, withX_extX _ _ _ _ _ _ _ _ hx])

theorem gShr (f : N3) : Statement (.gShr f) := by
  intro (hw : (f.okG) = true) _
  have hx : xFits f.a f.b f.x = true := by simp_all [N3.okG]
  exact of_parts (i := .gShr f) (p := ⟨true, 0x03, f.d, f.a, f.b, 1⟩) (es := extX f.a f.b f.x) rfl
    (by simp [Prim.extCount, Prim.extKind]) (by simp; decide)
    (by simp [decodeParts, decodeGroup, group03, withX_extX _ _ _ _ _ _ _ _ hx])

theorem gSar (f : N3) : Statement (.gSar f) := by
  intro (hw : (f.okG) = true) _
  have hx : xFits f.a f.b f.x = true := by simp_all [N3.okG]
  exact of_parts (i := .gSar f) (p := ⟨true, 0x03, f.d, f.a, f.b, 2⟩) (es := extX f.a f.b f.x) rfl
    (by simp [Prim.extCount, Prim.extKind]) (by simp; decide)
    (by simp [decodeParts, decodeGroup, group03, withX_extX _ _ _ _ _ _ _ _ hx])

theorem gRot (f : N3) : Statement (.gRot f) := by
  intro (hw : (f.okG) = true) _
  have hx : xFits f.a f.b f.x = true := by simp_all [N3.okG]
  exact of_parts (i := .gRot f) (p := ⟨true, 0x03, f.d, f.a, f.b, 3⟩) (es := extX f.a f.b f.x) rfl
    (by simp [Prim.extCount, Prim.extKind]) (by simp; decide)
    (by simp [decodeParts, decodeGroup, group03, withX_extX _ _ _ _ _ _ _ _ hx])

theorem gMinS (f : N3) : Statement (.gMinS f) := by
  intro (hw : (f.okG) = true) _
  have hx : xFits f.a f.b f.x = true := by simp_all [N3.okG]
  exact of_parts (i := .gMinS f) (p := ⟨true, 0x04, f.d, f.a, f.b, 0⟩) (es := extX f.a f.b f.x) rfl
    (by simp [Prim.extCount, Prim.extKind]) (by simp; decide)
    (by simp [decodeParts, decodeGroup, group04, withX_extX _ _ _ _ _ _ _ _ hx])

theorem gMinU (f : N3) : Statement (.gMinU f) := by
  intro (hw : (f.okG) = true) _
  have hx : xFits f.a f.b f.x = true := by simp_all [N3.okG]
  exact of_parts (i := .gMinU f) (p := ⟨true, 0x04, f.d, f.a, f.b, 1⟩) (es := extX f.a f.b f.x) rfl
    (by simp [Prim.extCount, Prim.extKind]) (by simp; decide)
    (by simp [decodeParts, decodeGroup, group04, withX_extX _ _ _ _ _ _ _ _ hx])

theorem gMaxS (f : N3) : Statement (.gMaxS f) := by
  intro (hw : (f.okG) = true) _
  have hx : xFits f.a f.b f.x = true := by simp_all [N3.okG]
  exact of_parts (i := .gMaxS f) (p := ⟨true, 0x04, f.d, f.a, f.b, 2⟩) (es := extX f.a f.b f.x) rfl
    (by simp [Prim.extCount, Prim.extKind]) (by simp; decide)
    (by simp [decodeParts, decodeGroup, group04, withX_extX _ _ _ _ _ _ _ _ hx])

theorem gMaxU (f : N3) : Statement (.gMaxU f) := by
  intro (hw : (f.okG) = true) _
  have hx : xFits f.a f.b f.x = true := by simp_all [N3.okG]
  exact of_parts (i := .gMaxU f) (p := ⟨true, 0x04, f.d, f.a, f.b, 3⟩) (es := extX f.a f.b f.x) rfl
    (by simp [Prim.extCount, Prim.extKind]) (by simp; decide)
    (by simp [decodeParts, decodeGroup, group04, withX_extX _ _ _ _ _ _ _ _ hx])

theorem gCmp (f : GCmp) : Statement (.gCmp f) := by
  intro (hw : (okCond f.c && f.a.groupSrcX && f.b.groupSrcX && xFits f.a f.b f.x) = true) _
  have hx : xFits f.a f.b f.x = true := by simp_all []
  exact of_parts (i := .gCmp f) (p := ⟨true, 0x05, f.p ++ f.c, f.a, f.b, 0⟩) (es := extX f.a f.b f.x) rfl
    (by simp [Prim.extCount, Prim.extKind]) (by simp; decide)
    (by simp [decodeParts, decodeGroup, group05, Prim.dHi, Prim.dLo, withX_extX _ _ _ _ _ _ _ _ hx])

theorem gSel (f : N3P) : Statement (.gSel f) := by
  intro (hw : (f.d.dst && f.a.groupSrcX && f.b.groupSrcX && xFits f.a f.b f.x) = true) _
  have hx : xFits f.a f.b f.x = true := by simp_all []
  exact of_parts (i := .gSel f) (p := ⟨true, 0x06, f.d, f.a, f.b, 0#1 ++ f.p⟩) (es := extX f.a f.b f.x) rfl
    (by simp [Prim.extCount, Prim.extKind]) (by simp; decide)
    (by simp [decodeParts, decodeGroup, group06, withX_extX _ _ _ _ _ _ _ _ hx])

theorem gMov (f : N2X) : Statement (.gMov f) := by
  intro (hw : (f.d.dst && f.a.groupSrcX && (f.a.isX || f.x == 0)) = true) _
  have hx : xFits f.a z7 f.x = true := by simp_all [xFits]
  exact of_parts (i := .gMov f) (p := ⟨true, 0x07, f.d, f.a, z7, 0⟩) (es := extX f.a z7 f.x) rfl
    (by simp [Prim.extCount, Prim.extKind]) (by simp; decide)
    (by simp [decodeParts, decodeGroup, group07, with1, withW, with2, extW, withX_extX _ _ _ _ _ _ _ _ hx])

theorem gMovx (f : GMovx) : Statement (.gMovx f) := by
  intro (hw : (f.d.dst) = true) _
  exact of_parts (i := .gMovx f) (p := ⟨true, 0x07, f.d, z7, z7, 1⟩) (es := [f.imm]) rfl
    (by simp [Prim.extCount, Prim.extKind]) (by simp; decide)
    (by simp [decodeParts, decodeGroup, group07, with1, withW, with2, extW])

theorem gMovxW (f : GMovxW) : Statement (.gMovxW f) := by
  intro (hw : (f.d.dst) = true) _
  exact of_parts (i := .gMovxW f) (p := ⟨true, 0x07, f.d, z7, z7, 2⟩) (es := extW f.imm) rfl
    (by simp [Prim.extCount, Prim.extKind, extW]) (by simp; decide)
    (by simp [decodeParts, decodeGroup, group07, with1, withW, with2, extW])

theorem gBfxU (f : N3) : Statement (.gBfxU f) := by
  intro (hw : (f.okG) = true) _
  have hx : xFits f.a f.b f.x = true := by simp_all [N3.okG]
  exact of_parts (i := .gBfxU f) (p := ⟨true, 0x08, f.d, f.a, f.b, 0⟩) (es := extX f.a f.b f.x) rfl
    (by simp [Prim.extCount, Prim.extKind]) (by simp; decide)
    (by simp [decodeParts, decodeGroup, group08, withX_extX _ _ _ _ _ _ _ _ hx])

theorem gBfxS (f : N3) : Statement (.gBfxS f) := by
  intro (hw : (f.okG) = true) _
  have hx : xFits f.a f.b f.x = true := by simp_all [N3.okG]
  exact of_parts (i := .gBfxS f) (p := ⟨true, 0x08, f.d, f.a, f.b, 1⟩) (es := extX f.a f.b f.x) rfl
    (by simp [Prim.extCount, Prim.extKind]) (by simp; decide)
    (by simp [decodeParts, decodeGroup, group08, withX_extX _ _ _ _ _ _ _ _ hx])

theorem gBfi (f : N3) : Statement (.gBfi f) := by
  intro (hw : (f.okG) = true) _
  have hx : xFits f.a f.b f.x = true := by simp_all [N3.okG]
  exact of_parts (i := .gBfi f) (p := ⟨true, 0x08, f.d, f.a, f.b, 2⟩) (es := extX f.a f.b f.x) rfl
    (by simp [Prim.extCount, Prim.extKind]) (by simp; decide)
    (by simp [decodeParts, decodeGroup, group08, withX_extX _ _ _ _ _ _ _ _ hx])

theorem gLea64 (f : N3S) : Statement (.gLea64 f) := by
  intro (hw : (f.okGroup) = true) _
  have hx : xFits f.a f.b f.x = true := by simp_all [N3S.okGroup]
  exact of_parts (i := .gLea64 f) (p := ⟨true, 0x09, f.d, f.a, f.b, 0#2 ++ f.s⟩) (es := extX f.a f.b f.x) rfl
    (by simp [Prim.extCount, Prim.extKind]) (by simp; decide)
    (by simp [decodeParts, decodeGroup, group09, withX_extX _ _ _ _ _ _ _ _ hx])

theorem gPopc (f : N2) : Statement (.gPopc f) := by
  intro (hw : (f.okG) = true) _
  exact of_parts (i := .gPopc f) (p := ⟨true, 0x0A, f.d, f.a, z7, 0⟩) (es := []) rfl
    (by simp [Prim.extCount, Prim.extKind]) (by simp; decide)
    (by simp [decodeParts, decodeGroup, group0A, onlyIf])

theorem gClz (f : N2) : Statement (.gClz f) := by
  intro (hw : (f.okG) = true) _
  exact of_parts (i := .gClz f) (p := ⟨true, 0x0A, f.d, f.a, z7, 1⟩) (es := []) rfl
    (by simp [Prim.extCount, Prim.extKind]) (by simp; decide)
    (by simp [decodeParts, decodeGroup, group0A, onlyIf])

theorem gCtz (f : N2) : Statement (.gCtz f) := by
  intro (hw : (f.okG) = true) _
  exact of_parts (i := .gCtz f) (p := ⟨true, 0x0A, f.d, f.a, z7, 2⟩) (es := []) rfl
    (by simp [Prim.extCount, Prim.extKind]) (by simp; decide)
    (by simp [decodeParts, decodeGroup, group0A, onlyIf])

theorem gDivS (f : N3) : Statement (.gDivS f) := by
  intro (hw : (f.okG) = true) _
  have hx : xFits f.a f.b f.x = true := by simp_all [N3.okG]
  exact of_parts (i := .gDivS f) (p := ⟨true, 0x0B, f.d, f.a, f.b, 0⟩) (es := extX f.a f.b f.x) rfl
    (by simp [Prim.extCount, Prim.extKind]) (by simp; decide)
    (by simp [decodeParts, decodeGroup, group0B, withX_extX _ _ _ _ _ _ _ _ hx])

theorem gDivU (f : N3) : Statement (.gDivU f) := by
  intro (hw : (f.okG) = true) _
  have hx : xFits f.a f.b f.x = true := by simp_all [N3.okG]
  exact of_parts (i := .gDivU f) (p := ⟨true, 0x0B, f.d, f.a, f.b, 1⟩) (es := extX f.a f.b f.x) rfl
    (by simp [Prim.extCount, Prim.extKind]) (by simp; decide)
    (by simp [decodeParts, decodeGroup, group0B, withX_extX _ _ _ _ _ _ _ _ hx])

theorem gRemS (f : N3) : Statement (.gRemS f) := by
  intro (hw : (f.okG) = true) _
  have hx : xFits f.a f.b f.x = true := by simp_all [N3.okG]
  exact of_parts (i := .gRemS f) (p := ⟨true, 0x0B, f.d, f.a, f.b, 2⟩) (es := extX f.a f.b f.x) rfl
    (by simp [Prim.extCount, Prim.extKind]) (by simp; decide)
    (by simp [decodeParts, decodeGroup, group0B, withX_extX _ _ _ _ _ _ _ _ hx])

theorem gRemU (f : N3) : Statement (.gRemU f) := by
  intro (hw : (f.okG) = true) _
  have hx : xFits f.a f.b f.x = true := by simp_all [N3.okG]
  exact of_parts (i := .gRemU f) (p := ⟨true, 0x0B, f.d, f.a, f.b, 3⟩) (es := extX f.a f.b f.x) rfl
    (by simp [Prim.extCount, Prim.extKind]) (by simp; decide)
    (by simp [decodeParts, decodeGroup, group0B, withX_extX _ _ _ _ _ _ _ _ hx])

theorem jmp (f : BitVec 19) : Statement (.jmp f) := by
  intro hw _
  exact of_parts (i := .jmp f) (p := ⟨true, 0x0C, 0#6 ++ lo f 18 1, lo f 11 7, lo f 4 7, lo f 0 4⟩) (es := []) rfl
    (by simp [Prim.extCount, Prim.extKind]) (by simp; decide)
    (by simp [decodeParts, decodeGroup, group0C, Prim.off, onlyIf])

theorem call (f : CallF) : Statement (.call f) := by
  intro hw _
  exact of_parts (i := .call f) (p := ⟨true, 0x0D, f.l ++ lo f.off 18 1, lo f.off 11 7, lo f.off 4 7, lo f.off 0 4⟩) (es := []) rfl
    (by simp [Prim.extCount, Prim.extKind]) (by simp; decide)
    (by simp [decodeParts, decodeGroup, group0D, Prim.off, onlyIf])

theorem callr (f : N2) : Statement (.callr f) := by
  intro (hw : (f.d.pair && f.a.pair) = true) _
  exact of_parts (i := .callr f) (p := ⟨true, 0x0E, f.d, f.a, z7, 0⟩) (es := []) rfl
    (by simp [Prim.extCount, Prim.extKind]) (by simp; decide)
    (by simp [decodeParts, decodeGroup, group0E, onlyIf])

theorem gbra (f : GBrF) : Statement (.gbra f) := by
  intro hw _
  exact of_parts (i := .gbra f) (p := brPrim true 0x0F f.p f.ps 0 f.off) (es := []) rfl
    (by simp [Prim.extCount, Prim.extKind, brPrim]) (by simp [brPrim]; decide)
    (by simp [decodeParts, decodeGroup, group0F, Prim.dHi, Prim.ps, Prim.cp, Prim.off, onlyIf, brPrim])

theorem ifence : Statement (.ifence) := by
  intro hw _
  exact of_parts (i := .ifence) (p := ⟨true, 0x10, z7, z7, z7, 0⟩) (es := []) rfl
    (by simp [Prim.extCount, Prim.extKind]) (by simp; decide)
    (by simp [decodeParts, decodeGroup, group10, Prim.allZ, onlyIf])

theorem trap (f : BitVec 21) : Statement (.trap f) := by
  intro hw _
  exact of_parts (i := .trap f) (p := ⟨true, 0x14, lo f 14 7, lo f 7 7, lo f 0 7, 0⟩) (es := []) rfl
    (by simp [Prim.extCount, Prim.extKind]) (by simp; decide)
    (by simp [decodeParts, decodeGroup, group14, onlyIf])

theorem sysr (f : NumF) : Statement (.sysr f) := by
  intro (hw : (f.d.isV) = true) _
  exact of_parts (i := .sysr f) (p := ⟨true, 0x15, f.d, lo f.num 7 7, lo f.num 0 7, 0⟩) (es := []) rfl
    (by simp [Prim.extCount, Prim.extKind]) (by simp; decide)
    (by simp [decodeParts, decodeGroup, group15, onlyIf])

theorem sysw (f : NumF) : Statement (.sysw f) := by
  intro (hw : (f.d.isV) = true) _
  exact of_parts (i := .sysw f) (p := ⟨true, 0x16, f.d, lo f.num 7 7, lo f.num 0 7, 0⟩) (es := []) rfl
    (by simp [Prim.extCount, Prim.extKind]) (by simp; decide)
    (by simp [decodeParts, decodeGroup, group16, onlyIf])

theorem eret : Statement (.eret) := by
  intro hw _
  exact of_parts (i := .eret) (p := ⟨true, 0x17, z7, z7, z7, 0⟩) (es := []) rfl
    (by simp [Prim.extCount, Prim.extKind]) (by simp; decide)
    (by simp [decodeParts, decodeGroup, group17, Prim.allZ, onlyIf])

theorem eretSave : Statement (.eretSave) := by
  intro hw _
  exact of_parts (i := .eretSave) (p := ⟨true, 0x17, z7, z7, z7, 1⟩) (es := []) rfl
    (by simp [Prim.extCount, Prim.extKind]) (by simp; decide)
    (by simp [decodeParts, decodeGroup, group17, Prim.allZ, onlyIf])

theorem wait (f : WaitF) : Statement (.wait f) := by
  intro (hw : (f.k != 0 || f.n == 0) = true) _
  exact of_parts (i := .wait f) (p := ⟨true, 0x1C, f.k ++ lo f.n 4 4, lo f.n 0 4 ++ 0#3, 0, 0⟩) (es := []) rfl
    (by simp [Prim.extCount, Prim.extKind]) (by simp; decide)
    (by simp [decodeParts, decodeGroup, group1C, Prim.dHi, Prim.dLo, onlyIf])

theorem barSync (f : BitVec 4) : Statement (.barSync f) := by
  intro hw _
  exact of_parts (i := .barSync f) (p := ⟨true, 0x1D, f ++ 0#3, z7, z7, 0⟩) (es := []) rfl
    (by simp [Prim.extCount, Prim.extKind]) (by simp; decide)
    (by simp [decodeParts, decodeGroup, group1D, onlyIf])

theorem barArrive (f : BitVec 4) : Statement (.barArrive f) := by
  intro hw _
  exact of_parts (i := .barArrive f) (p := ⟨true, 0x1D, f ++ 0#3, z7, z7, 1⟩) (es := []) rfl
    (by simp [Prim.extCount, Prim.extKind]) (by simp; decide)
    (by simp [decodeParts, decodeGroup, group1D, onlyIf])

theorem barSwap (f : BitVec 4) : Statement (.barSwap f) := by
  intro hw _
  exact of_parts (i := .barSwap f) (p := ⟨true, 0x1D, f ++ 0#3, z7, z7, 2⟩) (es := []) rfl
    (by simp [Prim.extCount, Prim.extKind]) (by simp; decide)
    (by simp [decodeParts, decodeGroup, group1D, onlyIf])

theorem join (f : Name) : Statement (.join f) := by
  intro (hw : (f.pair) = true) _
  exact of_parts (i := .join f) (p := ⟨true, 0x1E, z7, f, z7, 0⟩) (es := []) rfl
    (by simp [Prim.extCount, Prim.extKind]) (by simp; decide)
    (by simp [decodeParts, decodeGroup, group1E, onlyIf])

theorem gateAdd (f : ABX) : Statement (.gateAdd f) := by
  intro (hw : (f.a.groupSrcX && f.b.groupSrcX && xFits f.a f.b f.x) = true) _
  have hx : xFits f.a f.b f.x = true := by simp_all []
  exact of_parts (i := .gateAdd f) (p := ⟨true, 0x1F, z7, f.a, f.b, 0⟩) (es := extX f.a f.b f.x) rfl
    (by simp [Prim.extCount, Prim.extKind]) (by simp; decide)
    (by simp [decodeParts, decodeGroup, group1F, withX_extX _ _ _ _ _ _ _ _ hx])

theorem gateWait (f : ABX) : Statement (.gateWait f) := by
  intro (hw : (f.a.groupSrcX && f.b.groupSrcX && xFits f.a f.b f.x) = true) _
  have hx : xFits f.a f.b f.x = true := by simp_all []
  exact of_parts (i := .gateWait f) (p := ⟨true, 0x1F, z7, f.a, f.b, 1⟩) (es := extX f.a f.b f.x) rfl
    (by simp [Prim.extCount, Prim.extKind]) (by simp; decide)
    (by simp [decodeParts, decodeGroup, group1F, withX_extX _ _ _ _ _ _ _ _ hx])

theorem lumPurse (f : Name) : Statement (.lumPurse f) := by
  intro (hw : f.dst = true) _
  exact of_parts (i := .lumPurse f) (p := ⟨true, 0x20, f, z7, z7, 0⟩) (es := []) rfl
    (by simp [Prim.extCount, Prim.extKind]) (by simp; decide)
    (by simp [decodeParts, decodeGroup, group20, onlyIf])

theorem perfRead (f : NumF) : Statement (.perfRead f) := by
  intro (hw : (f.d.pairV) = true) _
  exact of_parts (i := .perfRead f) (p := ⟨true, 0x21, f.d, lo f.num 7 7, lo f.num 0 7, 0⟩) (es := []) rfl
    (by simp [Prim.extCount, Prim.extKind]) (by simp; decide)
    (by simp [decodeParts, decodeGroup, group21, onlyIf])

theorem wdogKick : Statement (.wdogKick) := by
  intro hw _
  exact of_parts (i := .wdogKick) (p := ⟨true, 0x22, z7, z7, z7, 0⟩) (es := []) rfl
    (by simp [Prim.extCount, Prim.extKind]) (by simp; decide)
    (by simp [decodeParts, decodeGroup, group22, Prim.allZ, onlyIf])

theorem patSet (f : AB) : Statement (.patSet f) := by
  intro (hw : (f.a.groupSrc && f.b.pair) = true) _
  exact of_parts (i := .patSet f) (p := ⟨true, 0x24, z7, f.a, f.b, 0⟩) (es := []) rfl
    (by simp [Prim.extCount, Prim.extKind]) (by simp; decide)
    (by simp [decodeParts, decodeGroup, group24, onlyIf])

theorem patInv (f : Name) : Statement (.patInv f) := by
  intro (hw : (f.groupSrc) = true) _
  exact of_parts (i := .patInv f) (p := ⟨true, 0x24, z7, f, z7, 1⟩) (es := []) rfl
    (by simp [Prim.extCount, Prim.extKind]) (by simp; decide)
    (by simp [decodeParts, decodeGroup, group24, onlyIf])

theorem tlook (f : N2) : Statement (.tlook f) := by
  intro (hw : (f.d.dst && f.a.groupSrc) = true) _
  exact of_parts (i := .tlook f) (p := ⟨true, 0x25, f.d, f.a, z7, 0⟩) (es := []) rfl
    (by simp [Prim.extCount, Prim.extKind]) (by simp; decide)
    (by simp [decodeParts, decodeGroup, group25, onlyIf])

theorem tset (f : DAB) : Statement (.tset f) := by
  intro (hw : (f.d.dst && f.a.groupSrc && f.b.groupSrc) = true) _
  exact of_parts (i := .tset f) (p := ⟨true, 0x25, f.d, f.a, f.b, 1⟩) (es := []) rfl
    (by simp [Prim.extCount, Prim.extKind]) (by simp; decide)
    (by simp [decodeParts, decodeGroup, group25, onlyIf])

theorem tclr (f : N2) : Statement (.tclr f) := by
  intro (hw : (f.d.dst && f.a.groupSrc) = true) _
  exact of_parts (i := .tclr f) (p := ⟨true, 0x25, f.d, f.a, z7, 2⟩) (es := []) rfl
    (by simp [Prim.extCount, Prim.extKind]) (by simp; decide)
    (by simp [decodeParts, decodeGroup, group25, onlyIf])

theorem seqLoad (f : Name) : Statement (.seqLoad f) := by
  intro (hw : (f.pair) = true) _
  exact of_parts (i := .seqLoad f) (p := ⟨true, 0x26, z7, f, z7, 0⟩) (es := []) rfl
    (by simp [Prim.extCount, Prim.extKind]) (by simp; decide)
    (by simp [decodeParts, decodeGroup, group26, onlyIf])

theorem remapSet (f : AB) : Statement (.remapSet f) := by
  intro (hw : (f.a.groupSrc && f.b.groupSrc) = true) _
  exact of_parts (i := .remapSet f) (p := ⟨true, 0x27, z7, f.a, f.b, 0⟩) (es := []) rfl
    (by simp [Prim.extCount, Prim.extKind]) (by simp; decide)
    (by simp [decodeParts, decodeGroup, group27, onlyIf])

theorem tlbInv (f : AB) : Statement (.tlbInv f) := by
  intro (hw : (f.a.pair && f.b.groupSrc) = true) _
  exact of_parts (i := .tlbInv f) (p := ⟨true, 0x28, z7, f.a, f.b, 0⟩) (es := []) rfl
    (by simp [Prim.extCount, Prim.extKind]) (by simp; decide)
    (by simp [decodeParts, decodeGroup, group28, onlyIf])

theorem retype (f : AB) : Statement (.retype f) := by
  intro (hw : (f.a.pair && f.b.groupSrc) = true) _
  exact of_parts (i := .retype f) (p := ⟨true, 0x28, z7, f.a, f.b, 1⟩) (es := []) rfl
    (by simp [Prim.extCount, Prim.extKind]) (by simp; decide)
    (by simp [decodeParts, decodeGroup, group28, onlyIf])

theorem priceSet (f : AB) : Statement (.priceSet f) := by
  intro (hw : (f.a.groupSrc && f.b.groupSrc) = true) _
  exact of_parts (i := .priceSet f) (p := ⟨true, 0x28, z7, f.a, f.b, 2⟩) (es := []) rfl
    (by simp [Prim.extCount, Prim.extKind]) (by simp; decide)
    (by simp [decodeParts, decodeGroup, group28, onlyIf])

theorem rgnMake (f : Name) : Statement (.rgnMake f) := by
  intro (hw : (f.pair) = true) _
  exact of_parts (i := .rgnMake f) (p := ⟨true, 0x29, z7, f, z7, 0⟩) (es := []) rfl
    (by simp [Prim.extCount, Prim.extKind]) (by simp; decide)
    (by simp [decodeParts, decodeGroup, group29, onlyIf])

theorem peerMap (f : Name) : Statement (.peerMap f) := by
  intro (hw : (f.pair) = true) _
  exact of_parts (i := .peerMap f) (p := ⟨true, 0x29, z7, f, z7, 1⟩) (es := []) rfl
    (by simp [Prim.extCount, Prim.extKind]) (by simp; decide)
    (by simp [decodeParts, decodeGroup, group29, onlyIf])

theorem spawn (f : N3) : Statement (.spawn f) := by
  intro (hw : (f.d.dst && f.a.pairV && f.b.groupSrcX && xFits f.a f.b f.x) = true) _
  have hx : xFits f.a f.b f.x = true := by simp_all []
  exact of_parts (i := .spawn f) (p := ⟨true, 0x2A, f.d, f.a, f.b, 0⟩) (es := extX f.a f.b f.x) rfl
    (by simp [Prim.extCount, Prim.extKind]) (by simp; decide)
    (by simp [decodeParts, decodeGroup, group2A, withX_extX _ _ _ _ _ _ _ _ hx])

theorem contPush (f : QF) : Statement (.contPush f) := by
  intro (hw : (f.a.pairV && f.b.groupSrc) = true) _
  exact of_parts (i := .contPush f) (p := ⟨true, 0x2B, z7, f.a, f.b, 0⟩) (es := [f.sb ++ 0#25]) rfl
    (by simp [Prim.extCount, Prim.extKind]) (by simp; decide)
    (by simp [decodeParts, decodeGroup, group2B, with1])

theorem ttask (f : TtaskF) : Statement (.ttask f) := by
  intro (hw : (f.a.pairV) = true) _
  exact of_parts (i := .ttask f) (p := ⟨true, 0x2C, z7, f.a, z7, 0⟩) (es := [f.sb ++ 0#25]) rfl
    (by simp [Prim.extCount, Prim.extKind]) (by simp; decide)
    (by simp [decodeParts, decodeGroup, group2C, with1])

theorem ldlCopy (f : QF) : Statement (.ldlCopy f) := by
  intro (hw : (f.a.quadV && f.b.quadV) = true) _
  exact of_parts (i := .ldlCopy f) (p := ⟨true, 0x2D, z7, f.a, f.b, 0⟩) (es := [f.sb ++ 0#25]) rfl
    (by simp [Prim.extCount, Prim.extKind]) (by simp; decide)
    (by simp [decodeParts, decodeGroup, group2D, with1])

theorem ldlFeed (f : FeedF) : Statement (.ldlFeed f) := by
  intro (hw : (f.a.pairV && f.b.pairV) = true) _
  exact of_parts (i := .ldlFeed f) (p := ⟨true, 0x2E, z7, f.a, f.b, 0⟩) (es := [f.sb ++ 0#4 ++ f.pat ++ BitVec.ofBool f.fifo ++ 0#12]) rfl
    (by simp [Prim.extCount, Prim.extKind]) (by simp; decide)
    (by simp [decodeParts, decodeGroup, group2E, with1])

theorem runCopy (f : RunF) : Statement (.runCopy f) := by
  intro (hw : (f.a.quadV && f.b.pairV && okScope f.scope) = true) _
  exact of_parts (i := .runCopy f) (p := ⟨true, 0x2F, z7, f.a, f.b, 0⟩) (es := [f.sb ++ f.scope ++ 0#21]) rfl
    (by simp [Prim.extCount, Prim.extKind]) (by simp; decide)
    (by simp [decodeParts, decodeGroup, group2F, with1])

theorem castFlush : Statement (.castFlush) := by
  intro hw _
  exact of_parts (i := .castFlush) (p := ⟨true, 0x30, z7, z7, z7, 0⟩) (es := []) rfl
    (by simp [Prim.extCount, Prim.extKind]) (by simp; decide)
    (by simp [decodeParts, decodeGroup, group30, Prim.allZ, onlyIf])

theorem mxZero (f : MxZeroF) : Statement (.mxZero f) := by
  intro (hw : (okCb f.cb) = true) _
  exact of_parts (i := .mxZero f) (p := ⟨true, 0x34, z7, z7, z7, 0⟩) (es := [f.sb ++ f.row0 ++ f.cb ++ 0#16]) rfl
    (by simp [Prim.extCount, Prim.extKind]) (by simp; decide)
    (by simp [decodeParts, decodeGroup, group34, Prim.allZ, onlyIf, with1])

theorem mxSync (f : N2) : Statement (.mxSync f) := by
  intro (hw : (f.d.dst && f.a.dst) = true) _
  exact of_parts (i := .mxSync f) (p := ⟨true, 0x34, f.d, f.a, z7, 1⟩) (es := []) rfl
    (by simp [Prim.extCount, Prim.extKind]) (by simp; decide)
    (by simp [decodeParts, decodeGroup, group34, Prim.allZ, onlyIf, with1])

theorem mxGang (f : Name) : Statement (.mxGang f) := by
  intro (hw : (f.dst) = true) _
  exact of_parts (i := .mxGang f) (p := ⟨true, 0x34, z7, f, z7, 2⟩) (es := []) rfl
    (by simp [Prim.extCount, Prim.extKind]) (by simp; decide)
    (by simp [decodeParts, decodeGroup, group34, Prim.allZ, onlyIf, with1])

theorem mxLoad (f : MxLoadF) : Statement (.mxLoad f) := by
  intro (hw : (f.a.pair && okCb f.cb) = true) _
  exact of_parts (i := .mxLoad f) (p := ⟨true, 0x35, z7, f.a, z7, 0⟩) (es := [0#16 ++ f.pc ++ f.sg ++ 0#2, f.sb ++ f.row0 ++ f.cb ++ 0#16]) rfl
    (by simp [Prim.extCount, Prim.extKind]) (by simp; decide)
    (by simp [decodeParts, decodeGroup, group35, with2])

theorem mxMma (f : MxMmaF) : Statement (.mxMma f) := by
  intro (hw : (okCb f.cb) = true) _
  exact of_parts (i := .mxMma f) (p := ⟨true, 0x36, z7, z7, z7, 0⟩) (es := [f.pa ++ f.pb ++ f.pc ++ f.sg ++ 0#2, f.sb ++ f.row0 ++ f.cb ++ f.k ++ 0#4]) rfl
    (by simp [Prim.extCount, Prim.extKind]) (by simp; decide)
    (by simp [decodeParts, decodeGroup, group36, Prim.allZ, with2])

theorem mxSmma (f : MxMmaF) : Statement (.mxSmma f) := by
  intro (hw : (okCb f.cb) = true) _
  exact of_parts (i := .mxSmma f) (p := ⟨true, 0x36, z7, z7, z7, 1⟩) (es := [f.pa ++ f.pb ++ f.pc ++ f.sg ++ 0#2, f.sb ++ f.row0 ++ f.cb ++ f.k ++ 0#4]) rfl
    (by simp [Prim.extCount, Prim.extKind]) (by simp; decide)
    (by simp [decodeParts, decodeGroup, group36, Prim.allZ, with2])

theorem mxStore (f : MxStoreF) : Statement (.mxStore f) := by
  intro (hw : (f.a.pair && okCb f.cb && okEpi f.epi) = true) _
  exact of_parts (i := .mxStore f) (p := ⟨true, 0x37, z7, f.a, z7, 0⟩) (es := [0#16 ++ f.pc ++ f.sg ++ 0#2, f.sb ++ f.row0 ++ f.cb ++ 0#12 ++ f.epi]) rfl
    (by simp [Prim.extCount, Prim.extKind]) (by simp; decide)
    (by simp [decodeParts, decodeGroup, group37, with2])

theorem apertureWrite : Statement .apertureWrite := fun _ h => nomatch h

theorem apertureStagingTransfer : Statement .apertureStagingTransfer := fun _ h => nomatch h

theorem contPop : Statement .contPop := fun _ h => nomatch h

theorem resumePop : Statement .resumePop := fun _ h => nomatch h

theorem recordAgeing : Statement .recordAgeing := fun _ h => nomatch h

theorem contRingPushRetry : Statement .contRingPushRetry := fun _ h => nomatch h

theorem contPushAck : Statement .contPushAck := fun _ h => nomatch h

theorem workgroupFinish : Statement .workgroupFinish := fun _ h => nomatch h

theorem deferredCast : Statement .deferredCast := fun _ h => nomatch h

theorem casterFormGroup : Statement .casterFormGroup := fun _ h => nomatch h

theorem casterTimeout : Statement .casterTimeout := fun _ h => nomatch h

theorem overflowReturn : Statement .overflowReturn := fun _ h => nomatch h

theorem farResult : Statement .farResult := fun _ h => nomatch h

theorem instructionConfirm : Statement .instructionConfirm := fun _ h => nomatch h

theorem heldTrapRecord : Statement .heldTrapRecord := fun _ h => nomatch h

theorem loadDataReturn : Statement .loadDataReturn := fun _ h => nomatch h

theorem storePerformed : Statement .storePerformed := fun _ h => nomatch h

theorem storeErrorResponse : Statement .storeErrorResponse := fun _ h => nomatch h

theorem translationWalk : Statement .translationWalk := fun _ h => nomatch h

theorem peerTranslation : Statement .peerTranslation := fun _ h => nomatch h

theorem residencyExchange : Statement .residencyExchange := fun _ h => nomatch h

theorem residencyTimeout : Statement .residencyTimeout := fun _ h => nomatch h

theorem handlerEntry : Statement .handlerEntry := fun _ h => nomatch h

theorem preq : Statement .preq := fun _ h => nomatch h

theorem trapack : Statement .trapack := fun _ h => nomatch h

theorem referenceTick : Statement .referenceTick := fun _ h => nomatch h

theorem workgroupWdogExpiry : Statement .workgroupWdogExpiry := fun _ h => nomatch h

theorem engineTaskWdogExpiry : Statement .engineTaskWdogExpiry := fun _ h => nomatch h

theorem stewardWdogExpiry : Statement .stewardWdogExpiry := fun _ h => nomatch h

theorem droopReport : Statement .droopReport := fun _ h => nomatch h

theorem droopHoldEnd : Statement .droopHoldEnd := fun _ h => nomatch h

theorem grantLevelChange : Statement .grantLevelChange := fun _ h => nomatch h

theorem revolutionBoundary : Statement .revolutionBoundary := fun _ h => nomatch h

theorem ringCycleDraw : Statement .ringCycleDraw := fun _ h => nomatch h

theorem budgetInterval : Statement .budgetInterval := fun _ h => nomatch h

theorem hotnessIntervalEnd : Statement .hotnessIntervalEnd := fun _ h => nomatch h

theorem completionReport : Statement .completionReport := fun _ h => nomatch h

theorem taskStart : Statement .taskStart := fun _ h => nomatch h

theorem gangReserve : Statement .gangReserve := fun _ h => nomatch h

theorem taskEnd : Statement .taskEnd := fun _ h => nomatch h

theorem sequencerStep : Statement .sequencerStep := fun _ h => nomatch h

theorem engineKgroupStep : Statement .engineKgroupStep := fun _ h => nomatch h

theorem engineSuspend : Statement .engineSuspend := fun _ h => nomatch h

theorem ladleCommandStart : Statement .ladleCommandStart := fun _ h => nomatch h

theorem ladleFeedPush : Statement .ladleFeedPush := fun _ h => nomatch h

theorem copyDoneWrite : Statement .copyDoneWrite := fun _ h => nomatch h

theorem runnerCommandStart : Statement .runnerCommandStart := fun _ h => nomatch h

theorem runnerCommandComplete : Statement .runnerCommandComplete := fun _ h => nomatch h

theorem orderedAddCombine : Statement .orderedAddCombine := fun _ h => nomatch h

theorem waitaSatisfied : Statement .waitaSatisfied := fun _ h => nomatch h

theorem dupInvalidate : Statement .dupInvalidate := fun _ h => nomatch h

theorem dupAck : Statement .dupAck := fun _ h => nomatch h

theorem crossDieWriteReceive : Statement .crossDieWriteReceive := fun _ h => nomatch h

theorem clockBeatReceive : Statement .clockBeatReceive := fun _ h => nomatch h

theorem heldWriteApply : Statement .heldWriteApply := fun _ h => nomatch h

theorem hostWrite : Statement .hostWrite := fun _ h => nomatch h

theorem hostRead : Statement .hostRead := fun _ h => nomatch h

theorem laneLoss : Statement .laneLoss := fun _ h => nomatch h

theorem linkRetrainDone : Statement .linkRetrainDone := fun _ h => nomatch h

theorem dieOffline : Statement .dieOffline := fun _ h => nomatch h

theorem correctedErrorWindow : Statement .correctedErrorWindow := fun _ h => nomatch h

theorem powerLoss : Statement .powerLoss := fun _ h => nomatch h

theorem checkpointComplete : Statement .checkpointComplete := fun _ h => nomatch h

theorem warmReset : Statement .warmReset := fun _ h => nomatch h

theorem coldReset : Statement .coldReset := fun _ h => nomatch h

theorem mailboxCommand : Statement .mailboxCommand := fun _ h => nomatch h

theorem budget : Statement .budget := fun _ h => nomatch h

theorem qen : Statement .qen := fun _ h => nomatch h

theorem ringf : Statement .ringf := fun _ h => nomatch h

theorem clk : Statement .clk := fun _ h => nomatch h

theorem clkApply : Statement .clkApply := fun _ h => nomatch h

theorem dupcmdRegister : Statement .dupcmdRegister := fun _ h => nomatch h

theorem dupcmdWithdraw : Statement .dupcmdWithdraw := fun _ h => nomatch h

theorem spillbase : Statement .spillbase := fun _ h => nomatch h

theorem controlWindowWrite : Statement .controlWindowWrite := fun _ h => nomatch h

theorem heat : Statement .heat := fun _ h => nomatch h

theorem wmap : Statement .wmap := fun _ h => nomatch h

theorem wactive : Statement .wactive := fun _ h => nomatch h

theorem glintRelease : Statement .glintRelease := fun _ h => nomatch h

theorem pstatRead : Statement .pstatRead := fun _ h => nomatch h

theorem wavelengthDegrade : Statement .wavelengthDegrade := fun _ h => nomatch h

theorem flitRetransmit : Statement .flitRetransmit := fun _ h => nomatch h

theorem engineCommandRetire : Statement .engineCommandRetire := fun _ h => nomatch h

theorem xstAccepted : Statement .xstAccepted := fun _ h => nomatch h

theorem lossOfLock : Statement .lossOfLock := fun _ h => nomatch h

theorem warmResetEnd : Statement .warmResetEnd := fun _ h => nomatch h

end Sys2Proof.Laws.RoundTrip

end
end

