-- ==== Sys2Proof/Tests/Slice0.lean ====
section
/-! SUPPORT. Tests: words of the spec's examples decoded, ill-formed terms refused, results of the spec's edge
tables, and for every statement of Certificates/Slice0 states and operands that meet its hypotheses. -/

namespace Sys2Proof.Tests
open Machine
section
set_option Elab.async false
/-- The words decode to the instruction and nothing is left. -/
def reads (ws : List Word) (i : Instr) : Bool :=
  match decodeWords ws with
  | .ok (j, []) => decide (j = i)
  | _ => false

/-- Words that the spec works out beside its statements (R76 to R94). -/
theorem test_decode_1 : ∀ e ∈ ([
    ([0x003050B0], .add { d := 12, a := 10, b := 11, h := false, n := false, x := 0 }),
    ([0x003057F0, 0xFFFFFFFB], .add { d := 12, a := 10, b := 127, h := false, n := false, x := 268435451 }),
    ([0x03E050B1], .mul { d := 120, a := 10, b := 11, h := false, n := true, x := 0 }),
    ([0x0033D0D0], .add { d := 12, a := 122, b := 13, h := false, n := false, x := 0 }),
    ([0x74A0000C], .bra { p := 2, ps := true, cp := 0, off := 12 }),
    ([0x801027F0, 0xF0000040], .gAdd { d := 4, a := 4, b := 127, x := 64 }),
    ([0x50504780, 0xF2080010], .ld { d := 20, a := 8, sb := 1, scope := 0, sz := 2, off := 16 }),
    ([0x0007F824, 0xF0000064], .sub { d := 1, a := 127, b := 2, h := false, n := false, x := 100 }),
    ([0x021C4098], .mulhiU { d := 7, a := 8, b := 9, h := false, n := false, x := 0 }),
    ([0x0450A960], .mad { d := 20, a := 21, b := 22, h := false, n := false, x := 0 }),
    ([0x0E081FF0, 0xF0000804], .bfxU { d := 2, a := 3, b := 127, h := false, n := false, x := 2052 }),
    ([0x10241F80], .popc { d := 9, a := 3, h := false, n := false }),
    ([0x14D82860], .cmp { p := 3, c := 6, a := 5, b := 6, h := false, x := 0 }),
    ([0x182858C4], .selHi { d := 10, a := 11, b := 12, p := 1, h := false, n := false, x := 0 })] : List (List Word × Instr)),
    reads e.1 e.2 = true := by decide

/-- Words that the spec works out beside its statements (R76 to R94). -/
theorem test_decode_2 : ∀ e ∈ ([
    ([0x1A0FC784, 0xFFFE7960], .movx { d := 3, h := false, n := false, imm := 268335456 }),
    ([0x1A0FC788, 0xF9ABCDEF, 0xF0000008], .movxW { d := 3, h := false, n := false, imm := 2309737967 }),
    ([0x1C2030C8], .lea64 { d := 8, a := 6, b := 12, s := 2, x := 0 }),
    ([0x1E410300], .pand { p := 1, q := 2, r := 3 }),
    ([0x8A142050], .gCmp { p := 0, c := 5, a := 4, b := 5, x := 0 }),
    ([0x8C102866], .gSel { d := 4, a := 5, b := 6, p := 6, x := 0 }),
    ([0x8E1BC781, 0xF00003E8], .gMovx { d := 6, imm := 1000 }),
    ([0x20102864], .fadd { d := 4, a := 5, b := 6, r := 1, h := false, n := false, x := 0 }),
    ([0x262048A0], .ffma { d := 8, a := 9, b := 10, r := 0, h := false, n := false, x := 0 }),
    ([0x28041034], .fmax { d := 1, a := 2, b := 3, h := false, n := false, x := 0 }),
    ([0x2A981840], .fcmp { p := 2, c := 6, a := 3, b := 4, h := false, x := 0 }),
    ([0x301C478C], .fsqrt { d := 7, a := 8, r := 3, h := false, n := false }),
    ([0x382858C8], .hfma2Bf16 { d := 10, a := 11, b := 12, h := false, n := false, x := 0 }),
    ([0x3E50B180], .dfma { d := 20, a := 22, b := 24, r := 0 })] : List (List Word × Instr)),
    reads e.1 e.2 = true := by decide

/-- Words that the spec works out beside its statements (R76 to R94). -/
theorem test_decode_3 : ∀ e ∈ ([
    ([0x400C2780, 0xF4040000], .cvt { d := 3, a := 4, h := false, n := false, src := 4, dst := 0, rm := 1 }),
    ([0x40206784], .cvtD8x4 { d := 8, a := 12 }),
    ([0x42143078, 0xFF000000], .shflDown { d := 5, a := 6, b := 7, h := false, n := false, fill := 120 }),
    ([0x44258788], .voteBallot { d := 9, q := 3, h := false, n := false }),
    ([0x46041780], .reduxAdd { d := 1, a := 2, h := false, n := false }),
    ([0x4BC850C0], .wBind { k := 2, a := 10, b := 12 }),
    ([0x4EA7FFFA], .bw { p := 2, ps := true, cp := 0, off := 524282 }),
    ([0x70A0578C], .redecl { d := 40, a := 10, f := 3 }),
    ([0x70A3C780], .redecl { d := 40, a := 120, f := 0 }),
    ([0x72194780], .plc { d := 6, a := 40 }),
    ([0x74480005], .bra { p := 1, ps := false, cp := 1, off := 5 }),
    ([0x77E3C780], .exit),
    ([0x79E3C780], .nop),
    ([0x79E3C784], .yield)] : List (List Word × Instr)),
    reads e.1 e.2 = true := by decide

/-- Words that the spec works out beside its statements (R76 to R94). -/
theorem test_decode_4 : ∀ e ∈ ([
    ([0x7BE01780], .ret 2),
    ([0x9807FFF8], .jmp 524280),
    ([0x9A080400], .call { l := 1, off := 1024 }),
    ([0x9C104780], .callr { d := 4, a := 8 }),
    ([0x9DE01780], .callr { d := 120, a := 2 }),
    ([0x9E200006], .gbra { p := 0, ps := true, off := 6 }),
    ([0xA1E3C780], .ifence),
    ([0xA8000420], .trap 66),
    ([0xA9000010], .trap 1048577),
    ([0xAA240000], .sysr { d := 9, num := 0 }),
    ([0xAA240030], .sysr { d := 9, num := 3 }),
    ([0xAC240000], .sysw { d := 9, num := 0 }),
    ([0xAFE3C780], .eret),
    ([0xAFE3C781], .eretSave)] : List (List Word × Instr)),
    reads e.1 e.2 = true := by decide

/-- Words that the spec works out beside its statements (R76 to R94). -/
theorem test_decode_5 : ∀ e ∈ ([
    ([0xB880C000], .wait { k := 2, n := 3 }),
    ([0xB8000000], .wait { k := 0, n := 0 }),
    ([0xBA63C780], .barSync 3),
    ([0xBA63C781], .barArrive 3),
    ([0xBA03C782], .barSwap 0),
    ([0xBDE02780], .join 4),
    ([0xBFE03070], .gateAdd { a := 6, b := 7, x := 0 }),
    ([0xBFE037F1, 0xF0000005], .gateWait { a := 6, b := 127, x := 5 }),
    ([0xC027C780], .lumPurse 9),
    ([0xC2281050], .perfRead { d := 10, num := 261 }),
    ([0xC5E3C780], .wdogKick),
    ([0xC9E02060], .patSet { a := 4, b := 6 }),
    ([0xC9E02781], .patInv 4),
    ([0xCA245780], .tlook { d := 9, a := 10 })] : List (List Word × Instr)),
    reads e.1 e.2 = true := by decide

/-- Words that the spec works out beside its statements (R76 to R94). -/
theorem test_decode_6 : ∀ e ∈ ([
    ([0xCA2450B1], .tset { d := 9, a := 10, b := 11 }),
    ([0xCA245F82], .tclr { d := 9, a := 11 }),
    ([0xCDE03780], .seqLoad 6),
    ([0xCFE060D0], .remapSet { a := 12, b := 13 }),
    ([0xD1E02060], .tlbInv { a := 4, b := 6 }),
    ([0xD1E02061], .retype { a := 4, b := 6 }),
    ([0xD1E04092], .priceSet { a := 8, b := 9 }),
    ([0xD3E02780], .rgnMake 4),
    ([0xD3E02781], .peerMap 4),
    ([0x50182788, 0xF60C0100], .ldByp { d := 6, a := 4, sb := 3, scope := 0, sz := 3, off := 256 }),
    ([0x5414A784, 0xF4A80008], .stRel { d := 5, a := 20, sb := 2, scope := 5, sz := 2, off := 8 }),
    ([0x56104100, 0xF0100000], .ldProbe { d := 4, a := 8, p := 1, sb := 0, scope := 0, sz := 4, off := 0 }),
    ([0x583041E0, 0xF20A4000], .gather { d := 12, a := 8, b := 30, sb := 1, scope := 0, sz := 2, rmp := 2, sh := 2 }),
    ([0x5A3041E4, 0xF0080000], .scatterAdd { d := 12, a := 8, b := 30, sb := 0, scope := 0, sz := 2, rmp := 0, sh := 0 })] : List (List Word × Instr)),
    reads e.1 e.2 = true := by decide

/-- Words that the spec works out beside its statements (R76 to R94). -/
theorem test_decode_7 : ∀ e ∈ ([
    ([0x5C2840C0, 0xF0AA4000], .atom { d := 10, a := 8, b := 12, sb := 0, scope := 5, sz := 2, aop := 9, off := 0 }),
    ([0x5DE04060, 0xF00AC004], .atomFaddOrd { a := 8, b := 6, sb := 0, off := 4 }),
    ([0x5E0C3F80, 0xF0080040], .lds { d := 3, a := 7, sb := 0, scope := 0, sz := 2, off := 64 }),
    ([0x5E103F88, 0xF0100000], .xst { d := 4, a := 7, sb := 0, scope := 0, sz := 4, off := 0 }),
    ([0x602450B0, 0xF0080000], .waitaEq { d := 9, a := 10, b := 11, sb := 0, scope := 0, sz := 2, off := 0 }),
    ([0x62B00000], .fence { scope := 5, kind := 2 }),
    ([0x64080000], .pfence { f := 0, t := 1 }),
    ([0x64980000], .pfence { f := 2, t := 3 }),
    ([0x69E04788, 0xF0000080], .pref { a := 8, sb := 0, off := 128 }),
    ([0x6BE04090, 0xF0000000], .wsClear { a := 8, b := 9, sb := 0, off := 0 }),
    ([0xE9E3C780, 0xF4010000], .mxZero { sb := 2, row0 := 0, cb := 1 }),
    ([0xEDE3C780, 0xF0304054, 0xF2020080], .mxMma { pa := 3, pb := 4, pc := 5, sg := 1, sb := 1, row0 := 0, cb := 2, k := 8 }),
    ([0xEDE3C781, 0xF0304054, 0xF2020080], .mxSmma { pa := 3, pb := 4, pc := 5, sg := 1, sb := 1, row0 := 0, cb := 2, k := 8 }),
    ([0xEBE05780, 0xF0000050, 0xF0000000], .mxLoad { a := 10, pc := 5, sg := 0, sb := 0, row0 := 0, cb := 0 })] : List (List Word × Instr)),
    reads e.1 e.2 = true := by decide

/-- Words that the spec works out beside its statements (R76 to R94). -/
theorem test_decode_8 : ∀ e ∈ ([
    ([0xEFE05780, 0xF0000050, 0xF6000001], .mxStore { a := 10, pc := 5, sg := 0, sb := 3, row0 := 0, cb := 0, epi := 1 }),
    ([0xE827C781], .mxSync { d := 9, a := 120 }),
    ([0xE9E06781], .mxSync { d := 120, a := 12 }),
    ([0xE9E06782], .mxGang 12),
    ([0xD7E02780, 0xF0000000], .contPush { a := 4, b := 120, sb := 0 }),
    ([0xD7E02060, 0xF4000000], .contPush { a := 4, b := 6, sb := 2 }),
    ([0xD4202060], .spawn { d := 8, a := 4, b := 6, x := 0 }),
    ([0xD42027F0, 0xF0000064], .spawn { d := 8, a := 4, b := 127, x := 100 }),
    ([0xD9E02780, 0xF2000000], .ttask { a := 4, sb := 1 }),
    ([0xDBE040C0, 0xF6000000], .ldlCopy { a := 8, b := 12, sb := 3 }),
    ([0xDDE050C0, 0xF000B000], .ldlFeed { a := 10, b := 12, sb := 0, pat := 5, fifo := true }),
    ([0xDFE040C0, 0xF3400000], .runCopy { a := 8, b := 12, sb := 1, scope := 10 })] : List (List Word × Instr)),
    reads e.1 e.2 = true := by decide

/-- R73, R92, R93: an extension word first, an extension word missing, an unassigned OP. -/
theorem test_refuses_extension : decodeWords [0xF0000004] = .error .extensionFirst := by decide
theorem test_refuses_missing : decodeWords [0x003057F0, 0x003057F0] = .error .extensionMissing := by decide
theorem test_refuses_unassigned : decodeWords [0x7E000000] = .error .unassigned := by decide

/-! ### Small states -/

/-- A thread whose LANE names hold `l`. -/
def thr (r : Nat) (l : Tab Word) : Thread := { tid := 100 + r, lane := l, preds := 5 }

/-- A group of workgroup 1 on core 0: threads of rank 0 and 1, one path of both at 0x1000. -/
def grp (a b : Tab Word) : Group :=
  { wg := 1, loc := 0, threads := [(0, thr 0 a), (1, thr 1 b)], paths := [{ pc := 0x1000, mask := 3 }] }

/-- A privileged workgroup of 14 names a block on core 0. -/
def wg1 : Workgroup := { loc := 0, nb := 14, priv := true, scrSize := 4096, clusterMap := 0 }

/-- A state with the group's two threads: the path's turn is next, the purse is full. -/
def two (a b : Tab Word) : State :=
  { wgs := [(1, wg1)], groups := [(2, grp a b)], cores := [(0, { purse := 8192 })], cursor := (2, 0), nextId := 10 }

/-- The issuing path as an instruction of a form meets it. -/
def look (s : State) (i : Instr) (f : Form) : Ctx :=
  let g := (s.group? s.cursor.1).getD { wg := 0, loc := 0 }
  ⟨s.cursor.1, s.cursor.2, g, (g.paths[s.cursor.2]?).getD { pc := 0, mask := 0 }, s.wgOf g, i, f, s.ops⟩

/-- The form is ready. -/
abbrev Rdy (s : State) (i : Instr) (f : Form) : Prop := s.Ready i f (look s i f)

/-- The checks of issue and what it waits for. -/
def may (s : State) (i : Instr) (f : Form) : Bool :=
  let c := look s i f
  (s.ctx? i f).isSome && s.canIssue c && !c.isIll && !((c.f.priv || c.f.privOn c.g c.w) && !c.privileged)
    && decide (s.priceOf c ≤ 8192) && s.badPlace c == 0 && !s.stalls c
    && s.licensed c.g.loc (c.gid + 1) c.w.region (s.priceOf c)
    && s.laneFailsNow c.g.loc == [] && !(s.core c.g.loc).farError

theorem ctx_look {s : State} {i : Instr} {f : Form} (h : (s.ctx? i f).isSome = true) :
    s.ctx? i f = some (look s i f) := by
  unfold State.ctx? look at *
  cases hg : s.group? s.cursor.1 with
  | none => simp [hg] at h
  | some g =>
    cases hp : g.paths[s.cursor.2]? with
    | none => simp [hg, hp] at h
    | some p => simp [hp]

/-- A form that passes the checks is ready. -/
theorem ready {s : State} {i : Instr} {f : Form} (h : may s i f = true) : s.Ready i f (look s i f) := by
  simp only [may, Bool.and_eq_true, Bool.not_eq_true', decide_eq_true_eq, beq_iff_eq] at h
  obtain ⟨⟨⟨⟨⟨⟨⟨⟨⟨a, b⟩, c⟩, d⟩, e⟩, f⟩, g⟩, h⟩, j⟩, k⟩ := h
  exact ⟨ctx_look a, b, c, d, e, f, g, h, j, k⟩

/-! ### Ill-formed terms -/

/-- A lane-set term with the names D, A and B. -/
def l3 (d a b : Name) (n : Bool := false) (x : BitVec 28 := 0) : L3 := { d, a, b, h := false, n, x }

/-- An access term. -/
def mem (d a : Name) (sz : BitVec 3) (scope : BitVec 4 := 0) : MemF := { d, a, sb := 0, scope, sz, off := 0 }

/-- R79, R83, R127, R138: what a destination, a pair, a source and N ask for. -/
theorem test_ill_lane : ∀ i ∈ ([
    .add (l3 121 1 2), .add (l3 112 1 2), .sub (l3 3 1 2 true), .mul (l3 3 1 2 false 5), .fmin (l3 127 1 2),
    .hadd2F16 (l3 122 1 2), .add64 { d := 3, a := 2, b := 4, x := 0 }, .sub64 { d := 4, a := 3, b := 2, x := 0 },
    .popc { d := 3, a := 127, h := false, n := false }, .reduxAdd { d := 121, a := 1, h := false, n := false },
    .cmp { p := 0, c := 10, a := 1, b := 2, h := false, x := 0 },
    .fcmp { p := 0, c := 8, a := 1, b := 2, h := false, x := 0 },
    .selLo { d := 121, a := 1, b := 2, p := 0, h := false, n := false, x := 0 },
    .mov { d := 3, a := 1, h := false, n := false, x := 4 }, .movx { d := 121, h := false, n := false, imm := 0 },
    .movxW { d := 3, h := false, n := true, imm := 0 }, .lea64 { d := 5, a := 2, b := 1, s := 0, x := 0 },
    .fadd { d := 113, a := 1, b := 2, r := 0, h := false, n := false, x := 0 },
    .frcp { d := 3, a := 127, r := 0, h := false, n := false }, .dadd { d := 120, a := 2, b := 4, r := 0 },
    .dfma { d := 4, a := 2, b := 5, r := 0 },
    .cvt { d := 3, a := 1, h := false, n := false, src := 4, dst := 4, rm := 0 },
    .cvt { d := 3, a := 1, h := false, n := false, src := 10, dst := 4, rm := 0 },
    .cvt { d := 3, a := 1, h := false, n := false, src := 5, dst := 4, rm := 0 },
    .cvt { d := 4, a := 1, h := true, n := false, src := 4, dst := 5, rm := 0 },
    .cvtD8x4 { d := 3, a := 2 }, .cvtF32x4 { d := 6, a := 1 },
    .shflIdx { d := 3, a := 1, b := 2, h := false, n := false, fill := 122 },
    .voteBallot { d := 121, q := 0, h := false, n := false }] : List Instr), i.wellFormed = false := by decide

/-- R79, R87, R88, R148, R245, R256 to R264: accesses, walkers, control flow and places. -/
theorem test_ill_access : ∀ i ∈ ([
    .wBind { k := 0, a := 3, b := 4 }, .wBind { k := 0, a := 2, b := 6 }, .wSkip { k := 0, a := 120 },
    .bra { p := 0, ps := true, cp := 2, off := 0 }, .bw { p := 0, ps := true, cp := 3, off := 0 },
    .ld (mem 3 2 7), .ld (mem 3 5 2), .ldNc (mem 3 2 3), .ldAcq (mem 2 4 4), .st (mem 3 2 5), .stRel (mem 3 2 2 11),
    .ldProbe { d := 3, a := 2, p := 0, sb := 0, scope := 0, sz := 5, off := 0 },
    .gather { d := 3, a := 2, b := 1, sb := 0, scope := 0, sz := 2, rmp := 0, sh := 5 },
    .scatter { d := 3, a := 2, b := 122, sb := 0, scope := 0, sz := 2, rmp := 0, sh := 0 },
    .scatterAdd { d := 3, a := 2, b := 1, sb := 0, scope := 0, sz := 1, rmp := 0, sh := 0 },
    .atom { d := 3, a := 2, b := 1, sb := 0, scope := 0, sz := 1, aop := 0, off := 0 },
    .atom { d := 3, a := 2, b := 1, sb := 0, scope := 0, sz := 2, aop := 12, off := 0 },
    .atom { d := 4, a := 2, b := 6, sb := 0, scope := 0, sz := 3, aop := 10, off := 0 },
    .atom { d := 3, a := 2, b := 1, sb := 0, scope := 0, sz := 2, aop := 9, off := 0 },
    .atomFaddOrd { a := 1, b := 2, sb := 0, off := 0 }, .lds (mem 3 122 2), .sts (mem 3 1 2 1), .xst (mem 3 1 1),
    .waitaEq { d := 3, a := 2, b := 1, sb := 0, scope := 0, sz := 1, off := 0 },
    .waitaNe { d := 4, a := 2, b := 5, sb := 0, scope := 0, sz := 3, off := 0 }, .fence { scope := 11, kind := 0 },
    .fence { scope := 0, kind := 3 }, .pfence { f := 5, t := 0 }, .pref { a := 1, sb := 0, off := 0 },
    .wsClear { a := 2, b := 127, sb := 0, off := 0 }, .redecl { d := 120, a := 2, f := 2 },
    .redecl { d := 3, a := 2, f := 0 }, .plc { d := 3, a := 4 }, .ret 120] : List Instr), i.wellFormed = false := by
  decide

/-- R77, R80, R82, R161, R165, R178, R307, R319: group-set and system forms. -/
theorem test_ill_group : ∀ i ∈ ([
    .gAdd { d := 3, a := 112, b := 1, x := 0 }, .gMul { d := 121, a := 1, b := 2, x := 0 },
    .gAdd64 { d := 3, a := 2, b := 4, x := 0 }, .gCmp { p := 0, c := 11, a := 1, b := 2, x := 0 },
    .gSel { d := 3, a := 1, b := 122, p := 0, x := 0 }, .gMov { d := 3, a := 1, x := 7 }, .gMovx { d := 121, imm := 0 },
    .gMovxW { d := 126, imm := 0 }, .gLea64 { d := 4, a := 2, b := 113, s := 0, x := 0 }, .gPopc { d := 3, a := 127 },
    .call { l := 56, off := 0 }, .callr { d := 4, a := 3 }, .sysr { d := 120, num := 0 }, .wait { k := 0, n := 1 },
    .join 3, .gateAdd { a := 122, b := 1, x := 0 }, .lumPurse 112, .perfRead { d := 3, num := 0 },
    .patSet { a := 1, b := 3 }, .patInv 127, .tlook { d := 3, a := 127 }, .tset { d := 3, a := 1, b := 127 },
    .seqLoad 5, .remapSet { a := 122, b := 1 }, .tlbInv { a := 3, b := 1 }, .priceSet { a := 1, b := 127 },
    .spawn { d := 3, a := 5, b := 1, x := 0 }, .contPush { a := 120, b := 1, sb := 0 }, .ttask { a := 5, sb := 0 },
    .ldlCopy { a := 2, b := 4, sb := 0 }, .ldlFeed { a := 2, b := 5, sb := 0, pat := 0, fifo := false },
    .runCopy { a := 4, b := 2, sb := 0, scope := 11 }, .mxZero { sb := 0, row0 := 0, cb := 3 }, .mxSync { d := 121, a := 120 },
    .mxGang 121, .mxLoad { a := 3, pc := 0, sg := 0, sb := 0, row0 := 0, cb := 0 },
    .mxMma { pa := 0, pb := 0, pc := 0, sg := 0, sb := 0, row0 := 0, cb := 3, k := 0 },
    .mxStore { a := 2, pc := 0, sg := 0, sb := 0, row0 := 0, cb := 0, epi := 4 }] : List Instr),
    i.wellFormed = false := by decide

/-- R8, R165, R204, R367: the units that an event may name. -/
theorem test_ill_event : ∀ e ∈ ([
    .apertureWrite 4 0 [], .apertureWrite 0 65536 [0], .contPop 128, .contPop 1024, .contPushAck 6 0, .deferredCast 0 32,
    .farResult 0 32, .loadDataReturn 0 32 0, .translationWalk 6 0 0, .residencyExchange 255 0 0, .preq 4 0,
    .stewardWdogExpiry 3 0, .stewardWdogExpiry 4 4, .droopReport 128, .grantLevelChange 0 15, .grantLevelChange 0 65,
    .completionReport 65536, .ladleCommandStart 0 4, .runnerCommandStart 3 0, .runnerCommandStart 4 5,
    .runnerCommandComplete 6 0 none, .orderedAddCombine 0 64 0, .crossDieWriteReceive 1 1, .clockBeatReceive 6 0,
    .heldWriteApply 6 0, .laneLoss 2 2, .clk 0 32 0, .spillbase 0 128 0, .controlWindowWrite 0 4194304 8 0,
    .heat 0 96 0 0, .heat 0 0 16 0, .wavelengthDegrade 0 0 12, .lossOfLock 0 96 0,
    .completionError 65536, .coldReset { bad := [(0, 0, 32)] }, .coldReset { failed := some ⟨1, 2, 3, 4⟩ }] : List Ev),
    e.wellFormed = false := by decide

/-! ### Forms that are ready -/

/-- What both threads hold: counts and small addresses. -/
def rs : Tab Word :=
  [(1, 5), (2, 0x1000), (4, 0x2000), (6, 3), (8, 0x40), (10, 0x3F800000), (12, 1), (16, 0x2000), (20, 7)]

/-- Two threads with the same registers. -/
def st : State := two rs rs

/-- The member is plain, as a check. -/
def plain (c : Ctx) (t : Thread) : Bool :=
  (c.f.dst.names.all fun n => (placeOf c.w t n).1 == .lane && (moveOf c.ops t.tid n).isNone) && (walkReads c.f t).1.isNone && (walkReads c.f t).2.1.isNone

theorem plain_of {c : Ctx} {t : Thread} (h : plain c t = true) : c.Plain t := by
  simp only [plain, Bool.and_eq_true, List.all_eq_true, beq_iff_eq, Option.isNone_iff_eq_none] at h
  exact ⟨fun n hn => (h.1.1 n hn).1, fun n hn => (h.1.1 n hn).2, h.1.2, h.2⟩

/-- Instructions of a table of forms that issue in a state, every member plain. -/
def meets (fm : Instr → Option Form) (s : State) (l : List Instr) : Bool :=
  l.all fun i => (fm i).elim false fun f => may s i f && (look s i f).threads.all fun e => plain (look s i f) e.2

theorem meets_ready {fm : Instr → Option Form} {s : State} {l : List Instr} (h : meets fm s l = true) :
    ∀ i ∈ l, ∃ f, fm i = some f ∧ s.Ready i f (look s i f) ∧ (look s i f).AllPlain := by
  intro i hi
  have := List.all_eq_true.1 h i hi
  cases hf : fm i with
  | none => simp [hf] at this
  | some f =>
    simp only [hf, Option.elim, Bool.and_eq_true, List.all_eq_true] at this
    exact ⟨f, rfl, ready this.1, fun e he => plain_of (this.2 e he)⟩

/-- A unary term. -/
def l2 (d a : Name) : L2 := { d, a, h := false, n := false }

/-- Terms with a rounding mode. -/
def l3r (d a b : Name) : L3R := { d, a, b, r := 0, h := false, n := false, x := 0 }
def l2r (d a : Name) : L2R := { d, a, r := 1, h := false, n := false }

/-- A group-set term. -/
def n3 (d a b : Name) : N3 := { d, a, b, x := 0 }

theorem ready_int : ∀ i ∈ ([.add (l3 3 1 6), .sub (l3 3 127 1 false 9), .mul (l3 120 1 6 true), .mulhiS (l3 3 1 6),
    .mulhiU (l3 3 1 120), .mad (l3 3 1 6), .divS (l3 3 1 120), .divU (l3 3 1 6), .remS (l3 3 1 6), .remU (l3 3 1 6),
    .minS (l3 3 1 6), .minU (l3 3 1 6), .maxS (l3 3 1 6), .maxU (l3 3 1 6), .and (l3 3 1 6), .or (l3 3 121 6),
    .xor (l3 3 1 6), .shl (l3 3 1 6), .shr (l3 3 1 6), .sar (l3 3 1 6), .rot (l3 3 1 6), .bfxU (l3 3 1 6), .bfxS (l3 3 1 6),
    .bfi (l3 3 1 6), .popc (l2 3 1), .clz (l2 3 1), .ctz (l2 3 120), .brev (l2 3 1), .abs (l2 3 1)] : List Instr),
    ∃ f, intForm i = some f ∧ st.Ready i f (look st i f) ∧ (look st i f).AllPlain := meets_ready (by decide)

theorem ready_addr : ∀ i ∈ ([.add64 (n3 4 2 8), .sub64 (n3 120 2 127), .lea64 { d := 4, a := 2, b := 1, s := 2, x := 0 }]
    : List Instr), ∃ f, addrForm i = some f ∧ st.Ready i f (look st i f) ∧ (look st i f).AllPlain :=
  meets_ready (by decide)

theorem ready_move : ∀ i ∈ ([.mov { d := 3, a := 1, h := false, n := false, x := 0 },
    .movx { d := 3, h := false, n := false, imm := 0xFFFFFFF }, .movxW { d := 3, h := false, n := false, imm := 0x80000000 },
    .selLo { d := 3, a := 1, b := 6, p := 0, h := false, n := false, x := 0 },
    .selHi { d := 3, a := 1, b := 6, p := 3, h := false, n := false, x := 0 }] : List Instr),
    ∃ f, moveForm i = some f ∧ st.Ready i f (look st i f) ∧ (look st i f).AllPlain := meets_ready (by decide)

/-- The form of a predicate instruction. -/
def predForm (i : Instr) : Option Form := (predRule i).map fun r => { predR := [r.2.1, r.2.2.1], predW := [r.1], chain := true }

theorem ready_pred : ∀ i ∈ ([.pand { p := 1, q := 0, r := 2 }, .por { p := 7, q := 7, r := 7 }, .pnot { p := 0, q := 1 },
    .pmov { p := 0, q := 2 }] : List Instr),
    ∃ f, predForm i = some f ∧ st.Ready i f (look st i f) ∧ (look st i f).AllPlain := meets_ready (by decide)

theorem ready_float : ∀ i ∈ ([.fadd (l3r 3 1 10), .fsub (l3r 3 1 10), .fmul (l3r 3 10 10), .ffma (l3r 3 10 10),
    .fmin (l3 3 1 10), .fmax (l3 3 1 10), .hadd2F16 (l3 3 1 10), .hmul2F16 (l3 3 1 10), .hadd2Bf16 (l3 3 1 10),
    .hmul2Bf16 (l3 3 1 10), .hfma2F16 (l3 3 1 10), .hfma2Bf16 (l3 3 1 10), .dadd { d := 4, a := 2, b := 8, r := 3 },
    .dmul { d := 4, a := 2, b := 8, r := 0 }, .dfma { d := 4, a := 2, b := 8, r := 0 }] : List Instr),
    ∃ f, floatForm i = some f ∧ st.Ready i f (look st i f) ∧ (look st i f).AllPlain := meets_ready (by decide)

theorem ready_unary : ∀ i ∈ ([.frcp (l2r 3 10), .frsq (l2r 3 10), .fsqrt (l2r 3 10), .fexp2 (l2r 3 10), .flog2 (l2r 3 120)]
    : List Instr), ∃ f, unaryForm i = some f ∧ st.Ready i f (look st i f) ∧ (look st i f).AllPlain :=
  meets_ready (by decide)

theorem ready_cvt : ∀ i ∈ ([.cvt { d := 3, a := 10, h := false, n := false, src := 4, dst := 0, rm := 1 },
    .cvt { d := 4, a := 1, h := false, n := false, src := 1, dst := 5, rm := 0 }, .cvtD8x4 { d := 3, a := 8 },
    .cvtF32x4 { d := 12, a := 1 }] : List Instr),
    ∃ f, cvtForm i = some f ∧ st.Ready i f (look st i f) ∧ (look st i f).AllPlain := meets_ready (by decide)

theorem ready_cross : ∀ i ∈ ([.shflIdx { d := 3, a := 1, b := 6, h := false, n := false, fill := 120 },
    .shflUp { d := 3, a := 1, b := 12, h := false, n := false, fill := 1 },
    .shflDown { d := 3, a := 1, b := 12, h := false, n := false, fill := 1 },
    .shflXor { d := 3, a := 1, b := 12, h := false, n := false, fill := 1 }, .reduxAdd (l2 3 1), .reduxMin (l2 3 1),
    .reduxMax (l2 3 1), .match_ (l2 3 1), .voteBallot { d := 3, q := 0, h := false, n := false }] : List Instr),
    ∃ f, crossForm i = some f ∧ st.Ready i f (look st i f) ∧ (look st i f).AllPlain := meets_ready (by decide)

theorem ready_intG : ∀ i ∈ ([.gAdd (n3 3 1 6), .gSub (n3 3 1 6), .gAnd (n3 3 1 6), .gOr (n3 3 1 6), .gXor (n3 3 1 6),
    .gShl (n3 3 1 6), .gShr (n3 3 1 6), .gSar (n3 3 1 6), .gRot (n3 3 1 6), .gMinS (n3 3 1 6), .gMinU (n3 3 1 6),
    .gMaxS (n3 3 1 6), .gMaxU (n3 3 1 6), .gMul (n3 3 1 6), .gMulhiS (n3 3 1 6), .gMulhiU (n3 3 1 6), .gBfxU (n3 3 1 6),
    .gBfxS (n3 3 1 6), .gBfi (n3 3 1 6), .gDivS (n3 3 1 120), .gDivU (n3 3 1 6), .gRemS (n3 3 1 6), .gRemU (n3 3 1 6),
    .gPopc { d := 3, a := 1 }, .gClz { d := 3, a := 1 }, .gCtz { d := 3, a := 1 }] : List Instr),
    ∃ f, intFormG i = some f ∧ st.Ready i f (look st i f) ∧ (look st i f).AllPlain := meets_ready (by decide)

theorem ready_addrG : ∀ i ∈ ([.gAdd64 (n3 4 2 8), .gSub64 (n3 4 2 8), .gLea64 { d := 4, a := 2, b := 1, s := 3, x := 0 }]
    : List Instr), ∃ f, addrFormG i = some f ∧ st.Ready i f (look st i f) ∧ (look st i f).AllPlain :=
  meets_ready (by decide)

theorem ready_moveG : ∀ i ∈ ([.gMov { d := 3, a := 1, x := 0 }, .gMovx { d := 3, imm := 1000 },
    .gMovxW { d := 3, imm := 0x89ABCDEF }, .gSel { d := 3, a := 1, b := 6, p := 2, x := 0 }] : List Instr),
    ∃ f, moveFormG i = some f ∧ st.Ready i f (look st i f) ∧ (look st i f).AllPlain := meets_ready (by decide)

theorem ready_access : ∀ i ∈ ([.ld (mem 3 2 2), .ldNc (mem 4 2 3), .ldByp (mem 4 2 4), .ldAcq (mem 3 2 0), .st (mem 3 2 1),
    .stNc (mem 3 2 2), .stByp (mem 3 2 2), .stRel (mem 3 2 2 5), .ldProbe { d := 3, a := 2, p := 1, sb := 0, scope := 0, sz := 2, off := 0 },
    .gather { d := 3, a := 2, b := 1, sb := 0, scope := 0, sz := 2, rmp := 2, sh := 2 },
    .scatter { d := 3, a := 2, b := 1, sb := 0, scope := 0, sz := 2, rmp := 0, sh := 2 },
    .scatterAdd { d := 3, a := 2, b := 1, sb := 0, scope := 0, sz := 2, rmp := 0, sh := 2 },
    .atom { d := 3, a := 2, b := 1, sb := 0, scope := 0, sz := 2, aop := 0, off := 0 },
    .atom { d := 4, a := 2, b := 8, sb := 0, scope := 0, sz := 3, aop := 9, off := 0 },
    .atomFaddOrd { a := 2, b := 1, sb := 0, off := 4 }, .xst (mem 3 8 2), .spb { a := 2, sb := 0, off := 0 },
    .fla { a := 2, sb := 0, off := 0 }, .wb { a := 2, sb := 0, off := 0 }, .inv { a := 2, sb := 0, off := 0 },
    .pref { a := 2, sb := 7, off := 0x20000 }, .wsClear { a := 2, b := 1, sb := 0, off := 0 }] : List Instr),
    ∃ f, accForm i = some f ∧ st.Ready i f (look st i f) ∧ (look st i f).AllPlain := meets_ready (by decide)

theorem ready_one : ∀ i ∈ ([.join 2, .seqLoad 2, .rgnMake 2, .peerMap 2, .patSet { a := 1, b := 2 }, .contPush { a := 8, b := 1, sb := 1 },
    .ttask { a := 8, sb := 2 }] : List Instr),
    ∃ f, oneForm i = some f ∧ st.Ready i f (look st i f) ∧ (look st i f).AllPlain := meets_ready (by decide)

theorem ready_mx : ∀ i ∈ ([.mxZero { sb := 1, row0 := 0, cb := 2 }, .mxLoad { a := 2, pc := 0, sg := 0, sb := 0, row0 := 0, cb := 0 },
    .mxStore { a := 2, pc := 0, sg := 0, sb := 0, row0 := 0, cb := 0, epi := 3 },
    .mxMma { pa := 0, pb := 0, pc := 0, sg := 0, sb := 0, row0 := 0, cb := 0, k := 1 },
    .mxSmma { pa := 0, pb := 0, pc := 0, sg := 0, sb := 0, row0 := 0, cb := 0, k := 1 }, .mxGang 1] : List Instr),
    ∃ f, mxForm i = some f ∧ st.Ready i f (look st i f) ∧ (look st i f).AllPlain := meets_ready (by decide)

/-! ### Results (R118 to R141: the tables "Results at the edges" and the examples of R60, R136, R141) -/

/-- The value that the first thread's name `n` holds after an instruction. -/
def res (i : Instr) (vals : Tab Word) (n : Nat) : Option Word :=
  match exec i (two vals vals) with
  | .next t => t.regAt 2 0 n
  | _ => none

/-- `v1` holds `a` and `v2` holds `b`. -/
def ab (a b : Word) : Tab Word := [(1, a), (2, b)]
def u2 : L2 := { d := 3, a := 1, h := false, n := false }
def u2r (r : BitVec 2) : L2R := { d := 3, a := 1, r, h := false, n := false }
def f3 (r : BitVec 2) : L3R := { d := 3, a := 1, b := 2, r, h := false, n := false, x := 0 }

theorem test_add_wraps : res (.add (l3 3 1 2)) (ab 0x7FFFFFFF 1) 3 = some 0x80000000 := by decide +kernel
theorem test_sub_order : res (.sub (l3 3 127 2 false 100)) (ab 0 7) 3 = some 93 := by decide +kernel
theorem test_mul : res (.mul (l3 3 1 2)) (ab 0x80000000 0xFFFFFFFF) 3 = some 0x80000000 := by decide +kernel
theorem test_mulhi_s : res (.mulhiS (l3 3 1 2)) (ab 0x80000000 0xFFFFFFFF) 3 = some 0 := by decide +kernel
theorem test_mulhi_u : res (.mulhiU (l3 3 1 2)) (ab 0x80000000 0xFFFFFFFF) 3 = some 0x7FFFFFFF := by decide +kernel
theorem test_div_s_overflow : res (.divS (l3 3 1 2)) (ab 0x80000000 0xFFFFFFFF) 3 = some 0x80000000 := by decide +kernel
theorem test_div_s : res (.divS (l3 3 1 2)) (ab 0xFFFFFFF9 2) 3 = some 0xFFFFFFFD := by decide +kernel
theorem test_rem_s_overflow : res (.remS (l3 3 1 2)) (ab 0x80000000 0xFFFFFFFF) 3 = some 0 := by decide +kernel
theorem test_rem_s : res (.remS (l3 3 1 2)) (ab 0xFFFFFFF9 2) 3 = some 0xFFFFFFFF := by decide +kernel
theorem test_div_u_zero : res (.divU (l3 3 1 2)) (ab 0x1234 0) 3 = some 0xFFFFFFFF := by decide +kernel
theorem test_rem_u_zero : res (.remU (l3 3 1 2)) (ab 0x1234 0) 3 = some 0x1234 := by decide +kernel
theorem test_sar_count : res (.sar (l3 3 1 2)) (ab 0x80000010 36) 3 = some 0xF8000001 := by decide +kernel
theorem test_rot : res (.rot (l3 3 1 2)) (ab 0x80000001 1) 3 = some 3 := by decide +kernel
theorem test_min_s : res (.minS (l3 3 1 2)) (ab 0xFFFFFFFF 1) 3 = some 0xFFFFFFFF := by decide +kernel
theorem test_min_u : res (.minU (l3 3 1 2)) (ab 0xFFFFFFFF 1) 3 = some 1 := by decide +kernel
theorem test_bfx_s : res (.bfxS (l3 3 1 2)) (ab 0xF00 0x408) 3 = some 0xFFFFFFFF := by decide +kernel
theorem test_bfi_cut : res (.bfi (l3 3 1 2)) [(1, 5), (2, 0x81C), (3, 0xFFFFFFFF)] 3 = some 0x5FFFFFFF := by decide +kernel
theorem test_clz_zero : res (.clz u2) (ab 0 0) 3 = some 32 := by decide +kernel
theorem test_ctz_zero : res (.ctz u2) (ab 0 0) 3 = some 32 := by decide +kernel
theorem test_brev : res (.brev u2) (ab 1 0) 3 = some 0x80000000 := by decide +kernel
theorem test_abs_wraps : res (.abs u2) (ab 0x80000000 0) 3 = some 0x80000000 := by decide +kernel
theorem test_lea64_s8 : ([4, 5].map (res (.lea64 { d := 4, a := 6, b := 2, s := 3, x := 0 }) [(2, 0xFFFFFFFE), (6, 0xFFFFFFF0), (7, 1)]))
    = [some 0xFFFFFFE0, some 1] := by decide +kernel

/-- R60, R141: 3.7, −0.0042, 12.5 and 0.5 packed; R61: byte 0x80. -/
theorem test_cvt_d8x4 : res (.cvtD8x4 { d := 8, a := 12 }) [(12, 0x406CCCCD), (13, 0xBB89A027), (14, 0x41480000), (15, 0x3F000000)] 8
    = some 0x2E7F8B53 := by decide +kernel
theorem test_cvt_f32x4 : ([16, 17].map (res (.cvtF32x4 { d := 16, a := 8 }) [(8, 0x00008053)])) = [some 0x406B0000, some 0x7FC00000] := by
  decide +kernel

/-- R133: 1 + 2^-24 ties to even; toward plus infinity it is the next value; infinity less infinity is invalid. -/
theorem test_fadd_tie : res (.fadd (f3 0)) (ab 0x3F800000 0x33800000) 3 = some 0x3F800000 := by decide +kernel
theorem test_fadd_up : [1, 2, 3].map (fun r => res (.fadd (f3 r)) (ab 0x3F800000 0x33800000) 3)
    = [some 0x3F800000, some 0x3F800000, some 0x3F800001] := by decide +kernel
theorem test_fsub_inf : res (.fsub (f3 0)) (ab 0x7F800000 0x7F800000) 3 = some 0x7FC00000 := by decide +kernel
/-- R134: −0 lies below +0; a NaN gives the other operand. -/
theorem test_fmin_zero : res (.fmin (l3 3 1 2)) (ab 0 0x80000000) 3 = some 0x80000000 := by decide +kernel
theorem test_fmax_nan : res (.fmax (l3 3 1 2)) (ab 0x7FC00000 0xC0000000) 3 = some 0xC0000000 := by decide +kernel
/-- R136. -/
theorem test_frcp_zero : res (.frcp (u2r 0)) (ab 0x80000000 0) 3 = some 0xFF800000 := by decide +kernel
theorem test_frsq : res (.frsq (u2r 0)) (ab 0x40800000 0) 3 = some 0x3F000000 := by decide +kernel
theorem test_fsqrt_negative : res (.fsqrt (u2r 0)) (ab 0xBF800000 0) 3 = some 0x7FC00000 := by decide +kernel
theorem test_fexp2_overflow : [0, 1].map (fun r => res (.fexp2 (u2r r)) (ab 0x43000000 0) 3) = [some 0x7F800000, some 0x7F7FFFFF] := by decide +kernel
theorem test_flog2 : res (.flog2 (u2r 0)) (ab 0x3E800000 0) 3 = some 0xC0000000 := by decide +kernel

theorem ready_compare : Rdy st (.cmp { p := 3, c := 6, a := 1, b := 6, h := false, x := 0 }) (LCmp.form { p := 3, c := 6, a := 1, b := 6, h := false, x := 0 })
    ∧ Rdy st (.fcmp { p := 2, c := 6, a := 1, b := 10, h := false, x := 0 }) (LCmp.form { p := 2, c := 6, a := 1, b := 10, h := false, x := 0 })
    ∧ Rdy st (.gCmp { p := 0, c := 5, a := 1, b := 6, x := 0 }) (GCmp.form { p := 0, c := 5, a := 1, b := 6, x := 0 }) :=
  ⟨ready (by decide), ready (by decide), ready (by decide)⟩

theorem meets_rounding : fmt32b ∈ [fmt16b, fmtBf16, fmt32b, fmt64b] ∧ 0 < 1 ∧ 0 < 3 := by decide

/-- `v3` of the first thread stands in a slice, `v5` of all in the cluster; walker 0 of both is bound. -/
def st1 : State :=
  let w : Walker := { bound := true, base := 0x2000, e := 2, c0 := 3, s0 := 4 }
  { st with
    wgs := [(1, { wg1 with clusterMap := 0x20 })]
    groups := [(2, { grp rs rs with threads := [
      (0, { thr 0 rs with far := [(3, { place := .slice, unit := 4, anchor := 0x2000, value := 6 })], walkers := [(0, w)] }),
      (1, { thr 1 rs with walkers := [(0, w)] })] })] }

theorem not_plain {c : Ctx} (h : (c.threads.all fun e => plain c e.2) = false) : ¬ c.AllPlain := by
  intro p
  rw [Bool.eq_false_iff] at h
  refine h (List.all_eq_true.2 fun e he => ?_)
  have q := p e he
  simp only [plain, Bool.and_eq_true, List.all_eq_true, beq_iff_eq, Option.isNone_iff_eq_none]
  exact ⟨⟨fun n hn => ⟨q.here n hn, q.unmoved n hn⟩, q.noA⟩, q.noB⟩

theorem meets_in_flight : ∀ i ∈ ([.add (l3 3 1 6), .mul (l3 5 1 6), .divS (l3 4 112 1), .mov { d := 3, a := 1, h := false, n := false, x := 0 }] : List Instr),
    ∃ f, (intForm i = some f ∨ addrForm i = some f ∨ moveForm i = some f ∨ floatForm i = some f ∨ unaryForm i = some f ∨ cvtForm i = some f)
      ∧ Rdy st1 i f ∧ ¬ (look st1 i f).AllPlain := by
  intro i hi
  simp only [List.mem_cons, List.not_mem_nil, or_false] at hi
  rcases hi with rfl | rfl | rfl | rfl
  · exact ⟨_, .inl rfl, ready (by decide), not_plain (by decide)⟩
  · exact ⟨_, .inl rfl, ready (by decide), not_plain (by decide)⟩
  · exact ⟨_, .inl rfl, ready (by decide), not_plain (by decide)⟩
  · exact ⟨_, .inr (.inr (.inl rfl)), ready (by decide), not_plain (by decide)⟩

theorem meets_group_in_flight : ∃ f, intFormG (.gAdd (n3 5 1 6)) = some f ∧ Rdy st1 (.gAdd (n3 5 1 6)) f
    ∧ ∃ e ∈ (look st1 (.gAdd (n3 5 1 6)) f).threads, ((look st1 (.gAdd (n3 5 1 6)) f).execPlace e.2).1 ≠ .lane :=
  ⟨_, rfl, ready (by decide), by decide⟩

/-- A steward core's thread at its turn. -/
def stSteward : State :=
  { groups := [(2, { wg := 0, loc := 1025, steward := true, threads := [(0, thr 0 rs)], paths := [{ pc := 0x1000, mask := 1 }] })],
    cursor := (2, 0), nextId := 10 }

/-- The workgroup has a table for lookups. -/
def stTable : State := { st with wgs := [(1, { wg1 with tbase := some 0 })] }

/-- A table lookup. -/
def gl : Instr := .gather { d := 3, a := 2, b := 1, sb := 0, scope := 0, sz := 2, rmp := 3, sh := 2 }

theorem meets_lookup : ∃ f, accForm gl = some f ∧ Rdy stTable gl f ∧ stTable.stsPending (look stTable gl f) = false :=
  ⟨_, rfl, ready (by decide), by decide⟩

theorem meets_xst : ∃ f, accForm (.xst (mem 3 8 2)) = some f ∧ accReady (.xst (mem 3 8 2)) st (look st (.xst (mem 3 8 2)) f) :=
  ⟨_, rfl, by show ∀ e ∈ _, _; decide⟩

/-- R233: the last word of the workgroup's 4,096 bytes is within its rights. -/
theorem meets_scratchpad : Rdy st (.lds { mem 3 8 2 with off := 4028 }) { cls := 1, dst := Fld.ofSz 2 3, full := (Fld.w 8).names, sb := 0 }
    ∧ Rdy st (.sts { mem 3 8 2 with off := 4028 }) { cls := 1, full := (Fld.w 8).names ++ (Fld.ofSz 2 3).names, outside := true, sb := 0 }
    ∧ ∀ e ∈ (look st (.lds { mem 3 8 2 with off := 4028 }) {}).threads,
      let a := (((look st (.lds { mem 3 8 2 with off := 4028 }) {}).env e).word 8 + wrap32 (BitVec.toInt (4028 : BitVec 18))).toNat
      a % 4 = 0 ∧ a < 2 ^ 21 ∧ scrOk wg1 a 4 = true := ⟨ready (by decide), ready (by decide), by decide⟩

/-- A wait on an address. -/
def wt : WaitaF := { d := 3, a := 2, b := 1, sb := 0, scope := 0, sz := 2, off := 0 }

theorem meets_waita :
    let f : Form := { dst := Fld.ofSz 2 3, full := (Fld.pair 2).names ++ (Fld.w 1).names, sb := 0 }
    Rdy st (.waitaEq wt) f ∧ Rdy st (.waitaNe wt) f
    ∧ (∀ e ∈ (look st (.waitaEq wt) f).threads, isAlias (((look st (.waitaEq wt) f).env e).pair 2 + wrap64 0) = false)
    ∧ (look st (.waitaEq wt) f).threads ≠ [] ∧ st.freeLog 0 ≠ none :=
  ⟨ready (by decide), ready (by decide), by decide, by decide, by decide⟩

theorem meets_votes : Rdy st (.voteAny { p := 1, q := 0, h := false }) { predR := [0], predW := [1], chain := true }
    ∧ Rdy st (.voteAll { p := 1, q := 2, h := false }) { predR := [2], predW := [1], chain := true } :=
  ⟨ready (by decide), ready (by decide)⟩

theorem meets_no_walks : (look st (.reduxAdd (l2 3 1)) ((l2 3 1).form 1 false)).walks = false := by decide

theorem meets_walkers : Rdy st (.wBind { k := 7, a := 2, b := 4 }) { a := .pair 2, b := .quad 4, chain := true }
    ∧ Rdy st1 (.wSkip { k := 0, a := 1 }) { a := .w 1, chain := true }
    ∧ ∀ e ∈ (look st1 (.wSkip { k := 0, a := 1 }) {}).threads, let w : Walker := Tab.getD e.2.walkers 0 {}
      w.bound = true ∧ w.i0.toNat ≤ w.c0.toNat ∧ w.i1.toNat ≤ w.c1.toNat := ⟨ready (by decide), ready (by decide), by decide⟩

theorem meets_transfers : Rdy st (.jmp 0x7FFF8) { group := true }
    ∧ Rdy st (.gbra { p := 0, ps := true, off := 6 }) { group := true, predR := [0] }
    ∧ Rdy st (.call { l := 55, off := 0x400 }) { group := true, dst := .pair 110 }
    ∧ Rdy st (.callr { d := 120, a := 2 }) { group := true, a := .pair 2, dst := .pair 120 }
    ∧ (let v := (look st (.callr { d := 120, a := 2 }) {}).src64 (look st (.callr { d := 120, a := 2 }) {}).leader (.pair 2)
       v ≠ 0 ∧ v.toNat % 4 = 0) :=
  ⟨ready (by decide), ready (by decide), ready (by decide), ready (by decide), by decide⟩

/-- Two members return to two targets. -/
def st2 : State := two rs [(2, 0x3000)]

theorem meets_ret : let f : Form := { a := .pair 2 }
    let c := look st2 (.ret 2) f
    Rdy st2 (.ret 2) f ∧ c.OnePath
    ∧ (∀ e ∈ c.threads, c.src64 e (.pair 2) ≠ 0 ∧ (c.src64 e (.pair 2)).toNat % 4 = 0)
    ∧ ∀ e ∈ c.threads, c.src64 e (.pair 2) = 0x1000 ∨ c.src64 e (.pair 2) = 0x3000 :=
  ⟨ready (by decide), ⟨rfl, rfl⟩, by decide, by decide⟩

theorem meets_branches :
    Rdy st (.bra { p := 0, ps := true, cp := 1, off := 12 }) { predR := [0] }
    ∧ Rdy st1 (.bw { p := 0, ps := false, cp := 0, off := 0x7FFFA }) {} ∧ (look st1 .nop {}).OnePath
    ∧ Rdy st .exit {} :=
  ⟨ready (by decide), ready (by decide), ⟨rfl, rfl⟩, ready (by decide)⟩

/-- `st` with a load of the first thread in flight, counted in `sb1`. -/
def stBusy : State :=
  let o : Op := {
    gid := 2, wg := 1, region := 0, loc := 0, pc := 0xFF8, instr := .ld (mem 20 2 2), mask := 1,
    members := [{ rank := 0, tid := 100, addr := 0x2000, frags := [{ off := 0, size := 4, va := 0x2000, pa := 0x2000 }] }],
    dests := [20], stage := .confirmed, sb := 1 }
  { st with ops := [(5, o)], groups := [(2, { grp rs rs with sb := [(1, [(5, false)])] })] }

/-- The form is ready and goes on at once (`b`), or waits. -/
def goes (s : State) (b : Bool) (i : Instr) : Bool := (goOn i s (look s i {})).elim false fun x => may s i x.1 && x.2 == b

theorem meets_ordering :
    (([.nop, .yield, .ifence, .fence { scope := 5, kind := 2 }, .pfence { f := 1, t := 0 }, .pfence { f := 4, t := 0 },
      .wait { k := 1, n := 1 }] : List Instr).all (goes st true)) = true
    ∧ ([.fence { scope := 0, kind := 0 }, .pfence { f := 0, t := 1 }, .wait { k := 1, n := 0 }, .wait { k := 0, n := 0 }]
      : List Instr).all (goes stBusy false) = true := by decide +kernel

theorem meets_plc : Rdy st1 (.plc { d := 8, a := 3 }) { dst := .pair 8, see := (Fld.w 3).names } := ready (by decide)

/-- A `redecl` and its form. -/
def rd (f : BitVec 2) (d a : Name) : RedeclF := { d, a, f }
def rdForm (x : RedeclF) : Form :=
  { dst := .w x.d, far := true, outside := true, log := x.f != 0, full := (Fld.pair x.a).names, placeOn := redeclPlace x }

theorem meets_redecl : ∀ x ∈ [rd 0 3 120, rd 0 7 120, rd 2 4 2, rd 3 3 2],
    x.f ≠ 1 ∧ x.d.isV = true ∧ Rdy st1 (.redecl x) (rdForm x) := by
  intro x hx
  simp only [List.mem_cons, List.not_mem_nil, or_false] at hx
  rcases hx with rfl | rfl | rfl | rfl <;> exact ⟨by decide, by decide, ready (by decide)⟩

/-- The group in handler state with its paths recorded. -/
def stHandler : State :=
  { st with groups := [(2, { grp rs rs with handler := true, hcause := 2, epc := [(0, 0x2000)], emsk := [(0, 3)] })] }

def sysF (w : Bool) (n : BitVec 14) : Form :=
  { group := true, dst := if w then .none else .w 3, d := if w then .w 3 else .none, illOn := sysIll w n.toNat,
    priv := sysKind n.toNat == .priv }

theorem meets_sysr : (([0, 1, 2, 3, 4, 5, 6, 7, 8, 9, 10, 11, 0x10, 0x11, 0x100, 0x101, 0x102, 0x103, 0x104, 0x105, 0x106, 0x107,
    0x108, 0x109, 0x10A, 0x10B, 0x2000, 0x2001, 0x2002] : List (BitVec 14)).all fun n =>
      may stHandler (.sysr { d := 3, num := n }) (sysF false n)) = true ∧ stHandler.farOutstanding 2 = false := by decide +kernel

theorem meets_sysw : (([0, 0x101, 0x102, 0x103, 0x104, 0x105, 0x106, 0x107, 0x108, 0x109, 0x10A, 0x10B, 0x2000, 0x2001, 0x2002]
    : List (BitVec 14)).all fun n => may stHandler (.sysw { d := 3, num := n }) (sysF true n)) = true
    ∧ stHandler.flagsOutstanding 2 = false := by decide +kernel

/-! ### Traps, barriers, tables -/

/-- The die's own queue at physical address 0 has room. -/
theorem die_queue {s : State} {q r : Option Nat} (b : (s.die 0).dfqBase = 0) (own : s.faultQueue 0 q = none)
    (room : (s.readPaLe 0 4 + 2 ^ 32 - s.readPaLe 4 4) % 2 ^ 32 ≠ 4096) (k : s.killsAtOnce 0 r = false)
    (fr : (s.die 0).frames = []) : s.DieQueue 0 q r := by
  refine ⟨own, by simpa [b] using room, fun k hk => ?_, fun k hk => ?_, fun k hk => ?_, k⟩
  · have : (0 + k) / 131072 / 786432 = 0 := by omega
    simp [b, hbmDie, Config.frameBytes, Config.framesPerDie] at this ⊢; omega
  · have : (0 + k) / 2 ^ 47 % 2 = 0 := by omega
    simp [b, isHostPa] at this ⊢; omega
  · have : (0 + k) / 131072 / 786432 = 0 := by omega
    have h : hbmDie (0 + k) = some 0 := by
      simp [hbmDie, Config.frameBytes, Config.framesPerDie] at this ⊢; omega
    rw [b]
    simp only [State.frame]
    rw [show (0 : DWord).toNat + k = 0 + k from rfl, h]
    simp only [fr, Tab.getD, Tab.find?, List.find?_nil, Option.map_none, Option.getD_none]
    split <;> rfl

/-- The precise fault that an instruction meets at issue. -/
def stops (s : State) (i : Instr) (f : Form) : Option (FCode × Word) :=
  if (s.ctx? i f).isSome && s.canIssue (look s i f) && !(look s i f).g.steward then s.issueFault (look s i f) else none

/-- An unprivileged workgroup; a price above a full purse. -/
def stUser : State := { st with wgs := [(1, { wg1 with priv := false })] }
def stDear : State := { st with dies := [(0, { Die.reset 0 with prices := [(1, 9000)] })] }

theorem meets_precise :
    stops st (.add (l3 121 1 6)) ((l3 121 1 6).form 1 true) = some (.ill, 3)
    ∧ stops stUser (.priceSet { a := 1, b := 6 }) { group := true, a := .w 1, b := .w 6, outside := true, priv := true } = some (.priv, 3)
    ∧ stops stDear (.add (l3 3 1 6)) ((l3 3 1 6).form 1 true) = some (.lumen, 3)
    ∧ stops st1 (.divS (l3 3 1 6)) ((l3 3 1 6).form 3 false) = some (.place, 1)
    ∧ st.DieQueue 0 (look st .nop {}).queue (some 0) ∧ stUser.DieQueue 0 (look stUser .nop {}).queue (some 0)
    ∧ stDear.DieQueue 0 (look stDear .nop {}).queue (some 0) ∧ st1.DieQueue 0 (look st1 .nop {}).queue (some 0)
    ∧ IssuesWith (.add (l3 121 1 6)) ((l3 121 1 6).form 1 true) :=
  ⟨by decide, by decide, by decide, by decide, die_queue rfl rfl (by decide) rfl rfl, die_queue rfl rfl (by decide) rfl rfl,
    die_queue rfl rfl (by decide) rfl rfl, die_queue rfl rfl (by decide) rfl rfl, _, fun _ => rfl⟩

/-- `trap` with a code. -/
def trapF (code : BitVec 21) : Form := { group := true, outside := true, illOn := trapIll code }

/-- A result of a far unit of the group is outstanding. -/
def stFar : State :=
  let o : Op := {
    gid := 2, wg := 1, region := 0, loc := 0, pc := 0xFF8, instr := .add (l3 20 1 6), mask := 1, dests := [20],
    members := [{ rank := 0, tid := 100, place := .slice }], stage := .confirmed }
  { st with ops := [(5, o)] }

theorem meets_trap : Rdy st (.trap 0x42) (trapF 0x42) ∧ (look st (.trap 0x42) (trapF 0x42)).threads ≠ []
    ∧ Rdy stSteward (.trap 0x42) (trapF 0x42) ∧ stSteward.stewardFull 4 = false
    ∧ Rdy st (.trap 0x100001) (trapF 0x100001) ∧ (look st .nop {}).OnePath ∧ st.entryHeld 2 = false
    ∧ (∀ e ∈ st.groups, e.2.stored = false) ∧ Rdy stFar (.trap 0x100001) (trapF 0x100001) ∧ stFar.entryHeld 2 = true ∧ st.DieQueue 0 (some 0) (some 0) :=
  ⟨ready (by decide), by decide, ready (by decide), by decide, ready (by decide), ⟨rfl, rfl⟩, by decide, by decide, ready (by decide),
    by decide, die_queue rfl rfl (by decide) rfl rfl⟩

/-- A state at an event. -/
def State.at_ (s : State) (e : Ev) : State := { s with event := some e }

/-- A group with two paths and a parked one that is to enter handler state. -/
def stEnter : State :=
  State.at_ { st with groups := [(2, { grp rs rs with
    threads := [(0, thr 0 rs), (1, thr 1 rs), (2, thr 2 rs)]
    paths := [{ pc := 0x1000, mask := 1 }, { pc := 0x2000, mask := 2 }], parked := some { pc := 0x3000, mask := 4 }, preempt := true })] }
    (.handlerEntry 2)

theorem meets_entry : stEnter.event = some (.handlerEntry 2) ∧ stEnter.entryReady 2 = true
    ∧ (∀ o ∈ stEnter.ops, o.2.gid = 2 → o.2.waitsForRoom = false)
    ∧ Rdy stHandler .eret { group := true, illOn := eretIll } ∧ eretAlign (look stHandler .eret {}).g = false :=
  ⟨rfl, by decide, fun _ h => absurd h (List.not_mem_nil), ready (by decide), by decide⟩

/-- R352: PREQ for region 0 on core 0. -/
def stPreq : State := State.at_ st (.preq 0 0x10000000)

theorem meets_preq : stPreq.event = some (.preq 0 0x10000000) ∧ (stPreq.rgn? 0 0).isSome = true
    ∧ stPreq.named 0 0x10000000 wg1 ∧ (stPreq.rgn? 0 5).isSome = false := by
  refine ⟨rfl, by decide, ⟨rfl, .inl (by decide), fun _ => by decide⟩, by decide⟩

/-- A cached translation of core 0 of pages from 0 up, all rights, DIRTY. -/
def tr0 : Trans := { holder := 0, sid := 0, base := 0, size := 0x40000000, frame := 0, leaf := 0x19F3, epa := 0x80000 }

/-- Die 0 with that translation. -/
def die0 : Die := { Die.reset 0 with tlb := [tr0], vlBase := 0x200000 }

/-- A pre-empted group, one of two of its workgroup, about to save itself at 0x100000, in host memory. -/
def stSave : State :=
  let g : Group := { grp rs rs with handler := true, hcause := 1, epc := [(0, 0x2000)], emsk := [(0, 3)], ctx := 0x120000 }
  { st with groups := [(2, g), (3, { grp rs rs with gindex := 1 })], dies := [(0, { die0 with tlb := [{ tr0 with frame := 2 ^ 47 }] })],
            wgs := [(1, { wg1 with saveArea := none })] }

/-- The put succeeds. -/
def isOk : Put → Bool
  | .ok _ => true
  | .wait _ => false

theorem ok_of {p : Put} (h : isOk p = true) : ∃ s, p = .ok s := by cases p <;> simp_all [isOk]

/-- What the save of `stSave` checks. -/
def saveSeen : List (Frag × List Byte) × Checked :=
  let x := stSave.saveData 2 (look stSave .eretSave {}).g wg1 false
  x.2.saveCheck 0 0x100000 x.1

theorem save_seen : (!saveSeen.2.stall && saveSeen.2.hits.isEmpty && isOk (saveSeen.2.s.savePuts 0 saveSeen.1)) = true := by
  decide +kernel

theorem meets_save : ∃ ps k s2, Rdy stSave .eretSave { group := true, outside := true, illOn := saveIll }
    ∧ (let c := look stSave .eretSave { group := true, outside := true, illOn := saveIll }
       saveAlign c.g c.w = false ∧ stSave.saveBusy c.g.loc c.gid = false ∧ stSave.lastGroup c.gid c.g.wg = false
       ∧ stSave.wg? c.g.wg = some c.w
       ∧ (let x := stSave.saveData c.gid c.g c.w (stSave.lastGroup c.gid c.g.wg)
          x.2.saveCheck c.g.loc c.g.saveBase.toNat x.1 = (ps, k))
       ∧ k.stall = false ∧ k.hits = [] ∧ k.s.savePuts c.g.loc ps = .ok s2) ∧ ∀ e ∈ stSave.groups, e.2.stored = false := by
  have h := save_seen
  simp only [Bool.and_eq_true, Bool.not_eq_true', List.isEmpty_iff] at h
  obtain ⟨s2, h2⟩ := ok_of h.2
  exact ⟨saveSeen.1, saveSeen.2, s2, ready (by decide), ⟨by decide, by decide, by decide, rfl, rfl, h.1.1, h.1.2, h2⟩, by decide⟩

/-- The same group alone: its save ends the workgroup's. -/
def stSaveLast : State := { stSave with groups := stSave.groups.take 1 }

/-- What that save checks. -/
def lastSeen : List (Frag × List Byte) × Checked :=
  let x := stSaveLast.saveData 2 (look stSaveLast .eretSave {}).g wg1 true
  x.2.saveCheck 0 0x100000 x.1

theorem last_seen : (!lastSeen.2.stall && lastSeen.2.hits.isEmpty && isOk (lastSeen.2.s.savePuts 0 lastSeen.1)) = true := by
  decide +kernel

theorem meets_save_last : ∃ ps k s2, Rdy stSaveLast .eretSave { group := true, outside := true, illOn := saveIll }
    ∧ (let c := look stSaveLast .eretSave { group := true, outside := true, illOn := saveIll }
       saveAlign c.g c.w = false ∧ stSaveLast.saveBusy c.g.loc c.gid = false ∧ stSaveLast.lastGroup c.gid c.g.wg = true
       ∧ stSaveLast.engineAtRest c.g.loc c.g.wg = true ∧ stSaveLast.wg? c.g.wg = some c.w
       ∧ (let x := stSaveLast.saveData c.gid c.g c.w (stSaveLast.lastGroup c.gid c.g.wg)
          x.2.saveCheck c.g.loc c.g.saveBase.toNat x.1 = (ps, k))
       ∧ k.stall = false ∧ k.hits = [] ∧ k.s.savePuts c.g.loc ps = .ok s2) ∧ ∀ e ∈ stSaveLast.groups, e.2.stored = false := by
  have h := last_seen
  simp only [Bool.and_eq_true, Bool.not_eq_true', List.isEmpty_iff] at h
  obtain ⟨s2, h2⟩ := ok_of h.2
  exact ⟨lastSeen.1, lastSeen.2, s2, ready (by decide), ⟨by decide, by decide, by decide, by decide, rfl, rfl, h.1.1, h.1.2, h2⟩, by decide⟩

/-- A path of the group waits on record 9, whose answer `disp` stands in DISP; a logged operation waits on 8. -/
def stAns (disp : Byte) (a : DWord) (p : Party) : State :=
  State.at_ { stFar with
    groups := [(2, { grp rs rs with paths := [{ pc := 0x1000, mask := 3, wait := .trap 9 }] })]
    dies := [(0, { Die.reset 0 with mem := [(0x42, disp)] })]
    pending := [{ id := 9, die := 0, addr := a, pa := 0x40, region := some 0, party := p }] } (.trapack 0 a)

theorem meets_answer : ([0, 1, 2, 3, 4].all fun n =>
    let s := stAns (BitVec.ofNat 8 n) 0x40 (.path 2)
    decide (s.event = some (.trapack 0 0x40))
      && decide (s.pending.reverse.find? (fun q => q.die == 0 && q.addr == 0x40)
        = some { id := 9, die := 0, addr := 0x40, pa := 0x40, region := some 0, party := .path 2 })
      && (s.readPa 0x42).toNat == n) = true
    ∧ (stAns 3 0x40 (.op 5)).op? 5 ≠ none ∧ (stAns 3 0x40 (.path 2)).group? 2 ≠ none := by decide +kernel

/-- A record held at its group. -/
def heldRec : HeldRec := { id := 9, die := 0, trap := { code := .page, region := some 0 }, party := some (.path 2) }
def stHeld : State := State.at_ { st with heldRecs := [heldRec] } (.heldTrapRecord 9)

theorem meets_held : stHeld.event = some (.heldTrapRecord 9) ∧ stHeld.heldRecs.find? (fun x => x.id == 9) = some heldRec
    ∧ heldRec.trap.rcd = none ∧ stHeld.DieQueue 0 heldRec.trap.queue (some 0) :=
  ⟨rfl, by decide, rfl, die_queue rfl rfl (by decide) rfl rfl⟩

/-- An exchange window of the workgroup; `m` threads hold marks at barrier 15. -/
def stBar (m : List Nat) : State := { st with wgs := [(1, { wg1 with xwin := 1, live := 4096, shadow := 5120, barriers := [(15, { marks := m })] })] }

theorem meets_barrier : ([(Instr.barSync 15, false), (.barArrive 15, false), (.barSwap 15, true)].all fun x =>
      (may (stBar []) x.1 (barForm x.2) && may (stBar [77]) x.1 (barForm x.2)))
    ∧ barRule (.barSwap 15) = some (15, true, true) ∧ (look st .nop {}).threads ≠ []
    ∧ (∀ e ∈ (look (stBar [77]) .nop {}).threads, e.2.tid ∉ ((look (stBar [77]) .nop {}).w.barrier 15).marks)
    ∧ (stBar []).laneBusy (look (stBar []) .nop {}) 2 false = false ∧ (stBar []).clusterBusy [100, 101] = false
    ∧ (stBar []).live 1 = 2 ∧ (stBar []).wg? 1 = some (look (stBar []) .nop {}).w := by decide

/-- Gate numbers: 256 is open to all, 255 to privileged mode alone. -/
def stGate (user : Bool) (n : Word) : State :=
  { two [(1, n), (6, 3)] [] with wgs := [(1, { wg1 with priv := !user })], dies := [(0, { Die.reset 0 with gates := [(256, 3)] })] }

def gateF (o : Bool) : Form := { group := true, a := .w 1, b := .w 6, x := 0, outside := o }
def ga : ABX := { a := 1, b := 6, x := 0 }

theorem meets_gates : Rdy (stGate true 256) (.gateAdd ga) (gateF true) ∧ Rdy (stGate false 255) (.gateAdd ga) (gateF true)
    ∧ Rdy (stGate true 256) (.gateWait ga) (gateF false) ∧ Rdy (stGate true 255) (.gateWait ga) (gateF false)
    ∧ (look (stGate true 255) (.gateWait ga) (gateF false)).privileged = false
    ∧ (look (stGate false 255) (.gateWait ga) (gateF false)).privileged = true
    ∧ ((look (stGate true 256) (.gateAdd ga) (gateF true)).src (look (stGate true 256) (.gateAdd ga) (gateF true)).leader (.w 1)).toNat % 4096 = 256
    ∧ (stGate true 256).laneBusy (look (stGate true 256) (.gateAdd ga) (gateF true)) 5 false = false
    ∧ (stGate true 255).DieQueue 0 (some 0) (some 0) :=
  ⟨ready (by decide), ready (by decide), ready (by decide), ready (by decide), by decide, by decide, by decide, by decide,
    die_queue rfl rfl (by decide) rfl rfl⟩

theorem meets_counters : may st (.lumPurse 9) { group := true, dst := .w 9 } = true
    ∧ (([0, 2, 0x105, 0x109, 0x200, 0x201, 0x1000, 0x1003] : List (BitVec 14)).all fun n => may st (.perfRead { d := 10, num := n })
        { group := true, dst := .pair 10, illOn := fun _ _ => perfScope n.toNat == .none, priv := perfScope n.toNat == .die }) = true
    ∧ may st .wdogKick { group := true } = true ∧ may stSteward .wdogKick { group := true } = true := by decide +kernel

theorem meets_group_access :
    Rdy stSteward (.seqLoad 2) { group := true, a := .pair 2, outside := true, log := true }
    ∧ ((look st .nop {}).src64 (look st .nop {}).leader (.pair 8)).toNat % 64 = 0 := ⟨ready (by decide), by decide⟩

theorem meets_tables :
    Rdy st (.patInv 1) { group := true, a := .w 1, outside := true }
    ∧ Rdy st (.priceSet { a := 1, b := 6 }) { group := true, a := .w 1, b := .w 6, outside := true, priv := true }
    ∧ Rdy stSteward (.remapSet { a := 12, b := 6 }) { group := true, a := .w 12, b := .w 6, outside := true }
    ∧ Rdy (stBar []) (.remapSet { a := 120, b := 6 }) { group := true, a := .w 120, b := .w 6, outside := true }
    ∧ st.tableBusy (look st (.patInv 1) {}) = false ∧ (0 : Nat) % 64 = 0 ∧ 0 + 16384 ≤ 16384 :=
  ⟨ready (by decide), ready (by decide), ready (by decide), ready (by decide), by decide, by decide, by decide⟩

/-- A workgroup of 16,384 scratchpad bytes; `v13` is all ones. -/
def stRemap : State := { two [(13, 0xFFFFFFFF), (6, 3)] [] with wgs := [(1, { wg1 with scrSize := 16384 })] }

theorem meets_remap : Rdy stRemap (.remapSet { a := 13, b := 6 }) { group := true, a := .w 13, b := .w 6, outside := true }
    ∧ Rdy stRemap (.remapSet { a := 120, b := 6 }) { group := true, a := .w 120, b := .w 6, outside := true }
    ∧ stRemap.wg? 1 = some (look stRemap .nop {}).w ∧ 0 + 16384 ≤ (look stRemap .nop {}).w.scrSize :=
  ⟨ready (by decide), ready (by decide), rfl, by decide⟩

/-- A slot of the cluster's tags held by region 0 with key 5. -/
def stTag : State := { st with clusters := [(0, { tags := [(7, 0, 5)] })] }

theorem meets_tags :
    Rdy stTag (.tlook { d := 9, a := 1 }) { group := true, a := .w 1, dst := .w 9 }
    ∧ Rdy stSteward (.tlook { d := 9, a := 1 }) { group := true, a := .w 1, dst := .w 9 }
    ∧ Rdy stSteward (.tset { d := 9, a := 1, b := 6 }) { group := true, a := .w 1, b := .w 6, dst := .w 9, outside := true }
    ∧ Rdy stSteward (.tclr { d := 9, a := 1 }) { group := true, a := .w 1, dst := .w 9, outside := true }
    ∧ Rdy stTag (.tset { d := 9, a := 1, b := 20 }) { group := true, a := .w 1, b := .w 20, dst := .w 9, outside := true }
    ∧ Rdy stTag (.tclr { d := 9, a := 20 }) { group := true, a := .w 20, dst := .w 9, outside := true }
    ∧ stTag.laneBusy (look stTag .nop {}) 4 false = false ∧ Tab.find? (stTag.cluster 0).tags 7 = some (0, 5) :=
  ⟨ready (by decide), ready (by decide), ready (by decide), ready (by decide), ready (by decide), ready (by decide), by decide,
    by decide⟩

/-- Frame 1 of die 0 in transition, or not. -/
def stRetype (t : Bool) : State :=
  { two [(2, 0x20000), (6, 0x10001)] [] with dies := [(0, { die0 with frames := [(1, { trans := t })] })] }

theorem meets_retype : ([true, false].all fun t =>
    may (stRetype t) (.retype { a := 2, b := 6 }) { group := true, a := .pair 2, b := .w 6, outside := true, priv := true }
      && !(stRetype t).tableBusy (look (stRetype t) .nop {}) && !(stRetype t).laneBusy (look (stRetype t) .nop {}) 5 false && !(stRetype t).pathPending 100 true
      && ((stRetype t).frame 0x20000).trans == t && hbmDie 0x20000 == some 0) = true
    ∧ may (stRetype true) (.tlbInv { a := 2, b := 120 }) { group := true, a := .pair 2, b := .w 120, outside := true, priv := true } = true
    ∧ (stRetype true).storesBusy (look (stRetype true) .nop {}) 5 = false
    ∧ (stRetype true).invBusy (invCovers 0 0 0x20000 0) = false
    ∧ invLaw 0 0 0x20000 0 0 tr0 :=
  ⟨by decide +kernel, by decide, by decide, by decide, by show 0 = 0 ∧ _; decide⟩

/-- A `retype` of frame 1 whose drain is over, or that found TRANS set. -/
def opRetype (a : DWord) : Op :=
  { gid := 2, wg := 1, region := 0, loc := 0, pc := 0xFF8, instr := .retype { a := 2, b := 6 }, mask := 1, dests := [],
    members := [{ rank := 0, tid := 100, addr := 0x20000, a, b := 0x10001 }], stage := .confirmed }
def stRetyping (a : DWord) : State := State.at_ { stRetype true with ops := [(5, opRetype a)] } (.storePerformed 5 0 0)

theorem meets_retyped : ∀ a ∈ ([0, 1] : List DWord), (stRetyping a).event = some (.storePerformed 5 0 0) ∧ (stRetyping a).op? 5 = some (opRetype a)
    ∧ ∃ m, (opRetype a).member? 0 = some m ∧ (opRetype a).stage = .confirmed ∧ (opRetype a).aside = false ∧ m.done = false ∧ m.frags = []
      ∧ m.addr.toNat % 131072 = 0 ∧ hbmDie m.addr.toNat ≠ none ∧ m.b.toNat / 2 ^ 16 % 2 = 1
      ∧ (m.a = 0 → (stRetyping a).frameBusy (m.addr.toNat / 131072) = false ∧ ((stRetyping a).frame m.addr.toNat).hold = 0) := by
  intro a ha
  simp only [List.mem_cons, List.not_mem_nil, or_false] at ha
  rcases ha with rfl | rfl <;> exact ⟨rfl, rfl, _, rfl, rfl, rfl, rfl, rfl, by decide, by decide, by decide, by decide⟩

/-! ### Commands of units -/

/-- A pattern of INT8: one row of 32 elements at 0x2000, tiles of one row and one column. -/
def pat0 : List Byte :=
  leBytes 8 0x2000 ++ leBytes 8 0 ++ leBytes 4 32 ++ leBytes 4 1 ++ leBytes 8 0 ++ leBytes 4 0 ++ leBytes 4 32 ++ leBytes 8 0
    ++ [7, 2, 0, 0, 0, 0] ++ leBytes 2 1 ++ leBytes 2 1 ++ [7, 0, 0, 0, 0, 0]

/-- Pattern 0 is set; the second operand quad of a copy, and a feed's pair, stand in `v24` to `v31`. -/
def stCmd : State :=
  let r : Tab Word := rs ++ [(24, 64), (25, 12), (26, 0), (28, 0), (29, 0), (30, 0), (31, 1), (32, 0x80), (34, 0x40), (36, 16)]
  { two r r with dies := [(0, { die0 with patterns := [(0, pat0)] })] }

def qf : QF := { a := 32, b := 24, sb := 3 }
def qForm : Form := { cls := 5, group := true, a := .quad 32, b := .quad 24, outside := true, noSteward := true, sb := 3 }
def ff : FeedF := { a := 28, b := 30, sb := 1, pat := 0, fifo := true }
def fForm : Form := { cls := 5, group := true, a := .pair 28, b := .pair 30, outside := true, noSteward := true, sb := 1 }
def rf : RunF := { a := 32, b := 36, sb := 1, scope := 10 }
def rForm : Form := { cls := 5, group := true, a := .quad 32, b := .pair 36, outside := true, sb := 1 }

theorem meets_ladle :
    let c := look stCmd (.ldlCopy qf) qForm
    Rdy stCmd (.ldlCopy qf) qForm ∧ copyFault c.w (c.lead.quad 32) (c.lead.quad 24) = none ∧ stCmd.ladleRoom 0 0 0 = true :=
  ⟨ready (by decide), by decide, by decide⟩

theorem meets_feed :
    let b := (look stCmd (.ldlFeed ff) fForm).src64 (look stCmd (.ldlFeed ff) fForm).leader (.pair 30)
    let a := (look stCmd (.ldlFeed ff) fForm).src64 (look stCmd (.ldlFeed ff) fForm).leader (.pair 28)
    Rdy stCmd (.ldlFeed ff) fForm ∧ 1 ≤ b.toNat / 2 ^ 32 ∧ b.toNat / 2 ^ 32 ≤ 4096 ∧ a.toNat / 2 ^ 16 % 4 ≠ 3
    ∧ stCmd.engineFree 0 1 = true ∧ stCmd.ladleRoom 0 0 0 = true :=
  ⟨ready (by decide), by decide, by decide, by decide, by decide, by decide⟩

theorem meets_runner :
    let c := look stCmd (.runCopy rf) rForm
    let b := c.src64 c.leader (.pair 36)
    Rdy stCmd (.runCopy rf) rForm ∧ runFault c.privileged (runQueue 0 (lo b 32 32).toNat).1 (c.lead.quad 32) [lo b 0 32, lo b 32 32] = none
    ∧ (stCmd.runQ 4 0).length < 128 ∧ countRoom stCmd.dieItems 0 0 = true := ⟨ready (by decide), by decide, by decide, by decide⟩

/-- The command of a form with the patterns of the state. -/
theorem pat_ok {i : Instr} {f : Form} {k : EngCmd} (h : k.From stCmd (look stCmd i f)) (hi : i = .mxZero { sb := 1, row0 := 0, cb := 2 }
    ∨ i = .mxMma { pa := 0, pb := 0, pc := 0, sg := 0, sb := 0, row0 := 127, cb := 0, k := 1 }
    ∨ i = .mxLoad { a := 2, pc := 0, sg := 0, sb := 0, row0 := 127, cb := 2 } ∨ i = .mxGang 120) : k.patOk = true := by
  have hi2 : k.instr = i := h.instr
  have hp := h.pat
  dsimp only [look] at hp
  rcases hi with rfl | rfl | rfl | rfl
  · simp [EngCmd.patOk, hi2]
  · simp only [EngCmd.patOk, hi2, hp.1, hp.2.1, hp.2.2]; decide
  · simp only [EngCmd.patOk, hi2, hp.2]; decide
  · simp [EngCmd.patOk, hi2]

theorem meets_engine : ∀ i, (i = .mxZero { sb := 1, row0 := 0, cb := 2 }
    ∨ i = .mxMma { pa := 0, pb := 0, pc := 0, sg := 0, sb := 0, row0 := 127, cb := 0, k := 1 }
    ∨ i = .mxLoad { a := 2, pc := 0, sg := 0, sb := 0, row0 := 127, cb := 2 } ∨ i = .mxGang 120) →
    ∃ f, mxForm i = some f ∧ Rdy stCmd i f ∧ (∀ k : EngCmd, k.From stCmd (look stCmd i f) → k.patOk = true)
      ∧ (∀ a, i = .mxGang a → gangIll ((look stCmd i f).src (look stCmd i f).leader (.w a)) = false)
      ∧ stCmd.engineFree 0 1 = true ∧ (stCmd.core 0).engine.queue.length < 16 := by
  intro i hi
  rcases hi with rfl | rfl | rfl | rfl <;>
    exact ⟨_, rfl, ready (by decide), fun k h => pat_ok h (by simp), fun a e => by cases e <;> decide, by decide, by decide⟩

/-- Items that stand at 0x4000. -/
def spawnsOf (n : Nat) : List (Nat × Item) := (List.range n).map fun k => (100 + k, .spawn 0x4000 1 2)
def stCast (n : Nat) : State := { stCmd with wgs := [(1, { wg1 with gmax := 3, items := spawnsOf n })] }

theorem meets_spawn :
    let f : Form := { a := .pair 2, b := .w 1, d := .w 6, x := 0, group := true, perMember := true, noSteward := true, outside := true }
    let c := look (stCast 1) (.spawn (n3 6 2 1)) f
    Rdy (stCast 1) (.spawn (n3 6 2 1)) f ∧ (stCast 1).wg? 1 = some c.w
    ∧ (∀ e ∈ c.threads, let v := c.src64 e (.pair 2)
        v ≠ 0 ∧ v.toNat % 4 = 0 ∧ v.toNat < 2 ^ 56)
    ∧ itemBytes c.w.nb c.w.items + 16 * c.threads.length ≤ (c.w.spw + 1) * 4096 :=
  ⟨ready (by decide), rfl, by decide, by decide⟩

theorem meets_flush : Rdy (stCast 1) .castFlush { group := true, noSteward := true }
    ∧ (stCast 1).wg? 1 = some (look (stCast 1) .nop {}).w ∧ (look (stCast 1) .nop {}).w.lists = [0x4000]
    ∧ (stCast 1).canForm 1 (look (stCast 1) .nop {}).w 0x4000 = true ∧ (stCast 1).group? (stCast 1).nextId = none
    ∧ (stCast 1).stageWords 0 (stageOf ((stCast 1).nextSlot 0)) + 8 * 14 ≤ 2048 ∧ (stCast 1).spillBad 0 ((stCast 1).nextSlot 0) = false
    ∧ ∀ pc, st.canForm 1 wg1 pc = false := by
  refine ⟨ready (by decide), rfl, by decide, by decide +kernel, by decide, by decide +kernel, by decide +kernel, fun pc => ?_⟩
  have : wg1.listOf pc = [] := rfl
  simp [State.canForm, this]

/-- A command issued after the sync of a path, whose own name would be 10. -/
def cmd10 : EngCmd := { id := 10, instr := .mxGang 1, wg := 1, gid := 2, region := 0, pc := 0x2000 }

def syncF : Form := { group := true, noSteward := true, a := .w 1, dst := .w 9 }
def stOwner : State := { st with cores := [(0, { purse := 8192, engine := { owner := .wg 1, acc := [(3, 7)], queue := [cmd10] } })] }

theorem meets_sync : Rdy st (.mxSync { d := 9, a := 1 }) syncF ∧ (st.core 0).engine.owner ≠ .wg 1
    ∧ Rdy stOwner (.mxSync { d := 9, a := 1 }) syncF ∧ (stOwner.core 0).engine.owner = .wg 1
    ∧ (∀ k ∈ (stOwner.core 0).engine.queue, (look stOwner .nop {}).p.syncAt.getD stOwner.nextId ≤ k.id) ∧ (stOwner.core 0).engine.queue ≠ []
    ∧ ((look stOwner (.mxSync { d := 9, a := 1 }) syncF).src (look stOwner (.mxSync { d := 9, a := 1 }) syncF).leader (.w 1)).getLsbD 0 = true :=
  ⟨ready (by decide), by decide, ready (by decide), rfl, by decide, by decide, by decide⟩

/-! ### Operations in flight -/

/-- A word at 0x2000, and the one member that accesses it. -/
def fr0 : Frag := { off := 0, size := 4, va := 0x2000, pa := 0x2000 }
def mb0 : Machine.Member := { rank := 0, tid := 100, addr := 0x2000, d := 0x12345678, b := 5, frags := [fr0] }

/-- An operation of the first thread. -/
def op0 (i : Instr) (m : Machine.Member) (ds : List Nat := [3]) (g : Stage := .confirmed) : Op :=
  { gid := 2, wg := 1, region := 0, loc := 0, pc := 0xFF8, instr := i, mask := 1, members := [m], dests := ds, stage := g, cycle := 9 }

/-- `st` at an event with the operation 5 in flight. -/
def stOp (o : Op) (e : Ev) : State := State.at_ { st with ops := [(5, o)], dies := [(0, die0)], cycle := 20 } e

theorem member_op {i : Instr} {m : Machine.Member} {ds : List Nat} {g : Stage} {e : Ev} (h : m.rank = 0) (h2 : m.tid = 100)
    (hd : ∀ n ∈ ds, (placeOf wg1 (thr 0 rs) n).1 ≠ .cluster) :
    (stOp (op0 i m ds g) e).Member (op0 i m ds g) m 0 (grp rs rs) (thr 0 rs) := by
  refine ⟨by simp [op0, Op.member?, h], rfl, rfl, by rw [h2]; rfl, rfl, hd⟩

theorem plain_frag {o : Op} (h : coreDie o.loc = 0) : fr0.Plain o 0 :=
  ⟨h, by decide, by decide, by decide, rfl, by decide, by decide⟩

theorem meets_load : let o := op0 (.ld (mem 3 2 2)) mb0
    let s := stOp o (.loadDataReturn 5 0 0)
    s.event = some (.loadDataReturn 5 0 0) ∧ s.op? 5 = some o ∧ s.Member o mb0 0 (grp rs rs) (thr 0 rs)
    ∧ loadOf o.instr = some (3, 2) ∧ o.dests = (Fld.ofSz 2 3).names ∧ o.stage = .confirmed ∧ o.aside = false ∧ o.suspect = none ∧ mb0.done = false
    ∧ mb0.far = false ∧ mb0.frags[0]? = some fr0 ∧ fr0.done = false
    ∧ (∀ j x, mb0.frags[j]? = some x → j ≠ 0 → x.done = true) ∧ fr0.Plain o 0 ∧ s.wsUnwritten fr0 = false
    ∧ s.blocked 5 o mb0 fr0 = false ∧ o.farError = false ∧ s.relHeld o mb0 fr0 = false ∧ s.acqWaits o fr0 = false := by
  refine ⟨rfl, rfl, member_op rfl rfl (by decide), rfl, by decide, rfl, rfl, rfl, rfl, by decide, rfl, rfl, fun j x h hj => ?_,
    plain_frag rfl, by decide, by decide, rfl, by decide, by decide⟩
  cases j with
  | zero => exact absurd rfl hj
  | succ j => simp [mb0] at h

theorem meets_store : let o := op0 (.st (mem 3 2 2)) mb0 []
    let s := stOp o (.storePerformed 5 0 0)
    s.event = some (.storePerformed 5 0 0) ∧ s.op? 5 = some o ∧ o.member? 0 = some mb0 ∧ o.stage = .confirmed ∧ o.aside = false
    ∧ mb0.done = false ∧ mb0.frags[0]? = some fr0 ∧ fr0.done = false ∧ fr0.Plain o 0 ∧ (s.frame fr0.pa).hold = 0
    ∧ fr0.off + fr0.size ≤ 16 ∧ s.blocked 5 o mb0 fr0 = false :=
  ⟨rfl, rfl, rfl, rfl, rfl, rfl, rfl, rfl, plain_frag rfl, by decide, by decide, by decide⟩

theorem meets_rights : ∃ s1, ({ st with dies := [(0, die0)] } : State).check 0 0 .write (fun _ => true) (some 0) 0x2000
    = (.ok 0x2000 0, s1) := ⟨_, rfl⟩

/-- An atomic add of a word. -/
def at0 : AtomF := { d := 3, a := 2, b := 1, sb := 0, scope := 0, sz := 2, aop := 0, off := 0 }

theorem meets_atomic : let o := op0 (.atom at0) mb0
    let s := stOp o (.loadDataReturn 5 0 0)
    s.event = some (.loadDataReturn 5 0 0) ∧ s.Due 5 0 0 o mb0 fr0 ∧ s.Member o mb0 0 (grp rs rs) (thr 0 rs)
    ∧ (Instr.atom at0).wellFormed = true ∧ o.dests = (Fld.ofSz at0.sz at0.d).names ∧ mb0.far = false ∧ fr0.Plain o 0
    ∧ fr0.size = szBytes at0.sz ∧ (s.frame fr0.pa).hold = 0 ∧ o.suspect = none ∧ o.farError = false ∧ mb0.frags = [fr0]
    ∧ s.relHeld o mb0 fr0 = false ∧ s.acqWaits o fr0 = false :=
  ⟨rfl, ⟨rfl, rfl, rfl, rfl, rfl, rfl, rfl, by decide⟩, member_op rfl rfl (by decide), by decide, by decide, by decide,
    plain_frag rfl, by decide, by decide, rfl, rfl, rfl, by decide, by decide⟩

/-- A load before its checks; with a translation that lacks R when `bad`. -/
def stConfirm (bad : Bool) : State :=
  let s := stOp (op0 (.ld (mem 3 2 2)) { mb0 with frags := [] } [3] .issued) (.instructionConfirm 5)
  if bad then { s with dies := [(0, { die0 with tlb := [{ tr0 with leaf := 0x19E3 }] })] } else s

theorem meets_confirm : let o := op0 (.ld (mem 3 2 2)) { mb0 with frags := [] } [3] .issued
    (∃ ms c, (stConfirm false).event = some (.instructionConfirm 5) ∧ (stConfirm false).op? 5 = some o ∧ o.stage = .issued
      ∧ ({ stConfirm false with event := none } : State).checkOp o = (ms, c) ∧ c.stall = false ∧ o.faults = true
      ∧ worst c.hits = none ∧ o.wsStore = false ∧ (located o ms).all (·.done) = false)
    ∧ ∃ ms c, ({ stConfirm true with event := none } : State).checkOp o = (ms, c) ∧ c.stall = false
      ∧ worst c.hits = some (.perm, 1, 0x2000, 0x2000) ∧ o.loc < 1024 ∧ o.readsBlock = false
      ∧ (stConfirm true).replayLater 5 o = false ∧ (grp rs rs).chainOf o = none
      ∧ (c.s.logHits o.loc c.hits).DieQueue 0 (o.trap ((stConfirm true).opWg o) .perm 0 0 0 0).queue (some o.region) :=
  ⟨⟨_, _, rfl, rfl, rfl, rfl, by decide, rfl, by decide, rfl, by decide⟩,
    _, _, rfl, by decide, by decide, by decide, rfl, by decide, by decide,
    die_queue rfl rfl (by decide) rfl rfl⟩

/-- A read of a walker inside the group's open chain, without R. -/
def opChain : Op := { op0 (.add (l3 3 112 6)) { mb0 with frags := [] } [3] .issued with inChain := true, logix := some 0 }
def grpChain : Group := { grp rs rs with paths := [{ pc := 0x1004, mask := 3, chain := some { start := 0xFFC, count := 1, left := 2, reads := [], walkers := [] } }] }
def stChain : State :=
  { stOp opChain (.instructionConfirm 5) with groups := [(2, grpChain)], dies := [(0, { die0 with tlb := [{ tr0 with leaf := 0x19E3 }] })] }

theorem meets_chain_fault : stChain.group? opChain.gid = some grpChain ∧ grpChain.chainOf opChain = some 0 ∧ stChain.replayLater 5 opChain = false
    ∧ ∃ p k, grpChain.paths[0]? = some p ∧ p.chain = some k ∧ k.start = 0xFFC := ⟨rfl, by decide, by decide, _, _, rfl, rfl, rfl⟩

/-- A member whose name stands in slice 4. -/
def mbFar : Machine.Member := { rank := 0, tid := 100, place := .slice, unit := 4, a := 5, b := 3 }

theorem meets_far : let o := op0 (.add (l3 3 1 6)) mbFar
    let s := stOp o (.farResult 5 0)
    s.event = some (.farResult 5 0) ∧ s.op? 5 = some o ∧ s.Member o mbFar 0 (grp rs rs) (thr 0 rs) ∧ o.stage = .confirmed
    ∧ o.aside = false ∧ mbFar.done = false ∧ (∀ f ∈ mbFar.frags, f.done = true) ∧ s.farBlocked 5 o mbFar = false ∧ o.suspect = none ∧ o.farError = false
    ∧ ∃ f, intForm o.instr = some f ∧ f.dst.names = o.dests :=
  ⟨rfl, rfl, member_op rfl rfl (by decide), rfl, rfl, rfl, fun _ h => absurd h (List.not_mem_nil), by decide, rfl, rfl, _, rfl, by decide⟩

/-- `redecl` of `v3` to SLICE at 0x2000, its anchor found; or to LANE. -/
def mbRd : Machine.Member := { rank := 0, tid := 100, addr := 0x2000, d := 5, frags := [{ fr0 with size := 1, done := true }] }

theorem meets_far_redecl : ∀ x ∈ [rd 0 3 120, rd 2 3 2, rd 3 3 2], let o := op0 (.redecl x) mbRd
    let s := stOp o (.farResult 5 0)
    s.Member o mbRd 0 (grp rs rs) (thr 0 rs) ∧ (∀ f ∈ mbRd.frags, f.done = true) ∧ s.farBlocked 5 o mbRd = false
    ∧ o.dests = [x.d.toNat] ∧ x.f ≠ 1 ∧ mbRd.frags ≠ [] ∧ (s.opWg o).clusterMap.getLsbD x.d.toNat = false := by
  intro x hx
  simp only [List.mem_cons, List.not_mem_nil, or_false] at hx
  rcases hx with rfl | rfl | rfl <;> exact ⟨member_op rfl rfl (by decide), by decide, by decide, rfl, by decide, by decide, by decide⟩

/-- Checks of the next result at LANE of core 0 have failed, or a droop's window takes the next `ds` in. -/
def stFail (l ds : List Nat) : State := { st with cores := [(0, { purse := 8192, laneFails := l, droops := ds })] }
/-- The same core with no failed check. -/
def sound (s : State) : State := s.modCore 0 fun k => { k with laneFails := [], droops := [], farError := false }
def i316 : Instr := .add (l3 3 1 6)
def f316 : Form := (l3 3 1 6).form 1 true

theorem meets_lane_recast : ∀ x ∈ ([([21], []), ([], [1]), ([1, 3], []), ([0], [5])] : List (List Nat × List Nat)),
    IssuesWith i316 f316 ∧ Rdy (sound (stFail x.1 x.2)) i316 f316 ∧ (look (sound (stFail x.1 x.2)) i316 f316).laneResult = true
    ∧ ((stFail x.1 x.2).core 0).farError = false ∧ ((stFail x.1 x.2).core 0).laneFails = x.1 ∧ ((stFail x.1 x.2).core 0).droops = x.2
    ∧ (stFail x.1 x.2).DieQueue 0 (look (sound (stFail x.1 x.2)) i316 f316).queue (some 0) := by
  intro x hx
  simp only [List.mem_cons, List.not_mem_nil, or_false] at hx
  rcases hx with rfl | rfl | rfl | rfl <;>
    exact ⟨⟨_, fun _ => rfl⟩, ready (by decide), by decide, rfl, rfl, rfl, die_queue rfl rfl (by decide) rfl rfl⟩

/-- Two failures concern the next result: two residue checks, or one and a droop. -/
theorem meets_second_failure : (stFail [1, 3] []).laneFailsNow 0 = 1 :: 3 :: [] ∧ (stFail [0] [5]).laneFailsNow 0 = 0 :: 1 :: [] := by decide

/-- `v3` of the first thread stands in a slice that holds 16,384 names of another group besides. -/
def farV3 : Nat × FarName := (3, { place := .slice, unit := 4, anchor := 0x2000, value := 6 })
def stBackedN (n : Nat) : State :=
  { st with
    groups := [(2, { grp rs rs with threads := [(0, { thr 0 rs with far := [farV3] }), (1, thr 1 rs)] }),
      (3, { grp rs rs with threads := [(0, { thr 0 rs with far := List.replicate n farV3 })] })]
    cores := [(0, { purse := 8192, farError := true })] }
def stBacked : State := stBackedN 16384
def iMov : Instr := .mov { d := 4, a := 3, h := false, n := false, x := 0 }
def fMov : Form := (moveForm iMov).getD {}

theorem backed_count (n : Nat) : (stBackedN n).farCount 0 (.slice, 4) = n + 1 := by
  have h : ((farV3.2.place, farV3.2.unit) == (Place.slice, 4)) = true := by decide
  have e : locDie (grp rs rs).loc = 0 := rfl
  have z : ∀ t : Thread, t.far = [] → t.farAt (Place.slice, 4) = 0 := fun t ht => by simp [Thread.farAt, ht]
  simp [State.farCount, stBackedN, st, two, e, h, wg1, Thread.farAt, thr]
  omega

theorem meets_far_error : IssuesWith iMov fMov ∧ Rdy (sound stBacked) iMov fMov ∧ (stBacked.core 0).farError = true
    ∧ (look (sound stBacked) iMov fMov).needsLog = false ∧ stBacked.readsBacked (look (sound stBacked) iMov fMov) = true
    ∧ stBacked.DieQueue 0 (look (sound stBacked) iMov fMov).queue (some 0) := by
  refine ⟨⟨_, fun _ => rfl⟩, ready (by decide), rfl, by decide, ?_, die_queue rfl rfl (by decide) rfl rfl⟩
  refine List.any_eq_true.2 ⟨(0, { thr 0 rs with far := [farV3] }), by decide, List.any_eq_true.2 ⟨3, by decide, ?_⟩⟩
  show stBacked.backed 0 (.slice, 4) = true
  have h := backed_count 16384
  simp only [State.backed, stBacked, h]; decide

/-- A logged addition whose result has failed a check, after `n` recasts. -/
def opSuspect (n : Nat) : Op := { op0 (.add (l3 3 1 6)) mbFar with suspect := some 1, recasts := n, logix := some 0 }

theorem meets_suspect : ∀ n ∈ [0, 1], let o := opSuspect n
    let s := stOp o (.farResult 5 0)
    s.event = some (.farResult 5 0) ∧ s.op? 5 = some o ∧ o.member? 0 = some mbFar ∧ o.stage = .confirmed ∧ o.aside = false
    ∧ mbFar.done = false ∧ (∀ f ∈ mbFar.frags, f.done = true) ∧ s.farBlocked 5 o mbFar = false ∧ o.farError = false ∧ o.suspect = some 1
    ∧ o.recasts = n ∧ o.loc < 1024 ∧ o.readsBlock = false ∧ (∀ g, s.group? o.gid = some g → g.chainOf o = none)
    ∧ s.DieQueue 0 (o.trap (s.opWg o) .recast 0 0 0 0).queue (some o.region) := by
  intro n hn
  simp only [List.mem_cons, List.not_mem_nil, or_false] at hn
  rcases hn with rfl | rfl <;>
    exact ⟨rfl, rfl, rfl, rfl, rfl, rfl, fun _ h => absurd h List.not_mem_nil, by decide, rfl, rfl, rfl, by decide, rfl,
      fun g h => by cases h; rfl, die_queue rfl rfl (by decide) rfl rfl⟩

/-- Waits whose word is 0; they compare with 0 and 5. -/
def stWaita (e : Bool) : State :=
  let m := if e then { mb0 with b := 0 } else mb0
  stOp (op0 (if e then .waitaEq wt else .waitaNe wt) m) (.waitaSatisfied 5)

theorem meets_waita_end : ∀ e ∈ [true, false], ∃ o vs s1, (stWaita e).event = some (.waitaSatisfied 5) ∧ (stWaita e).op? 5 = some o
    ∧ o.stage = .confirmed ∧ o.aside = false ∧ o.invs = 0 ∧ o.suspect = none ∧ o.farError = false
    ∧ ({ stWaita e with event := none } : State).readAll 5 o (o.members.filter fun m => !m.done) = some (vs, s1)
    ∧ ((∃ f, o.instr = .waitaEq f ∧ ∀ v ∈ vs, leNat v.2 = v.1.b.toNat) ∨ ∃ f, o.instr = .waitaNe f ∧ ∀ v ∈ vs, leNat v.2 ≠ v.1.b.toNat)
    ∧ (vs.map fun v => v.1.rank).Nodup ∧ vs ≠ [] := by
  intro e he
  simp only [List.mem_cons, List.not_mem_nil, or_false] at he
  rcases he with rfl | rfl
  · exact ⟨_, _, _, rfl, rfl, rfl, rfl, rfl, rfl, rfl, rfl, .inl ⟨wt, rfl, by decide⟩, by decide, by decide⟩
  · exact ⟨_, _, _, rfl, rfl, rfl, rfl, rfl, rfl, rfl, rfl, .inr ⟨wt, rfl, by decide⟩, by decide, by decide⟩

/-- An exchange store of a word to the last word of the live bank. -/
def mbX : Machine.Member := { rank := 0, tid := 100, addr := 0x13FC, d := 7, frags := [{ off := 0, size := 4, va := 0, pa := 0x13FC }] }
def stXst : State := { stOp (op0 (.xst (mem 3 8 2)) mbX []) (.xstAccepted 5 0) with wgs := (stBar []).wgs }

theorem meets_xst_end : let o := op0 (.xst (mem 3 8 2)) mbX []
    let f : Frag := { off := 0, size := 4, va := 0, pa := 0x13FC }
    stXst.event = some (.xstAccepted 5 0) ∧ stXst.Due 5 0 0 o mbX f ∧ stXst.xstBefore 5 o mbX = false
    ∧ stXst.windowAt (xstCluster o mbX) f.pa f.size = some (5120, 1020) ∧ mbX.frags = [f] ∧ f.off + f.size ≤ 16 :=
  ⟨rfl, ⟨rfl, rfl, rfl, rfl, rfl, rfl, rfl, by decide⟩, by decide, by decide, rfl, by decide⟩

theorem meets_store_error : let o := op0 (.st (mem 3 2 2)) mb0 []
    let s := stOp o (.storeErrorResponse 5 0 0)
    s.event = some (.storeErrorResponse 5 0 0) ∧ s.Due 5 0 0 o mb0 fr0 ∧ fr0.sent = false ∧ o.plainStore = true ∧ o.loc < 1024
    ∧ (s.logViolation 0 fr0.pa 7 0 o.loc).DieQueue 0 (o.trap (s.opWg o) .viol 0 0 0 0).queue (some o.region) :=
  ⟨rfl, ⟨rfl, rfl, rfl, rfl, rfl, rfl, rfl, by decide⟩, rfl, rfl, by decide, die_queue rfl rfl (by decide) rfl rfl⟩

/-- A join block of count `n` at 0x2000. -/
def mbJ : Machine.Member := { rank := 0, tid := 100, addr := 0x2000, frags := [{ fr0 with size := 64 }] }
def stJoin (n : Byte) : State :=
  { stOp (op0 (.join 2) mbJ []) (.storePerformed 5 0 0) with dies := [(0, { die0 with mem := [(0x2000, n)] })] }

theorem meets_join : ∀ n ∈ ([1, 2] : List Byte), let o := op0 (.join 2) mbJ []
    let f : Frag := { fr0 with size := 64 }
    (stJoin n).event = some (.storePerformed 5 0 0) ∧ (stJoin n).Due 5 0 0 o mbJ f ∧ f.Plain o 0 ∧ f.size = 64
    ∧ ((stJoin n).frame f.pa).hold = 0 ∧ (stJoin n).tableWaits 5 o = false ∧ (stJoin n).readPaLe f.pa 4 ≠ 0
    ∧ (stJoin n).readPaLe (f.pa + 4) 28 = 0 := by
  intro n hn
  simp only [List.mem_cons, List.not_mem_nil, or_false] at hn
  rcases hn with rfl | rfl <;>
    exact ⟨rfl, ⟨rfl, rfl, rfl, rfl, rfl, rfl, rfl, by decide⟩, ⟨rfl, by decide, by decide, by decide, rfl, by decide, by decide⟩, rfl,
      by decide, by decide, by decide, by decide⟩

/-! ### Queues, the caster and residency -/

/-- A LAUNCH record for CODE 0x4040: one group, 4,096 bytes of spawn memory. -/
def rec0 : Record := { w0 := 0x4040, w1 := 0x9000, w2 := 0, w3 := 0 }

/-- Its descriptor: one name block; the queues on. -/
def dieQ : Die :=
  { die0 with
    qen := 1
    mem := [(0x4000, 0x4B), (0x4001, 0x45), (0x4002, 0x52), (0x4003, 0x4E), (0x4004, 1)] }

/-- Die 0 changed, nothing running. -/
def stD (d : Die) (e : Ev) : State := State.at_ { dies := [(0, d)], nextId := 10 } e

theorem meets_aperture : (let s := stD dieQ (.apertureWrite 0 0x40 (leBytes 32 0x4040))
      (s.die 0).inReset = false ∧ (s.die 0).qen.getLsbD 0 = true ∧ (leBytes 32 0x4040).length = 32 ∧ 0x40 % 32 = 0
      ∧ (s.die 0).staging.length < 64 ∧ s.posted = [] ∧ countRoom s.dieItems 0 (Record.ofBytes (leBytes 32 0x4040)).region = true)
    ∧ (stD die0 (.apertureWrite 0 0x41 [])).event = some (.apertureWrite 0 0x41 [])
    ∧ ((stD die0 (.apertureWrite 0 0x41 [])).die 0).qen.getLsbD 0 = false ∧ 0x41 % 32 ≠ 0 := by decide

theorem meets_staging : let s := stD { dieQ with staging := [rec0] } (.apertureStagingTransfer 0)
    s.event = some (.apertureStagingTransfer 0) ∧ (s.die 0).staging = [rec0] ∧ s.ringRoom 0 rec0 = true := by decide

/-- A record at level 0 since tick 0. -/
def q0 : QRec := { id := 7, record := rec0 }
def stAge : State := stD { dieQ with queues := [(0, [q0])], ticks := 800 } (.recordAgeing 0 7)

theorem meets_ageing : stAge.event = some (.recordAgeing 0 7) ∧ (stAge.die 0).levelHolding 7 = some (0, q0)
    ∧ q0.since + 800 * (0 - q0.level + 1) ≤ (stAge.die 0).ticks := by decide

theorem meets_retry : let s := stD { dieQ with heldPush := [(7, q0)] } (.contRingPushRetry 0 7)
    s.event = some (.contRingPushRetry 0 7) ∧ (s.die 0).heldPush.find? (fun x => x.1 == 7) = some (7, q0)
    ∧ s.ringRoom 0 q0.record = true ∧ (s.pushCounts 0 7 q0.record.region).isSome = true := by decide

theorem meets_ack : let s := State.at_ { links := [(8, [.ack 7])] } (.contPushAck 0 7)
    s.event = some (.contPushAck 0 7) ∧ (s.link 1 0).head? = some (.ack 7) ∧ s.linkOpen 1 0 = true := by decide

/-- A choice, seen as far as its kind. -/
def chose (s : State) (loc : Nat) : Option (Nat × Nat) :=
  (({ s with event := none } : State).choose loc).1.map fun x => (x.1.id, match x.2 with
    | .wait => 0
    | .bad _ => 1
    | .launch _ => 2
    | .resume .. => 3)

theorem chose_of {s : State} {loc i k : Nat} (h : chose s loc = some (i, k)) :
    ∃ s1 q v, ({ s with event := none } : State).choose loc = (some (q, v), s1) ∧ q.id = i
      ∧ k = (match v with
        | .wait => 0
        | .bad _ => 1
        | .launch _ => 2
        | .resume .. => 3) := by
  unfold chose at h
  cases hc : ({ s with event := none } : State).choose loc with
  | mk o s1 =>
    cases o with
    | none => simp [hc] at h
    | some x =>
      simp only [hc, Option.map_some, Option.some.injEq, Prod.mk.injEq] at h
      exact ⟨s1, x.1, x.2, rfl, h.1, h.2.symm⟩

def stPop (d : Die) (e : Ev) : State := stD { d with queues := [(0, [q0])] } e

/-- Every spill area of core 0 lies in the die's HBM after the choice. -/
def spillsOk (s : State) : Bool :=
  (List.range 48).all fun n => !(({ s with event := none } : State).choose 0).2.spillBad 0 n

theorem spills_of {s s1 : State} {x : Option (QRec × Verdict)} (h : spillsOk s = true)
    (hc : ({ s with event := none } : State).choose 0 = (x, s1)) : ∀ n < 48, s1.spillBad 0 n = false := by
  intro n hn
  have := List.all_eq_true.1 h n (List.mem_range.2 hn)
  simpa [hc] using this

theorem meets_pop : ∃ s1 q k, ({ stPop dieQ (.contPop 0) with event := none } : State).choose 0 = (some (q, .launch k), s1)
    ∧ ∀ n < 48, s1.spillBad 0 n = false := by
  obtain ⟨s1, q, v, h, -, e⟩ := chose_of (s := stPop dieQ (.contPop 0)) (loc := 0) (i := 7) (k := 2) (by decide +kernel)
  cases v with
  | launch k => exact ⟨s1, q, k, h, spills_of (by decide +kernel) h⟩
  | _ => simp at e

/-- No descriptor stands before CODE: the record is invalid. -/
theorem meets_bad_pop : ∃ s1 q c, ({ stPop { dieQ with mem := [] } (.contPop 0) with event := none } : State).choose 0 = (some (q, .bad c), s1)
    ∧ (let x := if (s1.rgn? 0 q.record.region).isSome then some q.record.region else none
       s1.DieQueue 0 x x) := by
  obtain ⟨s1, q, v, h, -, e⟩ := chose_of (s := stPop { dieQ with mem := [] } (.contPop 0)) (loc := 0) (i := 7) (k := 1) (by decide +kernel)
  cases v with
  | bad c =>
    refine ⟨s1, q, c, h, ?_⟩
    have hs : s1 = (({ stPop { dieQ with mem := [] } (.contPop 0) with event := none } : State).choose 0).2 := by rw [h]
    have hq : q = ((({ stPop { dieQ with mem := [] } (.contPop 0) with event := none } : State).choose 0).1.map (·.1)).getD q0 := by rw [h]; rfl
    have hr : (if (s1.rgn? 0 q.record.region).isSome then some q.record.region else none) = some 0 := by rw [hs, hq]; decide +kernel
    rw [hr, hs]
    show State.DieQueue _ 0 (some 0) (some 0)
    exact die_queue (by decide +kernel) (by decide +kernel) (by decide +kernel) (by decide +kernel) (by decide +kernel)
  | _ => simp at e

/-- A RESUME record and the save area of one group at 0x100000, in host memory. -/
def stResume : State :=
  let g : Group := { grp rs rs with gindex := 0 }
  let m : Memory := [(0x4000, 0x4B), (0x4001, 0x45), (0x4002, 0x52), (0x4003, 0x4E), (0x4004, 1)]
  State.at_ {
    dies := [(0, { dieQ with
      tlb := [tr0, { tr0 with holder := 2048, frame := 2 ^ 47 }], mem := m
      queues := [(0, [{ id := 7, record := { rec0 with w1 := 0x100000, w3 := 0x4000000 } }])] })]
    hostMem := [(0x100000, 0x4B), (0x100001, 0x43), (0x100002, 0x54), (0x100003, 0x58), (0x100004, 1)]
    saved := [{ id := 3, die := 0, area := 0x100000, wg := { wg1 with savedGroups := [(2, g)] }, engine := none }], nextId := 10 }
    (.resumePop 0)

theorem chose_resume {s : State} {loc i : Nat} (h : chose s loc = some (i, 3)) :
    ∃ s1 q k v x, ({ s with event := none } : State).choose loc = (some (q, .resume k v x), s1) := by
  obtain ⟨s1, q, v, h, -, e⟩ := chose_of h
  cases v with
  | resume k v x => exact ⟨s1, q, k, v, x, h⟩
  | _ => simp at e

/-- One evaluation of the choice for both. -/
theorem resume_seen : (spillsOk stResume && chose stResume 0 == some (7, 3)) = true := by decide +kernel

theorem meets_resume : ∃ s1 q k v x, ({ stResume with event := none } : State).choose 0 = (some (q, .resume k v x), s1)
    ∧ ∀ n < 48, s1.spillBad 0 n = false := by
  have e := Bool.and_eq_true_iff.1 resume_seen
  obtain ⟨s1, q, k, v, x, h⟩ := chose_resume (beq_iff_eq.1 e.2)
  exact ⟨s1, q, k, v, x, h, spills_of e.1 h⟩

/-- A thread of rank 0 cast to 0x6000 that waits for nothing any more. -/
def stCasting : State :=
  State.at_ { st with groups := [(2, { grp rs rs with
    paths := [{ pc := 0x1000, mask := 2 }], casting := [{ pc := 0x6000, mask := 1, branch := 0xFF8 }] })] } (.deferredCast 2 0)

theorem meets_cast : let g := { grp rs rs with
      paths := [{ pc := 0x1000, mask := 2 }], casting := [{ pc := 0x6000, mask := 1, branch := 0xFF8 }] }
    stCasting.event = some (.deferredCast 2 0) ∧ stCasting.group? 2 = some g
    ∧ g.casting.find? (fun x => x.mask.getLsbD 0 && x.party.isNone) = some { pc := 0x6000, mask := 1, branch := 0xFF8 }
    ∧ Tab.find? g.threads 0 = some (thr 0 rs) ∧ stCasting.busy (thr 0 rs).tid = false ∧ stCasting.wg? 1 = some wg1
    ∧ itemBytes wg1.nb wg1.items + 320 + 32 * wg1.nb ≤ (wg1.spw + 1) * 4096
    ∧ ∀ e ∈ stCasting.groups, e.2.loc = g.loc → e.2.stored = true → stCasting.spillBad e.2.loc e.2.slot = false := by decide

/-- `n` items at 0x4000 and one group to form. -/
def wgN (n : Nat) : Workgroup := { wg1 with gmax := 3, items := spawnsOf n }
def stForm (n : Nat) (e : Ev) : State := State.at_ { st with wgs := [(1, wgN n)] } e

theorem meets_form : (stForm 32 (.casterFormGroup 1 0x4000)).wg? 1 = some (wgN 32)
    ∧ (wgN 32).lists.find? (fun x => (stForm 32 (.casterFormGroup 1 0x4000)).listReady 1 (wgN 32) x
        && (stForm 32 (.casterFormGroup 1 0x4000)).canForm 1 (wgN 32) x) = some 0x4000
    ∧ (stForm 32 (.casterFormGroup 1 0x4000)).spillBad 0 ((stForm 32 (.casterFormGroup 1 0x4000)).nextSlot 0) = false
    ∧ (stForm 2 (.casterTimeout 1 0x4000)).spillBad 0 ((stForm 2 (.casterTimeout 1 0x4000)).nextSlot 0) = false
    ∧ (stForm 2 (.casterTimeout 1 0x4000)).wg? 1 = some (wgN 2) ∧ (wgN 2).lists = [0x4000]
    ∧ (stForm 2 (.casterTimeout 1 0x4000)).canForm 1 (wgN 2) 0x4000 = true
    ∧ (State.at_ { st with wgs := [(1, { wgN 2 with gmax := 0 })] } (.casterTimeout 1 0x4000)).canForm 1 { wgN 2 with gmax := 0 } 0x4000
        = false := by decide +kernel

/-- An overflowed item. -/
def wgOver1 : Workgroup := { wg1 with overflow := [(99, .spawn 0x4000 1 2)] }

theorem meets_return : let s := State.at_ { st with wgs := [(1, wgOver1)] } (.overflowReturn 1)
    s.wg? 1 = some wgOver1 ∧ wgOver1.overflow = [(99, .spawn 0x4000 1 2)]
    ∧ itemBytes wgOver1.nb wgOver1.items + (Item.spawn 0x4000 1 2).size wgOver1.nb ≤ (wgOver1.spw + 1) * 4096 := by decide

/-- A workgroup with no group left, and a JOIN of `j`; 2 stands at 0x2000. -/
def stOver (j : DWord) : State :=
  State.at_ { st with groups := [], wgs := [(1, { wg1 with join := j })], dies := [(0, { die0 with mem := [(0x2000, 2)] })] } (.workgroupFinish 1)

theorem meets_finish : (stOver 0).wgOver 1 { wg1 with join := 0 } = true ∧ (stOver 0x2000).wgOver 1 { wg1 with join := 0x2000 } = true
    ∧ ∃ pa ty s1, (({ stOver 0x2000 with event := none } : State).releaseWg 1 { wg1 with join := 0x2000 }).check (wg1.loc / 256) wg1.loc
          .writeAt rcSc (some (wg1.loc % 256)) 0x2000 = (.ok pa ty, s1)
      ∧ hbmDie pa = some 0 ∧ isCwPa pa = false ∧ pa % 64 = 0 ∧ (s1.frame pa).hold = 0 ∧ s1.readPaLe pa 4 ≠ 0
      ∧ s1.readPaLe (pa + 4) 28 = 0 :=
  ⟨by decide, by decide, 0x2000, 0, _, rfl, by decide, by decide, by decide, by decide, by decide, by decide⟩

/-- A group at a barrier in slot 0 and a stored one in slot 4. -/
def gIn : Group := { grp rs rs with slot := 4, stored := true }
def gOut : Group := { grp rs rs with paths := [{ pc := 0x1000, mask := 3, wait := .bar 2 }] }
def stRes (e : Ev) : State := State.at_ { st with groups := [(2, gOut), (3, gIn)] } e

theorem meets_exchange : (stRes (.residencyExchange 0 2 3)).group? 2 = some gOut ∧ (stRes (.residencyExchange 0 2 3)).group? 3 = some gIn
    ∧ stageOf gOut.slot = stageOf gIn.slot
    ∧ (∀ p ∈ gOut.paths, ({ stRes (.residencyExchange 0 2 3) with event := none } : State).idlePath gOut p = true)
    ∧ (stRes (.residencyTimeout 0 3)).stageWords 0 (stageOf gOut.slot) + (stRes (.residencyTimeout 0 3)).groupWords gIn ≤ 2048
    ∧ (stRes (.residencyTimeout 0 3)).spillBad 0 gOut.slot = false ∧ (stRes (.residencyTimeout 0 3)).spillBad 0 gIn.slot = false := by
  decide +kernel

/-- Tables from the root at 0: pages from 0 up to 2^30. -/
def tables : Memory := [(0, 1), (2, 1), (0x10000, 1), (0x10002, 2), (0x20000, 0xF3), (0x20001, 0x19)]

theorem meets_walk : let s := State.at_ { dies := [(0, { Die.reset 0 with mem := tables })] } (.translationWalk 0 0 0x4000)
    (0x4000 : DWord).toNat < 2 ^ 56 ∧ s.peerOf 0 0x4000 = none ∧ s.cached 0 0 (s.space 0).2 0x4000 none = none
    ∧ (s.walk 0 (s.space 0).1 (s.space 0).2 0x4000).1 = .ok 0 (2 ^ 30) 0 0x19F3 0x20000 := by decide

/-- Slot 2 of die 0 maps export 0 of die 1, KEY 5, at 2^32. -/
def slot2 : PeerSlot := { valid := true, word0 := 2 ^ 62 + 5, word1 := 2 ^ 32, word2 := 1 + 7 * 2 ^ 40 }
def stPeer : State := State.at_ { dies := [
    (0, { Die.reset 0 with peers := [(2, slot2)] }),
    (1, { Die.reset 1 with
      expBase := 103079477248, rootBase := 103079215104,
      mem := [(103079215104, 1), (103079215106, 1), (103079215108, 0x18), (103079280640, 1), (103079280642, 2), (103079280644, 0x18),
        (103079346176, 0xF3), (103079346177, 0x19), (103079346180, 0x18), (103079477248, 0xF), (103079477252, 1), (103079477264, 5)] })] }
    (.peerTranslation 0 0 0x100004000)

theorem meets_peer : stPeer.peerOf 0 0x100004000 = some (2, slot2) ∧ stPeer.cached 0 0 (stPeer.die 0).sid 0x100004000 (some 2) = none
    ∧ slot2.word0.toNat / 2 ^ 62 = 1 ∧ slot2.word0.toNat / 2 ^ 52 % 1024 = 0 ∧ slot2.word0.toNat % 2 ^ 52 = 5
    ∧ stPeer.export? 1 0 5 = some (7, 0, 1, 0) ∧ 0x4000 < 1 * 2 ^ 23 ∧ 0 + 0x4000 < 2 ^ 56
    ∧ (stPeer.walk 1 (stPeer.die 1).rootBase.toNat 0 0x4000).1 = .ok 0 (2 ^ 30) 103079215104 0x18000019F3 103079346176 := by decide +kernel

/-! ### Lumens and time -/

/-- A starving group of core 0, which is flagged, in mid revolution or at its end. -/
def stLum (pos rev : Nat) (e : Ev) : State :=
  State.at_ { st with
    groups := [(2, { grp rs rs with paths := [{ pc := 0x1000, mask := 3, lumBlocked := true, lumWait := 3 }] })], cores := [(0, { purse := 8000, flagged := true })]
    dies := [(0, { Die.reset 0 with ringPos := pos, revolutions := rev, share := 500, reservePool := 100, openPool := 50, pricePend := [(1, 5)] })] } e

theorem meets_boundary : (let s := stLum 128 3 (.revolutionBoundary 0)
      s.event = some (.revolutionBoundary 0) ∧ (s.die 0).inReset = false ∧ 128 ≤ (s.die 0).ringPos ∧ (1, 5) ∈ (s.die 0).pricePend
      ∧ (∀ e ∈ (s.die 0).pricePend, e.1 = 1 → e.2 = 5) ∧ (∀ e ∈ (s.die 0).pricePend, e.1 ≠ 2)
      ∧ ∃ g, s.group? 2 = some g ∧ g.loc / 256 = 0 ∧ g.steward = false ∧ g.slot < 48 ∧ s.ready 2 g = true ∧ ∃ p ∈ g.paths, p.lumReady = true ∧ 3 ≤ p.lumWait)
    ∧ (State.reset.die 0).revolutions = 0
    ∧ let s := stLum 0 3 (.ringCycleDraw 0)
      (s.die 0).inReset = false ∧ (s.die 0).ringPos < 128 ∧ (s.die 0).revolutions ≠ 0 ∧ (s.core 0).flagged = true :=
  ⟨⟨rfl, rfl, by decide, by decide, by decide, by decide, _, rfl, by decide, rfl, by decide, by decide, by decide⟩, by decide, by decide⟩

theorem meets_grants : (State.at_ st (.budgetInterval 700)).event = some (.budgetInterval 700)
    ∧ (State.at_ st (.grantLevelChange 0 16)).event = some (.grantLevelChange 0 16) ∧ 16 ∈ [16, 32, 48, 64]
    ∧ (State.at_ st (.droopReport 0)).event = some (.droopReport 0)
    ∧ let s := State.at_ { st with clusters := [(0, { droop := true })], dies := [(0, { Die.reset 0 with ticks := 64 })] } (.droopHoldEnd 0)
      (s.cluster 0).droop = true ∧ (s.cluster 0).droopAt + 64 ≤ (s.die (0 / 32)).ticks :=
  ⟨rfl, rfl, by decide, rfl, by decide⟩

/-- A tick in a cluster in droop hold, and one in a running cluster. -/
def stTick (b : Bool) : State := State.at_ { st with clusters := [(0, { droop := b })] } (.referenceTick 0)

theorem meets_tick : ∀ b, (stTick b).wg? 1 = some wg1 ∧ wg1.loc / 256 = 0
    ∧ (((stTick b).cluster (locCluster wg1.loc)).droop || (stTick b).lumensHold 1) = b := by decide

/-- Region 5 has a watchdog index of 10; its report block is `w`. -/
def stWdog (w : Workgroup) (e : Ev) : State :=
  State.at_ { st with
    wgs := [(1, w)], dies := [(0, { die0 with regions := [(5, { words := [0, 0, 0, 0, 0, 10 * 2 ^ 32] })] })] } e

theorem meets_wdog : let w := { wg1 with region := 5, wdogAcc := 2560 }
    (stWdog w (.workgroupWdogExpiry 1)).wg? 1 = some w
    ∧ (∃ b, (stWdog w (.workgroupWdogExpiry 1)).rgn? (w.loc / 256) w.region = some b ∧ b.wdog ≠ 0 ∧ 256 * b.wdog ≤ w.wdogAcc)
    ∧ w.wdogFired = false ∧ (stWdog w (.workgroupWdogExpiry 1)).DieQueue (w.loc / 256) (some w.region) (some w.region) :=
  ⟨by decide, ⟨_, rfl, by decide, by decide⟩, rfl, die_queue rfl (by decide) (by decide) (by decide) rfl⟩

/-- A task of one core that runs on core 0; `ws` are its record's doublewords. -/
def task0 (ws : List DWord) : Task :=
  { id := 4, words := ws, addr := 0, region := 0, die := 0, cluster := 0, wg := 1, gid := 2, pc := 0x1000, mode := 0, cores := [0]
    pa := pat0, pb := pat0, pcEnt := pat0 }
def stTask (t : Task) (n : Engine) (e : Ev) : State :=
  State.at_ { st with clusters := [(0, { tasks := [t] })], cores := [(0, { purse := 8192, engine := n })], dies := [(0, die0)] } e

theorem meets_engine_wdog : let s := stTask (task0 []) { owner := .task 4, wdogAcc := 25600000 } (.engineTaskWdogExpiry 0)
    (s.core 0).engine.owner = .task 4 ∧ s.task? 4 = some (0, task0 []) ∧ 25600000 ≤ (s.core 0).engine.wdogAcc
    ∧ s.DieQueue (0 / 256) (some (task0 []).region) (some (task0 []).region) :=
  ⟨rfl, rfl, by decide, die_queue rfl rfl (by decide) rfl rfl⟩

theorem meets_steward_wdog : let s := State.at_ { xdies := [(4, { wdog := [(2, 2560000000)] })] } (.stewardWdogExpiry 4 2)
    s.event = some (.stewardWdogExpiry 4 2) ∧ 2560000000 ≤ Tab.getD (s.xdie 4).wdog 2 0 := by decide

/-- Two candidates of slice 3. -/
def stHot : State := State.at_ { dies := [(0, { Die.reset 0 with hotBase := 0x8000, hot := [(hotKey 3 5 0, 9)], hotCand := [(3, [5, 4])] })] } (.hotnessIntervalEnd 0)

theorem meets_hot : (∀ k < 8192, hbmDie ((stHot.die 0).hotBase.toNat + k) = some 0 ∧ isHostPa ((stHot.die 0).hotBase.toNat + k) = false
      ∧ (stHot.frame ((stHot.die 0).hotBase.toNat + k)).hold = 0)
    ∧ ((stHot.die 0).hotCand.map (·.1)).Nodup
    ∧ ∀ e ∈ (stHot.die 0).hotCand, e.1 < 32 ∧ e.2.length ≤ 32 ∧ ∀ n ∈ e.2, n < 2 ^ 31 := by
  refine ⟨fun k hk => ?_, by decide, by decide⟩
  have h : (stHot.die 0).hotBase.toNat = 0x8000 := rfl
  have e : hbmDie (0x8000 + k) = some 0 := by
    simp only [hbmDie, Config.frameBytes, Config.framesPerDie]
    have : (0x8000 + k) / 131072 = 0 := by omega
    simp [this]
  rw [h]
  refine ⟨?_, ?_, by rw [State.frame, e]; simp only; split <;> rfl⟩
  · simp only [hbmDie, Config.frameBytes, Config.framesPerDie]
    have : (0x8000 + k) / 131072 = 0 := by omega
    simp [this]
  · simp only [isHostPa]
    have : (0x8000 + k) / 2 ^ 47 % 2 = 0 := by omega
    simp only [this]; rfl

/-- A region 5 whose launch is over; its CREC is `a`. -/
def stCrec (a : DWord) : State :=
  State.at_ { dies := [(0, { die0 with tlb := [tr0, { tr0 with holder := 2048 }], regions := [(5, { words := [0, 0, 0, 0, 0, 0, a] })] })]
              regionRuns := [(5, { active := true })] } (.completionReport 5)

theorem meets_crec : ∀ a ∈ [(0 : DWord), 0x3000], ((stCrec a).run 5).active = true ∧ ((stCrec a).run 5).party = none ∧ (stCrec a).treeBusy 5 = false
    ∧ ∃ b, (stCrec a).rgn? ((stCrec a).homeOf 5) 5 = some b ∧ b.crec = a := by
  intro a ha
  simp only [List.mem_cons, List.not_mem_nil, or_false] at ha
  rcases ha with rfl | rfl <;> exact ⟨by decide, by decide, by decide, _, rfl, by decide⟩

def crecC : Checked := ({ stCrec 0x3000 with event := none } : State).unitRange 0 2048 { acc := .write, write := true, size := 32 } 0x3000 32
def crecF (k : Nat) : Frag := { off := k, size := 16, va := 0x3000 + k, pa := 0x3000 + k }

theorem meets_crec_write : crecC.stall = false ∧ crecC.hits = [] ∧ crecC.frags = [crecF 0, crecF 16] ∧ (crecF 16).pa = (crecF 0).pa + 16
    ∧ (∀ k < 32, hbmDie ((crecF 0).pa + k) = some 0 ∧ isHostPa ((crecF 0).pa + k) = false)
    ∧ ∃ s1, crecC.s.unitPuts 0
        [(crecF 0, ((stCrec 0x3000).completionBytes 0 5).take 16), (crecF 16, ((stCrec 0x3000).completionBytes 0 5).drop 16)] = .ok s1 :=
  ⟨by decide, by decide, by decide +kernel, rfl, by decide, ok_of (by decide +kernel)⟩

/-! ### Tasks and engines -/

def queued (t : Task) : Task := { t with cores := [] }

theorem meets_start : let s := stTask (queued (task0 [])) {} (.taskStart 0)
    s.seqLoading 0 = false ∧ (s.cluster 0).tasks.find? (fun y => s.taskReady y && (s.place 0 y).isSome) = some (queued (task0 []))
    ∧ s.place 0 (queued (task0 [])) = some [0] ∧ [0].Nodup ∧ (s.core 0).engine.owner = .free := by decide

/-- A gang of two rows. -/
def gang2 : Task := queued (task0 [0x1000000000])

theorem meets_gang : let s := State.at_ { st with clusters := [(0, { tasks := [gang2], oldest := some (4, 10) })], dies := [(0, { die0 with ticks := 810 })] } (.gangReserve 0)
    s.oldestReady 0 = some gang2 ∧ (s.cluster 0).oldest = some (gang2.id, 10) ∧ gang2.gh * gang2.gw ≠ 1 ∧ 10 + 800 ≤ (s.die 0).ticks := by decide

/-- A task that has ended; its gate field names gate 7. -/
theorem meets_task_end : let t := { task0 [0x8000000000000] with ended := [0] }
    let s := stTask t { owner := .task 4 } (.taskEnd 4)
    s.task? 4 = some (0, t) ∧ t.cores ≠ [] ∧ (∀ l ∈ t.cores, l ∈ t.ended) ∧ t.at_ 6 2 = 8 ∧ (s.core 0).engine.owner = .task 4 := by decide

/-- The sequencer stands at a state `w`; KEND is 8. -/
def stSeq (w : DWord) : State := stTask (task0 [0, 0x800000000]) { owner := .task 4, table := [(0, w)] } (.sequencerStep 0)

theorem meets_seq : ([0, 0x400000000, 0x800000000, 0x1400000000, 0x1003, 0x1006, 9].all fun w => let s := stSeq w
    (s.core 0).engine.owner == .task 4 && s.task? 4 == some (0, task0 [0, 0x800000000]) && !(task0 [0, 0x800000000]).ended.contains 0
    && !(s.core 0).engine.syncQueued && (s.core 0).engine.stateWord == w.toNat
    && min (stKcnt w.toNat) ((task0 [0, 0x800000000]).kEnd - (s.core 0).engine.seqKC) != 0 && s.ladleRoom 0 0 0 && !s.feedsLeft 0 4
    && [0, 3, 6, 9].contains (Machine.stCmd w.toNat) && [0, 1, 2, 5].contains (stCond w.toNat)) = true := by decide +kernel

/-- One line of ones and its entry of each FIFO. -/
def line1 : FifoLine := { elems := List.replicate 32 1 }
def entA (f : Nat) : FifoEntry := { pat := 0, fmt := f, spn := 0, feed := { id := 0 }, lines := List.replicate 128 line1 }
def entB (f : Nat) : FifoEntry := { pat := 0, fmt := f, spn := 0, feed := { id := 0 }, lines := List.replicate 64 line1 }

/-- A pattern of BF16. -/
def patBf : List Byte := pat0.take 0x30 ++ [2] ++ pat0.drop 0x31

def mma1 : MxMmaF := { pa := 0, pb := 0, pc := 0, sg := 0, sb := 0, row0 := 127, cb := 0, k := 1 }
def cmd (i : Instr) (p : List Byte) : EngCmd := { id := 6, instr := i, wg := 1, gid := 2, region := 0, pc := 0x1000, pa := p, pb := p, pcEnt := p }
def stEng (c : EngCmd) (a b : List FifoEntry) (e : Ev) : State :=
  State.at_ { st with cores := [(0, { purse := 8192, engine := { owner := .wg 1, queue := [c], fifoA := a, fifoB := b } })], dies := [(0, die0)] } e

theorem heads (c : EngCmd) (a b : List FifoEntry) (e : Ev) (h : c.party = none) : (stEng c a b e).Heads 0 c := ⟨⟨[], rfl⟩, rfl, h⟩

theorem meets_kgroup : ([(pat0, 7), (patBf, 2)].all fun p => let c := cmd (.mxMma mma1) p.1
    let s := stEng c [entA p.2] [entB p.2] (.engineKgroupStep 0)
    c.product? == some (mma1, false) && decide (c.done < kCount mma1.k) && c.patOk && !c.skip && decide (mma1.cb.toNat < 3)
    && (s.core 0).engine.fifoA == [entA p.2] && (s.core 0).engine.fifoB == [entB p.2] && (entA p.2).tagged mma1.pa c.pa
    && (entB p.2).tagged mma1.pb c.pb && !((s.core 0).engine.block mma1.cb.toNat).clash c.pcEnt && !(entA p.2).tooMany
    && (s.core 0).engine.stepFails.length < 2 && (entA p.2).lines != [] && (entB p.2).lines != []
    && !(entA p.2).badScale && !(entB p.2).badScale && c.paid + 1 == c.passes && decide ((s.die 0).price (stepPrice c.pa) ≤ 8192)
    && s.licensed 0 0 c.region ((s.die 0).price (stepPrice c.pa))) = true := by decide +kernel

/-- The same where two checks of the K-group have failed. -/
def stEngFail : State :=
  State.at_ { st with
    cores := [(0, { purse := 8192, engine := { owner := .wg 1, queue := [cmd (.mxMma mma1) pat0], fifoA := [entA 7], fifoB := [entB 7], stepFails := [0, 1] } })]
    dies := [(0, die0)] } (.engineKgroupStep 0)

theorem meets_engine_recast : stEngFail.Heads 0 (cmd (.mxMma mma1) pat0) ∧ (cmd (.mxMma mma1) pat0).task = none
    ∧ (stEngFail.core 0).engine.stepFails = [0, 1] ∧ stEngFail.licensed 0 0 0 ((stEngFail.die 0).price (stepPrice pat0)) = true
    ∧ stEngFail.DieQueue 0 (some 0) (some 0) :=
  ⟨⟨⟨[], rfl⟩, rfl, rfl⟩, rfl, rfl, by decide, die_queue rfl rfl (by decide) rfl rfl⟩

/-- Lines of the witnesses: element values of either format, finite ones. -/
theorem meets_lines : fixedMode pat0 = true ∧ fixedMode patBf = false ∧ patFmt patBf ≠ 4 ∧ (∀ v ∈ line1.expand, v < 256) ∧ (∀ v ∈ line1.elems, v < 256)
    ∧ finiteLines (elemFmt 2) (elemFmt 2) line1 line1 := by
  refine ⟨by decide, by decide, by decide, by decide, by decide, ?_, ?_⟩ <;> decide

theorem meets_retire : (stEng (cmd (.mxGang 2) pat0) [] [] (.engineCommandRetire 0)).Heads 0 (cmd (.mxGang 2) pat0)
    ∧ (let c := { cmd (.mxMma mma1) pat0 with done := 1 }
       c.product? = some (mma1, false) ∧ kCount mma1.k ≤ c.done)
    ∧ (cmd (.mxZero { sb := 1, row0 := 0, cb := 2 }) pat0).task = none := ⟨heads _ _ _ _ rfl, ⟨rfl, by decide⟩, rfl⟩

def ldF : MxLoadF := { a := 2, pc := 0, sg := 0, sb := 0, row0 := 127, cb := 2 }
def stLoad : State := stEng (cmd (.mxLoad ldF) pat0) [] [] (.engineCommandRetire 0)
def loadSeen : List (List Frag) × Checked :=
  State.unitRanges { stLoad with event := none } 0 0 { acc := .read, size := fmtSize (patOfmt pat0), matrix := true }
    (rowRanges ((cmd (.mxLoad ldF) pat0).rows 0) (fmtSize (patOfmt pat0)))

theorem meets_mx_load : let c := cmd (.mxLoad ldF) pat0
    c.task = none ∧ c.patOk = true ∧ (c.blocks.any fun b => ((stLoad.core 0).engine.block b).clash c.pcEnt) = false
    ∧ loadSeen.2.stall = false ∧ loadSeen.2.hits = [] ∧ (loadSeen.2.s.unitReadAll 0 loadSeen.1).isSome = true := by decide +kernel

theorem meets_suspend : (let s := State.at_ { st with cores := [(0, { engine := { owner := .wg 1, suspend := true } })] } (.engineSuspend 0)
      (s.core 0).engine.suspend = true ∧ (s.core 0).engine.owner = .wg 1 ∧ (s.core 0).engine.mayHalt = true)
    ∧ let t := task0 [0x100000000]
      let s := stTask t { owner := .task 4, suspend := true } (.engineSuspend 0)
      s.task? 4 = some (0, t) ∧ t.sg = 1
        ∧ (∀ l ∈ t.cores, (l ∈ t.ended ∨ (s.core l).engine.mayPause t.sg = true) ∧ (s.core l).engine.owner = .task 4) := by
  decide

theorem meets_suspend_whole : let t := { task0 [0x300000000] with ended := [0] }
    let s := stTask t { owner := .task 4, suspend := true } (.engineSuspend 0)
    s.task? 4 = some (0, t) ∧ t.sg = 3
      ∧ (∀ l ∈ t.cores, (l ∈ t.ended ∨ (s.core l).engine.mayPause t.sg = true) ∧ (s.core l).engine.owner = .task 4) := by decide

/-! ### Ladles and runners -/

/-- A copy of 16 bytes from 0x2000 of memory or of the scratchpad to 0x40 of the scratchpad, the done word at 0x80. -/
def cp (ctl : Word) (done : Nat) (len : Word := 16) : LadleCmd :=
  { id := 6, a := [0x2000, 0, 0x40, 0], b := [len, ctl, 0x80, 7], wg := 1, gid := 2, started := true, done }
def stCp (x : LadleCmd) (e : Ev) : State := State.at_ { st with clusters := [(0, { ladles := [(0, [x])] })], dies := [(0, die0)] } e

theorem meets_ladle_start : (stCp { cp 0 0 with feed := true } (.ladleCommandStart 0 0)).ladle 0 0 = [{ cp 0 0 with feed := true }]
    ∧ ((cp 8 0 0).len ≤ (cp 8 0 0).done ∧ (cp 8 0 0).dv = false)
    ∧ ((cp 12 0).done < (cp 12 0).len ∧ (cp 12 0).ctl / 4 % 2 = 1 ∧ (cp 12 0).ctl / 8 % 2 = 1) ∧ (cp 12 0).dv = false ∧ (cp 28 0).dv = true := by
  decide

def cpFrom : Checked := ({ stCp (cp 8 0) (.ladleCommandStart 0 0) with event := none } : State).unitPart 0 0 { acc := .read } false (0, 16, 0x2000)

theorem meets_ladle_part : (cp 8 0).started = true ∧ (cp 8 0).done < (cp 8 0).len ∧ (cp 8 0).ctl / 4 % 2 = 0 ∧ (cp 8 0).ctl / 8 % 2 = 1
    ∧ cpFrom.stall = false ∧ cpFrom.hits = [] ∧ ∃ f, cpFrom.frags = [f] ∧ hbmDie f.pa = some 0 ∧ cpFrom.s.wsUnwritten f = false :=
  ⟨rfl, by decide, by decide, by decide, by decide, by decide, { off := 0, size := 16, va := 0x2000, pa := 0x2000 }, by decide, by decide, by decide⟩

theorem meets_done_word : let s := stCp (cp 28 16) (.copyDoneWrite 0 0)
    (s.ladle 0 0).head? = some (cp 28 16) ∧ (cp 28 16).feed = false ∧ (cp 28 16).started = true ∧ (cp 28 16).dv = true ∧ (cp 28 16).party = none
    ∧ (cp 28 16).len ≤ (cp 28 16).done := by decide

/-- A feed of one K-group of FIFO B. -/
def fd : LadleCmd := { id := 6, feed := true, a := [0, 0], b := [0, 1], fifo := true, entry := pat0, wg := 1, gid := 2, started := true }
def stFd : State :=
  State.at_ { st with clusters := [(0, { ladles := [(0, [fd])] })], cores := [(0, { engine := { owner := .wg 1 } })], dies := [(0, die0)] } (.ladleFeedPush 0 0)
def fdData : List (List Frag) × Checked :=
  State.unitRanges { stFd with event := none } 0 0 { acc := .read, size := 1, matrix := false } ((List.range fd.lines).map (fd.dataRange 0 0))
def fdScale : List (List Frag) × Checked :=
  fdData.2.s.unitRanges 0 0 { acc := .read } ((List.range fd.lines).map (fd.scaleRange 0 0))

theorem meets_feed_push : (stFd.ladle 0 0).head? = some fd ∧ fd.entry ≠ [] ∧ fd.owned (stFd.core fd.core).engine = true ∧ fmtSize (patFmt fd.entry) = 1
    ∧ fifoBytes true (stFd.core 0).engine.fifoB + entryBytes true (patFmt fd.entry) fd.spn ≤ 65536 ∧ fdData.2.stall = false ∧ fdData.2.hits = []
    ∧ fdScale.2.stall = false ∧ fdScale.2.hits = []
    ∧ (match fdScale.2.s.unitReadAll 0 fdData.1 with
        | some (_, s1) => (s1.unitReadAll 0 fdScale.1).isSome
        | none => false) = true := by
  refine ⟨by decide, by decide, by decide, by decide, by decide, ?_, ?_, ?_, ?_, ?_⟩ <;> decide +kernel

/-- A runner command of 16 bytes; `ctl` bits 1:0 its source's kind, bits 3:2 its destination's. -/
def rc (ctl : Word) : RunCmd :=
  { id := 6, src := 0x2000, dst := 0x4000, len := 16, ctl, scope := 10, region := 0, die := 0, gid := 2, wg := 1, pc := 0x1000, sb := 0, started := true }
def stRc (c : RunCmd) (e : Ev) : State :=
  State.at_ { st with xdies := [(4, { active := [c] })], dies := [(0, { die0 with tlb := [tr0, { tr0 with holder := 2052 }] })] } e

theorem meets_runner_start : let s := State.at_ { xdies := [(4, { queues := [(0, [rc 0])] })] } (.runnerCommandStart 4 0)
    s.runQ 4 0 = [rc 0] ∧ (s.xdie 4).active.length < 8 ∧ ((s.xdie 4).active.filter fun y => y.queue == 0).length < 4
    ∧ ((rc 0).ctl.getLsbD 5 = true → ∀ y ∈ (s.xdie 4).active, y.queue ≠ 0) := by decide

theorem meets_runner_host : let s := stRc (rc 9) (.runnerCommandComplete 4 6 none)
    (s.xdie 4).active.find? (fun c => c.id == 6) = some (rc 9) ∧ (rc 9).party = none ∧ (rc 9).sKind = 1 ∧ (rc 9).dKind = 2 := by decide

def rcFrom : Checked := ({ stRc (rc 4) (.runnerCommandComplete 4 6 none) with event := none } : State).unitRange 0 2052 { acc := .read } 0x2000 16

theorem meets_runner_mem : (rc 4).sKind = 0 ∧ (rc 4).dKind = 1 ∧ (rc 4).len = 16 ∧ rcFrom.stall = false ∧ rcFrom.hits = []
    ∧ ∃ f, rcFrom.frags = [f] ∧ f.size = 16 ∧ hbmDie f.pa = some 0 ∧ rcFrom.s.wsUnwritten f = false :=
  ⟨by decide, by decide, by decide, by decide, by decide, { off := 0, size := 16, va := 0x2000, pa := 0x2000 }, by decide, rfl, by decide, by decide⟩

theorem meets_runner_error : let s := stRc (rc 9) (.runnerCommandComplete 4 6 (some 0))
    0 < 16 ∧ 0 < (rc 9).len ∧ (rc 9).sKind ≠ 0 ∧ (rc 9).die < 4 ∧ (s.logViolation 0 0x2000 1 6 4).DieQueue 0 (some 0) (some 0) :=
  ⟨by decide, by decide, by decide, by decide, die_queue (by decide) (by decide +kernel) (by decide +kernel) (by decide +kernel) (by decide +kernel)⟩

theorem meets_fabric : (rc 13).sKind = 1 ∧ (rc 13).dKind = 3 ∧ (rc 13).len = 16 ∧ (rc 13).party = none
    ∧ ((stRc (rc 13) (.runnerCommandComplete 4 6 none)).xdie 4).active.find? (fun c => c.id == 6) = some (rc 13) := by decide

/-- Ordered adds of two threads to one word. -/
def ord (k : Nat) : OrdItem := { region := 0, pa := 0x2000, windex := 0, rank := k, count := 0, value := 3, die := 0 }
def stOrd : State := State.at_ { dies := [(0, { die0 with ordq := [ord 1, ord 0] })] } (.orderedAddCombine 0 (homeSlice 0x2000) 0)

theorem meets_ordered : (stOrd.die 0).ordq.filter (fun x => x.region == 0 && homeSlice x.pa == homeSlice 0x2000) = [ord 1, ord 0]
    ∧ ∀ x ∈ [ord 1, ord 0], stOrd.regionItems x.die 0 = 0 ∧ x.pa % 4 = 0 ∧ hbmDie x.pa = some 0 ∧ (stOrd.frame x.pa).hold = 0
      ∧ ∀ e < 4, Tab.find? (stOrd.die e).peerLines (x.pa / 128) = none := by decide

/-! ### Links, registers, the package -/

/-- Die 1 holds a copy of frame 3 at its own first frame. -/
def pa1 : Nat := 786432 * 131072
def dup1 : Dup := { holder := 1, copy := pa1, sent := true }
def stDup (u : Dup) (e : Ev) : State := State.at_ { dies := [(0, { Die.reset 0 with dups := [(3, [u])], dupFrame := 3, dupStatus := 1 })] } e

theorem meets_dup : (let s := stDup dup1 (.dupInvalidate 1 3)
      hbmDie (3 * 131072) = some 0 ∧ (Tab.getD (s.die 0).dups 3 []).find? (fun u => u.holder == 1 && u.sent && !u.acked) = some dup1
      ∧ (hbmDie dup1.copy).isSome = true ∧ s.copyBusy 1 (dup1.copy / 131072) = false)
    ∧ let s := stDup { dup1 with acked := true } (.dupAck 0 3)
      Tab.getD (s.die 0).dups 3 [] ≠ [] ∧ (∀ u ∈ Tab.getD (s.die 0).dups 3 [], u.acked = true) ∧ (s.die 0).dupFrame.toNat % 2 ^ 31 = 3
      ∧ (s.die 0).dupStatus = 1 ∧ (s.die 0).late = [] := by decide

/-- A write of die 1 to 0x2000 on its way to die 0, its number `n` among those of die 1. -/
def stWrite (n : Nat) (e : Ev) : State := State.at_ { links := [(8, [.write 0x2000 [7] [0, n, 0, 0, 0, 0] none])] } e

theorem meets_receive : (stWrite 1 (.crossDieWriteReceive 1 0)).link 1 0 = [.write 0x2000 [7] [0, 1, 0, 0, 0, 0] none]
    ∧ (stWrite 1 (.crossDieWriteReceive 1 0)).mayApply 1 0 [0, 1, 0, 0, 0, 0] = true
    ∧ (stWrite 2 (.crossDieWriteReceive 1 0)).mayApply 1 0 [0, 2, 0, 0, 0, 0] = false
    ∧ ((stWrite 1 (.crossDieWriteReceive 1 0)).die 0).inReset = false ∧ 8 * 1 + 0 ∉ (stWrite 1 (.crossDieWriteReceive 1 0)).linkDown
    ∧ ((stWrite 1 (.crossDieWriteReceive 1 0)).die 0).held.any ((stWrite 1 (.crossDieWriteReceive 1 0)).heldDue 0) = false
    ∧ hbmDie 0x2000 = some 0 ∧ isCwPa 0x2000 = false ∧ ((stWrite 1 (.crossDieWriteReceive 1 0)).frame 0x2000).hold = 0 := by decide

theorem meets_beat : let s := State.at_ { links := [(8, [.beat [(7, 3), (1, 5)]])] } (.clockBeatReceive 1 0)
    s.link 1 0 = [.beat [(7, 3), (1, 5)]] ∧ 8 * 1 + 0 ∉ s.linkDown := by decide

theorem meets_held_write : let s := State.at_ { dies := [(0, { Die.reset 0 with held := [(1, .write 0x2000 [7] [0, 1, 0, 0, 0, 0] none)] })] } (.heldWriteApply 0 0)
    (s.die 0).held[0]? = some (1, .write 0x2000 [7] [0, 1, 0, 0, 0, 0] none) ∧ (s.die 0).inReset = false
    ∧ s.mayApply 1 0 [0, 1, 0, 0, 0, 0] = true ∧ (s.frame 0x2000).hold = 0
    ∧ ((s.die 0).held.take 0).any (s.heldDue 0) = false := by decide

theorem meets_registers : (State.at_ State.reset (.budget 0 100)).event = some (.budget 0 100) ∧ (State.at_ State.reset (.qen 0 1)).event = some (.qen 0 1)
    ∧ (State.at_ State.reset (.ringf 0 300)).event = some (.ringf 0 300) ∧ (State.at_ State.reset (.clk 0 31 1500)).event = some (.clk 0 31 1500)
    ∧ (∀ e ∈ State.reset.groups, e.2.stored = false)
    ∧ (State.at_ { clusters := [(3, { clkPend := some 0x112C })] } (.clkApply 3)).event = some (.clkApply 3)
    ∧ ((State.at_ { clusters := [(3, { clkPend := some 0x112C })] } (.clkApply 3)).cluster 3).clkPend = some 0x112C := by decide

/-- A registration of a copy on die 1; a withdrawal of one that stands, and of one that does not. -/
def stDupCmd (f : Nat) (ds : Tab (List Dup)) (e : Ev) : State :=
  State.at_ { dies := [(0, { Die.reset 0 with dupFrame := BitVec.ofNat 64 f, dupCopy := 2 ^ 48 + 0x20000, dups := ds })] } e

theorem meets_dupcmd : (let s := stDupCmd 3 [] (.dupcmdRegister 0)
      hbmDie (3 * 131072) = some 0 ∧ (s.frame (3 * 131072)).typ = 0 ∧ (s.die 0).dupCopy.toNat / 2 ^ 48 % 4 = 1 ∧ 1 ≠ 0 ∧ (s.die 1).offline = false)
    ∧ (let s := stDupCmd 786432 [] (.dupcmdRegister 0)
       (s.die 0).dupFrame.toNat % 2 ^ 31 = 786432 ∧ hbmDie (786432 * 131072) ≠ some 0)
    ∧ (let s := stDupCmd 3 [(3, [{ holder := 1, copy := 0x20000 }])] (.dupcmdWithdraw 0)
       ∃ u ∈ Tab.getD (s.die 0).dups 3 [], u.holder = 1 ∧ u.copy = (s.die 0).dupCopy.toNat % 2 ^ 48)
    ∧ ∀ u ∈ Tab.getD ((stDupCmd 3 [] (.dupcmdWithdraw 0)).die 0).dups 3 [], ¬ (u.holder = 1 ∧ u.copy = 0x20000) := by decide

/-- The image of a stored group in its slot's area from 0x100000 on. -/
def stImages : State := State.at_ { st with groups := [(3, gIn)] } (.spillbase 0 0 0x100000)

theorem meets_images : stImages.event = some (.spillbase 0 0 0x100000) ∧ stImages.groups = [(3, gIn)] ∧ gIn.stored = true ∧ coreDie gIn.loc = 0
    ∧ locCoreOfDie gIn.loc = 0
    ∧ ∀ j < spillImage, hbmDie ((0x100000 : DWord).toNat + spillImage * gIn.slot + j) = some 0
        ∧ isHostPa ((0x100000 : DWord).toNat + spillImage * gIn.slot + j) = false := by
  refine ⟨rfl, rfl, rfl, rfl, rfl, fun j hj => ?_⟩
  rw [show (0x100000 : DWord).toNat + spillImage * gIn.slot = 1146880 from rfl]
  have h : j < 24576 := hj
  constructor
  · simp only [hbmDie, Config.frameBytes, Config.framesPerDie]
    have : (1146880 + j) / 131072 / 786432 = 0 := by omega
    simp [this]
  · simp only [isHostPa]
    have : (1146880 + j) / 2 ^ 47 % 2 = 0 := by omega
    simp only [this]; rfl

theorem meets_window : cwWidth 0 ≠ some 4 ∧ cwWidth 0 = some 8 ∧ (∃ q m f, cwField 0 = some (q, m, f)) :=
  ⟨by decide, by decide, _, _, _, rfl⟩

/-- The photonic port of a die after reset. -/
def p0 : Port := State.reset.port 0 4

theorem meets_port : p0.mapped 15 = false ∧ (ringsOf 0x0000BA9876543200).Nodup = False ∧ (ringsOf 0x0000BA987654321F).Nodup
    ∧ 0 ∈ ringsOf p0.wmap ∧ 0 ∉ ringsOf 0x0000BA987654321F ∧ (0x0000BA987654321F : DWord) ≠ p0.wmap
    ∧ (6 : Word).toNat % 16 ∈ [12, 6, 3] ∧ (6 : Word).toNat % 16 ≠ p0.wactive ∧ 11 < p0.wactive ∧ p0.wactive ∈ [12, 6, 3] ∧ p0.locked 2 = true
    ∧ p0.lockset.toNat % 4096 + p0.lockset.toNat / 2 ^ 16 % 4096 < 3000 := by decide

theorem meets_host : (let s := State.at_ State.reset (.hostWrite 0 0x2000 [1, 2])
      (s.die 0).inReset = false ∧ s.causalReady 4 0 = true ∧ s.link 0 4 = [] ∧ s.posted = []
      ∧ (∀ x < 4, ∀ j < 2, Tab.find? (s.die x).peerLines ((0x2000 + j) / 128) = none)
      ∧ ∀ j < 2, hbmDie (0x2000 + j) = some 0 ∧ isCwPa (0x2000 + j) = false ∧ (s.frame (0x2000 + j)).typ.toNat ≤ 1
        ∧ (s.frame (0x2000 + j)).strand = false ∧ (s.frame (0x2000 + j)).trans = false ∧ (s.frame (0x2000 + j)).hold = 0)
    ∧ ((State.at_ { dies := [(0, { Die.reset 0 with inReset := true })] } (.hostWrite 0 0x2000 [1])).die 0).inReset = true
    ∧ let s := State.at_ State.reset (.hostWrite 0 pa1 [1])
      ((s.hostParts pa1 1).find? (s.hostBad 0 true)).isSome = true ∧ ((s.hostParts pa1 1).find? (s.hostBad 0 false)).isSome = true := by decide

theorem meets_lanes : (let s := State.at_ State.reset (.laneLoss 0 1)
      Tab.getD s.linkReserve 1 2 ≠ 0)
    ∧ (let s := State.at_ { linkReserve := [(1, 0)] } (.laneLoss 0 1)
       Tab.getD s.linkReserve 1 2 = 0 ∧ Tab.getD s.linkLanes 1 32 ≠ 8)
    ∧ (let s := State.at_ { linkReserve := [(1, 0)], linkLanes := [(1, 8)] } (.laneLoss 0 1)
       Tab.getD s.linkReserve 1 2 = 0 ∧ Tab.getD s.linkLanes 1 32 = 8)
    ∧ (State.at_ { linkDown := [1] } (.linkRetrainDone 0 1)).event = some (.linkRetrainDone 0 1) := by decide

theorem meets_offline : (∀ n, (State.at_ State.reset (.dieOffline 0 [3])).event = some (.dieOffline 0 n) → n = [3])
    ∧ (State.reset.die 0).offline = false ∧ hbmDie (3 * 131072) = some 0
    ∧ Tab.getD (State.reset.die 0).reserves 0 0 < 2 ∧ Tab.getD State.reset.linkReserve (8 * 0 + 1) 2 ≠ 0 :=
  ⟨fun _ h => by cases h; rfl, by decide, by decide, by decide, by decide⟩

theorem meets_power : (∃ f, (State.at_ { power := .beacon f } (.mailboxCommand (.dieOffline 0))).power = .beacon f)
    ∧ (State.at_ State.reset (.mailboxCommand (.dieOffline 0))).power = .running
    ∧ (State.at_ State.reset .powerLoss).event = some .powerLoss ∧ (State.at_ { power := .lost } (.checkpointComplete 1 true)).power = .lost
    ∧ (State.at_ { power := .lost } (.checkpointComplete 1 true)).MemoriesWf ∧ 1 / 2 ^ (2 * 0 + (stackOf 0).1) % 2 = 1
    ∧ ((State.at_ st (.warmReset 0)).die 0).held = [] ∧ (State.at_ st (.warmResetEnd 0)).event = some (.warmResetEnd 0)
    ∧ (State.at_ st (.coldReset {})).event = some (.coldReset {}) ∧ fwOk (BringUp.firmware {}) = false
    ∧ (State.at_ State.reset (.mailboxCommand (.budget 0 100))).power = .running := by
  exact ⟨⟨⟨1, 2, 3, 4⟩, rfl⟩, rfl, rfl, rfl, ⟨fun _ => rfl, fun _ _ h => absurd h List.not_mem_nil, fun _ => rfl, rfl, rfl⟩, by decide, rfl, rfl, rfl, by decide, rfl⟩

/-! ### Paths side by side -/

/-- Two paths: that of ranks 0 and 1 at 0x1000, whose predicates and walkers differ, and that of rank 2, `q`. -/
def besideA : Thread := { thr 0 rs with walkers := [(0, { bound := true, base := 0x2000, e := 2, c0 := 3 })] }
def besideB : Thread := { thr 1 rs with preds := 0 }
def stBeside (q : Path) : State :=
  { st with groups := [(2, { grp rs rs with
    threads := [(0, besideA), (1, besideB), (2, thr 2 rs)]
    paths := [{ pc := 0x1000, mask := 3 }, q] })] }

/-- Two paths stand as `Ctx.Beside` asks, as a check. -/
def standBy (c : Ctx) (q : Path) : Bool :=
  c.g.paths == [c.p, q] && c.p.mask &&& q.mask == 0 && c.p.mask != 0 && q.mask != 0 && c.p.chain.isNone && q.chain.isNone && c.p.free
    && q.free && c.g.parked.isNone && c.g.casting == []
    && (List.range 32).all fun r => !c.g.members.getLsbD r || (Tab.find? c.g.threads r).isSome

theorem beside {c : Ctx} {q : Path} (h : standBy c q = true) : c.Beside q := by
  simp only [standBy, Bool.and_eq_true, beq_iff_eq, bne_iff_ne, Option.isNone_iff_eq_none, List.all_eq_true, List.mem_range] at h
  obtain ⟨⟨⟨⟨⟨⟨⟨⟨⟨⟨p, a⟩, b⟩, d⟩, e⟩, f⟩, g⟩, k⟩, l⟩, m⟩, n⟩ := h
  refine ⟨.inl p, ⟨a, b, d⟩, ⟨e, f⟩, ⟨g, k⟩, l, m, fun r hr => ?_⟩
  by_cases h : r < 32
  · simpa [hr] using n r h
  · simp [BitVec.getLsbD_of_ge _ _ (Nat.le_of_not_lt h)] at hr

/-- Ranks 0 and 1 of a path, of which the first alone has the property. -/
theorem two_ranks {l : List (Nat × Thread)} {a b : Thread} {P : Thread → Prop} (h : l = [(0, a), (1, b)]) (pa : P a) (pb : ¬ P b) :
    (∀ r, (1 : Word).getLsbD r = true ↔ ∃ th, (r, th) ∈ l ∧ P th) ∧ ∀ r, (2 : Word).getLsbD r = true ↔ ∃ th, (r, th) ∈ l ∧ ¬ P th := by
  subst h
  have two : ∀ r, (2 : Word).getLsbD r = decide (r = 1) := fun r => by
    rw [show (2 : Word) = BitVec.ofNat 32 (2 ^ 1) from rfl, BitVec.getLsbD_ofNat, Nat.testBit_two_pow]
    by_cases h : r = 1 <;> simp [h, eq_comm]
  refine ⟨fun r => ?_, fun r => ?_⟩
  · rw [show (1 : Word) = 1#32 from rfl, BitVec.getLsbD_one]
    rcases r with _ | _ | r <;> simp [pa, pb]
  · rw [two]
    rcases r with _ | _ | r <;> simp [pa, pb]

/-- The victim of R28, as a check. -/
def victimOk (ps : List (Word × DWord)) (v : Word × DWord) : Bool :=
  ps.contains v && ps.all fun x => x == v || decide (countMask v.1 < countMask x.1) || countMask v.1 == countMask x.1 && decide (x.2 < v.2)

theorem victim {ps : List (Word × DWord)} {v : Word × DWord} (h : victimOk ps v = true) : IsVictim ps v := by
  simp only [victimOk, Bool.and_eq_true, List.contains_iff_mem, List.all_eq_true, Bool.or_eq_true, decide_eq_true_eq, beq_iff_eq] at h
  refine ⟨h.1, fun x hx n => ?_⟩
  rcases h.2 x hx with (e | e) | e
  · exact absurd e n
  · exact .inl e
  · exact .inr e

/-- R28: of three paths of one member each the one with the highest PC is the victim: the other path, or the branch's target. -/
theorem meets_victim : ∀ x ∈ ([(0x3000, 4, 0x3000), (0x800, 1, 0x1030)] : List (DWord × Word × DWord)), ∀ cp ∈ ([0, 1] : List (BitVec 2)),
    let q : Path := { pc := x.1, mask := 4 }
    let i : Instr := .bra { p := 0, ps := true, cp, off := 12 }
    let c := look (stBeside q) i { predR := [0] }
    let ps : List (Word × DWord) := [(4, x.1), (1, c.p.pc + wrap64 (4 * BitVec.toInt (12 : BitVec 19))), (2, c.p.pc + 4)]
    Rdy (stBeside q) i { predR := [0] } ∧ c.Beside q
    ∧ ((∀ r, (1 : Word).getLsbD r = true ↔ ∃ th, (r, th) ∈ c.threads ∧ th.preds.getLsbD 0 = true)
      ∧ ∀ r, (2 : Word).getLsbD r = true ↔ ∃ th, (r, th) ∈ c.threads ∧ ¬ th.preds.getLsbD 0 = true)
    ∧ (ps.map Prod.snd).Nodup ∧ IsVictim ps x.2 ∧ (stBeside q).wg? c.g.wg = some c.w
    ∧ (∀ e ∈ c.g.threads, x.2.1.getLsbD e.1 = true → (stBeside q).busy e.2.tid = false)
    ∧ itemBytes c.w.nb c.w.items + countMask x.2.1 * (320 + 32 * c.w.nb) ≤ (c.w.spw + 1) * 4096 := by
  intro x hx cp hc
  simp only [List.mem_cons, List.not_mem_nil, or_false] at hx hc
  rcases hx with rfl | rfl <;> rcases hc with rfl | rfl <;>
    exact ⟨ready (by decide), beside (by decide), two_ranks (P := fun th => th.preds.getLsbD 0 = true) (a := besideA) (b := besideB) (by decide +kernel) (by decide) (by decide), by decide,
      victim (by decide), rfl, by decide, by decide⟩

/-- The END bit that `bw` reads of walker 0. -/
def walkOver (th : Thread) : Bool :=
  let w : Walker := Tab.getD th.walkers 0 {}
  !w.bound || w.fin

/-- The same of `bw` by walkers; the branch of a loop to a lower address. -/
theorem meets_victim_walkers : let q : Path := { pc := 0x800, mask := 4 }
    let i : Instr := .bw { p := 0, ps := false, cp := 0, off := 0x7FFFA }
    let c := look (stBeside q) i {}
    let ps : List (Word × DWord) := [(4, 0x800), (1, c.p.pc + wrap64 (4 * BitVec.toInt (0x7FFFA : BitVec 19))), (2, c.p.pc + 4)]
    Rdy (stBeside q) i {} ∧ c.Beside q
    ∧ ((∀ r, (1 : Word).getLsbD r = true ↔ ∃ th, (r, th) ∈ c.threads ∧ walkOver th = false)
      ∧ ∀ r, (2 : Word).getLsbD r = true ↔ ∃ th, (r, th) ∈ c.threads ∧ ¬ walkOver th = false)
    ∧ (ps.map Prod.snd).Nodup ∧ IsVictim ps (2, 0x1004) :=
  ⟨ready (by decide), beside (by decide), two_ranks (P := fun th => walkOver th = false) (a := besideA) (b := besideB) (by decide +kernel) (by decide) (by decide), by decide,
    victim (by decide)⟩

/-- R26, R27: a jump forward to the other path, past it, short of it; the other path held by its own transfer or not. -/
theorem meets_jump : (∀ x ∈ ([(0x1040, none), (0x1020, none), (0x3000, none), (0x3000, some 0x1010), (0x1050, some 0x1020)] : List (DWord × Option DWord)),
      let q : Path := { pc := x.1, mask := 4, hold := x.2 }
      Rdy (stBeside q) (.jmp 16) { group := true } ∧ (look (stBeside q) (.jmp 16) { group := true }).Beside q)
    ∧ (0x1000 : DWord) + wrap64 (4 * BitVec.toInt (16 : BitVec 19)) = 0x1040 ∧ Between 0x1000 0x1020 0x1040
    ∧ ¬ Between 0x1000 0x3000 0x1040 ∧ Between 0x1010 0x1040 0x3000 ∧ Between 0x1020 0x1040 0x1050 := by
  refine ⟨fun x hx => ?_, by decide, ?_, ?_, ?_, ?_⟩
  rotate_left
  all_goals try (unfold Between; decide)
  simp only [List.mem_cons, List.not_mem_nil, or_false] at hx
  rcases hx with rfl | rfl | rfl | rfl | rfl <;> exact ⟨ready (by decide), beside (by decide)⟩

/-- A held path at its turn. -/
def stHold : State := { st with groups := [(2, { grp rs rs with paths := [{ pc := 0x1000, mask := 1, hold := some 0x800 }, { pc := 0x900, mask := 2 }] })] }

theorem meets_hold : IssuesWith (.add (l3 3 1 6)) ((l3 3 1 6).form 1 true)
    ∧ stHold.ctx? (.add (l3 3 1 6)) ((l3 3 1 6).form 1 true) = some (look stHold (.add (l3 3 1 6)) ((l3 3 1 6).form 1 true))
    ∧ (look stHold (.add (l3 3 1 6)) ((l3 3 1 6).form 1 true)).p.hold ≠ none :=
  ⟨⟨_, fun _ => rfl⟩, ctx_look (by decide), by decide⟩

/-- `exit` of one path of two: rank 2 stays. -/
theorem meets_exit : let q : Path := { pc := 0x3000, mask := 4 }
    Rdy (stBeside q) .exit {} ∧ (look (stBeside q) .exit {}).p.mask.getLsbD 2 = false
    ∧ (Tab.find? (look (stBeside q) .exit {}).g.threads 2).isSome = true ∧ ∀ e ∈ (stBeside q).groups, e.2.stored = false :=
  ⟨ready (by decide), by decide, by decide, by decide⟩

/-! ### Fault queues, memory and engines -/

/-- R254: the same of an element of a `scatter`. -/
theorem meets_scatter : let o := op0 (.scatter { d := 3, a := 2, b := 1, sb := 0, scope := 0, sz := 2, rmp := 0, sh := 2 }) mb0 []
    let s := stOp o (.storePerformed 5 0 0)
    s.event = some (.storePerformed 5 0 0) ∧ s.op? 5 = some o ∧ o.member? 0 = some mb0 ∧ o.stage = .confirmed ∧ o.aside = false
    ∧ mb0.done = false ∧ mb0.frags[0]? = some fr0 ∧ fr0.done = false ∧ fr0.Plain o 0 ∧ (s.frame fr0.pa).hold = 0
    ∧ fr0.off + fr0.size ≤ 16 ∧ s.blocked 5 o mb0 fr0 = false :=
  ⟨rfl, rfl, rfl, rfl, rfl, rfl, rfl, rfl, plain_frag rfl, by decide, by decide, by decide⟩

/-- `ws.clear` of a part at its home. -/
theorem meets_ws_clear : let o := op0 (.wsClear { a := 2, b := 1, sb := 0, off := 0 }) { mb0 with frags := [{ fr0 with size := 16 }] } []
    let s := stOp o (.storePerformed 5 0 0)
    s.event = some (.storePerformed 5 0 0) ∧ s.Due 5 0 0 o { mb0 with frags := [{ fr0 with size := 16 }] } { fr0 with size := 16 }
    ∧ hbmDie fr0.pa = some 0 ∧ coreDie o.loc = 0 :=
  ⟨rfl, ⟨rfl, rfl, rfl, rfl, rfl, rfl, rfl, by decide⟩, rfl, rfl⟩

/-- A line of an IP frame, which its owner holds with or without changes, or not at all, at the turn of a cache operation. -/
def frIp : Frag := { fr0 with size := 1, typ := 3 }
def stLine (i : Instr) (l : Tab (List Byte × Bool)) : State :=
  { stOp (op0 i { mb0 with frags := [frIp] } []) (.storePerformed 5 0 0) with cores := [(0, { purse := 8192, l1 := l })] }
def caF : CacheF := { a := 2, sb := 0, off := 0 }

theorem meets_cache : ∀ i ∈ ([.spb caF, .wb caF, .fla caF, .inv caF] : List Instr),
    ∀ l ∈ ([[(64, (List.replicate 128 7, true))], [(64, (List.replicate 128 7, false))], []] : List (Tab (List Byte × Bool))),
    (stLine i l).event = some (.storePerformed 5 0 0)
    ∧ (stLine i l).Due 5 0 0 (op0 i { mb0 with frags := [frIp] } []) { mb0 with frags := [frIp] } frIp
    ∧ (stLine i l).flaWaits (op0 i { mb0 with frags := [frIp] } []) { mb0 with frags := [frIp] } frIp = false
    ∧ hbmDie frIp.pa = some 0 ∧ frIp.pa / 128 = 64 ∧ Tab.find? ((stLine i l).core 0).l1 64 = l.head?.map Prod.snd
    ∧ (List.replicate 128 (7 : Byte)).length = 128 ∧ ((stLine i l).core 0).l1.length < 2048 := by
  intro i hi l hl
  simp only [List.mem_cons, List.not_mem_nil, or_false] at hi hl
  rcases hi with rfl | rfl | rfl | rfl <;> rcases hl with rfl | rfl | rfl <;>
    exact ⟨rfl, ⟨rfl, rfl, rfl, rfl, rfl, rfl, rfl, by decide⟩, by decide, by decide, by decide, rfl, rfl, by decide⟩

/-- A null return address (R162), an address off its alignment, the queue full. -/
def stNull : State := two [(2, 0), (3, 0)] [(2, 6)]
def stFull : State := { st with dies := [(0, { Die.reset 0 with mem := [(1, 0x10)] })] }

theorem meets_own_fault : Rdy stNull (.ret 2) { a := .pair 2 }
    ∧ ownFault (.ret 2) stNull (look stNull (.ret 2) { a := .pair 2 }) = some ({ a := .pair 2 }, .nullret, 1)
    ∧ Rdy st (.lds { mem 3 8 2 with off := 2 }) { cls := 1, dst := Fld.ofSz 2 3, full := (Fld.w 8).names, sb := 0 }
    ∧ ownFault (.lds { mem 3 8 2 with off := 2 }) st (look st (.lds { mem 3 8 2 with off := 2 }) { cls := 1, dst := Fld.ofSz 2 3, full := (Fld.w 8).names, sb := 0 })
      = some ({ cls := 1, dst := Fld.ofSz 2 3, full := (Fld.w 8).names, sb := 0 }, .align, 3)
    ∧ stNull.DieQueue 0 (look stNull .nop {}).queue (some 0) ∧ st.DieQueue 0 (look st .nop {}).queue (some 0) :=
  ⟨ready (by decide), rfl, ready (by decide), rfl, die_queue rfl rfl (by decide) rfl rfl, die_queue rfl rfl (by decide) rfl rfl⟩

theorem meets_full_queue : stops stFull (.add (l3 121 1 6)) ((l3 121 1 6).form 1 true) = some (.ill, 3)
    ∧ stFull.faultQueue 0 (look stFull .nop {}).queue = none
    ∧ (stFull.readPaLe 0 4 + 2 ^ 32 - stFull.readPaLe 4 4) % 2 ^ 32 = 4096 := by decide

/-- A record of region 5, whose queue of 4 lies at 0x10000 with TAIL `n`; its policy kills where `k`. -/
def rec5 : HeldRec := { id := 9, die := 0, trap := { code := .page, region := some 5 }, party := some (.path 2) }
def stOwn (n : Byte) (k : DWord) (mapped : Bool) : State :=
  State.at_ { st with
    heldRecs := [rec5]
    dies := [(0, { die0 with
      tlb := if mapped then [{ tr0 with holder := 2048 }] else [], mem := if n == 0 then [] else [(0x10000, n)]
      regions := [(5, { words := [0, k, 0, 0, 0, 0, 0, 0x10000, 4] })] })] } (.heldTrapRecord 9)

/-- The check of the queue's header. -/
def own_ (n : Byte) (k : DWord) (m : Bool) : Chk × State := ({ stOwn n k m with event := none } : State).checkRange 0 .write 0x10000 8

theorem meets_own_queue : ∀ x ∈ ([(0, 0), (0, 0x1000), (3, 0), (4, 0)] : List (Byte × DWord)),
    (stOwn x.1 x.2 true).heldRecs.find? (fun h => h.id == 9) = some rec5 ∧ rec5.trap.rcd = none
    ∧ (stOwn x.1 x.2 true).faultQueue 0 rec5.trap.queue = some (0x10000, 4) ∧ (own_ x.1 x.2 true).1 = .ok 0x10000 0
    ∧ ((own_ x.1 x.2 true).2.readPaLe 0x10000 4 + 2 ^ 32 - (own_ x.1 x.2 true).2.readPaLe 0x10004 4) % 2 ^ 32 = x.1.toNat
    ∧ (stOwn x.1 x.2 true).killsAtOnce 0 rec5.trap.region = (x.2 == 0x1000)
    ∧ (let r := 0x10000 + 64 + 64 * (x.1.toNat % 4)
       let u := (own_ x.1 x.2 true).2.checkRange 0 .write r 64
       u.1 = .ok r 0 ∧ 0x10000 + 4 ≤ r ∧ (∀ j < 4, (hbmDie (0x10000 + j)).isSome = true ∧ isHostPa (0x10000 + j) = false)
         ∧ (∀ j < 64, (hbmDie (r + j)).isSome = true ∧ isHostPa (r + j) = false) ∧ (u.2.frame 0x10000).hold = 0 ∧ (u.2.frame r).hold = 0) := by
  decide +kernel

theorem meets_redirect : (own_ 0 0 false).1 = .fault .page 0
    ∧ (match (own_ 0 0 false).2.dieSlot 0 with | .full => false | _ => true) = true
    ∧ (let b := ((own_ 0 0 false).2.die 0).dfqBase.toNat
       let r := b + 64 + 64 * ((own_ 0 0 false).2.readPaLe b 4 % 4096)
       b + 4 ≤ r ∧ (∀ j < 4, (hbmDie (b + j)).isSome = true ∧ isHostPa (b + j) = false)
         ∧ (∀ j < 64, (hbmDie (r + j)).isSome = true ∧ isHostPa (r + j) = false) ∧ ((own_ 0 0 false).2.frame b).hold = 0 ∧ ((own_ 0 0 false).2.frame r).hold = 0) := by
  decide +kernel

/-- Two members add to one word, another to another. -/
def saM (r n : Nat) (pa : Nat) : Machine.Member := { rank := r, tid := 100 + r, addr := 0x2000, d := BitVec.ofNat 64 n, frags := [{ fr0 with pa := pa }] }
def saF : GatF := { d := 3, a := 2, b := 1, sb := 0, scope := 0, sz := 2, rmp := 0, sh := 2 }
def opSa : Op := { op0 (.scatterAdd saF) mb0 [] with members := [saM 0 5 0x2000, saM 1 0xFFFFFFFF 0x2000, saM 2 9 0x2004] }

theorem meets_scatter_add : let s := stOp opSa (.storePerformed 5 0 0)
    s.event = some (.storePerformed 5 0 0) ∧ s.Due 5 0 0 opSa (saM 0 5 0x2000) fr0 ∧ (saM 0 5 0x2000).frags = [fr0] ∧ (saM 0 5 0x2000).far = false
    ∧ fr0.Plain opSa 0 ∧ fr0.size = szBytes saF.sz ∧ (s.frame fr0.pa).hold = 0 ∧ s.acqWaits opSa fr0 = false
    ∧ (∀ k ∈ opSa.members, k.done = false → ∀ g, k.frags.head? = some g → g.pa = fr0.pa → k.frags = [g]
      ∧ ({ s with event := none, ops := Tab.del s.ops 5 } : State).blocked 5 opSa k g = false)
    ∧ (opSa.members.map (·.rank)).Nodup := by
  refine ⟨rfl, ⟨rfl, rfl, rfl, rfl, rfl, rfl, rfl, by decide⟩, rfl, by decide, plain_frag rfl, by decide, by decide, by decide, ?_, by decide⟩
  intro k hk _ g hg _
  simp only [opSa, List.mem_cons, List.not_mem_nil, or_false] at hk
  rcases hk with rfl | rfl | rfl <;> cases hg <;> exact ⟨rfl, by decide⟩

theorem meets_ordered_add : let o := op0 (.atomFaddOrd { a := 2, b := 1, sb := 0, off := 4 }) mb0 []
    let s := stOp o (.storePerformed 5 0 0)
    s.event = some (.storePerformed 5 0 0) ∧ s.Due 5 0 0 o mb0 fr0 ∧ mb0.frags = [fr0] ∧ hbmDie fr0.pa = some 0 ∧ coreDie o.loc = 0
    ∧ s.ordCount 0 (homeSlice fr0.pa) < 1064960 :=
  ⟨rfl, ⟨rfl, rfl, rfl, rfl, rfl, rfl, rfl, by decide⟩, rfl, rfl, rfl, by decide⟩

/-- The completion record of region 5 at 0x3000 meets an error response. -/
def stCrecErr : State := { stCrec 0x3000 with event := some (.completionError 5) }
def crecErr : Checked := ({ stCrecErr with event := none } : State).unitRange 0 2048 { acc := .write, write := true, size := 32 } 0x3000 32

theorem meets_completion_error : (stCrecErr.run 5).active = true ∧ (stCrecErr.run 5).party = none ∧ stCrecErr.treeBusy 5 = false ∧ stCrecErr.homeOf 5 = 0
    ∧ (∃ b, stCrecErr.rgn? 0 5 = some b ∧ b.crec = 0x3000) ∧ crecErr.stall = false ∧ crecErr.hits = [] ∧ crecErr.frags = [crecF 0, crecF 16]
    ∧ (crecErr.s.logUnit 0 1 0 .viol 0x3000).DieQueue 0 (some 5) (some 5) :=
  ⟨by decide, by decide, by decide, by decide, ⟨_, rfl, by decide⟩, by decide, by decide, by decide +kernel,
    die_queue (by decide +kernel) (by decide +kernel) (by decide +kernel) (by decide +kernel) (by decide +kernel)⟩

/-- Stores of a tile of one element, alone or accumulated; a block of the other mode, and a pattern that is not set. -/
def stF (e : BitVec 4) : MxStoreF := { a := 2, pc := 0, sg := 0, sb := 0, row0 := 127, cb := 2, epi := e }
def stStore (e : BitVec 4) : State := stEng (cmd (.mxStore (stF e)) pat0) [] [] (.engineCommandRetire 0)
def storeSeen (e : BitVec 4) : List (List Frag) × Checked :=
  State.unitRanges { stStore e with event := none } 0 0
    { acc := if e = 3 then .readWrite else .write, write := true, noWs := e == 3, size := fmtSize (patOfmt pat0), matrix := true }
    (rowRanges ((cmd (.mxStore (stF e)) pat0).rows 0) (fmtSize (patOfmt pat0)))

theorem meets_mx_store : ∀ e ∈ ([0, 1, 2, 3] : List (BitVec 4)), let c := cmd (.mxStore (stF e)) pat0
    c.task = none ∧ c.patOk = true ∧ (c.blocks.any fun b => ((stStore e).core 0 |>.engine.block b).clash c.pcEnt) = false
    ∧ ((stStore e).core 0).engine.stepFails = [] ∧ (stStore e).feedsBefore c = false ∧ (storeSeen e).2.stall = false ∧ (storeSeen e).2.hits = []
    ∧ twicePart (storeSeen e).2.frags = [] ∧ (storeSeen e).2.frags = [{ off := 0, size := 1, va := 0x2000, pa := 0x2000 }]
    ∧ (storeSeen e).1 = [(storeSeen e).2.frags] ∧ c.rows 0 = [(0, 0x2000, 1)]
    ∧ (∀ g ∈ (storeSeen e).2.frags, (storeSeen e).2.s.wsUnwritten g = false)
    ∧ (storeSeen e).2.frags.Pairwise (fun x y => x.pa + x.size ≤ y.pa ∨ y.pa + y.size ≤ x.pa) := by decide +kernel

theorem meets_mx_plain : ∀ e ∈ ([0, 1, 2, 3] : List (BitVec 4)), (storeSeen e).2.s.PlainPart 0 { off := 0, size := 1, va := 0x2000, pa := 0x2000 } := by
  intro e he
  simp only [List.mem_cons, List.not_mem_nil, or_false] at he
  rcases he with rfl | rfl | rfl | rfl <;>
    exact ⟨by decide, by decide, by decide, by decide +kernel, by decide +kernel⟩

theorem meets_mx_fault : (cmd (.mxStore (stF 0)) []).patOk = false ∧ (cmd (.mxLoad ldF) []).patOk = false
    ∧ (let b : BlockStatus := { mode := 2 }
       b.clash pat0 = true)
    ∧ (stEng (cmd (.mxStore (stF 0)) []) [] [] (.engineCommandRetire 0)).Heads 0 (cmd (.mxStore (stF 0)) [])
    ∧ (stEng (cmd (.mxStore (stF 0)) []) [] [] (.engineCommandRetire 0)).DieQueue 0 (some 0) (some 0) :=
  ⟨by decide, by decide, by decide, heads _ _ _ _ rfl, die_queue rfl rfl (by decide) rfl rfl⟩

/-- Wavelengths of a port that pass and that do not: its rings are too cold for their codes, or its lock window lies elsewhere. -/
theorem meets_passes : p0.passes 11 = true ∧ ({ p0 with warm := -200 } : Port).passes 11 = false ∧ ({ p0 with lockset := 3000 } : Port).passes 0 = false
    ∧ waveOf p0.wmap 11 = some 11 ∧ waveOf 0x0000BA987654321F 15 = some 0 ∧ ({ p0 with warm := -200 } : Port).wactive ∈ [12, 6, 3] := by decide +kernel

theorem meets_host_links : State.reset.linkOpen 4 0 = true ∧ State.reset.linkOpen 0 4 = true := by decide

/-- A firmware file: header, no sections, the signature block of key slot 0 behind it. -/
def fw0 : List Byte :=
  leBytes 4 0x314F584B ++ leBytes 2 1 ++ leBytes 2 2 ++ leBytes 4 1 ++ leBytes 4 0 ++ leBytes 8 0x40 ++ leBytes 8 0x40 ++ leBytes 4 0
    ++ List.replicate 12 0 ++ leBytes 8 0x1000 ++ leBytes 8 0x40
    ++ leBytes 4 0x4753584B ++ leBytes 2 1 ++ leBytes 2 0 ++ leBytes 8 0x40 ++ leBytes 8 0 ++ List.replicate 132 1 ++ leBytes 4 0

/-- Bring-up of the file rests on the device's key alone, which is open (assumption log 93): its header, its lists and its signature
block are well formed. -/
theorem meets_firmware : fwHeader fw0 = true ∧ fwSections fw0 = true ∧ fwLists fw0 = true ∧ fw0.length = 0x40 + 160
    ∧ fwOk fw0 = sigOk (fw0.take 0x40) 0 (List.replicate 66 1) (List.replicate 66 1) := by
  have h : (fwHeader fw0 && fwSections fw0 && fwLists fw0) = true := by decide +kernel
  refine ⟨by decide +kernel, by decide +kernel, by decide +kernel, by decide +kernel, ?_⟩
  have o : leAt fw0 0x38 8 = 0x40 := by decide +kernel
  have k : leAt fw0 (0x40 + 0x10) 4 = 0 := by decide +kernel
  have r : (fw0.drop (0x40 + 0x18)).take 66 = List.replicate 66 1 := by decide +kernel
  have q : (fw0.drop (0x40 + 0x5A)).take 66 = List.replicate 66 1 := by decide +kernel
  rw [fwOk, h]
  simp only [fwSignature, o, k, r, q]
  generalize sigOk _ _ _ _ = x
  cases x <;> decide +kernel

theorem meets_bring_up : ∀ b ∈ ([{ firmware := fw0 }, { firmware := fw0, failed := some ⟨4, 2, 3, 4⟩ },
      { firmware := fw0, bad := [(1, 0, 31), (1, 0, 30), (1, 0, 29)] }, { firmware := fw0, bad := [(0, 1, 63)] }] : List BringUp),
    (Ev.coldReset b).wellFormed = true ∧ (State.at_ st (.coldReset b)).event = some (.coldReset b) := by decide +kernel

/-- SHA-512 of "abc", as FIPS 180-4 gives it; five times the base point of P-521, by the curve's formulas outside the model. -/
theorem test_sha512 : sha512 [0x61, 0x62, 0x63]
    = 0xddaf35a193617abacc417349ae20413112e6fa4e89a97ea20a9eeee64b55d39a2192992a274fc1a836ba3c23a3feebbd454d4423643ce80e2a9ac94fa54ca49f := by
  decide +kernel
theorem test_p521_multiple : mulPoint 3 5 (some g521)
    = some (0x652BF3C52927A432C73DBC3391C04EB0BF7A596EFDB53F0D24CF03DAB8F177ACE4383C0C6D5E3014237112FEAF137E79A329D7E1E6D8931738D5AB5096EC8F3078,
      0x15BE6EF1BDD6601D6EC8A2B73114A8112911CD8FE8E872E0051EDD817C9A0347087BB6897C9072CF374311540211CF5FF79D1F007257354F7F8173CC3E8DEB090CB) := by decide +kernel

/-! ### The machine -/

/-- R212: frame 5 of WS with HOLD of dies 0 and 1 in the type table at FTBASE; an address outside it. -/
theorem test_frame_table_bytes : let s : State := { dies := [(0, { ftBase := 0x10000, frames := [(5, { typ := 2, hold := 3 })] })] }
    s.tableByte 0x10014 = some 2 ∧ s.tableByte 0x10016 = some 3 ∧ s.tableByte 0xFFFF = none := by decide +kernel

/-- `nop` (R129) stands at the path's PC, 0x1000. -/
def stRun : State := { st with dies := [(0, { die0 with mem := [(0x1000, 0x80), (0x1001, 0xC7), (0x1002, 0xE3), (0x1003, 0x79)] })] }

theorem meets_turn : stRun.agenda = [] ∧ stRun.power = .running ∧ stRun.canIssue (look stRun .nop {}) = true
    ∧ stRun.ctx? .nop {} = some (look stRun .nop {})
    ∧ ∃ s1, stRun.fetchWord (look stRun .nop {}).g (look stRun .nop {}).p.pc.toNat = (.ok 0x79E3C780, s1)
      ∧ ∃ s2, s1.fetchMore (look stRun .nop {}).g ((look stRun .nop {}).p.pc.toNat + 4) (Prim.unpack 0x79E3C780).extCount = (.ok [], s2)
        ∧ decodeWords [0x79E3C780] = .ok (.nop, []) :=
  ⟨rfl, rfl, by decide, ctx_look (by decide), (stRun.fetchWord (look stRun .nop {}).g 0x1000).2, by decide +kernel, _, rfl, by decide⟩

/-- The path at `pc`, with the bytes of the words there. -/
def stAt (pc : Nat) (tlb : List Trans) (m : Memory) : State :=
  { st with groups := [(2, { grp rs rs with paths := [{ pc := BitVec.ofNat 64 pc, mask := 3 }] })], dies := [(0, { die0 with tlb := tlb, mem := m })] }

/-- A path that may issue. -/
def onTurn (s : State) : Bool :=
  s.agenda.isEmpty && s.power == .running && s.canIssue (look s .nop {}) && (s.ctx? .nop {}).isSome

/-- The fetch of the first word, and the state after it. -/
def word (s : State) : Except FCode Word × State := s.fetchWord (look s .nop {}).g (look s .nop {}).p.pc.toNat

/-- No translation: the fetch faults. -/
theorem meets_fetch_fault : let s := stAt 0x1000 [] []
    onTurn s = true ∧ (match (word s).1 with | .error c => c == .page | .ok _ => false) = true := by decide +kernel

/-- An extension word first (R75). -/
theorem meets_ext_word : let s := stAt 0x1000 [tr0] [(0x1003, 0xF0)]
    onTurn s = true ∧ (match (word s).1 with | .error _ => false | .ok w => isExtWord w) = true := by decide +kernel

/-- The second word lies past the translation. -/
theorem meets_more_fault : let s := stAt 0x3FFFFFFC [tr0] [(0x3FFFFFFC, 0xF0), (0x3FFFFFFD, 0x57), (0x3FFFFFFE, 0x30)]
    onTurn s = true ∧ (match (word s).1 with
      | .error _ => false
      | .ok w => !isExtWord w && match ((word s).2.fetchMore (look s .nop {}).g 0x40000000 (Prim.unpack w).extCount).1 with
        | .error c => c == .page
        | .ok _ => false) = true := by decide +kernel

/-- An operation code that no row assigns. -/
theorem meets_undecodable : let s := stAt 0x1000 [tr0] [(0x1003, 0x7E)]
    onTurn s = true ∧ (match (word s).1 with
      | .error _ => false
      | .ok w => !isExtWord w && (Prim.unpack w).extCount == 0 && match decodeWords [w] with
        | .error _ => true
        | .ok _ => false) = true := by decide +kernel

theorem meets_event_turn : let s : State := { agenda := [.ev (.referenceTick 0)] }
    (Ev.referenceTick 0).wellFormed = true ∧ Ev.on s.power (.referenceTick 0) = true ∧ ({ agenda := [.issue 2 0] } : State).agenda = [.issue 2 0] := by decide

theorem meets_no_power : ({ power := .lost } : State).agenda = [] ∧ ∃ f : Failure, ({ power := .beacon f } : State).agenda = [] :=
  ⟨rfl, ⟨1, 2, 3, 4⟩, rfl⟩

/-- A turn of no path from a state with canonical memories. -/
theorem meets_invariant : ∃ s t : State, s.MemoriesWf ∧ s.safeTier = [(5, 6)] ∧ step s = .next t :=
  ⟨{ agenda := [.issue 0 0], safeTier := [(5, 6)] }, _,
    ⟨fun _ => rfl, fun _ _ h => absurd h List.not_mem_nil, fun _ => rfl, rfl, by decide⟩, rfl, rfl⟩

theorem meets_encode : Instr.nop.wellFormed = true ∧ Instr.nop.isEvent = false := by decide

end
end Sys2Proof.Tests
end

section
/-! PROOFS. Walkers (R147 to R150): the words of `w.bind` and `w.skip`, the skip as so many reads, and what the two
instructions leave. -/

namespace Sys2Proof

/-! ### The words of the walker instructions (R89, R148, R150) -/

theorem lo_toNat {w : Nat} (v : BitVec w) (k n : Nat) : (lo v k n).toNat = v.toNat / 2 ^ k % 2 ^ n := by
  simp [lo, BitVec.extractLsb'_toNat, Nat.shiftRight_eq_div_pow]

theorem toNat_append_add {m n : Nat} (x : BitVec m) (y : BitVec n) : (x ++ y).toNat = x.toNat * 2 ^ n + y.toNat := by
  rw [BitVec.toNat_append, ← Nat.shiftLeft_add_eq_or_of_lt y.isLt, Nat.shiftLeft_eq]

/-- A word as the sum of its fields at their places (R76). -/
theorem Prim.pack_toNat (p : Prim) : p.pack.toNat =
    p.s.toNat * 2 ^ 31 + p.op.toNat * 2 ^ 25 + p.d.toNat * 2 ^ 18 + p.a.toNat * 2 ^ 11 + p.b.toNat * 2 ^ 4 + p.f.toNat := by
  obtain ⟨s, op, d, a, b, f⟩ := p
  simp only [Prim.pack, toNat_append_add, BitVec.toNat_ofBool]
  omega

/-- The first word of a lane-set form on walker `k`, with bits 3:0 clear. -/
def walkerWord (op k a b : Nat) : Word := BitVec.ofNat 32 (op * 2 ^ 25 + (112 + k) * 2 ^ 18 + a * 2 ^ 11 + b * 2 ^ 4)

theorem walkerName_toNat (k : BitVec 3) : (14#4 ++ k : Name).toNat = 112 + k.toNat :=
  toNat_append_add 14#4 k

theorem walkerWord_add_eq_pack (op : BitVec 6) (k : BitVec 3) (a b : Name) (f : BitVec 4) :
    walkerWord op.toNat k.toNat a.toNat b.toNat + BitVec.ofNat 32 f.toNat = Prim.pack ⟨false, op, 14#4 ++ k, a, b, f⟩ := by
  rw [walkerWord, ← BitVec.ofNat_add]
  apply BitVec.eq_of_toNat_eq
  rw [BitVec.toNat_ofNat, Prim.pack_toNat, walkerName_toNat, Nat.mod_eq_of_lt]
  · simp only [Bool.toNat_false]; omega
  · omega

theorem walkerWord_eq_pack (op : BitVec 6) (k : BitVec 3) (a b : Name) :
    walkerWord op.toNat k.toNat a.toNat b.toNat = Prim.pack ⟨false, op, 14#4 ++ k, a, b, 0⟩ := by
  rw [← walkerWord_add_eq_pack]; simp

/-- Bits 3:0 of the word below 4 hold H and N alone (R76). -/
theorem walkerWord_add_of_lt (op : BitVec 6) (k : BitVec 3) (a b : Name) {h : Nat} (h4 : h < 4) :
    walkerWord op.toNat k.toNat a.toNat b.toNat + BitVec.ofNat 32 h
      = Prim.pack ⟨false, op, 14#4 ++ k, a, b, BitVec.ofNat 4 h⟩ := by
  rw [← walkerWord_add_eq_pack, BitVec.toNat_ofNat, Nat.mod_eq_of_lt (by omega : h < 2 ^ 4)]

/-- A first word without extension words that no row assigns (R92). -/
theorem decodeWords_pack_unassigned {p : Prim} (hs : p.s = false) (hx : p.extCount = 0) (hd : decodeParts p [] = none) :
    decodeWords [p.pack] = .error .unassigned := by
  simp [decodeWords, isExtWord_pack, hs, hx, hd]

theorem Prim.noHN_eq_none {p : Prim} (h : (p.h || p.n) = true) (o : Option Instr) : p.noHN o = none := by
  simp [Prim.noHN, h]

theorem lane25_hn {p : Prim} (h : (p.h || p.n) = true) (e : List Payload) : lane25 p e = none := by
  unfold lane25
  split
  · exact Prim.noHN_eq_none h _
  · rfl

theorem lane26_hn {p : Prim} (h : (p.h || p.n) = true) (e : List Payload) : lane26 p e = none := by
  unfold lane26
  split
  · exact Prim.noHN_eq_none h _
  · rfl

/-- Bits 3:0 of 1 to 3 set H or N (R76). -/
theorem Prim.hn_of_pos {p : Prim} {h : Nat} (hf : p.f = BitVec.ofNat 4 h) (h0 : h ≠ 0) (h4 : h < 4) :
    (p.h || p.n) = true := by
  rw [Prim.h, Prim.n, hf]
  interval_cases h
  · exact absurd rfl h0
  all_goals decide

theorem decodeWords_wBind_hn (k : BitVec 3) (a b : Name) {h : Nat} (h0 : h ≠ 0) (h4 : h < 4) :
    decodeWords [walkerWord 0x25 k.toNat a.toNat b.toNat + BitVec.ofNat 32 h] = .error .unassigned := by
  have hw := walkerWord_add_of_lt 0x25 k a b h4
  exact hw ▸ decodeWords_pack_unassigned rfl rfl (lane25_hn (Prim.hn_of_pos rfl h0 h4) [])

theorem decodeWords_wSkip_hn (k : BitVec 3) (a : Name) {h : Nat} (h0 : h ≠ 0) (h4 : h < 4) :
    decodeWords [walkerWord 0x26 k.toNat a.toNat 120 + BitVec.ofNat 32 h] = .error .unassigned := by
  have hw := walkerWord_add_of_lt 0x26 k a z7 h4
  exact hw ▸ decodeWords_pack_unassigned rfl rfl (lane26_hn (Prim.hn_of_pos rfl h0 h4) [])

theorem encode_wBind (f : WBindF) : encode (.wBind f) = [walkerWord 0x25 f.k.toNat f.a.toNat f.b.toNat] :=
  congrArg (· :: []) (walkerWord_eq_pack 0x25 f.k f.a f.b).symm

theorem encode_wSkip (f : WSkipF) : encode (.wSkip f) = [walkerWord 0x26 f.k.toNat f.a.toNat 120] :=
  congrArg (· :: []) (walkerWord_eq_pack 0x26 f.k f.a z7).symm

theorem wellFormed_wBind (f : WBindF) : (Instr.wBind f).wellFormed = true ↔
    f.a.toNat < 112 ∧ f.a.toNat % 2 = 0 ∧ f.b.toNat ≤ 108 ∧ f.b.toNat % 4 = 0 := by
  show (f.a.pairV && f.b.quadV) = true ↔ _
  simp only [Name.pairV, Name.quadV, Name.isV, Bool.and_eq_true, decide_eq_true_eq, beq_iff_eq]
  omega

theorem wellFormed_wSkip (f : WSkipF) : (Instr.wSkip f).wellFormed = true ↔ f.a.toNat < 112 := by
  show f.a.isV = true ↔ _
  simp [Name.isV]

end Sys2Proof

namespace Sys2Proof.Machine

/-! ### A skip is so many reads (R149, R150) -/

/-- The walker's position as a number: rounds of the inner count, then the place in the row (R147). -/
def Walker.pos (k : Walker) : Nat := k.i1.toNat * (k.c0.toNat + 1) + k.i0.toNat

/-- The walker at position `p`, END as a read that has led there leaves it (R149). -/
def Walker.atPos (k : Walker) (p : Nat) : Walker :=
  { k with i0 := BitVec.ofNat 16 (p % (k.c0.toNat + 1)), i1 := BitVec.ofNat 16 (p / (k.c0.toNat + 1)),
           fin := p % (k.c0.toNat + 1) == 0 }

theorem Walker.skip_succ {k : Walker} (h : k.bound = true) (n : Nat) :
    k.skip (n + 1) = k.atPos ((k.pos + (n + 1)) % k.total) := by
  simp [Walker.skip, h, Walker.atPos, Walker.pos]

/-- A position by its row `q` and its place `m` in the row. -/
theorem Walker.atPos_row (k : Walker) (q : Nat) {m : Nat} (hm : m ≤ k.c0.toNat) :
    k.atPos (q * (k.c0.toNat + 1) + m) = { k with i0 := BitVec.ofNat 16 m, i1 := BitVec.ofNat 16 q, fin := m == 0 } := by
  have hmod : (q * (k.c0.toNat + 1) + m) % (k.c0.toNat + 1) = m := by
    rw [Nat.mul_comm, Nat.mul_add_mod, Nat.mod_eq_of_lt (by omega)]
  have hdiv : (q * (k.c0.toNat + 1) + m) / (k.c0.toNat + 1) = q := by
    rw [Nat.mul_comm, Nat.mul_add_div (by omega), Nat.div_eq_of_lt (by omega), Nat.add_zero]
  rw [Walker.atPos, hmod, hdiv]

theorem ofNat16_ne {m : Nat} {c : BitVec 16} (h : m < c.toNat) : BitVec.ofNat 16 m ≠ c := by
  rintro rfl
  exact absurd h (by rw [BitVec.toNat_ofNat]; exact (Nat.mod_le _ _).not_gt)

/-- A position in the rows of a walker is one of its round. -/
theorem Walker.row_lt_total (k : Walker) {q m : Nat} (hq : q ≤ k.c1.toNat) (hm : m ≤ k.c0.toNat) :
    q * (k.c0.toNat + 1) + m < k.total :=
  calc q * (k.c0.toNat + 1) + m < (q + 1) * (k.c0.toNat + 1) := by rw [Nat.succ_mul]; omega
    _ ≤ (k.c1.toNat + 1) * (k.c0.toNat + 1) := Nat.mul_le_mul_right _ (by omega)
    _ = k.total := Nat.mul_comm _ _

/-- One read moves a walker to the next position of its round (R149): in its row, to the next row, or from the last
row to the first. -/
theorem Walker.step_atPos_row (k : Walker) {q m : Nat} (hq : q ≤ k.c1.toNat) (hm : m ≤ k.c0.toNat) :
    (k.atPos (q * (k.c0.toNat + 1) + m)).step = k.atPos ((q * (k.c0.toNat + 1) + m + 1) % k.total) := by
  rw [k.atPos_row q hm]
  rcases Nat.lt_or_eq_of_le hm with inRow | rfl
  · rw [Nat.add_assoc, Nat.mod_eq_of_lt (k.row_lt_total hq inRow), k.atPos_row q inRow]
    simp [Walker.step, ofNat16_ne inRow, BitVec.ofNat_add]
  · have hend : q * (k.c0.toNat + 1) + k.c0.toNat + 1 = (q + 1) * (k.c0.toNat + 1) + 0 := by rw [Nat.succ_mul]; omega
    rw [hend]
    rcases Nat.lt_or_eq_of_le hq with nextRow | rfl
    · rw [Nat.mod_eq_of_lt (k.row_lt_total nextRow (Nat.zero_le _)), k.atPos_row (q + 1) (Nat.zero_le _)]
      simp [Walker.step, ofNat16_ne nextRow, BitVec.ofNat_add]
    · have hwrap : ((k.c1.toNat + 1) * (k.c0.toNat + 1) + 0) % k.total = 0 * (k.c0.toNat + 1) + 0 := by
        rw [Walker.total, Nat.mul_comm, Nat.add_zero, Nat.mod_self, Nat.zero_mul]
      rw [hwrap, k.atPos_row 0 (Nat.zero_le _)]
      simp [Walker.step]

theorem Walker.step_atPos (k : Walker) {p : Nat} (hp : p < k.total) : (k.atPos p).step = k.atPos ((p + 1) % k.total) := by
  have hq : p / (k.c0.toNat + 1) ≤ k.c1.toNat := Nat.lt_succ_iff.mp (Nat.div_lt_of_lt_mul hp)
  have hm : p % (k.c0.toNat + 1) ≤ k.c0.toNat := Nat.lt_succ_iff.mp (Nat.mod_lt _ (Nat.succ_pos _))
  simpa only [Nat.div_add_mod'] using k.step_atPos_row hq hm

/-- The walker's indices lie within its counts (R147). -/
def Walker.Within (k : Walker) : Prop := k.i0.toNat ≤ k.c0.toNat ∧ k.i1.toNat ≤ k.c1.toNat

/-- A read does not see the END of the one before it (R149). -/
theorem Walker.step_atPos_pos {k : Walker} (h : k.Within) : (k.atPos k.pos).step = k.step := by
  rw [Walker.pos, k.atPos_row _ h.1]
  simp [Walker.step]

/-- Reads from a position of the round (R149). -/
theorem Walker.iterate_step {k : Walker} (h : k.Within) (n : Nat) :
    Walker.step^[n + 1] k = k.atPos ((k.pos + (n + 1)) % k.total) := by
  have hpos : 0 < k.total := Nat.mul_pos (Nat.succ_pos _) (Nat.succ_pos _)
  induction n with
  | zero =>
    rw [Function.iterate_one, ← Walker.step_atPos_pos h]
    exact k.step_atPos (k.row_lt_total h.2 h.1)
  | succ n ih =>
    rw [Function.iterate_succ_apply', ih, k.step_atPos (Nat.mod_lt _ hpos), Nat.mod_add_mod, Nat.add_assoc]

/-- R150: a skip is so many reads of a bound walker, and leaves an unbound one. -/
theorem Walker.skip_eq {k : Walker} (h : k.Within) (n : Nat) : k.skip n = if k.bound then Walker.step^[n] k else k := by
  split_ifs with hb
  · cases n with
    | zero => rfl
    | succ n => rw [Walker.skip_succ hb, Walker.iterate_step h]
  · simp [Walker.skip, hb]

/-! ### Sources of a member (R50, R115) -/

theorem Ctx.src64_pair (c : Ctx) (e : Nat × Thread) (n : Name) : c.src64 e (.pair n) = (c.env e).pair n := by
  apply BitVec.eq_of_toNat_eq
  simpa [Ctx.src64, Env.val, lo_toNat] using ((c.env e).pair n).isLt

theorem Ctx.src_word (c : Ctx) (e : Nat × Thread) (n : Name) : c.src e (.w n) = (c.env e).word n := by
  apply BitVec.eq_of_toNat_eq
  simpa [Ctx.src, Env.val, lo_toNat] using ((c.env e).word n).isLt

/-! ### Walkers of every member changed (R148, R150) -/

theorem Ctx.member_of_mask {c : Ctx} {r : Nat} {t : Thread} (hm : c.p.mask.getLsbD r = true)
    (ht : Tab.find? c.g.threads r = some t) : (r, t) ∈ c.threads := by
  refine Ctx.mem_threads.mpr ⟨List.mem_filter.mpr ⟨List.mem_range.mpr ?_, hm⟩, ht⟩
  exact BitVec.lt_of_getLsbD hm

theorem Ctx.mask_of_member {c : Ctx} {r : Nat} {t : Thread} (h : (r, t) ∈ c.threads) : c.p.mask.getLsbD r = true :=
  (List.mem_filter.mp (Ctx.mem_threads.mp h).1).2

/-- A thread with one of its walkers changed. -/
def setWalker (k : Nat) (f : Nat × Thread → Walker → Walker) (r : Nat) (t : Thread) : Thread :=
  { t with walkers := Tab.put t.walkers k (f (r, t) (Tab.getD t.walkers k {})) }

theorem State.modWalkers_eq (s : State) (c : Ctx) (k : Nat) (f : Nat × Thread → Walker → Walker) :
    s.modWalkers c k f = s.modGroup c.gid fun g => g.modThreads c.p.mask (setWalker k f) := rfl

section
variable {s : State} {c : Ctx} (hc : c.Of s) (k : Nat) (f : Nat × Thread → Walker → Walker)
include hc

theorem State.walkerAt_modWalkers {r : Nat} {t : Thread} (ht : (r, t) ∈ c.threads) :
    (s.modWalkers c k f).walkerAt c.gid r k = some (f (r, t) (Tab.getD t.walkers k {})) := by
  rw [State.walkerAt, State.modWalkers_eq, State.group?_modGroup_self, hc.group]
  simp [Group.modThreads, Tab.find?_mapV, (Ctx.mem_threads.mp ht).2, Ctx.mask_of_member ht, setWalker]

theorem State.walkerAt_modWalkers_of_not (g r m : Nat) (h : ¬ (g = c.gid ∧ c.Member r ∧ m ∈ [k])) :
    (s.modWalkers c k f).walkerAt g r m = s.walkerAt g r m := by
  rw [State.walkerAt, State.walkerAt, State.modWalkers_eq, State.group?_modGroup]
  split_ifs with hg
  · subst hg
    rw [hc.group]
    cases ht : Tab.find? c.g.threads r with
    | none => simp [Group.modThreads, Tab.find?_mapV, ht]
    | some t =>
      by_cases hm : c.p.mask.getLsbD r = true
      · have hne : k ≠ m := fun e => h ⟨rfl, ⟨t, Ctx.member_of_mask hm ht⟩, List.mem_singleton.mpr e.symm⟩
        simp [Group.modThreads, Tab.find?_mapV, ht, hm, setWalker, Tab.getD_put_ne _ _ _ hne]
      · simp [Group.modThreads, Tab.find?_mapV, ht, hm]
  · rfl

/-- A change of a walker leaves everything else (R148, R150). -/
theorem State.regFrame_modWalkers : s.RegFrame (s.modWalkers c k f) c.gid c.Member [] [] [k] 0 where
  still := State.still_modGroup (f := fun g => g.modThreads c.p.mask (setWalker k f)) (fun _ => rfl) s c.gid
  memory := (State.still_modGroup (f := fun g => g.modThreads c.p.mask (setWalker k f)) (fun _ => rfl) s c.gid).sameMemory
  regs _ _ _ _ :=
    State.regAt_modGroup (Group.keepsRegs_modThreads (f := setWalker k f) (fun _ _ => ⟨rfl, rfl⟩) _) _ _ _ _ _
  preds _ _ m _ := by
    rw [State.predAt_eq, State.predAt_eq]
    exact State.partAt_modGroup (Group.KeepsPart.modThreads (part := fun t => predOf t m) (f := setWalker k f)
      (fun _ _ => rfl) c.p.mask) _ _ _ _
  walkers := State.walkerAt_modWalkers_of_not hc k f
  flags := by
    rw [State.fpxAt, State.modWalkers_eq, State.group?_modGroup_self, State.fpxAt]
    cases s.group? c.gid <;> simp [Group.modThreads]

end

theorem State.regFrame_latchFree (s : State) (c : Ctx) (who : Nat → Prop) (ns ps ws : List Nat) :
    s.RegFrame (s.latchFree c) c.gid who ns ps ws 0 := by
  unfold State.latchFree
  split_ifs
  · exact (s.regFrame_freeWord c.gid who ns ps ws).seq (State.regFrame_latchAll _ c _ who ns ps ws) rfl
  · exact State.RegFrame.refl s c.gid who ns ps ws

/-- What follows the change of the walkers in `w.bind` and `w.skip`: the latches, and the issue of the next
instruction. -/
theorem State.regFrame_latchNext (s : State) (c : Ctx) (who : Nat → Prop) (ns ps ws : List Nat) :
    s.RegFrame ((s.latchFree c).next_ c) c.gid who ns ps ws 0 :=
  (s.regFrame_latchFree c who ns ps ws).seq (State.regFrame_next_ _ c who ns ps ws) rfl

/-- The two instructions change a walker of every member and go on with the next instruction (R148, R150). -/
def State.walkerIssue (s : State) (c : Ctx) (k : Nat) (f : Nat × Thread → Walker → Walker) : State :=
  ((s.modWalkers c k f).latchFree c).next_ c

section
variable {s : State} {c : Ctx} (hc : c.Of s) (k : Nat) (f : Nat × Thread → Walker → Walker)
include hc

theorem State.walkerAt_walkerIssue {r : Nat} {t : Thread} (ht : (r, t) ∈ c.threads) :
    (s.walkerIssue c k f).walkerAt c.gid r k = some (f (r, t) (Tab.getD t.walkers k {})) := by
  have hkeep := State.regFrame_latchNext (s.modWalkers c k f) c c.Member [] [] []
  rw [State.walkerIssue, hkeep.walkers c.gid r k (by simp), State.walkerAt_modWalkers hc k f ht]

theorem State.regFrame_walkerIssue : s.RegFrame (s.walkerIssue c k f) c.gid c.Member [] [] [k] 0 :=
  (State.regFrame_modWalkers hc k f).seq (State.regFrame_latchNext _ c _ _ _ _) rfl

end

/-- The walker that `w.bind` sets in a member (R148). -/
def boundWalker (c : Ctx) (f : WBindF) (e : Nat × Thread) : Walker :=
  let q := (c.env e).val (.quad f.b)
  { bound := true, base := (c.env e).pair f.a, e := lo q 0 2, c0 := lo q 32 16, c1 := lo q 48 16,
    s0 := lo q 64 32, s1 := lo q 96 32, i0 := 0, i1 := 0, fin := false }

theorem exec_wBind {f : WBindF} {s : State} {c : Ctx}
    (h : s.Ready (.wBind f) { a := .pair f.a, b := .quad f.b, chain := true, wDst := [112 + f.k.toNat] } c) :
    exec (.wBind f) s = .next (s.walkerIssue c f.k.toNat fun e _ => boundWalker c f e) :=
  congrArg Host.Outcome.next (State.issue_ready h _)

theorem exec_wSkip {f : WSkipF} {s : State} {c : Ctx}
    (h : s.Ready (.wSkip f) { a := .w f.a, chain := true, wDst := [112 + f.k.toNat] } c) :
    exec (.wSkip f) s =
      .next (s.walkerIssue c f.k.toNat fun e k => k.skip ((c.env e).word f.a).toNat) :=
  congrArg Host.Outcome.next (State.issue_ready h _)

/-- The fields of the quad B stand in the walker (R147, R148). -/
theorem boundWalker_fields (c : Ctx) (f : WBindF) (e : Nat × Thread) :
    let q := ((c.env e).val (.quad f.b)).toNat
    (boundWalker c f e).e.toNat = q % 4 ∧ (boundWalker c f e).c0.toNat = q / 2 ^ 32 % 2 ^ 16
      ∧ (boundWalker c f e).c1.toNat = q / 2 ^ 48 % 2 ^ 16 ∧ (boundWalker c f e).s0.toNat = q / 2 ^ 64 % 2 ^ 32
      ∧ (boundWalker c f e).s1.toNat = q / 2 ^ 96 := by
  have hq := ((c.env e).val (.quad f.b)).isLt
  refine ⟨(lo_toNat _ 0 2).trans (by rw [Nat.pow_zero, Nat.div_one]; rfl), lo_toNat _ 32 16, lo_toNat _ 48 16,
    lo_toNat _ 64 32, (lo_toNat _ 96 32).trans (Nat.mod_eq_of_lt ?_)⟩
  omega

/-- Settles O19: the words by their fields; the members' walkers through what an issue leaves; a skip by induction on
the number of reads. -/
theorem walkerResult : Obligations.WalkerResult := by
  refine ⟨fun f => ⟨encode_wBind f, wellFormed_wBind f, fun h h0 h4 => ⟨_, decodeWords_wBind_hn f.k f.a f.b h0 h4⟩⟩,
    fun f => ⟨encode_wSkip f, wellFormed_wSkip f, fun h h0 h4 => ⟨_, decodeWords_wSkip_hn f.k f.a h0 h4⟩⟩,
    fun f s c h => ⟨_, exec_wBind h, fun e he => ?_, State.regFrame_walkerIssue h.of _ _⟩,
    fun f s c h => ⟨_, exec_wSkip h, fun e he h0 h1 => ?_, State.regFrame_walkerIssue h.of _ _⟩⟩
  · exact ⟨boundWalker c f e, State.walkerAt_walkerIssue h.of _ _ he, rfl, (Ctx.src64_pair c e f.a).symm,
      boundWalker_fields c f e, rfl, rfl, rfl⟩
  · rw [State.walkerAt_walkerIssue h.of _ _ he, Ctx.src_word, Walker.skip_eq ⟨h0, h1⟩]

end Sys2Proof.Machine
end

section
/-! PROOFS. The watchdog (R197, R198): where the members of a path stand once it goes on with the next instruction, and
what a reset of a watchdog leaves as it was. -/

namespace Sys2Proof.Machine

/-! ### Where a member stands after its path has come to rest (R26 to R28) -/

/-- One of the paths has member `r` and stands at `pc`. -/
def AnyAt (ps : List Path) (r : Nat) (pc : DWord) : Prop := ∃ p ∈ ps, p.mask.getLsbD r = true ∧ p.pc = pc

section
variable {ps : List Path} {r : Nat} {pc : DWord} (h : AnyAt ps r pc)
include h

/-- A change of paths that takes no member away and moves none. -/
theorem AnyAt.map {f : Path → Path} (hmask : ∀ p, p.mask.getLsbD r = true → (f p).mask.getLsbD r = true)
    (hpc : ∀ p, (f p).pc = p.pc) : AnyAt (ps.map f) r pc := by
  obtain ⟨p, hp, hr, rfl⟩ := h
  exact ⟨f p, List.mem_map_of_mem hp, hmask p hr, hpc p⟩

theorem AnyAt.append (qs : List Path) : AnyAt (ps ++ qs) r pc := by
  obtain ⟨p, hp, hat⟩ := h
  exact ⟨p, List.mem_append_left qs hp, hat⟩

theorem AnyAt.dropEmpty : AnyAt (ps.filter fun p => p.mask != 0) r pc := by
  obtain ⟨p, hp, hr, rfl⟩ := h
  refine ⟨p, List.mem_filter.mpr ⟨hp, bne_iff_ne.mpr fun h0 => ?_⟩, hr, rfl⟩
  simp [h0] at hr

theorem AnyAt.mergeActive : AnyAt (mergeActive ps) r pc := by
  unfold Machine.mergeActive
  split
  · next p q =>
    split_ifs with hm
    · simp only [Bool.and_eq_true, beq_iff_eq] at hm
      obtain ⟨⟨hpq, -⟩, -⟩ := hm
      simpa [AnyAt, mergePair, hpq, ← or_and_right] using h
    · exact h
  · exact h

theorem AnyAt.releaseHolds : AnyAt (releaseHolds ps) r pc := by
  unfold Machine.releaseHolds
  split
  · next p q =>
    simp only [AnyAt, List.mem_cons, List.not_mem_nil, or_false, exists_eq_or_imp, exists_eq_left] at h ⊢
    refine h.imp (fun hp => ?_) fun hq => ?_
    · split
      · split_ifs <;> exact hp
      · exact hp
    · split
      · split_ifs <;> exact hq
      · exact hq
  · exact h.map (fun _ hr => hr) fun _ => rfl

theorem AnyAt.orderPaths : AnyAt (orderPaths ps) r pc := by
  unfold Machine.orderPaths
  split
  · split_ifs
    · obtain ⟨p, hp, hat⟩ := h
      exact ⟨p, (List.Perm.swap _ _ _).mem_iff.mp hp, hat⟩
    · exact h
  · exact h

end

theorem Group.anyAt_settle {g : Group} {r : Nat} {pc : DWord} (h : AnyAt g.paths r pc) :
    AnyAt g.settle.paths r pc := by
  unfold Group.settle
  refine AnyAt.orderPaths (AnyAt.releaseHolds (AnyAt.mergeActive ?_))
  have hps := h.dropEmpty.mergeActive.releaseHolds
  split
  · exact hps
  · next k _ =>
    split
    · refine hps.map (fun q hr => ?_) fun q => ?_
      · split_ifs
        · simp [mergePair, hr]
        · exact hr
      · split_ifs <;> rfl
    · split_ifs
      · exact hps.append _
      · exact hps

/-- Where the group's move leaves a member, there it stands after the issue. -/
theorem State.stands_retire {s : State} {c : Ctx} {moved : Group → Group} {g : Group} {r : Nat} {pc : DWord}
    (hg : s.group? c.gid = some g)
    (hm : AnyAt (moved ((g.issued s.cycle).modPath c.pi Path.licensed)).paths r pc) :
    (s.retire c moved).stands c.gid r pc := by
  refine ⟨(moved ((g.issued s.cycle).modPath c.pi Path.licensed)).settle, ?_, Group.anyAt_settle hm⟩
  have hdebit : ((s.debit c.g.loc c.w.region (s.priceOf c)).collected c).group? c.gid = some g := by
    rw [State.group?, (State.groups_collected _ c).1, (s.groups_debit _ _ _).1]
    exact hg
  rw [State.retire, State.group?, (State.groups_poll _).1, (State.groups_afterIssue _ c).1, ← State.group?,
    State.group?_modGroup_self, hdebit, Option.map_some]

theorem Ctx.closeChain_paths (c : Ctx) (g : Group) : (c.closeChain g).paths = g.paths := by
  unfold Ctx.closeChain
  split_ifs <;> rfl

theorem Group.getElem?_modPath_self {g : Group} {i : Nat} {p : Path} (hp : g.paths[i]? = some p) (f : Path → Path) :
    (g.modPath i f).paths[i]? = some (f p) := by
  simp [Group.modPath, hp]

/-- Every member of the issuing path stands at the next instruction. -/
theorem State.stands_next_ {s : State} {c : Ctx} (hg : s.group? c.gid = some c.g) (hp : c.g.paths[c.pi]? = some c.p)
    {e : Nat × Thread} (he : e ∈ c.threads) : (s.next_ c).stands c.gid e.1 (c.p.pc + c.len) := by
  refine State.stands_retire hg ⟨c.seqPath (Path.licensed c.p), ?_, Ctx.mask_of_member he, rfl⟩
  rw [Ctx.closeChain_paths]
  exact List.mem_of_getElem? (Group.getElem?_modPath_self (Group.getElem?_modPath_self hp Path.licensed) c.seqPath)

/-! ### Files of threads through a change of a workgroup or an X-die -/

theorem State.SameFiles.trans {s t u : State} {g : Nat} (h : s.SameFiles t g) (k : t.SameFiles u g) :
    s.SameFiles u g where
  regs a q m := (k.regs a q m).trans (h.regs a q m)
  preds a q m := (k.preds a q m).trans (h.preds a q m)
  walkers a q m := (k.walkers a q m).trans (h.walkers a q m)
  flags := k.flags.trans h.flags

/-- An issue that writes no name, no predicate, no walker and no flag leaves the files. -/
theorem State.RegFrame.sameFiles {s t : State} {g : Nat} {who : Nat → Prop} (h : s.RegFrame t g who [] [] [] 0) :
    s.SameFiles t g where
  regs k q m := h.regs k q m (by simp)
  preds k q m := h.preds k q m (by simp)
  walkers k q m := h.walkers k q m (by simp)
  flags := by rw [h.flags]; cases s.fpxAt g <;> simp

theorem State.sameFiles_next_ (s : State) (c : Ctx) : s.SameFiles (s.next_ c) c.gid :=
  (s.regFrame_next_ c (fun _ => False) [] [] []).sameFiles

theorem State.sameFiles_modXdie (s : State) (d : Nat) (f : Xdie → Xdie) (g : Nat) : s.SameFiles (s.modXdie d f) g :=
  ⟨fun _ _ _ => rfl, fun _ _ _ => rfl, fun _ _ _ => rfl, rfl⟩

/-- The registers of a workgroup's threads depend on it by its places and registers at CLUSTER alone (R33). -/
theorem State.regAt_modWg {f : Workgroup → Workgroup} (hmap : ∀ w, (f w).clusterMap = w.clusterMap)
    (hregs : ∀ w, (f w).clusterRegs = w.clusterRegs) (s : State) (wg g r n : Nat) :
    (s.modWg wg f).regAt g r n = s.regAt g r n := by
  have hread : ∀ x t, readV ((s.modWg wg f).wgOf x) t n = readV (s.wgOf x) t n := fun x t => by
    unfold State.wgOf
    split_ifs
    · rfl
    · rw [State.wg?_modWg]
      split_ifs
      · cases s.wg? x.wg with
        | none => rfl
        | some w => exact readV_congr n rfl rfl (hmap w) (hregs w)
      · rfl
  simp only [State.regAt, hread]
  rfl

theorem State.sameFiles_kick (s : State) (wg g : Nat) : s.SameFiles (s.modWg wg Workgroup.kick) g :=
  ⟨State.regAt_modWg (f := Workgroup.kick) (fun _ => rfl) (fun _ => rfl) s wg, fun _ _ _ => rfl, fun _ _ _ => rfl, rfl⟩

/-! ### What stays as it was but for a table out of view -/

theorem State.Still.noWgs {s t : State} {g : Nat} (h : s.Still t g) :
    ({ s with wgs := [] } : State).Still { t with wgs := [] } g :=
  { h with wgs := fun _ => rfl }

theorem State.Still.noXdies {s t : State} {g : Nat} (h : s.Still t g) :
    ({ s with xdies := [] } : State).Still { t with xdies := [] } g :=
  { h with xdies := fun _ => rfl }

/-! ### `wdog.kick` (R198) -/

/-- The reset of the watchdog of the issuing workgroup, or of the steward core. -/
def State.kicked (s : State) (c : Ctx) : State :=
  if c.g.steward then s.modXdie (coreDie c.g.loc) fun x => { x with wdog := Tab.put x.wdog (c.g.loc % 4) 0 }
  else s.modWg c.g.wg Workgroup.kick

theorem State.kicked_of_steward (s : State) {c : Ctx} (h : c.g.steward = true) : s.kicked c =
    s.modXdie (coreDie c.g.loc) fun x => { x with wdog := Tab.put x.wdog (c.g.loc % 4) 0 } := if_pos h

theorem State.kicked_of_workgroup (s : State) {c : Ctx} (h : c.g.steward = false) :
    s.kicked c = s.modWg c.g.wg Workgroup.kick := if_neg (by simp [h])

theorem exec_wdogKick {s : State} {c : Ctx} (h : s.Ready .wdogKick { cls := 0, group := true } c) :
    exec .wdogKick s = .next ((s.kicked c).next_ c) :=
  congrArg Host.Outcome.next (State.issue_ready h _)

theorem State.kicked_group (s : State) (c : Ctx) (g : Nat) : (s.kicked c).group? g = s.group? g := by
  unfold State.kicked
  split_ifs <;> rfl

theorem State.sameFiles_kicked (s : State) (c : Ctx) : s.SameFiles (s.kicked c) c.gid := by
  unfold State.kicked
  split_ifs
  · exact s.sameFiles_modXdie _ _ _
  · exact s.sameFiles_kick _ _

/-- One word (R74). -/
theorem Ctx.len_wdogKick {c : Ctx} (h : c.i = .wdogKick) : c.len = 4 := by
  rw [Ctx.len, h]; rfl

/-- Settles O11: the reset of the watchdog is one change of one workgroup or X-die, and going on with the next
instruction changes no table but the group's. -/
theorem watchdogKick : Obligations.WatchdogKick := by
  refine ⟨by decide, Laws.RoundTrip.wdogKick rfl rfl [], fun s c h => ⟨_, exec_wdogKick h, fun e he => ?_,
    (s.sameFiles_kicked c).trans (State.sameFiles_next_ _ c), fun hs => ?_, fun hs => ?_⟩⟩
  · obtain ⟨hg, hp, -⟩ := h.group
    rw [← Ctx.len_wdogKick h.instr]
    exact State.stands_next_ ((s.kicked_group c _).trans hg) hp he
  · have still := State.still_next_ (s.kicked c) c
    rw [s.kicked_of_workgroup hs] at still ⊢
    refine ⟨still.noWgs, fun k hne => ?_, ?_⟩
    · rw [still.wgs, State.wg?_modWg, if_neg hne.symm]
    · rw [still.wgs, State.wg?_modWg, if_pos rfl]
      rfl
  · have still := State.still_next_ (s.kicked c) c
    rw [s.kicked_of_steward hs] at still ⊢
    refine ⟨still.noXdies, fun x => ?_⟩
    rw [still.xdies, State.xdie_modXdie]
    by_cases hx : coreDie c.g.loc = x
    · subst hx; rw [if_pos rfl]
    · rw [if_neg hx, if_neg (Ne.symm hx)]

end Sys2Proof.Machine
end
